-- ==== Sys2Proof/Word.lean ====
section
/-!
DEFINITION. The word types of the model: bytes and 16-bit words of the reference configuration
(00_scope.md R7, 20_memory.md R61) and the 64-bit cells in which the generic machine of layer G
keeps its values (note 17).
-/

namespace Sys2Proof

/-- One memory location of the RC, and the operand of its data instructions (20_memory.md R61). -/
abbrev Byte := BitVec 8

/-- An address and a 16-bit register of the RC (10_state.md R39 to R43). -/
abbrev Word := BitVec 16

/-- A value of the generic machine, wide enough for every operand length of 30_encoding.md R83. -/
abbrev Quad := BitVec 64

/-- A register number, four bits (30_encoding.md R103). -/
abbrev RegNo := BitVec 4

end Sys2Proof
end

