-- ==== Sys2Proof/Syntax.lean ====
section
/-!
DEFINITION. The instructions: one constructor per row of spec/opcode_table.json. The first 65 are
the encoded instructions of the reference configuration (30_encoding.md R112); the constructors
that begin with `g` are the 55 abstract rows of layer G (30_encoding.md R96).
-/

namespace Sys2Proof

/-- The 14 jump conditions in the order of their index cc (44_jump.md R224). -/
inductive Cond
  | eql | neq | grtu | greu | lssu | lequ | grt | gre | lss | leq | neg | nng | ovf | nvf
deriving DecidableEq, Repr

/-- An operand specifier of a layout-A instruction with `w`-bit operand: the modes of
30_encoding.md R106. The ignored register nibble of memdir, memind, pcpom and imm (R103, R124) is
no part of the term. -/
inductive Operand (w : Nat)
  | regdir (r : RegNo)
  | regind (r : RegNo)
  | memdir (f : Word)
  | memind (f : Word)
  | regindpom (r : RegNo) (f : Word)
  | preinc (r : RegNo)
  | postinc (r : RegNo)
  | predec (r : RegNo)
  | postdec (r : RegNo)
  | pcpom (f : Word)
  | imm (v : BitVec w)
deriving DecidableEq, Repr

/-- A width in bits, 1 to 64: the length of an operand, which the opcode fixes (30_encoding.md R89),
and the widths of layer G, CELL, AW_ADDR and those of its registers (00_scope.md R5). The bound 64 is
the longest integer of 30_encoding.md R83; for the widths of layer G it is the model's (note 17). -/
structure Len where
  pred : Fin 64
deriving DecidableEq, Repr, Inhabited

/-- The number of bits of a width. -/
def Len.bits (l : Len) : Nat := l.pred.val + 1

/-- The number of bytes that hold a width. -/
def Len.bytes (l : Len) : Nat := (l.bits + 7) / 8

/-- A byte: 8 bits (30_encoding.md R83). -/
def Len.l8 : Len := ⟨7⟩

/-- 16 bits (30_encoding.md R83). -/
def Len.l16 : Len := ⟨15⟩

/-- 32 bits (30_encoding.md R83). -/
def Len.l32 : Len := ⟨31⟩

/-- 64 bits (30_encoding.md R83). -/
def Len.l64 : Len := ⟨63⟩

/-- The integer reading an opcode of MUL or DIV fixes (41_arithmetic.md R160, R175). -/
inductive IntType
  | unsigned | signed
deriving DecidableEq, Repr

/-- An operand specifier of layer G: the modes of 30_encoding.md R113 to R123; the registers AR, BR
and XR of the split organisation, which instructions read and write too (10_state.md R20, R23); and, as
ordinary registers, the stack and frame pointers that the listings of 10_state.md R55 name (note 38).
How many registers there are is a parameter, so a register number is a Nat. Displacements and
immediates are carried at 64 bits (R119: their width is not stated). -/
inductive GOperand
  | regdir (r : Nat)
  | ardir (r : Nat)
  | brdir (r : Nat)
  | xrdir (r : Nat)
  | sp
  | fp
  | regind (r : Nat)
  | memdir (adr : Quad)
  | memind (adr : Quad)
  | basedisp (br : Nat) (pom : Quad)
  | indexdisp (xr : Nat) (pom : Quad)
  | regindpom (r : Nat) (pom : Quad)
  | baseindex (br xr : Nat) (pom : Quad)
  | fpdisp (pom : Quad)
  | preinc (r : Nat)
  | postinc (r : Nat)
  | predec (r : Nat)
  | postdec (r : Nat)
  | pcpom (pom : Quad)
  | imm (v : Quad)
deriving DecidableEq, Repr

/-- The forms of a two-source instruction: `OP a, b, c`, `OP a, b`, `OP a`, `OP`
(30_encoding.md R91 to R94; 41_arithmetic.md R163). Which field is the destination is part of FMT
(R91, R92); `twoSecond` is the second opcode of a processor that has one for either destination
(R92). Shifts have the same forms (43_shift.md R201). -/
inductive BinForm
  | three (a b c : GOperand)
  | two (a b : GOperand)
  | twoSecond (a b : GOperand)
  | one (a : GOperand)
  | zero
deriving DecidableEq, Repr

/-- The forms of INC, DEC and NOT: `OP a, b`, `OP a`, `OP` (41_arithmetic.md R172). -/
inductive UnForm
  | two (a b : GOperand)
  | one (a : GOperand)
  | zero
deriving DecidableEq, Repr

/-- The instructions, one constructor per row of the opcode table. -/
inductive Instr
  -- RC, layout N (30_encoding.md R99)
  | nop
  | prpd
  | prpe
  | intd
  | inte
  | trpd
  | trpe
  | stimr
  | stivtp
  | rts
  | rti
  -- RC, layout B
  | int (entry : Byte)
  | beql (pom : Byte)
  | bneq (pom : Byte)
  | bgrtu (pom : Byte)
  | bgreu (pom : Byte)
  | blssu (pom : Byte)
  | blequ (pom : Byte)
  | bgrt (pom : Byte)
  | bgre (pom : Byte)
  | blss (pom : Byte)
  | bleq (pom : Byte)
  | bneg (pom : Byte)
  | bnng (pom : Byte)
  | bovf (pom : Byte)
  | bnvf (pom : Byte)
  -- RC, layout J
  | jmp (adr : Word)
  | jsr (adr : Word)
  | jeql (adr : Word)
  | jneq (adr : Word)
  | jgrtu (adr : Word)
  | jgreu (adr : Word)
  | jlssu (adr : Word)
  | jlequ (adr : Word)
  | jgrt (adr : Word)
  | jgre (adr : Word)
  | jlss (adr : Word)
  | jleq (adr : Word)
  | jneg (adr : Word)
  | jnng (adr : Word)
  | jovf (adr : Word)
  | jnvf (adr : Word)
  -- RC, layout A
  | jmpind (o : Operand 16)
  | ldb (o : Operand 8)
  | ldw (o : Operand 16)
  | stb (o : Operand 8)
  | stw (o : Operand 16)
  | add (o : Operand 8)
  | sub (o : Operand 8)
  | inc (o : Operand 8)
  | dec (o : Operand 8)
  | cmp (o : Operand 8)
  | and (o : Operand 8)
  | or (o : Operand 8)
  | xor (o : Operand 8)
  | not (o : Operand 8)
  | tst (o : Operand 8)
  | asr (o : Operand 8)
  | lsr (o : Operand 8)
  | ror (o : Operand 8)
  | rorc (o : Operand 8)
  | asl (o : Operand 8)
  | lsl (o : Operand 8)
  | rol (o : Operand 8)
  | rolc (o : Operand 8)
  -- layer G, transfer (40_transfer.md R130 to R139, R150, R151)
  | gMov (l : Len) (a b : GOperand)
  | gMov3 (l : Len) (a unused b : GOperand)
  | gIn (regper : Quad) (regproc : Nat)
  | gOut (regproc : Nat) (regper : Quad)
  | gIn1 (regper : Quad)
  | gOut1 (regper : Quad)
  | gLoad (l : Len) (a : GOperand)
  | gStore (l : Len) (b : GOperand)
  | gPush (l : Len) (a : GOperand)
  | gPop (l : Len) (b : GOperand)
  | gPushpsw
  | gPoppsw
  -- layer G, multiplication and division (41_arithmetic.md R175, R176)
  | gMul (t : IntType) (l : Len) (f : BinForm)
  | gDiv (t : IntType) (l : Len) (f : BinForm)
  -- layer G, string group (46_string.md R282 to R287)
  | gMovc (l : Len) (srclen srcaddr fill dstlen dstaddr : GOperand)
  | gMovtc (l : Len) (srclen srcaddr fill tbladdr dstlen dstaddr : GOperand)
  | gCmpc (l : Len) (src1len src1addr fill src2len src2addr : GOperand)
  | gLocc (l : Len) (len addr char : GOperand)
  | gSkpc (l : Len) (len addr char : GOperand)
  | gMatchc (l : Len) (src1len src1addr src2len src2addr : GOperand)
  -- layer G, loop-control group (47_loop_control.md R302 to R307)
  | gAcb (l : Len) (limit step index : GOperand) (displ : Quad)
  | gAob (l : Len) (limit index : GOperand) (displ : Quad)
  | gSob (l : Len) (index : GOperand) (displ : Quad)
  | gCase (l : Len) (selector base limit : GOperand)
  | gBbs (base pos : GOperand) (displ : Quad)
  | gBbc (base pos : GOperand) (displ : Quad)
  -- layer G, arithmetic and logic forms
  | gAdd (l : Len) (f : BinForm)
  | gSub (l : Len) (f : BinForm)
  | gCmp (l : Len) (f : BinForm)
  | gAnd (l : Len) (f : BinForm)
  | gOr (l : Len) (f : BinForm)
  | gXor (l : Len) (f : BinForm)
  | gTst (l : Len) (f : BinForm)
  | gInc (l : Len) (f : UnForm)
  | gDec (l : Len) (f : UnForm)
  | gNot (l : Len) (f : UnForm)
  -- layer G, shift forms (43_shift.md R201)
  | gAsr (l : Len) (f : BinForm)
  | gLsr (l : Len) (f : BinForm)
  | gRor (l : Len) (f : BinForm)
  | gRorc (l : Len) (f : BinForm)
  | gAsl (l : Len) (f : BinForm)
  | gLsl (l : Len) (f : BinForm)
  | gRol (l : Len) (f : BinForm)
  | gRolc (l : Len) (f : BinForm)
  -- layer G, jumps and mode bits (44_jump.md, 45_misc.md)
  | gJmp (adr : Quad)
  | gJmpind (a : GOperand)
  | gBcc (cc : Cond) (pom : Quad)
  | gJcc (cc : Cond) (adr : Quad)
  | gJsr (adr : Quad)
  | gRts
  | gInt (adr : Quad)
  | gRti
  | gInte
  | gIntd
  | gNop
deriving DecidableEq, Repr

end Sys2Proof
end

