-- ==== Sys2Proof/Machine/Bits.lean ====
section
/-!
DEFINITION. Bit-field, byte-order and extension helpers (00_scope.md R7 to R9): the two bytes of a
word, sign and zero extension, and the cut of a generic value to an operand length.
-/

namespace Sys2Proof

/-- The high byte, bits 15:8. -/
def hiByte (v : Word) : Byte := v.extractLsb' 8 8

/-- The low byte, bits 7:0. -/
def loByte (v : Word) : Byte := v.extractLsb' 0 8

/-- The concatenation of a high and a low byte (00_scope.md R8). -/
def joinBytes (hi lo : Byte) : Word := hi ++ lo

/-- `sext_16` of a byte (00_scope.md R9). -/
def sext16 (v : Byte) : Word := v.signExtend 16

/-- The high and the low nibble of a mode byte: AM and reg (30_encoding.md R103). -/
def hiNibble (b : Byte) : RegNo := b.extractLsb' 4 4

/-- The register number of a mode byte (30_encoding.md R103). -/
def loNibble (b : Byte) : RegNo := b.extractLsb' 0 4

/-- The mode byte of an addressing-mode code and a register number (30_encoding.md R103). -/
def modeByte (am r : RegNo) : Byte := am ++ r

/-- The value's low `l` bits, zero-extended. -/
def Len.trunc (l : Len) (v : Quad) : Quad := (v.setWidth l.bits).setWidth 64

/-- The value's low `l` bits, sign-extended. -/
def Len.sext (l : Len) (v : Quad) : Quad := (v.setWidth l.bits).signExtend 64

/-- `old` with its low `l` bits replaced by those of `new` (92_eei_decisions.md D11 for registers
wider than the operand; note 21). -/
def Len.merge (l : Len) (old new : Quad) : Quad :=
  (old &&& ~~~(l.trunc (BitVec.allOnes 64))) ||| l.trunc new

/-- The bytes of one word of `nbits` bits, first byte most significant, then zeros up to the four
bytes of the longest instruction: opcode_table.json numbers an instruction as one word IR[31:0]
whose first byte is IR[31:24] (note 14). -/
def tableBytes (nbits w : Nat) : List Byte :=
  let b (i : Nat) : Byte :=
    if 8 * (i + 1) ≤ nbits then BitVec.ofNat 8 (w >>> (nbits - 8 * (i + 1))) else 0
  [b 0, b 1, b 2, b 3]

end Sys2Proof
end

