-- ==== Sys2Proof/Config.lean ====
section
/-!
DEFINITION. What an implementation fixes: the content of unwritten memory, and the parameter MULDIV
of 00_scope.md R5, which the source never gives, as opaque constants (note 26). The other parameters
of layer G are plain data in the state (`GConfig`, note 16).
-/

namespace Sys2Proof

/-- What a location nothing has written reads as: 0x00, the default of 10_state.md R56 (note 3,
DESIGN CHOICE). -/
def Config.unlistedByte : Byte := 0

/-- The byte a device returns to its read number `n` where the environment's list of answers says
nothing: any byte (20_memory.md R69, "environment-chosen bytes"; note 7). -/
opaque Config.deviceByte : Nat → Byte

/-- The length at which MUL delivers its product: "not the width of the product (single or double
length)" is given (41_arithmetic.md R175; part of MULDIV). A length of at most 64 bits is the model's
choice (note 26, DESIGN CHOICE). -/
opaque Config.mulLen : IntType → Len → Len

/-- The product of MUL (MULDIV, 41_arithmetic.md R175), at most 64 bits of it (note 26,
DESIGN CHOICE). -/
opaque Config.mulValue : IntType → Len → Quad → Quad → Quad

/-- The indicator C after MUL (MULDIV, 41_arithmetic.md R175, note 26). -/
opaque Config.mulC : IntType → Len → Quad → Quad → Bool

/-- The indicator V after MUL (MULDIV, 41_arithmetic.md R175, note 26). -/
opaque Config.mulV : IntType → Len → Quad → Quad → Bool

/-- The length at which DIV delivers its quotient (MULDIV, 41_arithmetic.md R176, note 26). -/
opaque Config.divLen : IntType → Len → Len

/-- The quotient of DIV, dividend first (MULDIV, 41_arithmetic.md R176, note 26). -/
opaque Config.divValue : IntType → Len → Quad → Quad → Quad

/-- The indicator C after DIV (MULDIV, 41_arithmetic.md R176, note 26). -/
opaque Config.divC : IntType → Len → Quad → Quad → Bool

/-- The indicator V after DIV (MULDIV, 41_arithmetic.md R176, note 26). -/
opaque Config.divV : IntType → Len → Quad → Quad → Bool

/-- MULDIV declares the operand pair of DIV erroneous (41_arithmetic.md R176, 60_exceptions.md R329,
note 26). -/
opaque Config.divError : IntType → Len → Quad → Quad → Bool

end Sys2Proof
end

