-- ==== Sys2Proof/Machine/Memory.lean ====
section
/-!
DEFINITION. Memory as a list of (address, byte) pairs in one canonical form: addresses strictly
rising and no byte equal to what an unlisted address reads as (20_memory.md R61; note 3). The
generic machine's locations of several bytes, and its I/O space, are kept in the same form
(note 19).
-/

namespace Sys2Proof.Machine

/-- Memory: the bytes that differ from the unlisted one, by rising address. -/
abbrev Memory := List Host.Cell

/-- The byte at an address. -/
def Memory.read : Memory → Nat → Byte
  | [], _ => Config.unlistedByte
  | (k, v) :: m, a => if k = a then v else Memory.read m a

/-- A byte that is listed, put at its place. -/
def Memory.insert : Memory → Nat → Byte → Memory
  | [], a, v => [(a, v)]
  | (k, w) :: m, a, v =>
    if a < k then (a, v) :: (k, w) :: m
    else if k = a then (a, v) :: m
    else (k, w) :: Memory.insert m a v

/-- A write of one byte; writing the unlisted byte takes the entry away. -/
def Memory.write (m : Memory) (a : Nat) (v : Byte) : Memory :=
  if v = Config.unlistedByte then m.filter (fun c => c.1 != a) else m.insert a v

/-- The canonical form holds. -/
def Memory.wf : Memory → Bool
  | [] => true
  | (k, v) :: m => v != Config.unlistedByte && m.all (fun c => decide (k < c.1)) && Memory.wf m

/-- Every listed address is below `n`. -/
def Memory.below (n : Nat) (m : Memory) : Bool := m.all (fun c => decide (c.1 < n))

/-- `n` bytes from address `a` on, the byte at the lowest address most significant. -/
def Memory.readSpan (m : Memory) (a : Nat) : Nat → Quad
  | 0 => 0
  | n + 1 => (Memory.readSpan m a n <<< 8) ||| (m.read (a + n)).setWidth 64

/-- The low `n` bytes of `v` stored from address `a` on, the most significant at the lowest. -/
def Memory.writeSpan (m : Memory) (a : Nat) : Nat → Quad → Memory
  | 0, _ => m
  | n + 1, v => (Memory.writeSpan m a n (v >>> 8)).write (a + n) (v.setWidth 8)

end Sys2Proof.Machine
end

