-- ==== Sys2Proof/Machine/State.lean ====
section
/-!
DEFINITION. The state of the machine as plain data, the reasons a step can stop, and the state after
reset. The fields of the reference configuration are the record of 10_state.md R58 with the
environment inputs of 60_exceptions.md R333; the record `g` is the generic machine of layer G, on
which the abstract instructions act (note 1).
-/

namespace Sys2Proof.Machine

/-- The program status word: the ten bits that exist (10_state.md R30). -/
structure Psw where
  i : Bool       -- PSW[15], maskable interrupts enabled (R38)
  t : Bool       -- PSW[14], trap after every instruction (R37)
  p : Bool       -- PSW[13], variable entry numbers (R36)
  l : BitVec 3   -- PSW[6:4], current priority level (R35)
  v : Bool       -- PSW[3] (R34)
  c : Bool       -- PSW[2] (R33)
  z : Bool       -- PSW[1] (R32)
  n : Bool       -- PSW[0] (R31)
deriving DecidableEq, Repr

/-- The general registers of the RC, 16 of 16 bits (10_state.md R43). -/
abbrev RegFile := Vector Word 16

/-- One record of environment inputs, what the environment does in one transition (60_exceptions.md
R333, 92_eei_decisions.md D19): the pulses inm and intr1 to intr7 (bit k - 1 is line k), the level
START, and the entry number each controller would send (element k - 1 is controller k). -/
structure EnvInput where
  inm : Bool
  intr : BitVec 7
  start : Bool
  vec : Vector Byte 7
deriving DecidableEq, Repr

/-- One access of the processor to a device register, with the byte that was returned or delivered
(20_memory.md R68, R69). -/
inductive DeviceAccess
  | read (a : Word) (v : Byte)
  | write (a : Word) (v : Byte)
deriving DecidableEq, Repr

/-- Register organisation, parameter REGORG (00_scope.md R5). -/
inductive RegOrg
  | split | gpr
deriving DecidableEq, Repr

/-- Stack direction, half of the parameter STACK (10_state.md R44 to R47). -/
inductive StackDir
  | up | down
deriving DecidableEq, Repr

/-- What SP points to, the other half of STACK (10_state.md R44 to R47). -/
inductive StackTop
  | lastOccupied | firstFree
deriving DecidableEq, Repr

/-- Parameter IOSPACE (20_memory.md R62). -/
inductive IoSpace
  | memoryMapped | separate
deriving DecidableEq, Repr

/-- Parameter ENDIAN (20_memory.md R65). -/
inductive Endian
  | big | little
deriving DecidableEq, Repr

/-- Parameter INT_FIELD (44_jump.md R255). -/
inductive IntField
  | address | entry
deriving DecidableEq, Repr

/-- Which field of `OC A1 A2 A3` is the destination (30_encoding.md R91). -/
inductive ThreeDest
  | a1 | a3
deriving DecidableEq, Repr

/-- Which source of `OC A1 A2` is the destination too; a processor that allows both has two opcodes
for each operation (30_encoding.md R92). -/
inductive TwoDest
  | first | second | both
deriving DecidableEq, Repr

/-- Parameter FMT: how many explicit operands an instruction has and which is the destination
(00_scope.md R5, 30_encoding.md R91 to R94), with the one-and-a-half-address form
`OC reg, mem/reg/imm` (R95). -/
inductive AddrFormat
  | threeAddress (dest : ThreeDest)
  | twoAddress (dest : TwoDest)
  | oneAndHalf
  | oneAddress
  | zeroAddress
deriving DecidableEq, Repr

/-- The kinds of architecture by where operands may be (30_encoding.md R95), and `unrestricted`, where
each operand may be anywhere (41_arithmetic.md R163). -/
inductive ArchKind
  | unrestricted | memoryMemory | memoryRegister | registerRegister
deriving DecidableEq, Repr

/-- The registers of layer G an operand or an interrupt entry can name (10_state.md R20 to R29). -/
inductive GReg
  | dr (r : Nat)
  | ar (r : Nat)
  | br (r : Nat)
  | xr (r : Nat)
  | gpr (r : Nat)
  | sp
  | fp
  | acc
deriving DecidableEq, Repr

/-- How many registers of a kind there are and how wide each is: the parameters NDR, NAR, NBR, NXR and
NGPR, and the widths, none of which is stated (10_state.md R20, note 17). -/
structure RegKind where
  count : Nat
  width : Len
deriving DecidableEq, Repr

/-- The implementation parameters of layer G (00_scope.md R5), plain data that no instruction
writes (note 16). The three entry numbers are bytes, as the RC's are (60_exceptions.md R340); no rule gives
their width in layer G (note 24, the model's choice). -/
structure GConfig where
  aw : Len                    -- AW_ADDR
  cell : Len                  -- CELL
  fmt : AddrFormat            -- FMT
  arch : ArchKind             -- 30_encoding.md R95
  regorg : RegOrg             -- REGORG
  dr : RegKind                -- NDR
  ar : RegKind                -- NAR
  br : RegKind                -- NBR
  xr : RegKind                -- NXR
  gpr : RegKind               -- NGPR
  acc : Len                   -- width of the accumulator (30_encoding.md R93)
  stackDir : StackDir         -- STACK
  stackTop : StackTop         -- STACK
  iospace : IoSpace           -- IOSPACE
  endian : Endian             -- ENDIAN
  saveAll : Bool              -- SAVE_ALL
  saveOrder : List GReg       -- the order of SAVE_ALL (93_implementation_defined.md U18, note 25)
  ivtScale : Nat              -- IVT_SCALE
  intField : IntField         -- INT_FIELD
  divErrEntry : Byte          -- DIVERR_ENTRY
  adrErrEntry : Byte          -- entry of the addressing error (note 24)
  codErrEntry : Byte          -- entry of the illegal-opcode error (note 24)
deriving DecidableEq, Repr

/-- The generic machine of layer G: the register kinds of 10_state.md R20 to R29, the accumulator of
the one-address formats (30_encoding.md R93), IVTP, memory and the separate I/O space. A register is
its width's bits of a 64-bit field, an address AW_ADDR bits (note 17); IVTP is held at 64 bits, of which the
low AW_ADDR bits count (note 36). -/
structure GMachine where
  cfg : GConfig
  pc : Quad
  sp : Quad
  fp : Quad
  acc : Quad
  dr : List Quad
  ar : List Quad
  br : List Quad
  xr : List Quad
  gpr : List Quad
  psw : Psw
  ivtp : Quad
  mem : Memory
  io : Memory
deriving DecidableEq, Repr

/-- The state of the machine. -/
structure State where
  pc : Word                -- 10_state.md R39
  sp : Word                -- R40
  aw : Word                -- R41
  ab : Byte                -- R42
  gpr : RegFile            -- R43
  psw : Psw                -- R30
  imr : Word               -- R49
  ivtp : Word              -- R50
  prins : Bool             -- R51, request of INT
  prcod : Bool             -- R51, illegal opcode
  pradr : Bool             -- R51, illegal addressing
  prinm : Bool             -- R51, non-maskable request
  printr : BitVec 7        -- R51, PRINTR1 to PRINTR7, bit k - 1 is line k
  mem : Memory             -- 20_memory.md R61
  devices : List Word      -- 20_memory.md R69, the addresses the host designates as device registers
  devIn : List Byte        -- R69, the bytes the environment answers the next reads of devices with
  devLog : List DeviceAccess -- R68, R69, the accesses to devices so far, oldest first
  start : Bool             -- 10_state.md R57, the level START as last sampled
  vec : Vector Byte 7      -- 60_exceptions.md R333, the entry numbers as last sampled
  env : List EnvInput      -- 60_exceptions.md R333, the inputs to come, one record a transition
  g : GMachine             -- layer G
deriving DecidableEq, Repr

/-- Why a step stops with a fault: never. The transition is total (70_reset_and_hazards.md R389),
memory accesses cannot fail (20_memory.md R61, R63, R64), and errors in an instruction are interrupts
(60_exceptions.md R323, R324). Safe and complete: there is no reason to list (note 15). -/
inductive Fault
deriving DecidableEq, Repr

/-- Why an instruction or a step is refused. -/
inductive Refusal
  /-- Raised by `exec` for an instruction with no meaning in the model. Safe: nothing is claimed. -/
  | notModelled (mnemonic : String)
  /-- Raised by `step` when PRINS, PRCOD or PRADR is 1 at an instruction boundary, which no run
  reaches: the treatment `refuse` of 93_implementation_defined.md U11. Safe. -/
  | requestAtBoundary
  /-- Raised by CASE with base above limit, which the spec does not define: the treatment `refuse`
  of 93_implementation_defined.md U3 (47_loop_control.md R305). Safe. -/
  | caseBaseAboveLimit
  /-- Raised by BBS and BBC with a bit position outside 0 to 7, which the spec does not define: the
  treatment `refuse` of 93_implementation_defined.md U4 (47_loop_control.md R308). Safe. -/
  | bitPositionOutsideByte
  /-- Raised by a string instruction whose loop never ends, which can be where its length or address
  location overlaps another of its locations or the string it writes (46_string.md R281 to R287, note 27):
  there is no next state. Safe. -/
  | stringNeverEnds
deriving DecidableEq, Repr

/-- All ten bits 0 (10_state.md R56). -/
def Psw.zero : Psw :=
  { i := false, t := false, p := false, l := 0, v := false, c := false, z := false, n := false }

/-- The parameters of layer G at reset: the RC column of 00_scope.md R5, 16 registers of 16 bits of each
kind; SAVE_ALL is false, so its order is empty (notes 16, 17, 24, 25). -/
def GConfig.reset : GConfig :=
  let k : RegKind := { count := 16, width := .l16 }
  { aw := .l16, cell := .l8, fmt := .oneAddress, arch := .unrestricted, regorg := .gpr, dr := k,
    ar := k, br := k, xr := k, gpr := k, acc := .l16, stackDir := .up, stackTop := .lastOccupied,
    iospace := .memoryMapped, endian := .big, saveAll := false, saveOrder := [], ivtScale := 2,
    intField := .entry, divErrEntry := 4, adrErrEntry := 2, codErrEntry := 3 }

/-- The generic machine at reset: every register 0 (70_reset_and_hazards.md R383, note 18). -/
def GMachine.reset : GMachine :=
  let file : List Quad := .replicate 16 0
  { cfg := GConfig.reset, pc := 0, sp := 0, fp := 0, acc := 0, dr := file, ar := file, br := file,
    xr := file, gpr := file, psw := Psw.zero, ivtp := 0, mem := [], io := [] }

/-- The machine after reset: the default record RESET of 10_state.md R56 (70_reset_and_hazards.md
R381, R382; notes 2 to 6). -/
def State.reset : State :=
  { pc := 0, sp := 0, aw := 0, ab := 0, gpr := .replicate 16 0, psw := Psw.zero, imr := 0, ivtp := 0,
    prins := false, prcod := false, pradr := false, prinm := false, printr := 0, mem := [],
    devices := [], devIn := [], devLog := [], start := true, vec := .replicate 7 0, env := [],
    g := GMachine.reset }

end Sys2Proof.Machine
end

