-- ==== Sys2Proof/Machine/Flags.lean ====
section
/-!
DEFINITION. The indicators: the functions ADDF, SUBF and LOGF of 00_scope.md R10 at any length, the
shifts and rotates of 43_shift.md R200, the 14 jump conditions of 44_jump.md R224, and the PSW as two
bytes (10_state.md R30).
-/

namespace Sys2Proof.Machine

/-- The four indicators an operation computes. -/
structure Flags where
  n : Bool
  z : Bool
  c : Bool
  v : Bool
deriving DecidableEq, Repr

/-- `ADDF_n`: the sum and its indicators, C the carry, V the signed overflow (00_scope.md R10). -/
def addF {n : Nat} (a b : BitVec n) : BitVec n × Flags :=
  let r := a + b
  (r, { n := r.msb, z := r == 0#n, c := decide (2 ^ n ≤ a.toNat + b.toNat),
        v := a.msb == b.msb && r.msb != a.msb })

/-- `SUBF_n`: the difference and its indicators, C the borrow (00_scope.md R10). -/
def subF {n : Nat} (a b : BitVec n) : BitVec n × Flags :=
  let r := a - b
  (r, { n := r.msb, z := r == 0#n, c := decide (a.toNat < b.toNat),
        v := a.msb != b.msb && r.msb != a.msb })

/-- `LOGF_n`: N and Z of the result, C and V 0 (00_scope.md R10, 42_logic.md R191). -/
def logF {n : Nat} (r : BitVec n) : Flags :=
  { n := r.msb, z := r == 0#n, c := false, v := false }

/-- A right shift by one place with `top` entering bit n - 1 (43_shift.md R200). -/
def shiftRightIn {n : Nat} (top : Bool) (a : BitVec n) : BitVec n :=
  (a >>> 1) ||| ((BitVec.ofBool top).setWidth n <<< (n - 1))

/-- A left shift by one place with `bottom` entering bit 0 (43_shift.md R200). -/
def shiftLeftIn {n : Nat} (bottom : Bool) (a : BitVec n) : BitVec n :=
  (a <<< 1) ||| (BitVec.ofBool bottom).setWidth n

/-- ASR: the word and the bit shifted out, from the operand and the old C (43_shift.md R210). -/
def asrF {n : Nat} (a : BitVec n) (_ : Bool) : BitVec n × Bool := (shiftRightIn a.msb a, a.getLsbD 0)

/-- LSR (43_shift.md R211). -/
def lsrF {n : Nat} (a : BitVec n) (_ : Bool) : BitVec n × Bool := (shiftRightIn false a, a.getLsbD 0)

/-- ROR (43_shift.md R212). -/
def rorF {n : Nat} (a : BitVec n) (_ : Bool) : BitVec n × Bool :=
  (shiftRightIn (a.getLsbD 0) a, a.getLsbD 0)

/-- RORC: the old C enters (43_shift.md R213). -/
def rorcF {n : Nat} (a : BitVec n) (c : Bool) : BitVec n × Bool := (shiftRightIn c a, a.getLsbD 0)

/-- ASL (43_shift.md R214). -/
def aslF {n : Nat} (a : BitVec n) (_ : Bool) : BitVec n × Bool := (shiftLeftIn false a, a.msb)

/-- LSL (43_shift.md R215). -/
def lslF {n : Nat} (a : BitVec n) (_ : Bool) : BitVec n × Bool := (shiftLeftIn false a, a.msb)

/-- ROL (43_shift.md R216). -/
def rolF {n : Nat} (a : BitVec n) (_ : Bool) : BitVec n × Bool := (shiftLeftIn a.msb a, a.msb)

/-- ROLC: the old C enters (43_shift.md R217). -/
def rolcF {n : Nat} (a : BitVec n) (c : Bool) : BitVec n × Bool := (shiftLeftIn c a, a.msb)

/-- The indicators of a shift: C the bit shifted out, V 0 (43_shift.md R202). -/
def shiftFlags {n : Nat} (r : BitVec n) (out : Bool) : Flags :=
  { n := r.msb, z := r == 0#n, c := out, v := false }

/-- The PSW with its four indicators replaced. -/
def Psw.withFlags (p : Psw) (f : Flags) : Psw := { p with n := f.n, z := f.z, c := f.c, v := f.v }

/-- The PSW with Z and C replaced (46_string.md R288: N and V unchanged). -/
def Psw.withZC (p : Psw) (z c : Bool) : Psw := { p with z := z, c := c }

/-- The PSW with I and T cleared, as every interrupt entry leaves it (60_exceptions.md R354). -/
def Psw.entered (p : Psw) : Psw := { p with i := false, t := false }

/-- `PSW[15:8]`, bits that do not exist supplied as 0 (10_state.md R30). -/
def Psw.high (p : Psw) : Byte :=
  BitVec.ofBool p.i ++ BitVec.ofBool p.t ++ BitVec.ofBool p.p ++ 0#5

/-- `PSW[7:0]` (10_state.md R30). -/
def Psw.low (p : Psw) : Byte :=
  0#1 ++ p.l ++ BitVec.ofBool p.v ++ BitVec.ofBool p.c ++ BitVec.ofBool p.z ++ BitVec.ofBool p.n

/-- The PSW as a 16-bit word (10_state.md R30). -/
def Psw.word (p : Psw) : Word := joinBytes p.high p.low

/-- The PSW from two bytes; the bits without a flip-flop are discarded (10_state.md R30). -/
def Psw.ofBytes (hi lo : Byte) : Psw :=
  { i := hi.getLsbD 7, t := hi.getLsbD 6, p := hi.getLsbD 5, l := lo.extractLsb' 4 3,
    v := lo.getLsbD 3, c := lo.getLsbD 2, z := lo.getLsbD 1, n := lo.getLsbD 0 }

/-- `cond(cc)` on the indicators of a PSW (44_jump.md R224). -/
def Psw.cond (p : Psw) (cc : Cond) : Bool :=
  match cc with
  | .eql => p.z
  | .neq => !p.z
  | .grtu => !(p.c || p.z)
  | .greu => !p.c
  | .lssu => p.c
  | .lequ => p.c || p.z
  | .grt => !((p.n ^^ p.v) || p.z)
  | .gre => !(p.n ^^ p.v)
  | .lss => p.n ^^ p.v
  | .leq => (p.n ^^ p.v) || p.z
  | .neg => p.n
  | .nng => !p.n
  | .ovf => p.v
  | .nvf => !p.v

end Sys2Proof.Machine
end

