-- ==== Sys2Proof/Machine/Ops.lean ====
section
/-!
DEFINITION. The named operations of the reference configuration: memory access (20_memory.md R63,
R64), registers, the stack (10_state.md R48), the interrupt signals (60_exceptions.md R331 to R338),
the service phase that takes an interrupt (R345) and the return from one (44_jump.md R256).
-/

namespace Sys2Proof.Machine

/-- The outcome of an instruction or of a step. -/
abbrev Result := Host.Outcome State Fault Refusal

/-- The host has designated the address as a device register (20_memory.md R69, note 7). -/
def State.isDevice (s : State) (a : Word) : Bool := s.devices.contains a

/-- The byte the environment answers the next read of a device register with (20_memory.md R69,
note 7). -/
def State.deviceByte (s : State) : Byte := s.devIn.headD (Config.deviceByte s.devLog.length)

/-- The byte that `MemRead(a, 1)` gives (20_memory.md R63); a device register returns what the environment
answers (R69, note 7). -/
def State.readByte (s : State) (a : Word) : Byte :=
  if s.isDevice a then s.deviceByte else s.mem.read a.toNat

/-- The state after `MemRead(a, 1)`: plain memory has no read side effects, a device has seen the read and
its next answer may be another one (20_memory.md R68, note 7). -/
def State.afterRead (s : State) (a : Word) : State :=
  { s with
    devIn := if s.isDevice a then s.devIn.tail else s.devIn
    devLog := if s.isDevice a then s.devLog ++ [.read a s.deviceByte] else s.devLog }

/-- `MemRead(a, 1)`: the byte and the state after the access (20_memory.md R63, R68). -/
def State.load8 (s : State) (a : Word) : Byte × State := (s.readByte a, s.afterRead a)

/-- `MemWrite(a, 1, v)` (20_memory.md R64); a write to a device register is delivered to the
environment and stored nowhere (R69, note 7). -/
def State.writeByte (s : State) (a : Word) (v : Byte) : State :=
  { s with
    mem := if s.isDevice a then s.mem else s.mem.write a.toNat v
    devLog := if s.isDevice a then s.devLog ++ [.write a v] else s.devLog }

/-- `MemRead(a, 2)`: two byte reads, the lower address first, whose byte is the high one; the second address
wraps (20_memory.md R63). -/
def State.load16 (s : State) (a : Word) : Word × State :=
  let hi := s.load8 a
  let lo := hi.2.load8 (a + 1)
  (joinBytes hi.1 lo.1, lo.2)

/-- `MemWrite(a, 2, v)`: high byte first (20_memory.md R64). -/
def State.writeWord (s : State) (a : Word) (v : Word) : State :=
  (s.writeByte a (hiByte v)).writeByte (a + 1) (loByte v)

/-- `x[r]`, a read of a general register (00_scope.md R9). -/
def State.reg (s : State) (r : RegNo) : Word := s.gpr[r.toNat]'r.isLt

/-- `x[r] <- v`, a write of a general register (00_scope.md R9). -/
def State.setReg (s : State) (r : RegNo) (v : Word) : State :=
  { s with gpr := s.gpr.set r.toNat v r.isLt }

/-- The byte accumulator written (10_state.md R42). -/
def State.setAb (s : State) (v : Byte) : State := { s with ab := v }

/-- The program counter written (10_state.md R39). -/
def State.setPc (s : State) (a : Word) : State := { s with pc := a }

/-- The PSW written. -/
def State.setPsw (s : State) (p : Psw) : State := { s with psw := p }

/-- The four indicators written, the other PSW bits kept (10_state.md R31 to R34). -/
def State.setFlags (s : State) (f : Flags) : State := s.setPsw (s.psw.withFlags f)

/-- `push8(b)` (10_state.md R48). -/
def State.push8 (s : State) (b : Byte) : State :=
  { s with sp := s.sp + 1 }.writeByte (s.sp + 1) b

/-- `pop8()` (10_state.md R48). -/
def State.pop8 (s : State) : Byte × State :=
  let b := s.load8 s.sp
  (b.1, { b.2 with sp := s.sp - 1 })

/-- A word pushed, high byte first (10_state.md R48). -/
def State.push16 (s : State) (v : Word) : State := (s.push8 (hiByte v)).push8 (loByte v)

/-- A word popped, low byte first (10_state.md R48). -/
def State.pop16 (s : State) : Word × State :=
  let lo := s.pop8
  let hi := lo.2.pop8
  (joinBytes hi.1 lo.1, hi.2)

/-- The requests that are pending and unmasked: `irm[k] = PRINTR[k] and IMR[k]`, line k at bit k - 1
(60_exceptions.md R334). -/
def State.irm (s : State) : BitVec 7 := s.printr &&& s.imr.extractLsb' 1 7

/-- The priority encoder: the number of the highest line that is 1, 0 if there is none
(60_exceptions.md R336). -/
def priorityLine (m : BitVec 7) : BitVec 3 :=
  if m.getLsbD 6 then 7 else if m.getLsbD 5 then 6 else if m.getLsbD 4 then 5
  else if m.getLsbD 3 then 4 else if m.getLsbD 2 then 3 else if m.getLsbD 1 then 2
  else if m.getLsbD 0 then 1 else 0

/-- The signal prl (60_exceptions.md R336). -/
def State.prl (s : State) : BitVec 3 := priorityLine s.irm

/-- The signal printr: an unmasked request whose level is above the current one, with I = 1
(60_exceptions.md R336 to R338). -/
def State.printrSignal (s : State) : Bool :=
  s.irm != 0 && decide (s.psw.l.toNat < s.prl.toNat) && s.psw.i

/-- The signal prekid, tested at stepC0; `rti` is the operation signal of the instruction just
executed (60_exceptions.md R331, R332). -/
def State.prekid (s : State) (rti : Bool) : Bool :=
  s.prins || s.prcod || s.pradr || s.prinm || s.printrSignal || (s.psw.t && !rti)

/-- The bit of PRINTR that belongs to line k. -/
def lineBit (k : BitVec 3) : BitVec 7 := 1#7 <<< (k.toNat - 1)

/-- The entry number controller k sends in the acknowledge cycle (60_exceptions.md R351). -/
def State.vecOf (s : State) (k : BitVec 3) : Byte := s.vec[k.toNat - 1]'(by omega)

/-- The choice of the request that is served, stepD1 to stepEB: its entry number, and the state with
its flip-flop cleared and, for a maskable request, L written. `nn` is IR[23:16], the operand of INT
(60_exceptions.md R339, R345, R351, R352). -/
def State.acceptRequest (s : State) (nn : Byte) : Byte × State :=
  if s.prins then (nn, { s with prins := false })
  else if s.prcod then (3, { s with prcod := false })
  else if s.pradr then (2, { s with pradr := false })
  else if s.prinm then (1, { s with prinm := false })
  else if s.printrSignal then
    let k := s.prl
    (if s.psw.p then s.vecOf k else 8 + k.setWidth 8,
     { s with printr := s.printr &&& ~~~(lineBit k), psw := { s.psw with l := k } })
  else (0, s)

/-- The address of a vector-table entry: `IVTP +_16 (zext_16(BR) << 1)` (60_exceptions.md R341). -/
def State.vectorAddr (s : State) (e : Byte) : Word := s.ivtp + (e.setWidth 16 <<< 1)

/-- Taking an interrupt: PC and PSW pushed, the request chosen, the vector read, PC, I and T written
(60_exceptions.md R345, stepC1 to stepF3). -/
def State.takeInterrupt (s : State) (nn : Byte) : State :=
  let s1 := (s.push16 s.pc).push16 s.psw.word
  let e := s1.acceptRequest nn
  let v := e.2.load16 (e.2.vectorAddr e.1)
  (v.2.setPc v.1).setPsw v.2.psw.entered

/-- The service phase at the end of an instruction (60_exceptions.md R345). -/
def State.service (s : State) (nn : Byte) (rti : Bool) : State :=
  if s.prekid rti then s.takeInterrupt nn else s

/-- The internal request of an illegal operation code, served (60_exceptions.md R323). -/
def State.illegalOpcode (s : State) : State := { s with prcod := true }.service 0 false

/-- The internal request of an illegal addressing mode, served (60_exceptions.md R324). -/
def State.addressingError (s : State) : State := { s with pradr := true }.service 0 false

/-- The request of the interrupt instruction, served (60_exceptions.md R325). -/
def State.interruptInstruction (s : State) (nn : Byte) : State :=
  { s with prins := true }.service nn false

/-- Return from an interrupt routine: PSW low, PSW high, then PC are popped (44_jump.md R256,
60_exceptions.md R355). -/
def State.returnFromInterrupt (s : State) : State :=
  let lo := s.pop8
  let hi := lo.2.pop8
  let pc := hi.2.pop16
  (pc.2.setPsw (Psw.ofBytes hi.1 lo.1)).setPc pc.1

/-- The pulses of one transition latched into PRINM and PRINTR; a flip-flop that is set stays set
(60_exceptions.md R333, 92_eei_decisions.md D26). -/
def State.latch (s : State) (inp : EnvInput) : State :=
  { s with prinm := s.prinm || inp.inm, printr := s.printr ||| inp.intr }

/-- The environment's record for this transition, taken from the stream: with none left, no pulse
comes and the levels stay (note 5). -/
def State.nextInput (s : State) : EnvInput × State :=
  match s.env with
  | [] => ({ inm := false, intr := 0, start := s.start, vec := s.vec }, s)
  | e :: es => (e, { s with start := e.start, vec := e.vec, env := es })

end Sys2Proof.Machine
end

