-- ==== Sys2Proof/WellFormed.lean ====
section
/-!
DEFINITION. Which instruction terms are well-formed: the addressing modes each RC opcode admits
(30_encoding.md R110, seen from the syntax, where a reserved mode code has no term) and, for layer G,
that no destination is immediate (30_encoding.md R123) and that JMPIND names memory (44_jump.md R222).
-/

namespace Sys2Proof

/-- Which modes an RC layout-A opcode admits (30_encoding.md R110). -/
inductive ModeRule
  | any      -- a source operand: every mode
  | noImm    -- a destination operand: every mode but immediate
  | memOnly  -- JMPIND: the memory modes
deriving DecidableEq, Repr

/-- Immediate addressing. -/
def Operand.isImm {w : Nat} : Operand w → Bool
  | .imm _ => true
  | .regdir _ | .regind _ | .memdir _ | .memind _ | .regindpom _ _ | .preinc _ | .postinc _
  | .predec _ | .postdec _ | .pcpom _ => false

/-- Register-direct addressing. -/
def Operand.isRegdir {w : Nat} : Operand w → Bool
  | .regdir _ => true
  | .imm _ | .regind _ | .memdir _ | .memind _ | .regindpom _ _ | .preinc _ | .postinc _
  | .predec _ | .postdec _ | .pcpom _ => false

/-- The operand is one the rule admits. -/
def Operand.allowed {w : Nat} (r : ModeRule) (o : Operand w) : Bool :=
  match r with
  | .any => true
  | .noImm => !o.isImm
  | .memOnly => !o.isImm && !o.isRegdir

/-- Immediate addressing in layer G. -/
def GOperand.isImm : GOperand → Bool
  | .imm _ => true
  | .regdir _ | .ardir _ | .brdir _ | .xrdir _ | .sp | .fp | .regind _ | .memdir _ | .memind _
  | .basedisp _ _ | .indexdisp _ _ | .regindpom _ _ | .baseindex _ _ _ | .fpdisp _ | .preinc _
  | .postinc _ | .predec _ | .postdec _ | .pcpom _ => false

/-- The modes of layer G whose operand is in memory (44_jump.md R222). -/
def GOperand.isMemory : GOperand → Bool
  | .imm _ | .regdir _ | .ardir _ | .brdir _ | .xrdir _ | .sp | .fp => false
  | .regind _ | .memdir _ | .memind _ | .basedisp _ _ | .indexdisp _ _ | .regindpom _ _
  | .baseindex _ _ _ | .fpdisp _ | .preinc _ | .postinc _ | .predec _ | .postdec _ | .pcpom _ => true

/-- A register named directly. -/
def GOperand.isRegister (o : GOperand) : Bool := !o.isImm && !o.isMemory

/-- Some field of ADD and its like can be the destination, which is not immediate: a or c of three, a
or b of two addresses, as FMT has it (30_encoding.md R91, R92), b of the second opcode; the accumulator
and the stack top are no operand (41_arithmetic.md R163). -/
def BinForm.destOk : BinForm → Bool
  | .three a _ c => !(a.isImm && c.isImm)
  | .two a b => !(a.isImm && b.isImm)
  | .twoSecond _ b => !b.isImm
  | .one _ | .zero => true

/-- The destination of a shift is not immediate: b of three and two addresses, a of one
(43_shift.md R201). -/
def BinForm.shiftDestOk : BinForm → Bool
  | .three _ b _ => !b.isImm
  | .two _ b | .twoSecond _ b => !b.isImm
  | .one a => !a.isImm
  | .zero => true

/-- The destination of INC, DEC and NOT is not immediate (41_arithmetic.md R172). -/
def UnForm.destOk : UnForm → Bool
  | .two _ b => !b.isImm
  | .one a => !a.isImm
  | .zero => true

/-- The instruction is one the encoding tables admit, or, in layer G, one the format rules admit. -/
def Instr.wf : Instr → Bool
  | .nop | .prpd | .prpe | .intd | .inte | .trpd | .trpe | .stimr | .stivtp | .rts | .rti => true
  | .int _ | .beql _ | .bneq _ | .bgrtu _ | .bgreu _ | .blssu _ | .blequ _ | .bgrt _ | .bgre _
  | .blss _ | .bleq _ | .bneg _ | .bnng _ | .bovf _ | .bnvf _ => true
  | .jmp _ | .jsr _ | .jeql _ | .jneq _ | .jgrtu _ | .jgreu _ | .jlssu _ | .jlequ _ | .jgrt _
  | .jgre _ | .jlss _ | .jleq _ | .jneg _ | .jnng _ | .jovf _ | .jnvf _ => true
  | .jmpind o => o.allowed .memOnly
  | .ldw _ => true
  | .ldb _ | .add _ | .sub _ | .cmp _ | .and _ | .or _ | .xor _ | .tst _ => true
  | .stw o => o.allowed .noImm
  | .stb o | .inc o | .dec o | .not o | .asr o | .lsr o | .ror o | .rorc o | .asl o | .lsl o
  | .rol o | .rolc o => o.allowed .noImm
  | .gMov _ _ b | .gMov3 _ _ _ b | .gStore _ b | .gPop _ b => !b.isImm
  | .gIn _ _ | .gOut _ _ | .gIn1 _ | .gOut1 _ | .gLoad _ _ | .gPush _ _ | .gPushpsw | .gPoppsw => true
  | .gMul _ _ f | .gDiv _ _ f | .gAdd _ f | .gSub _ f | .gAnd _ f | .gOr _ f | .gXor _ f => f.destOk
  | .gCmp _ _ | .gTst _ _ => true
  | .gInc _ f | .gDec _ f | .gNot _ f => f.destOk
  | .gAsr _ f | .gLsr _ f | .gRor _ f | .gRorc _ f | .gAsl _ f | .gLsl _ f | .gRol _ f
  | .gRolc _ f => f.shiftDestOk
  | .gMovc _ sl sa _ dl da | .gMovtc _ sl sa _ _ dl da =>
    !sl.isImm && !sa.isImm && !dl.isImm && !da.isImm
  | .gCmpc _ l1 a1 _ l2 a2 => !l1.isImm && !a1.isImm && !l2.isImm && !a2.isImm
  | .gLocc _ len addr _ | .gSkpc _ len addr _ => !len.isImm && !addr.isImm
  | .gMatchc _ l1 a1 _ _ => !l1.isImm && !a1.isImm
  | .gAcb _ _ _ ix _ | .gAob _ _ ix _ | .gSob _ ix _ => !ix.isImm
  | .gCase _ _ _ _ | .gBbs _ _ _ | .gBbc _ _ _ => true
  | .gJmp _ | .gBcc _ _ | .gJcc _ _ | .gJsr _ | .gRts | .gInt _ | .gRti | .gInte | .gIntd
  | .gNop => true
  | .gJmpind a => a.isMemory

end Sys2Proof
end

