-- ==== Sys2Proof/Machine/Operands.lean ====
section
/-!
DEFINITION. The operands of the RC: the effective address, computed once per instruction with the
side effect of the auto modes (30_encoding.md R107), the operand read (R108) and the write (R109). The
accesses stand in the order of 20_memory.md R77: the pointer of memory-indirect addressing, the operand
read, the write.
-/

namespace Sys2Proof.Machine

/-- Where an operand is, once its specifier has been evaluated. -/
inductive Place (w : Nat)
  | reg (r : RegNo)
  | mem (ea : Word)
  | lit (v : BitVec w)
deriving DecidableEq, Repr

/-- `EA`: the operand's place and the state after the register update of an auto mode, which steps
by 1, or the read of the pointer of memory-indirect addressing (30_encoding.md R107). PC is the address of
the next instruction. -/
def State.place {w : Nat} (s : State) : Operand w → Place w × State
  | .regdir r => (.reg r, s)
  | .regind r => (.mem (s.reg r), s)
  | .memdir f => (.mem f, s)
  | .memind f => (.mem (s.load16 f).1, (s.load16 f).2)
  | .regindpom r f => (.mem (s.reg r + f), s)
  | .preinc r => (.mem (s.reg r + 1), s.setReg r (s.reg r + 1))
  | .postinc r => (.mem (s.reg r), s.setReg r (s.reg r + 1))
  | .predec r => (.mem (s.reg r - 1), s.setReg r (s.reg r - 1))
  | .postdec r => (.mem (s.reg r), s.setReg r (s.reg r - 1))
  | .pcpom f => (.mem (s.pc + f), s)
  | .imm v => (.lit v, s)

/-- The byte at a place, and the state after it was read; of a register, bits 7:0 (30_encoding.md
R108). -/
def State.readPlace8 (s : State) : Place 8 → Byte × State
  | .reg r => (loByte (s.reg r), s)
  | .mem ea => s.load8 ea
  | .lit v => (v, s)

/-- The word at a place, and the state after it was read (30_encoding.md R108). -/
def State.readPlace16 (s : State) : Place 16 → Word × State
  | .reg r => (s.reg r, s)
  | .mem ea => s.load16 ea
  | .lit v => (v, s)

/-- A byte written at a place; a register keeps bits 15:8 (30_encoding.md R109). Nothing is written
through an immediate: the addressing check comes first (R110). -/
def State.writePlace8 (s : State) : Place 8 → Byte → State
  | .reg r, v => s.setReg r (joinBytes (hiByte (s.reg r)) v)
  | .mem ea, v => s.writeByte ea v
  | .lit _, _ => s

/-- A word written at a place (30_encoding.md R109). -/
def State.writePlace16 (s : State) : Place 16 → Word → State
  | .reg r, v => s.setReg r v
  | .mem ea, v => s.writeWord ea v
  | .lit _, _ => s

/-- `ReadOp(1)`: the byte operand and the state after its address was formed and it was read
(30_encoding.md R108). -/
def State.readOp8 (s : State) (o : Operand 8) : Byte × State :=
  let p := s.place o
  p.2.readPlace8 p.1

/-- `ReadOp(2)` (30_encoding.md R108). -/
def State.readOp16 (s : State) (o : Operand 16) : Word × State :=
  let p := s.place o
  p.2.readPlace16 p.1

/-- `WriteOp(1, v)` (30_encoding.md R109). -/
def State.writeOp8 (s : State) (o : Operand 8) (v : Byte) : State :=
  let p := s.place o
  p.2.writePlace8 p.1 v

/-- `WriteOp(2, v)` (30_encoding.md R109). -/
def State.writeOp16 (s : State) (o : Operand 16) (v : Word) : State :=
  let p := s.place o
  p.2.writePlace16 p.1 v

/-- Read, modify and write of a byte operand: one evaluation of the address serves both accesses
(30_encoding.md R109, 92_eei_decisions.md D37). `f` sees the operand and the old C. -/
def State.modifyOp8 (s : State) (o : Operand 8) (f : Byte → Bool → Byte × Flags) : State :=
  let p := s.place o
  let x := p.2.readPlace8 p.1
  let r := f x.1 s.psw.c
  (x.2.writePlace8 p.1 r.1).setFlags r.2

end Sys2Proof.Machine
end

