-- ==== Sys2Proof/Machine/Arithmetic.lean ====
section
/-!
DEFINITION. The arithmetic instructions of the RC (41_arithmetic.md R166, R170 to R174): 8 bits, AB the
first operand of ADD, SUB and CMP; INC and DEC read, modify and write their operand.
-/

namespace Sys2Proof.Machine

/-- A byte operation of AB and the operand whose result goes to AB, with its indicators
(41_arithmetic.md R166). -/
def State.accumulate (s : State) (o : Operand 8) (f : Byte → Byte → Byte × Flags) : State :=
  let r := f s.ab (s.readOp8 o).1
  ((s.readOp8 o).2.setAb r.1).setFlags r.2

/-- A byte operation of AB and the operand of which only the indicators are kept (41_arithmetic.md
R174). -/
def State.compare (s : State) (o : Operand 8) (f : Byte → Byte → Flags) : State :=
  (s.readOp8 o).2.setFlags (f s.ab (s.readOp8 o).1)

/-- A read-modify-write instruction: an immediate destination is an addressing error
(30_encoding.md R110). -/
def State.modify (s : State) (o : Operand 8) (f : Byte → Bool → Byte × Flags) : State :=
  if o.allowed .noImm then s.modifyOp8 o f else s.addressingError

/-- ADD: `AB <- AB + operand` (41_arithmetic.md R170). -/
def execAdd (o : Operand 8) (s : State) : Result :=
  .next (s.accumulate o addF)

/-- SUB: `AB <- AB - operand`, C the borrow (41_arithmetic.md R171). -/
def execSub (o : Operand 8) (s : State) : Result :=
  .next (s.accumulate o subF)

/-- INC: the operand plus 1, with the indicators of that addition (41_arithmetic.md R172). -/
def execInc (o : Operand 8) (s : State) : Result :=
  .next (s.modify o fun v _ => addF v 1)

/-- DEC: the operand minus 1, with the indicators of that subtraction (41_arithmetic.md R173). -/
def execDec (o : Operand 8) (s : State) : Result :=
  .next (s.modify o fun v _ => subF v 1)

/-- CMP: the indicators of `AB - operand` (41_arithmetic.md R174). -/
def execCmp (o : Operand 8) (s : State) : Result :=
  .next (s.compare o fun a b => (subF a b).2)

end Sys2Proof.Machine
end

