-- ==== Sys2Proof/Machine/GenericOps.lean ====
section
/-!
DEFINITION. The operations of the generic machine of layer G under the parameters of its
configuration: data of one or several locations (20_memory.md R60, R65), the register kinds
(10_state.md R20 to R29), the addressing modes (30_encoding.md R113 to R123), the four stack
conventions (10_state.md R44 to R47), and the entry to and return from an interrupt routine
(44_jump.md R255, R256; 60_exceptions.md R342, R347).
-/

namespace Sys2Proof.Machine

/-- An address cut to AW_ADDR bits (00_scope.md R5). -/
def GMachine.addr (g : GMachine) (a : Quad) : Quad := g.cfg.aw.trunc a

/-- How many consecutive locations of CELL bits an `l`-bit datum occupies (20_memory.md R65). -/
def locations (cell l : Len) : Nat := (l.bits + cell.bits - 1) / cell.bits

/-- The number of locations of an `l`-bit datum on this machine. -/
def GMachine.span (g : GMachine) (l : Len) : Nat := locations g.cfg.cell l

/-- The content of one location, CELL bits. With memory-mapped I/O a controller register is a location as
any other (20_memory.md R62); that reading it has no side effect is the model's choice (note 32). -/
def GMachine.readCell (g : GMachine) (a : Quad) : Quad :=
  g.cfg.cell.trunc (g.mem.readSpan (g.cfg.cell.bytes * a.toNat) g.cfg.cell.bytes)

/-- One location written with the low CELL bits of a value. With memory-mapped I/O a controller register keeps
it as any location does, and nothing else happens, the model's choice (note 32). -/
def GMachine.writeCell (g : GMachine) (a v : Quad) : GMachine :=
  { g with mem :=
      g.mem.writeSpan (g.cfg.cell.bytes * a.toNat) g.cfg.cell.bytes (g.cfg.cell.trunc v) }

/-- The bit position of the i-th of `m` locations in a datum: ENDIAN decides which location holds
the most significant part (20_memory.md R65). -/
def pieceShift (e : Endian) (cellBits m i : Nat) : Nat :=
  match e with
  | .big => cellBits * (m - 1 - i)
  | .little => cellBits * i

/-- The first `i` of the `m` locations from address `a` on, each at its place in the datum; addresses
wrap modulo 2^AW_ADDR, so a datum may go on from the last address at address 0 (note 19). -/
def GMachine.readPieces (g : GMachine) (a : Quad) (m : Nat) : Nat → Quad
  | 0 => 0
  | i + 1 => g.readPieces a m i |||
      (g.readCell (g.addr (a + BitVec.ofNat 64 i)) <<< pieceShift g.cfg.endian g.cfg.cell.bits m i)

/-- The first `i` of the `m` locations from address `a` on, written with their parts of a datum. -/
def GMachine.writePieces (g : GMachine) (a : Quad) (m : Nat) (v : Quad) : Nat → GMachine
  | 0 => g
  | i + 1 => (g.writePieces a m v i).writeCell (g.addr (a + BitVec.ofNat 64 i))
      (v >>> pieceShift g.cfg.endian g.cfg.cell.bits m i)

/-- The `l`-bit datum at an address, the lowest of its locations (20_memory.md R65). -/
def GMachine.readData (g : GMachine) (l : Len) (a : Quad) : Quad :=
  l.trunc (g.readPieces a (g.span l) (g.span l))

/-- An `l`-bit datum stored at an address; a location wider than the datum then holds the datum
alone (20_memory.md R65, note 19). -/
def GMachine.writeData (g : GMachine) (l : Len) (a v : Quad) : GMachine :=
  g.writePieces a (g.span l) (l.trunc v) (g.span l)

/-- The content of a register. -/
def GMachine.readReg (g : GMachine) : GReg → Quad
  | .dr r => g.dr.getD r 0
  | .ar r => g.ar.getD r 0
  | .br r => g.br.getD r 0
  | .xr r => g.xr.getD r 0
  | .gpr r => g.gpr.getD r 0
  | .sp => g.sp
  | .fp => g.fp
  | .acc => g.acc

/-- The width of a register: SP and FP hold AW_ADDR bits (10_state.md R28, R29; 00_scope.md R5). -/
def GConfig.regLen (c : GConfig) : GReg → Len
  | .dr _ => c.dr.width
  | .ar _ => c.ar.width
  | .br _ => c.br.width
  | .xr _ => c.xr.width
  | .gpr _ => c.gpr.width
  | .sp | .fp => c.aw
  | .acc => c.acc

/-- The content of a register replaced. -/
def GMachine.setReg (g : GMachine) : GReg → Quad → GMachine
  | .dr r, v => { g with dr := g.dr.set r v }
  | .ar r, v => { g with ar := g.ar.set r v }
  | .br r, v => { g with br := g.br.set r v }
  | .xr r, v => { g with xr := g.xr.set r v }
  | .gpr r, v => { g with gpr := g.gpr.set r v }
  | .sp, v => { g with sp := v }
  | .fp, v => { g with fp := v }
  | .acc, v => { g with acc := v }

/-- A register written: it holds the low bits of the value, as many as it is wide (note 17). -/
def GMachine.writeReg (g : GMachine) (r : GReg) (v : Quad) : GMachine :=
  g.setReg r ((g.cfg.regLen r).trunc v)

/-- The processor has the register: its kind belongs to the register organisation and its number is
below the count of the kind (00_scope.md R5, 10_state.md R22 to R26). -/
def GConfig.hasReg (c : GConfig) : GReg → Bool
  | .dr r => c.regorg == .split && decide (r < c.dr.count)
  | .ar r => c.regorg == .split && decide (r < c.ar.count)
  | .br r => c.regorg == .split && decide (r < c.br.count)
  | .xr r => c.regorg == .split && decide (r < c.xr.count)
  | .gpr r => c.regorg == .gpr && decide (r < c.gpr.count)
  | .sp | .fp | .acc => true

/-- The register of register-direct addressing: a data register or, with general registers, a GPR
(30_encoding.md R113, 10_state.md R26). -/
def GConfig.dataReg (c : GConfig) (r : Nat) : GReg :=
  match c.regorg with | .split => .dr r | .gpr => .gpr r

/-- The register of the register-indirect and auto modes (30_encoding.md R114, R121). -/
def GConfig.addrReg (c : GConfig) (r : Nat) : GReg :=
  match c.regorg with | .split => .ar r | .gpr => .gpr r

/-- The register of base addressing (30_encoding.md R117, R120). -/
def GConfig.baseReg (c : GConfig) (r : Nat) : GReg :=
  match c.regorg with | .split => .br r | .gpr => .gpr r

/-- The register of index addressing (30_encoding.md R118, R120). -/
def GConfig.indexReg (c : GConfig) (r : Nat) : GReg :=
  match c.regorg with | .split => .xr r | .gpr => .gpr r

/-- The processor has the registers the operand names. Register indirect with displacement is a mode of
the GPR organisation alone, and AR, BR and XR are registers of the split one (30_encoding.md R119,
10_state.md R23 to R26, note 22). -/
def GConfig.available (c : GConfig) : GOperand → Bool
  | .regdir r => c.hasReg (c.dataReg r)
  | .ardir r => c.hasReg (.ar r)
  | .brdir r => c.hasReg (.br r)
  | .xrdir r => c.hasReg (.xr r)
  | .regind r | .preinc r | .postinc r | .predec r | .postdec r => c.hasReg (c.addrReg r)
  | .basedisp b _ => c.hasReg (c.baseReg b)
  | .indexdisp x _ => c.hasReg (c.indexReg x)
  | .baseindex b x _ => c.hasReg (c.baseReg b) && c.hasReg (c.indexReg x)
  | .regindpom r _ => c.hasReg (.gpr r)
  | .imm _ | .sp | .fp | .memdir _ | .memind _ | .fpdisp _ | .pcpom _ => true

/-- Where an operand of layer G is, once its specifier has been evaluated. -/
inductive GPlace
  | reg (r : GReg)
  | mem (a : Quad)
  | lit (v : Quad)
deriving DecidableEq, Repr

/-- The operand's place and the state after the register update of an auto mode, by one; an address that is
stepped first is the register's content after the step (30_encoding.md R113 to R123, 92_eei_decisions.md
D12). A register used as an address, alone or in a sum, gives its low AW_ADDR bits, zero-extended where it is
narrower: where the two widths differ the rules are silent, and this is the model's choice (note 17). -/
def GMachine.place (g : GMachine) : GOperand → GPlace × GMachine
  | .regdir r => (.reg (g.cfg.dataReg r), g)
  | .ardir r => (.reg (.ar r), g)
  | .brdir r => (.reg (.br r), g)
  | .xrdir r => (.reg (.xr r), g)
  | .sp => (.reg .sp, g)
  | .fp => (.reg .fp, g)
  | .regind r => (.mem (g.addr (g.readReg (g.cfg.addrReg r))), g)
  | .memdir adr => (.mem (g.addr adr), g)
  | .memind adr => (.mem (g.readData g.cfg.aw (g.addr adr)), g)
  | .basedisp b pom => (.mem (g.addr (g.readReg (g.cfg.baseReg b) + pom)), g)
  | .indexdisp x pom => (.mem (g.addr (g.readReg (g.cfg.indexReg x) + pom)), g)
  | .regindpom r pom => (.mem (g.addr (g.readReg (.gpr r) + pom)), g)
  | .baseindex b x pom =>
    (.mem (g.addr (g.readReg (g.cfg.baseReg b) + g.readReg (g.cfg.indexReg x) + pom)), g)
  | .fpdisp pom => (.mem (g.addr (g.fp + pom)), g)
  | .preinc r =>
    let h := g.writeReg (g.cfg.addrReg r) (g.readReg (g.cfg.addrReg r) + 1)
    (.mem (h.addr (h.readReg (h.cfg.addrReg r))), h)
  | .postinc r =>
    let v := g.readReg (g.cfg.addrReg r)
    (.mem (g.addr v), g.writeReg (g.cfg.addrReg r) (v + 1))
  | .predec r =>
    let h := g.writeReg (g.cfg.addrReg r) (g.readReg (g.cfg.addrReg r) - 1)
    (.mem (h.addr (h.readReg (h.cfg.addrReg r))), h)
  | .postdec r =>
    let v := g.readReg (g.cfg.addrReg r)
    (.mem (g.addr v), g.writeReg (g.cfg.addrReg r) (v - 1))
  | .pcpom pom => (.mem (g.addr (g.pc + pom)), g)
  | .imm v => (.lit v, g)

/-- The `l`-bit value at a place. -/
def GMachine.readPlace (g : GMachine) (l : Len) : GPlace → Quad
  | .reg r => l.trunc (g.readReg r)
  | .mem a => g.readData l a
  | .lit v => l.trunc v

/-- An `l`-bit value written at a place; a wider register keeps its upper bits (note 21), a narrower one
takes its own width (note 17). Nothing is written through an immediate: the addressing check comes first
(30_encoding.md R123). -/
def GMachine.writePlace (g : GMachine) (l : Len) : GPlace → Quad → GMachine
  | .reg r, v => g.writeReg r (l.merge (g.readReg r) v)
  | .mem a, v => g.writeData l a v
  | .lit _, _ => g

/-- A source operand: its value and the state after its specifier was evaluated. -/
def GMachine.readOperand (g : GMachine) (l : Len) (o : GOperand) : Quad × GMachine :=
  let p := g.place o
  (p.2.readPlace l p.1, p.2)

/-- A destination operand written. -/
def GMachine.writeOperand (g : GMachine) (l : Len) (o : GOperand) (v : Quad) : GMachine :=
  let p := g.place o
  p.2.writePlace l p.1 v

/-- A location that is read now and written later in the same instruction, its specifier evaluated
once (92_eei_decisions.md D37). -/
structure Located where
  place : GPlace
  value : Quad
deriving DecidableEq, Repr

/-- The place and the value of an operand, and the state after its specifier was evaluated. -/
def GMachine.locate (g : GMachine) (l : Len) (o : GOperand) : Located × GMachine :=
  let p := g.place o
  ({ place := p.1, value := p.2.readPlace l p.1 }, p.2)

/-- Where a pushed datum of `m` locations goes (10_state.md R44 to R47); the rules speak of one location
a datum, where a push moves SP by 1 (note 39). -/
def GMachine.pushAddr (g : GMachine) (m : Nat) : Quad :=
  match g.cfg.stackDir, g.cfg.stackTop with
  | .up, .lastOccupied => g.addr (g.sp + 1)
  | .up, .firstFree => g.addr g.sp
  | .down, .lastOccupied => g.addr (g.sp - BitVec.ofNat 64 m)
  | .down, .firstFree => g.addr (g.sp - BitVec.ofNat 64 m + 1)

/-- Where the topmost datum of `m` locations is (10_state.md R44 to R47). -/
def GMachine.topAddr (g : GMachine) (m : Nat) : Quad :=
  match g.cfg.stackDir, g.cfg.stackTop with
  | .up, .lastOccupied => g.addr (g.sp - BitVec.ofNat 64 m + 1)
  | .up, .firstFree => g.addr (g.sp - BitVec.ofNat 64 m)
  | .down, .lastOccupied => g.addr g.sp
  | .down, .firstFree => g.addr (g.sp + 1)

/-- SP moved over `m` locations in the direction of a push (10_state.md R44 to R47). -/
def GMachine.spPush (g : GMachine) (m : Nat) : GMachine :=
  match g.cfg.stackDir with
  | .up => { g with sp := g.addr (g.sp + BitVec.ofNat 64 m) }
  | .down => { g with sp := g.addr (g.sp - BitVec.ofNat 64 m) }

/-- SP moved over `m` locations in the direction of a pop (10_state.md R44 to R47). -/
def GMachine.spPop (g : GMachine) (m : Nat) : GMachine :=
  match g.cfg.stackDir with
  | .up => { g with sp := g.addr (g.sp - BitVec.ofNat 64 m) }
  | .down => { g with sp := g.addr (g.sp + BitVec.ofNat 64 m) }

/-- Push of an `l`-bit value by the convention STACK: as many locations as it occupies, in the order
ENDIAN, lowest address first (10_state.md R44 to R47, 40_transfer.md R138, note 39). -/
def GMachine.push (g : GMachine) (l : Len) (v : Quad) : GMachine :=
  (g.spPush (g.span l)).writeData l (g.pushAddr (g.span l)) v

/-- Pop of an `l`-bit value by the convention STACK; the location keeps its content (10_state.md R44
to R47, 40_transfer.md R139). -/
def GMachine.pop (g : GMachine) (l : Len) : Quad × GMachine :=
  (g.readData l (g.topAddr (g.span l)), g.spPop (g.span l))

/-- The PSW as a pushed value (10_state.md R27, R30). -/
def Psw.quad (p : Psw) : Quad := p.word.setWidth 64

/-- The PSW of a popped value; bits that do not exist are discarded (10_state.md R30). -/
def Psw.ofQuad (v : Quad) : Psw := Psw.ofBytes (v.extractLsb' 8 8) (v.extractLsb' 0 8)

/-- A register pushed, at its width (note 25). -/
def GMachine.pushReg (g : GMachine) (r : GReg) : GMachine := g.push (g.cfg.regLen r) (g.readReg r)

/-- A register popped. -/
def GMachine.popReg (g : GMachine) (r : GReg) : GMachine :=
  let v := g.pop (g.cfg.regLen r)
  v.2.writeReg r v.1

/-- The registers of a kind, by number. -/
def RegKind.all (k : RegKind) (mk : Nat → GReg) : List GReg := (List.range k.count).map mk

/-- Every programmer-visible register but PC and the PSW, those that an instruction names by its opcode
included (10_state.md R20). -/
def GConfig.visible (c : GConfig) : List GReg :=
  (match c.regorg with
    | .split => c.dr.all .dr ++ c.ar.all .ar ++ c.br.all .br ++ c.xr.all .xr
    | .gpr => c.gpr.all .gpr) ++ [.sp, .fp, .acc]

/-- The order in which SAVE_ALL pushes every visible register, which the spec leaves open: first the
registers the configuration names, each once, then the others (60_exceptions.md R347,
93_implementation_defined.md U18, note 25). -/
def GConfig.saved (c : GConfig) : List GReg :=
  (c.saveOrder.filter c.visible.contains).eraseDups ++
    c.visible.filter fun r => !c.saveOrder.contains r

/-- The frame of an interrupt entry: PC, PSW and, with SAVE_ALL, every other programmer-visible register
(44_jump.md R255, 60_exceptions.md R347). -/
def GMachine.pushFrame (g : GMachine) : GMachine :=
  let g1 := (g.push g.cfg.aw g.pc).push .l16 g.psw.quad
  if g.cfg.saveAll then g.cfg.saved.foldl GMachine.pushReg g1 else g1

/-- The routine address in a vector-table entry: at `IVTP + entry * IVT_SCALE` (60_exceptions.md R342). In
layer G the width of IVTP and what the sum does past the last address are stated nowhere, R341 and D15 being
about the RC: IVTP is held at 64 bits and the sum is cut to AW_ADDR bits. The routine address is a datum of
AW_ADDR bits, whatever IVT_SCALE is. All this is the model's choice (note 36). -/
def GMachine.vector (g : GMachine) (e : Quad) : Quad :=
  g.readData g.cfg.aw (g.addr (g.ivtp + e * BitVec.ofNat 64 g.cfg.ivtScale))

/-- Entry to an interrupt routine through the vector table, with I and T cleared after the PSW was
pushed (60_exceptions.md R342, R345, R354). -/
def GMachine.takeInterrupt (g : GMachine) (e : Quad) : GMachine :=
  let g1 := g.pushFrame
  { g1 with pc := g1.vector e, psw := g1.psw.entered }

/-- Entry to the interrupt routine at a given address (44_jump.md R255, INT_FIELD = address). -/
def GMachine.takeInterruptAt (g : GMachine) (adr : Quad) : GMachine :=
  let g1 := g.pushFrame
  { g1 with pc := g1.addr adr, psw := g1.psw.entered }

/-- The internal interrupt of illegal addressing (30_encoding.md R123, 60_exceptions.md R324). The PC that
is pushed is the one past the whole instruction; 60_exceptions.md R346 gives it for the RC alone (note 22,
the model's choice). -/
def GMachine.addressingError (g : GMachine) : GMachine :=
  g.takeInterrupt (g.cfg.adrErrEntry.setWidth 64)

/-- The internal interrupt of an illegal operation code (60_exceptions.md R321, kind 3). The PC that is
pushed is the one past the whole instruction: 60_exceptions.md R323 and R346 give one, past the opcode byte,
for the RC alone, and a term of layer G has no bytes (note 23, the model's choice). -/
def GMachine.illegalOpcode (g : GMachine) : GMachine :=
  g.takeInterrupt (g.cfg.codErrEntry.setWidth 64)

/-- The internal interrupt of an erroneous division (60_exceptions.md R329). The PC that is pushed, which
no section states, is the one past the DIV, as for every instruction that was read whole (note 26). -/
def GMachine.divideError (g : GMachine) : GMachine :=
  g.takeInterrupt (g.cfg.divErrEntry.setWidth 64)

/-- Return from an interrupt routine: the registers that entry saved, then the PSW, then the PC are
popped (44_jump.md R256). -/
def GMachine.returnFromInterrupt (g : GMachine) : GMachine :=
  let g1 := if g.cfg.saveAll then g.cfg.saved.reverse.foldl GMachine.popReg g else g
  let p := g1.pop .l16
  let a := p.2.pop p.2.cfg.aw
  { a.2 with pc := a.1, psw := Psw.ofQuad p.1 }

/-- The processor has the operands an instruction reads and those it writes, none of which is immediate
(30_encoding.md R123, note 22). -/
def GMachine.operandsOk (g : GMachine) (srcs dsts : List GOperand) : Bool :=
  srcs.all g.cfg.available && dsts.all (fun o => g.cfg.available o && !o.isImm)

/-- The addressing check, before any effect of the instruction (60_exceptions.md R324). -/
def GMachine.checked (g : GMachine) (srcs dsts : List GOperand) (k : GMachine → GMachine) :
    GMachine :=
  if g.operandsOk srcs dsts then k g else g.addressingError

/-- The four indicators written, the other PSW bits kept. -/
def GMachine.setFlags (g : GMachine) (f : Flags) : GMachine := { g with psw := g.psw.withFlags f }

/-- The program counter written, as an address. -/
def GMachine.setPc (g : GMachine) (a : Quad) : GMachine := { g with pc := g.addr a }

/-- An effect on the generic machine alone. -/
def State.onGeneric (s : State) (f : GMachine → GMachine) : Result := .next { s with g := f s.g }

end Sys2Proof.Machine
end

