-- ==== Sys2Proof/Machine/GenericForms.lean ====
section
/-!
DEFINITION. The instruction forms of layer G with three, two, one and zero addresses
(30_encoding.md R91 to R94): where each form takes its sources from and puts its result
(41_arithmetic.md R163, R164, R172, R174; 43_shift.md R201), and an operation at a length.
-/

namespace Sys2Proof

/-- The operands a one-source form only reads. -/
def UnForm.sources : UnForm → List GOperand
  | .two a _ => [a]
  | .one _ => []
  | .zero => []

/-- The operands a one-source form writes. -/
def UnForm.dests : UnForm → List GOperand
  | .two _ b => [b]
  | .one a => [a]
  | .zero => []

/-- The operands of a shift: a is the source and b the destination of the three- and the two-address
form, whose field c is not used (43_shift.md R201). -/
def BinForm.shiftForm : BinForm → UnForm
  | .three a b _ => .two a b
  | .two a b | .twoSecond a b => .two a b
  | .one a => .one a
  | .zero => .zero

end Sys2Proof

namespace Sys2Proof.Machine

/-- Who is source and who is destination in a two-source form. -/
inductive Roles
  | separate (x y d : GOperand)    -- d <- x OP y
  | inFirst (x y : GOperand)       -- x <- x OP y
  | inSecond (x y : GOperand)      -- y <- x OP y
  | accumulator (y : GOperand)     -- ACC <- ACC OP y
  | stack                          -- the two topmost data
deriving DecidableEq, Repr

/-- The roles of the fields of a form under FMT: the destination is A3 or A1 of three addresses
(30_encoding.md R91), the first or the second of two (R92). Of `OC reg, mem/reg/imm`, which R95 only names,
it is the first, the register (note 37, the model's choice). The second opcode of a processor with both
writes its second operand (R92). The first source is always the one whose field comes first
(41_arithmetic.md R163). -/
def AddrFormat.roles (t : AddrFormat) : BinForm → Roles
  | .three a b c => if t = .threeAddress .a1 then .separate b c a else .separate a b c
  | .two a b => if t = .twoAddress .second then .inSecond a b else .inFirst a b
  | .twoSecond a b => .inSecond a b
  | .one a => .accumulator a
  | .zero => .stack

/-- The roles of the fields of CMP and TST, whatever FMT is: a and b are the sources, a field c is not used
(41_arithmetic.md R174, 42_logic.md R199), so nothing is written to the destination these roles name. -/
def compareRoles : BinForm → Roles
  | .three a b _ | .two a b | .twoSecond a b => .inFirst a b
  | .one a => .accumulator a
  | .zero => .stack

/-- The operands that are read. -/
def Roles.sources : Roles → List GOperand
  | .separate x y _ => [x, y]
  | .inFirst x y | .inSecond x y => [x, y]
  | .accumulator y => [y]
  | .stack => []

/-- The operands that are written; the accumulator and the stack are no operands. -/
def Roles.dests : Roles → List GOperand
  | .separate _ _ d => [d]
  | .inFirst x _ => [x]
  | .inSecond _ y => [y]
  | .accumulator _ | .stack => []

/-- Where the result of a two-source form goes. -/
inductive GDest
  | place (p : GPlace)      -- a location found already
  | operand (o : GOperand)  -- an operand not evaluated yet
  | stack                   -- the top of the stack
deriving DecidableEq, Repr

/-- The two sources of an instruction and the destination of its result. -/
structure Fetched where
  a : Quad
  b : Quad
  dest : GDest
deriving DecidableEq, Repr

/-- The sources of a two-source form, evaluated from left to right; a destination that is no source is
evaluated after them. The accumulator is the first source of the one-address form, the datum pushed
first that of the zero-address form (41_arithmetic.md R163, R164; note 20). -/
def GMachine.fetch (g : GMachine) (l : Len) : Roles → Fetched × GMachine
  | .separate x y d =>
    let u := g.readOperand l x
    let v := u.2.readOperand l y
    ({ a := u.1, b := v.1, dest := .operand d }, v.2)
  | .inFirst x y =>
    let u := g.locate l x
    let v := u.2.readOperand l y
    ({ a := u.1.value, b := v.1, dest := .place u.1.place }, v.2)
  | .inSecond x y =>
    let u := g.readOperand l x
    let v := u.2.locate l y
    ({ a := u.1, b := v.1.value, dest := .place v.1.place }, v.2)
  | .accumulator y =>
    let u := g.readOperand l y
    ({ a := l.trunc u.2.acc, b := u.1, dest := .place (.reg .acc) }, u.2)
  | .stack =>
    let t2 := g.pop l
    let t1 := t2.2.pop l
    ({ a := t1.1, b := t2.1, dest := .stack }, t1.2)

/-- A result delivered to its destination. -/
def GMachine.deliver (g : GMachine) (l : Len) (d : GDest) (v : Quad) : GMachine :=
  match d with
  | .place p => g.writePlace l p v
  | .operand o => g.writeOperand l o v
  | .stack => g.push l v

/-- A two-source operation in any form, its result written and the indicators set
(41_arithmetic.md R161, R163). -/
def GMachine.binary (g : GMachine) (l : Len) (f : BinForm) (op : Quad → Quad → Quad × Flags) :
    GMachine :=
  let o := g.cfg.fmt.roles f
  g.checked o.sources o.dests fun g =>
    let x := g.fetch l o
    let r := op x.1.a x.1.b
    (x.2.deliver l x.1.dest r.1).setFlags r.2

/-- A two-source operation that writes only the indicators, and the zero-address form pops both operands
(41_arithmetic.md R174, 42_logic.md R199). -/
def GMachine.probe (g : GMachine) (l : Len) (f : BinForm) (op : Quad → Quad → Quad × Flags) :
    GMachine :=
  let o := compareRoles f
  g.checked o.sources [] fun g =>
    let x := g.fetch l o
    x.2.setFlags (op x.1.a x.1.b).2

/-- A one-source operation in any form: from a to b, in place, or on the top of the stack. `op` sees
the operand and the old C (41_arithmetic.md R172, 43_shift.md R201, R202). -/
def GMachine.unary (g : GMachine) (l : Len) (f : UnForm) (op : Quad → Bool → Quad × Flags) :
    GMachine :=
  g.checked f.sources f.dests fun g =>
    match f with
    | .two a b =>
      let x := g.readOperand l a
      let r := op x.1 g.psw.c
      (x.2.writeOperand l b r.1).setFlags r.2
    | .one a =>
      let x := g.locate l a
      let r := op x.1.value g.psw.c
      (x.2.writePlace l x.1.place r.1).setFlags r.2
    | .zero =>
      let x := g.pop l
      let r := op x.1 g.psw.c
      (x.2.push l r.1).setFlags r.2

/-- An operation on words of any length, at the length of the operands (41_arithmetic.md R160). -/
def atLen (l : Len) (op : (n : Nat) → BitVec n → BitVec n → BitVec n × Flags) (a b : Quad) :
    Quad × Flags :=
  let r := op l.bits (a.setWidth l.bits) (b.setWidth l.bits)
  (r.1.setWidth 64, r.2)

/-- A logic operation at the length of the operands (42_logic.md R191). -/
def logicAt (l : Len) (op : (n : Nat) → BitVec n → BitVec n → BitVec n) (a b : Quad) :
    Quad × Flags :=
  atLen l (fun n x y => (op n x y, logF (op n x y))) a b

/-- A shift at the length of the operand (43_shift.md R202). -/
def shiftAt (l : Len) (sh : (n : Nat) → BitVec n → Bool → BitVec n × Bool) (a : Quad) (c : Bool) :
    Quad × Flags :=
  let r := sh l.bits (a.setWidth l.bits) c
  (r.1.setWidth 64, shiftFlags r.1 r.2)

/-- A shift in any form. -/
def GMachine.shift (g : GMachine) (l : Len) (f : BinForm)
    (sh : (n : Nat) → BitVec n → Bool → BitVec n × Bool) : GMachine :=
  g.unary l f.shiftForm (shiftAt l sh)

end Sys2Proof.Machine
end

