-- ==== Sys2Proof/Machine/GenericArithmetic.lean ====
section
/-!
DEFINITION. The arithmetic and logic instructions of layer G (41_arithmetic.md R170 to R176,
42_logic.md R195 to R199).
-/

namespace Sys2Proof.Machine

/-- ADD (41_arithmetic.md R170). -/
def execGAdd (l : Len) (f : BinForm) (s : State) : Result :=
  s.onGeneric (·.binary l f (atLen l fun _ => addF))

/-- SUB: the first operand is the minuend (41_arithmetic.md R171). -/
def execGSub (l : Len) (f : BinForm) (s : State) : Result :=
  s.onGeneric (·.binary l f (atLen l fun _ => subF))

/-- CMP (41_arithmetic.md R174). -/
def execGCmp (l : Len) (f : BinForm) (s : State) : Result :=
  s.onGeneric (·.probe l f (atLen l fun _ => subF))

/-- INC (41_arithmetic.md R172). -/
def execGInc (l : Len) (f : UnForm) (s : State) : Result :=
  s.onGeneric (·.unary l f fun a _ => atLen l (fun _ => addF) a 1)

/-- DEC (41_arithmetic.md R173). -/
def execGDec (l : Len) (f : UnForm) (s : State) : Result :=
  s.onGeneric (·.unary l f fun a _ => atLen l (fun _ => subF) a 1)

/-- The indicators of MUL and DIV on a result of length `rl`: N its most significant bit, Z whether
it is 0, C and V as MULDIV gives them (41_arithmetic.md R175). -/
def mulDivFlags (rl : Len) (r : Quad) (c v : Bool) : Flags :=
  { n := (r.setWidth rl.bits).msb, z := rl.trunc r == 0, c := c, v := v }

/-- MUL: product, its length and the indicators C and V are MULDIV's (41_arithmetic.md R175,
note 26: 64 bits at most). -/
def execGMul (t : IntType) (l : Len) (f : BinForm) (s : State) : Result :=
  let o := s.g.cfg.fmt.roles f
  s.onGeneric (·.checked o.sources o.dests fun g =>
    let x := g.fetch l o
    let r := Config.mulValue t l x.1.a x.1.b
    (x.2.deliver (Config.mulLen t l) x.1.dest r).setFlags
      (mulDivFlags (Config.mulLen t l) r (Config.mulC t l x.1.a x.1.b)
        (Config.mulV t l x.1.a x.1.b)))

/-- DIV: the dividend is the first operand. Where MULDIV reports an error the destination and the
indicators stay and the internal interrupt is taken (41_arithmetic.md R176, note 26). -/
def execGDiv (t : IntType) (l : Len) (f : BinForm) (s : State) : Result :=
  let o := s.g.cfg.fmt.roles f
  s.onGeneric (·.checked o.sources o.dests fun g =>
    let x := g.fetch l o
    if Config.divError t l x.1.a x.1.b then x.2.divideError
    else
      let r := Config.divValue t l x.1.a x.1.b
      (x.2.deliver (Config.divLen t l) x.1.dest r).setFlags
        (mulDivFlags (Config.divLen t l) r (Config.divC t l x.1.a x.1.b)
          (Config.divV t l x.1.a x.1.b)))

/-- AND (42_logic.md R195). -/
def execGAnd (l : Len) (f : BinForm) (s : State) : Result :=
  s.onGeneric (·.binary l f (logicAt l fun _ a b => a &&& b))

/-- OR (42_logic.md R196). -/
def execGOr (l : Len) (f : BinForm) (s : State) : Result :=
  s.onGeneric (·.binary l f (logicAt l fun _ a b => a ||| b))

/-- XOR (42_logic.md R197). -/
def execGXor (l : Len) (f : BinForm) (s : State) : Result :=
  s.onGeneric (·.binary l f (logicAt l fun _ a b => a ^^^ b))

/-- TST (42_logic.md R199). -/
def execGTst (l : Len) (f : BinForm) (s : State) : Result :=
  s.onGeneric (·.probe l f (logicAt l fun _ a b => a &&& b))

/-- NOT (42_logic.md R198). -/
def execGNot (l : Len) (f : UnForm) (s : State) : Result :=
  s.onGeneric (·.unary l f fun a _ => logicAt l (fun _ x _ => ~~~x) a 0)

end Sys2Proof.Machine
end

