-- ==== Sys2Proof/Machine/GenericJump.lean ====
section
/-!
DEFINITION. The jumps of layer G, its interrupt instruction and return, and the mode-bit
instructions (44_jump.md R220 to R259, 45_misc.md R270, R271, R276). PC holds the address of the next
instruction (R223, note 8).
-/

namespace Sys2Proof.Machine

/-- JMP adresa (44_jump.md R220). -/
def execGJmp (adr : Quad) (s : State) : Result := s.onGeneric (·.setPc adr)

/-- JMPIND a: the effective address is the target; the modes that name no memory are illegal
addressing (44_jump.md R222). -/
def execGJmpind (a : GOperand) (s : State) : Result :=
  s.onGeneric fun g =>
    if g.cfg.available a then
      match g.place a with
      | (.mem ea, g1) => g1.setPc ea
      | (.reg _, _) | (.lit _, _) => g.addressingError
    else g.addressingError

/-- Bcc pom: the displacement is added to PC, the sum cut to an address (44_jump.md R258). Its width is open
(R223): the term carries it as 64 bits, sign-extended already (note 41, the model's choice). -/
def execGBcc (cc : Cond) (pom : Quad) (s : State) : Result :=
  s.onGeneric fun g => if g.psw.cond cc then g.setPc (g.pc + pom) else g

/-- Jcc adresa (44_jump.md R259). -/
def execGJcc (cc : Cond) (adr : Quad) (s : State) : Result :=
  s.onGeneric fun g => if g.psw.cond cc then g.setPc adr else g

/-- JSR adresa: `push(PC); PC <- adresa` (44_jump.md R253). -/
def execGJsr (adr : Quad) (s : State) : Result :=
  s.onGeneric fun g => (g.push g.cfg.aw g.pc).setPc adr

/-- RTS: `PC <- pop()` (44_jump.md R254). -/
def execGRts (s : State) : Result :=
  s.onGeneric fun g =>
    let v := g.pop g.cfg.aw
    v.2.setPc v.1

/-- INT adresa: the field is the routine's address or the number of its table entry, by INT_FIELD
(44_jump.md R255). -/
def execGInt (adr : Quad) (s : State) : Result :=
  s.onGeneric fun g =>
    match g.cfg.intField with
    | .address => g.takeInterruptAt adr
    | .entry => g.takeInterrupt adr

/-- RTI (44_jump.md R256). -/
def execGRti (s : State) : Result := s.onGeneric (·.returnFromInterrupt)

/-- INTE: `PSW.I <- 1` (45_misc.md R270). -/
def execGInte (s : State) : Result := s.onGeneric fun g => { g with psw := { g.psw with i := true } }

/-- INTD: `PSW.I <- 0` (45_misc.md R271). -/
def execGIntd (s : State) : Result :=
  s.onGeneric fun g => { g with psw := { g.psw with i := false } }

/-- NOP: nothing but the advance of PC, which precedes exec (45_misc.md R276, note 8). -/
def execGNop (s : State) : Result := s.onGeneric fun g => g

end Sys2Proof.Machine
end

