-- ==== Sys2Proof/Machine/GenericShift.lean ====
section
/-!
DEFINITION. The shifts and rotates of layer G (43_shift.md R200 to R217).
-/

namespace Sys2Proof.Machine

/-- ASR (43_shift.md R210). -/
def execGAsr (l : Len) (f : BinForm) (s : State) : Result := s.onGeneric (·.shift l f fun _ => asrF)

/-- LSR (43_shift.md R211). -/
def execGLsr (l : Len) (f : BinForm) (s : State) : Result := s.onGeneric (·.shift l f fun _ => lsrF)

/-- ROR (43_shift.md R212). -/
def execGRor (l : Len) (f : BinForm) (s : State) : Result := s.onGeneric (·.shift l f fun _ => rorF)

/-- RORC (43_shift.md R213). -/
def execGRorc (l : Len) (f : BinForm) (s : State) : Result :=
  s.onGeneric (·.shift l f fun _ => rorcF)

/-- ASL (43_shift.md R214). -/
def execGAsl (l : Len) (f : BinForm) (s : State) : Result := s.onGeneric (·.shift l f fun _ => aslF)

/-- LSL (43_shift.md R215). -/
def execGLsl (l : Len) (f : BinForm) (s : State) : Result := s.onGeneric (·.shift l f fun _ => lslF)

/-- ROL (43_shift.md R216). -/
def execGRol (l : Len) (f : BinForm) (s : State) : Result := s.onGeneric (·.shift l f fun _ => rolF)

/-- ROLC (43_shift.md R217). -/
def execGRolc (l : Len) (f : BinForm) (s : State) : Result :=
  s.onGeneric (·.shift l f fun _ => rolcF)

end Sys2Proof.Machine
end

