-- ==== Sys2Proof/Machine/GenericTransfer.lean ====
section
/-!
DEFINITION. The transfer instructions of layer G (40_transfer.md R130 to R139, R150, R151). None
changes an indicator but POPPSW, which loads the whole PSW (R141).
-/

namespace Sys2Proof.Machine

/-- The value of `a` copied to `b` (40_transfer.md R130). -/
def GMachine.move (g : GMachine) (l : Len) (a b : GOperand) : GMachine :=
  g.checked [a] [b] fun g =>
    let x := g.readOperand l a
    x.2.writeOperand l b x.1

/-- MOV a, b (40_transfer.md R130). -/
def execGMov (l : Len) (a b : GOperand) (s : State) : Result := s.onGeneric (·.move l a b)

/-- MOV a, -, b: the middle field is ignored, its addressing mode too (40_transfer.md R131). -/
def execGMov3 (l : Len) (a _unused b : GOperand) (s : State) : Result := s.onGeneric (·.move l a b)

/-- A register of a peripheral controller in the separate I/O space, of 2^64 registers of 64 bits
(20_memory.md R62, R78; note 32). -/
def GMachine.readIo (g : GMachine) (r : Quad) : Quad := g.io.readSpan (8 * r.toNat) 8

/-- A register of a peripheral controller written (note 32). -/
def GMachine.writeIo (g : GMachine) (r v : Quad) : GMachine :=
  { g with io := g.io.writeSpan (8 * r.toNat) 8 v }

/-- The instructions IN and OUT exist where the I/O space is separate; elsewhere their code is
illegal (40_transfer.md R132, note 23). -/
def GMachine.withSeparateIo (g : GMachine) (k : GMachine → GMachine) : GMachine :=
  match g.cfg.iospace with
  | .separate => k g
  | .memoryMapped => g.illegalOpcode

/-- IN regper, regproc: regproc is a data register or a GPR (40_transfer.md R132, note 40). -/
def execGIn (regper : Quad) (regproc : Nat) (s : State) : Result :=
  s.onGeneric (·.withSeparateIo (·.checked [] [.regdir regproc] fun g =>
    g.writeReg (g.cfg.dataReg regproc) (g.readIo regper)))

/-- OUT regproc, regper (40_transfer.md R133, note 40). -/
def execGOut (regproc : Nat) (regper : Quad) (s : State) : Result :=
  s.onGeneric (·.withSeparateIo (·.checked [.regdir regproc] [] fun g =>
    g.writeIo regper (g.readReg (g.cfg.dataReg regproc))))

/-- IN regper: the accumulator is the destination (40_transfer.md R134). -/
def execGIn1 (regper : Quad) (s : State) : Result :=
  s.onGeneric (·.withSeparateIo fun g => g.writeReg .acc (g.readIo regper))

/-- OUT regper: the accumulator is the source (40_transfer.md R135). -/
def execGOut1 (regper : Quad) (s : State) : Result :=
  s.onGeneric (·.withSeparateIo fun g => g.writeIo regper g.acc)

/-- LOAD a (40_transfer.md R136). -/
def execGLoad (l : Len) (a : GOperand) (s : State) : Result :=
  s.onGeneric (·.checked [a] [] fun g =>
    let x := g.readOperand l a
    x.2.writePlace l (.reg .acc) x.1)

/-- STORE b (40_transfer.md R137). -/
def execGStore (l : Len) (b : GOperand) (s : State) : Result :=
  s.onGeneric (·.checked [] [b] fun g => g.writeOperand l b (l.trunc g.acc))

/-- PUSH a: the operand is read, then pushed by the variant STACK (40_transfer.md R138, note 30). -/
def execGPush (l : Len) (a : GOperand) (s : State) : Result :=
  s.onGeneric (·.checked [a] [] fun g =>
    let x := g.readOperand l a
    x.2.push l x.1)

/-- POP b in the order of the pseudocode: SP moves after the write where it points to the last
occupied location, before it where it points to the first free one (40_transfer.md R139, note 30). -/
def GMachine.popTo (g : GMachine) (l : Len) (b : GOperand) : GMachine :=
  let v := g.readData l (g.topAddr (g.span l))
  match g.cfg.stackTop with
  | .lastOccupied => (g.writeOperand l b v).spPop (g.span l)
  | .firstFree => (g.spPop (g.span l)).writeOperand l b v

/-- POP b (40_transfer.md R139). -/
def execGPop (l : Len) (b : GOperand) (s : State) : Result :=
  s.onGeneric (·.checked [] [b] fun g => g.popTo l b)

/-- PUSHPSW: the PSW as a 16-bit datum (40_transfer.md R150, 10_state.md R27). -/
def execGPushpsw (s : State) : Result := s.onGeneric fun g => g.push .l16 g.psw.quad

/-- POPPSW: the whole PSW is replaced (40_transfer.md R151). -/
def execGPoppsw (s : State) : Result :=
  s.onGeneric fun g =>
    let v := g.pop .l16
    { v.2 with psw := Psw.ofQuad v.1 }

end Sys2Proof.Machine
end

