-- ==== Sys2Proof/Machine/Jump.lean ====
section
/-!
DEFINITION. The jump instructions of the RC (44_jump.md). PC is the address of the next instruction when the
instruction executes (R223).
-/

namespace Sys2Proof.Machine

/-- A relative conditional branch (44_jump.md R258). -/
def State.branch (s : State) (cc : Cond) (pom : Byte) : State :=
  if s.psw.cond cc then s.setPc (s.pc + sext16 pom) else s

/-- An absolute conditional jump (44_jump.md R259). -/
def State.jumpIf (s : State) (cc : Cond) (adr : Word) : State :=
  if s.psw.cond cc then s.setPc adr else s

/-- BEQL (44_jump.md R225). -/
def execBeql (pom : Byte) (s : State) : Result :=
  .next (s.branch .eql pom)

/-- BNEQ (44_jump.md R226). -/
def execBneq (pom : Byte) (s : State) : Result :=
  .next (s.branch .neq pom)

/-- BGRTU (44_jump.md R227). -/
def execBgrtu (pom : Byte) (s : State) : Result :=
  .next (s.branch .grtu pom)

/-- BGREU (44_jump.md R228). -/
def execBgreu (pom : Byte) (s : State) : Result :=
  .next (s.branch .greu pom)

/-- BLSSU (44_jump.md R229). -/
def execBlssu (pom : Byte) (s : State) : Result :=
  .next (s.branch .lssu pom)

/-- BLEQU (44_jump.md R230). -/
def execBlequ (pom : Byte) (s : State) : Result :=
  .next (s.branch .lequ pom)

/-- BGRT (44_jump.md R231). -/
def execBgrt (pom : Byte) (s : State) : Result :=
  .next (s.branch .grt pom)

/-- BGRE (44_jump.md R232). -/
def execBgre (pom : Byte) (s : State) : Result :=
  .next (s.branch .gre pom)

/-- BLSS (44_jump.md R233). -/
def execBlss (pom : Byte) (s : State) : Result :=
  .next (s.branch .lss pom)

/-- BLEQ (44_jump.md R234). -/
def execBleq (pom : Byte) (s : State) : Result :=
  .next (s.branch .leq pom)

/-- BNEG (44_jump.md R235). -/
def execBneg (pom : Byte) (s : State) : Result :=
  .next (s.branch .neg pom)

/-- BNNG (44_jump.md R236). -/
def execBnng (pom : Byte) (s : State) : Result :=
  .next (s.branch .nng pom)

/-- BOVF (44_jump.md R237). -/
def execBovf (pom : Byte) (s : State) : Result :=
  .next (s.branch .ovf pom)

/-- BNVF (44_jump.md R238). -/
def execBnvf (pom : Byte) (s : State) : Result :=
  .next (s.branch .nvf pom)

/-- JEQL (44_jump.md R239). -/
def execJeql (adr : Word) (s : State) : Result :=
  .next (s.jumpIf .eql adr)

/-- JNEQ (44_jump.md R240). -/
def execJneq (adr : Word) (s : State) : Result :=
  .next (s.jumpIf .neq adr)

/-- JGRTU (44_jump.md R241). -/
def execJgrtu (adr : Word) (s : State) : Result :=
  .next (s.jumpIf .grtu adr)

/-- JGREU (44_jump.md R242). -/
def execJgreu (adr : Word) (s : State) : Result :=
  .next (s.jumpIf .greu adr)

/-- JLSSU (44_jump.md R243). -/
def execJlssu (adr : Word) (s : State) : Result :=
  .next (s.jumpIf .lssu adr)

/-- JLEQU (44_jump.md R244). -/
def execJlequ (adr : Word) (s : State) : Result :=
  .next (s.jumpIf .lequ adr)

/-- JGRT (44_jump.md R245). -/
def execJgrt (adr : Word) (s : State) : Result :=
  .next (s.jumpIf .grt adr)

/-- JGRE (44_jump.md R246). -/
def execJgre (adr : Word) (s : State) : Result :=
  .next (s.jumpIf .gre adr)

/-- JLSS (44_jump.md R247). -/
def execJlss (adr : Word) (s : State) : Result :=
  .next (s.jumpIf .lss adr)

/-- JLEQ (44_jump.md R248). -/
def execJleq (adr : Word) (s : State) : Result :=
  .next (s.jumpIf .leq adr)

/-- JNEG (44_jump.md R249). -/
def execJneg (adr : Word) (s : State) : Result :=
  .next (s.jumpIf .neg adr)

/-- JNNG (44_jump.md R250). -/
def execJnng (adr : Word) (s : State) : Result :=
  .next (s.jumpIf .nng adr)

/-- JOVF (44_jump.md R251). -/
def execJovf (adr : Word) (s : State) : Result :=
  .next (s.jumpIf .ovf adr)

/-- JNVF (44_jump.md R252). -/
def execJnvf (adr : Word) (s : State) : Result :=
  .next (s.jumpIf .nvf adr)

/-- JMP: `PC <- adresa` (44_jump.md R220). -/
def execJmp (adr : Word) (s : State) : Result :=
  .next (s.setPc adr)

/-- JMPIND: the effective address becomes PC and the location is not read; register-direct and
immediate addressing are an addressing error (44_jump.md R222). -/
def execJmpind (o : Operand 16) (s : State) : Result :=
  .next (match s.place o with
    | (.mem ea, s1) => s1.setPc ea
    | (.reg _, _) | (.lit _, _) => s.addressingError)

/-- JSR: PC pushed, high byte first, then the jump (44_jump.md R253). -/
def execJsr (adr : Word) (s : State) : Result :=
  .next ((s.push16 s.pc).setPc adr)

/-- RTS: PC popped, low byte first (44_jump.md R254). -/
def execRts (s : State) : Result :=
  .next (s.pop16.2.setPc s.pop16.1)

/-- INT: the request of entry `nn` is raised and served at once (44_jump.md R255, 60_exceptions.md R325;
note 9). -/
def execInt (nn : Byte) (s : State) : Result :=
  .next (s.interruptInstruction nn)

/-- RTI: PSW and PC popped (44_jump.md R256). -/
def execRti (s : State) : Result :=
  .next s.returnFromInterrupt

end Sys2Proof.Machine
end

