-- ==== Sys2Proof/Machine/Logic.lean ====
section
/-!
DEFINITION. The logic instructions of the RC (42_logic.md R192, R195 to R199).
-/

namespace Sys2Proof.Machine

/-- AND: `AB <- AB and operand`, N and Z of it, C and V 0 (42_logic.md R195). -/
def execAnd (o : Operand 8) (s : State) : Result :=
  .next (s.accumulate o fun a b => (a &&& b, logF (a &&& b)))

/-- OR: `AB <- AB or operand`, N and Z of it, C and V 0 (42_logic.md R196). -/
def execOr (o : Operand 8) (s : State) : Result :=
  .next (s.accumulate o fun a b => (a ||| b, logF (a ||| b)))

/-- XOR: `AB <- AB xor operand`, N and Z of it, C and V 0 (42_logic.md R197). -/
def execXor (o : Operand 8) (s : State) : Result :=
  .next (s.accumulate o fun a b => (a ^^^ b, logF (a ^^^ b)))

/-- NOT: the operand complemented in place (42_logic.md R198). -/
def execNot (o : Operand 8) (s : State) : Result :=
  .next (s.modify o fun v _ => (~~~v, logF (~~~v)))

/-- TST: the indicators of `AB and operand` (42_logic.md R199). -/
def execTst (o : Operand 8) (s : State) : Result :=
  .next (s.compare o fun a b => logF (a &&& b))

end Sys2Proof.Machine
end

