-- ==== Sys2Proof/Machine/LoopControl.lean ====
section
/-!
DEFINITION. The loop-control instructions of layer G (47_loop_control.md R300 to R308). The
indicators are unchanged; PC is the address of the next instruction, for CASE that of the table.
-/

namespace Sys2Proof.Machine

/-- The signed comparison at a length (47_loop_control.md R300). -/
def sleAt (l : Len) (a b : Quad) : Bool := (a.setWidth l.bits).sle (b.setWidth l.bits)

/-- The end of ACB, AOB and SOB: where the condition holds, the jump is taken and the index written;
where not, neither (47_loop_control.md R302). -/
def GMachine.loopTo (g : GMachine) (l : Len) (index : GPlace) (v : Quad) (taken : Bool)
    (displ : Quad) : GMachine :=
  if taken then (g.writePlace l index v).setPc (g.pc + displ) else g

/-- ACB limit, step, index, displ (47_loop_control.md R302). -/
def execGAcb (l : Len) (limit step index : GOperand) (displ : Quad) (s : State) : Result :=
  s.onGeneric (·.checked [limit, step] [index] fun g =>
    let lim := g.readOperand l limit
    let st := lim.2.readOperand l step
    let ix := st.2.locate l index
    let v := l.trunc (ix.1.value + st.1)
    ix.2.loopTo l ix.1.place v (sleAt l v lim.1) displ)

/-- AOB limit, index, displ (47_loop_control.md R303). -/
def execGAob (l : Len) (limit index : GOperand) (displ : Quad) (s : State) : Result :=
  s.onGeneric (·.checked [limit] [index] fun g =>
    let lim := g.readOperand l limit
    let ix := lim.2.locate l index
    let v := l.trunc (ix.1.value + 1)
    ix.2.loopTo l ix.1.place v (sleAt l v lim.1) displ)

/-- SOB index, displ (47_loop_control.md R304). -/
def execGSob (l : Len) (index : GOperand) (displ : Quad) (s : State) : Result :=
  s.onGeneric (·.checked [] [index] fun g =>
    let ix := g.locate l index
    let v := l.trunc (ix.1.value - 1)
    ix.2.loopTo l ix.1.place v (sleAt l 0 v) displ)

/-- The next PC of CASE: PC is the address of displ[0], a displacement is one location
(47_loop_control.md R305, note 28). -/
def GMachine.caseTarget (g : GMachine) (l : Len) (sel base limit : Quad) : Quad :=
  if sleAt l base sel && sleAt l sel limit then
    g.pc + g.cfg.cell.sext (g.readCell (g.addr (g.pc + (l.sext sel - l.sext base))))
  else g.pc + (l.sext limit - l.sext base + 1)

/-- CASE selector, base, limit: refused where base is above limit, which the spec does not define
(47_loop_control.md R305, 93_implementation_defined.md U3, note 28). -/
def execGCase (l : Len) (selector base limit : GOperand) (s : State) : Result :=
  if s.g.operandsOk [selector, base, limit] [] then
    let sel := s.g.readOperand l selector
    let b := sel.2.readOperand l base
    let lim := b.2.readOperand l limit
    if sleAt l b.1 lim.1 then
      .next { s with g := lim.2.setPc (lim.2.caseTarget l sel.1 b.1 lim.1) }
    else .refused .caseBaseAboveLimit
  else .next { s with g := s.g.addressingError }

/-- `POLJE(pos, 1, base)`: the bit at a position of the byte at an address; positions outside 0 to 7
have none (47_loop_control.md R308, note 29). -/
def GMachine.polje (g : GMachine) (pos base : Quad) : Option Bool :=
  if pos.toNat ≤ 7 then some ((g.readData .l8 (g.addr base)).getLsbD pos.toNat) else none

/-- A branch on a bit of memory: refused outside the byte (47_loop_control.md R306 to R308,
93_implementation_defined.md U4, note 29). -/
def State.branchOnBit (s : State) (base pos : GOperand) (displ : Quad) (want : Bool) : Result :=
  if s.g.operandsOk [base, pos] [] then
    let b := s.g.readOperand s.g.cfg.aw base
    let p := b.2.readOperand .l8 pos
    match p.2.polje p.1 b.1 with
    | none => .refused .bitPositionOutsideByte
    | some bit => .next { s with g := if bit == want then p.2.setPc (p.2.pc + displ) else p.2 }
  else .next { s with g := s.g.addressingError }

/-- BBS base, pos, displ (47_loop_control.md R306). -/
def execGBbs (base pos : GOperand) (displ : Quad) (s : State) : Result :=
  s.branchOnBit base pos displ true

/-- BBC base, pos, displ (47_loop_control.md R307). -/
def execGBbc (base pos : GOperand) (displ : Quad) (s : State) : Result :=
  s.branchOnBit base pos displ false

end Sys2Proof.Machine
end

