-- ==== Sys2Proof/Machine/Misc.lean ====
section
/-!
DEFINITION. The mode-setting instructions and NOP (45_misc.md). Each changes one PSW bit and nothing else; the end
of the instruction sees the new value (R278).
-/

namespace Sys2Proof.Machine

/-- NOP: nothing beyond the fetch (45_misc.md R276). -/
def execNop (s : State) : Result :=
  .next s

/-- PRPD: `PSW.P <- 0` (45_misc.md R275). -/
def execPrpd (s : State) : Result :=
  .next (s.setPsw { s.psw with p := false })

/-- PRPE: `PSW.P <- 1` (45_misc.md R274). -/
def execPrpe (s : State) : Result :=
  .next (s.setPsw { s.psw with p := true })

/-- INTD: `PSW.I <- 0` (45_misc.md R271). -/
def execIntd (s : State) : Result :=
  .next (s.setPsw { s.psw with i := false })

/-- INTE: `PSW.I <- 1` (45_misc.md R270). -/
def execInte (s : State) : Result :=
  .next (s.setPsw { s.psw with i := true })

/-- TRPD: `PSW.T <- 0` (45_misc.md R273). -/
def execTrpd (s : State) : Result :=
  .next (s.setPsw { s.psw with t := false })

/-- TRPE: `PSW.T <- 1` (45_misc.md R272). -/
def execTrpe (s : State) : Result :=
  .next (s.setPsw { s.psw with t := true })

end Sys2Proof.Machine
end

