-- ==== Sys2Proof/Machine/Shift.lean ====
section
/-!
DEFINITION. The shift and rotate instructions of the RC (43_shift.md R204, R210 to R217).
-/

namespace Sys2Proof.Machine

/-- A shift or rotate of the operand by one place, in place, with the indicators of 43_shift.md R202;
the C that enters is the one before the instruction. -/
def State.shift (s : State) (o : Operand 8) (f : Byte → Bool → Byte × Bool) : State :=
  s.modify o fun v c => ((f v c).1, shiftFlags (f v c).1 (f v c).2)

/-- ASR (43_shift.md R210). -/
def execAsr (o : Operand 8) (s : State) : Result :=
  .next (s.shift o asrF)

/-- LSR (43_shift.md R211). -/
def execLsr (o : Operand 8) (s : State) : Result :=
  .next (s.shift o lsrF)

/-- ROR (43_shift.md R212). -/
def execRor (o : Operand 8) (s : State) : Result :=
  .next (s.shift o rorF)

/-- RORC (43_shift.md R213). -/
def execRorc (o : Operand 8) (s : State) : Result :=
  .next (s.shift o rorcF)

/-- ASL (43_shift.md R214). -/
def execAsl (o : Operand 8) (s : State) : Result :=
  .next (s.shift o aslF)

/-- LSL (43_shift.md R215). -/
def execLsl (o : Operand 8) (s : State) : Result :=
  .next (s.shift o lslF)

/-- ROL (43_shift.md R216). -/
def execRol (o : Operand 8) (s : State) : Result :=
  .next (s.shift o rolF)

/-- ROLC (43_shift.md R217). -/
def execRolc (o : Operand 8) (s : State) : Result :=
  .next (s.shift o rolcF)

end Sys2Proof.Machine
end

