-- ==== Sys2Proof/Machine/Strings.lean ====
section
/-!
DEFINITION. The string instructions of layer G (46_string.md R280 to R289). The operands `len` and `addr`
of a string are locations (R281): an instruction evaluates its operands once, and then reads and updates
the locations character by character, in ascending order, in the order of the pseudocode (R282 to R288,
92_eei_decisions.md D41, D42), so that every read finds what the updates and the stored characters have
left. It is atomic, and only Z and C are written (R288, note 27).
-/

namespace Sys2Proof.Machine

/-- Where the length and the address of a string are held (46_string.md R281). -/
structure StringPlace where
  len : GPlace
  addr : GPlace
deriving DecidableEq, Repr

/-- What the locations of a string hold: the length of what is left and the address of its next character
(46_string.md R281). -/
structure Strand where
  len : Quad
  addr : Quad
deriving DecidableEq, Repr

/-- A character at an address, 8 bits (46_string.md R281). -/
def GMachine.readChar (g : GMachine) (a : Quad) : Quad := g.readData .l8 (g.addr a)

/-- A character stored. -/
def GMachine.writeChar (g : GMachine) (a c : Quad) : GMachine := g.writeData .l8 (g.addr a) c

/-- The two operands of a string evaluated, length first (note 20). -/
def GMachine.locateString (g : GMachine) (len addr : GOperand) : StringPlace × GMachine :=
  let x := g.place len
  let y := x.2.place addr
  ({ len := x.1, addr := y.1 }, y.2)

/-- The string its locations describe: lengths have the word length of the instruction, addresses AW_ADDR
bits (46_string.md R281). -/
def GMachine.strand (g : GMachine) (l : Len) (w : StringPlace) : Strand :=
  { len := g.readPlace l w.len, addr := g.readPlace g.cfg.aw w.addr }

/-- The address location of a string incremented (46_string.md R281). -/
def GMachine.bumpAddr (g : GMachine) (w : StringPlace) : GMachine :=
  g.writePlace g.cfg.aw w.addr (g.readPlace g.cfg.aw w.addr + 1)

/-- The length location of a string decremented (46_string.md R281). -/
def GMachine.dropLen (g : GMachine) (l : Len) (w : StringPlace) : GMachine :=
  g.writePlace l w.len (g.readPlace l w.len - 1)

/-- The locations of a string moved past one character, address first (46_string.md R282 to R287). -/
def GMachine.stepString (g : GMachine) (l : Len) (w : StringPlace) : GMachine :=
  (g.bumpAddr w).dropLen l w

/-- The locations of a string that is not exhausted moved past one character; those of an exhausted string
are no longer moved (46_string.md R284). -/
def GMachine.stepIfAny (g : GMachine) (l : Len) (w : StringPlace) : GMachine :=
  if (g.strand l w).len = 0 then g else g.stepString l w

/-- The first character of a string, FILL if the string is exhausted (46_string.md R284). -/
def GMachine.charOr (g : GMachine) (fill : Quad) (p : Strand) : Quad :=
  if p.len = 0 then fill else g.readChar p.addr

/-- Z and C written, N and V unchanged (46_string.md R288). -/
def GMachine.setZC (g : GMachine) (z c : Bool) : GMachine := { g with psw := g.psw.withZC z c }

/-- What one turn of a string instruction's loop comes to: the loop has ended with a result, or it goes on
from a machine. -/
inductive Turn (α : Type)
  | ended (r : α)
  | goesOn (g : GMachine)
deriving DecidableEq, Repr

/-- 2^k turns of a loop, then `next` if it has not ended. -/
def GMachine.turns {α : Type} (turn : GMachine → Turn α) :
    Nat → (GMachine → Option α) → GMachine → Option α
  | 0, next, g =>
    match turn g with
    | .ended r => some r
    | .goesOn h => next h
  | k + 1, next, g => GMachine.turns turn k (GMachine.turns turn k next) g

/-- A loop followed for 2^k + 2^(k + 1) + ... turns, `n` terms. -/
def GMachine.follow {α : Type} (turn : GMachine → Turn α) : Nat → Nat → GMachine → Option α
  | 0, _, _ => none
  | n + 1, k, g => GMachine.turns turn k (GMachine.follow turn n (k + 1)) g

/-- How many bits the updates and the stores of a string instruction can change: those of memory and of the
registers an operand names. -/
def GMachine.bits (g : GMachine) : Nat :=
  8 * (g.cfg.cell.bytes * 2 ^ g.cfg.aw.bits) +
    64 * (g.dr.length + g.ar.length + g.br.length + g.xr.length + g.gpr.length + 3)

/-- The result of a loop, none if it never ends: more turns than the machine has states have met one state
twice (note 27). -/
def GMachine.loop {α : Type} (g : GMachine) (turn : GMachine → Turn α) : Option α :=
  GMachine.follow turn (g.bits + 1) 0 g

/-- A turn of the first loop of MOVC and MOVTC: a source character, put through `tr`, while both strings
have some (46_string.md R282, R283). -/
def GMachine.copyTurn (l : Len) (u v : StringPlace) (tr : GMachine → Quad → Quad) (g : GMachine) :
    Turn GMachine :=
  let p := g.strand l u
  let q := g.strand l v
  if q.len = 0 || p.len = 0 then .ended g
  else .goesOn
    (((((g.writeChar q.addr (tr g (g.readChar p.addr))).bumpAddr u).bumpAddr v).dropLen l u).dropLen l v)

/-- A turn of their second loop: FILL, as it is, to the rest of the destination (46_string.md R282,
R283). -/
def GMachine.fillTurn (l : Len) (v : StringPlace) (fill : Quad) (g : GMachine) : Turn GMachine :=
  let q := g.strand l v
  if q.len = 0 then .ended g else .goesOn ((g.writeChar q.addr fill).stepString l v)

/-- The two loops of MOVC and MOVTC (46_string.md R282, R283). -/
def GMachine.copyLoops (g : GMachine) (l : Len) (u v : StringPlace) (tr : GMachine → Quad → Quad)
    (fill : Quad) : Option GMachine :=
  (g.loop (GMachine.copyTurn l u v tr)).bind fun h => h.loop (GMachine.fillTurn l v fill)

/-- MOVC and MOVTC: the copy over the destination length, Z and C from the initial lengths
(46_string.md R282). -/
def GMachine.copyString (g : GMachine) (l : Len) (u v : StringPlace) (fill : Quad)
    (tr : GMachine → Quad → Quad) : Option GMachine :=
  let p := g.strand l u
  let q := g.strand l v
  (g.copyLoops l u v tr fill).map
    (·.setZC (p.len == q.len) (decide (p.len.toNat < q.len.toNat)))

/-- The effect of a string instruction after the addressing check; one that never ends has no next
state (note 27). -/
def State.onStrings (s : State) (srcs dsts : List GOperand) (k : GMachine → Option GMachine) : Result :=
  if s.g.operandsOk srcs dsts then
    match k s.g with
    | some g => .next { s with g := g }
    | none => .refused .stringNeverEnds
  else .next { s with g := s.g.addressingError }

/-- MOVC srclen, srcaddr, fill, dstlen, dstaddr (46_string.md R282). -/
def execGMovc (l : Len) (srclen srcaddr fill dstlen dstaddr : GOperand) (s : State) : Result :=
  s.onStrings [fill] [srclen, srcaddr, dstlen, dstaddr] fun g =>
    let x := g.locateString srclen srcaddr
    let f := x.2.readOperand .l8 fill
    let y := f.2.locateString dstlen dstaddr
    y.2.copyString l x.1 y.1 f.1 fun _ c => c

/-- MOVTC: each character is replaced by its entry of the table; FILL is not translated
(46_string.md R283). -/
def execGMovtc (l : Len) (srclen srcaddr fill tbladdr dstlen dstaddr : GOperand) (s : State) :
    Result :=
  s.onStrings [fill, tbladdr] [srclen, srcaddr, dstlen, dstaddr] fun g =>
    let x := g.locateString srclen srcaddr
    let f := x.2.readOperand .l8 fill
    let t := f.2.readOperand g.cfg.aw tbladdr
    let y := t.2.locateString dstlen dstaddr
    y.2.copyString l x.1 y.1 f.1 fun g c => g.readChar (t.1 + c)

/-- A turn of the loop of CMPC: its result is the machine with the locations updated, Z and C. The pair that
ends the comparison is passed over too (46_string.md R284). -/
def GMachine.compareTurn (l : Len) (u v : StringPlace) (fill : Quad) (g : GMachine) :
    Turn (GMachine × Bool × Bool) :=
  let p := g.strand l u
  let q := g.strand l v
  if p.len = 0 && q.len = 0 then .ended (g, true, false)
  else
    let c1 := g.charOr fill p
    let c2 := g.charOr fill q
    let g1 := (g.stepIfAny l u).stepIfAny l v
    if c1 = c2 then .goesOn g1 else .ended (g1, false, decide (c1.toNat < c2.toNat))

/-- CMPC src1len, src1addr, fill, src2len, src2addr: over the length of the longer string
(46_string.md R284). -/
def execGCmpc (l : Len) (src1len src1addr fill src2len src2addr : GOperand) (s : State) : Result :=
  s.onStrings [fill] [src1len, src1addr, src2len, src2addr] fun g =>
    let x := g.locateString src1len src1addr
    let f := x.2.readOperand .l8 fill
    let y := f.2.locateString src2len src2addr
    (y.2.loop (GMachine.compareTurn l x.1 y.1 f.1)).map fun r => r.1.setZC r.2.1 r.2.2

/-- A turn of the loop of LOCC and SKPC, to and past the first character at which `stop` holds: its result is
the machine with the locations updated, and Z (46_string.md R285, R286). -/
def GMachine.scanTurn (l : Len) (w : StringPlace) (stop : Quad → Bool) (g : GMachine) :
    Turn (GMachine × Bool) :=
  let p := g.strand l w
  if p.len = 0 then .ended (g, true)
  else if stop (g.readChar p.addr) then .ended (g.stepString l w, false)
  else .goesOn (g.stepString l w)

/-- A scan for a character by a test; C is always 0 (46_string.md R285, R286). -/
def State.scan (s : State) (l : Len) (len addr char : GOperand) (test : Quad → Quad → Bool) : Result :=
  s.onStrings [char] [len, addr] fun g =>
    let x := g.locateString len addr
    let c := x.2.readOperand .l8 char
    (c.2.loop (GMachine.scanTurn l x.1 (test c.1))).map fun r => r.1.setZC r.2 false

/-- LOCC len, addr, char: to the first equal character (46_string.md R285). -/
def execGLocc (l : Len) (len addr char : GOperand) (s : State) : Result :=
  s.scan l len addr char fun c d => d == c

/-- SKPC len, addr, char: to the first different character (46_string.md R286). -/
def execGSkpc (l : Len) (len addr char : GOperand) (s : State) : Result :=
  s.scan l len addr char fun c d => d != c

/-- The first `n` characters at `a` and at `b` are equal (46_string.md R287). -/
def GMachine.sameChars (g : GMachine) (a b : Quad) : Nat → Bool
  | 0 => true
  | n + 1 => g.sameChars a b n &&
      g.readChar (a + BitVec.ofNat 64 n) == g.readChar (b + BitVec.ofNat 64 n)

/-- A turn of the loop of MATCHC: its result is the machine with the locations of the source string updated
after every unsuccessful position, so that they hold the string from the match on or what is shorter than
the substring, and Z (46_string.md R287). -/
def GMachine.matchTurn (l : Len) (u v : StringPlace) (g : GMachine) : Turn (GMachine × Bool) :=
  let p := g.strand l u
  let q := g.strand l v
  if p.len.toNat < q.len.toNat then .ended (g, true)
  else if g.sameChars p.addr q.addr q.len.toNat then .ended (g, false)
  else .goesOn (g.stepString l u)

/-- MATCHC src1len, src1addr, src2len, src2addr: the substring operands are not changed
(46_string.md R287), and so they can be immediate too, read as values (note 27, the model's choice: R281
calls them locations, with no restriction on their addressing modes). -/
def execGMatchc (l : Len) (src1len src1addr src2len src2addr : GOperand) (s : State) : Result :=
  s.onStrings [src2len, src2addr] [src1len, src1addr] fun g =>
    let x := g.locateString src1len src1addr
    let y := x.2.locateString src2len src2addr
    (y.2.loop (GMachine.matchTurn l x.1 y.1)).map fun r => r.1.setZC r.2 false

end Sys2Proof.Machine
end

