-- ==== Sys2Proof/Machine/Transfer.lean ====
section
/-!
DEFINITION. The transfer instructions of the RC (40_transfer.md R142 to R147). None changes the PSW (R141).
-/

namespace Sys2Proof.Machine

/-- LDB: `AB <- ReadOp(1)` (40_transfer.md R142). -/
def execLdb (o : Operand 8) (s : State) : Result :=
  .next ((s.readOp8 o).2.setAb (s.readOp8 o).1)

/-- LDW: `AW <- ReadOp(2)` (40_transfer.md R143). -/
def execLdw (o : Operand 16) (s : State) : Result :=
  .next { (s.readOp16 o).2 with aw := (s.readOp16 o).1 }

/-- STB: `WriteOp(1, AB)`; immediate addressing is an addressing error (40_transfer.md R144). -/
def execStb (o : Operand 8) (s : State) : Result :=
  .next (if o.allowed .noImm then s.writeOp8 o s.ab else s.addressingError)

/-- STW: `WriteOp(2, AW)`; immediate addressing is an addressing error (40_transfer.md R145). -/
def execStw (o : Operand 16) (s : State) : Result :=
  .next (if o.allowed .noImm then s.writeOp16 o s.aw else s.addressingError)

/-- STIMR: `IMR <- AW` (40_transfer.md R146). -/
def execStimr (s : State) : Result :=
  .next { s with imr := s.aw }

/-- STIVTP: `IVTP <- AW` (40_transfer.md R147). -/
def execStivtp (s : State) : Result :=
  .next { s with ivtp := s.aw }

end Sys2Proof.Machine
end

