-- ==== Sys2Proof/Machine/Dispatch.lean ====
section
/-!
DEFINITION. The dispatch: each instruction to its meaning, one arm per constructor. The RC acts on
the fields of the state, layer G on its field `g` (note 1).
-/

namespace Sys2Proof.Machine

/-- The meaning of an instruction, PC being the address of the next instruction (44_jump.md R223,
note 8). -/
def exec (i : Instr) (s : State) : Host.Outcome State Fault Refusal :=
  match i with
  | .nop => Sys2Proof.Machine.execNop s
  | .prpd => Sys2Proof.Machine.execPrpd s
  | .prpe => Sys2Proof.Machine.execPrpe s
  | .intd => Sys2Proof.Machine.execIntd s
  | .inte => Sys2Proof.Machine.execInte s
  | .trpd => Sys2Proof.Machine.execTrpd s
  | .trpe => Sys2Proof.Machine.execTrpe s
  | .stimr => Sys2Proof.Machine.execStimr s
  | .stivtp => Sys2Proof.Machine.execStivtp s
  | .rts => Sys2Proof.Machine.execRts s
  | .rti => Sys2Proof.Machine.execRti s
  | .int entry => Sys2Proof.Machine.execInt entry s
  | .beql pom => Sys2Proof.Machine.execBeql pom s
  | .bneq pom => Sys2Proof.Machine.execBneq pom s
  | .bgrtu pom => Sys2Proof.Machine.execBgrtu pom s
  | .bgreu pom => Sys2Proof.Machine.execBgreu pom s
  | .blssu pom => Sys2Proof.Machine.execBlssu pom s
  | .blequ pom => Sys2Proof.Machine.execBlequ pom s
  | .bgrt pom => Sys2Proof.Machine.execBgrt pom s
  | .bgre pom => Sys2Proof.Machine.execBgre pom s
  | .blss pom => Sys2Proof.Machine.execBlss pom s
  | .bleq pom => Sys2Proof.Machine.execBleq pom s
  | .bneg pom => Sys2Proof.Machine.execBneg pom s
  | .bnng pom => Sys2Proof.Machine.execBnng pom s
  | .bovf pom => Sys2Proof.Machine.execBovf pom s
  | .bnvf pom => Sys2Proof.Machine.execBnvf pom s
  | .jmp adr => Sys2Proof.Machine.execJmp adr s
  | .jsr adr => Sys2Proof.Machine.execJsr adr s
  | .jeql adr => Sys2Proof.Machine.execJeql adr s
  | .jneq adr => Sys2Proof.Machine.execJneq adr s
  | .jgrtu adr => Sys2Proof.Machine.execJgrtu adr s
  | .jgreu adr => Sys2Proof.Machine.execJgreu adr s
  | .jlssu adr => Sys2Proof.Machine.execJlssu adr s
  | .jlequ adr => Sys2Proof.Machine.execJlequ adr s
  | .jgrt adr => Sys2Proof.Machine.execJgrt adr s
  | .jgre adr => Sys2Proof.Machine.execJgre adr s
  | .jlss adr => Sys2Proof.Machine.execJlss adr s
  | .jleq adr => Sys2Proof.Machine.execJleq adr s
  | .jneg adr => Sys2Proof.Machine.execJneg adr s
  | .jnng adr => Sys2Proof.Machine.execJnng adr s
  | .jovf adr => Sys2Proof.Machine.execJovf adr s
  | .jnvf adr => Sys2Proof.Machine.execJnvf adr s
  | .jmpind o => Sys2Proof.Machine.execJmpind o s
  | .ldb o => Sys2Proof.Machine.execLdb o s
  | .ldw o => Sys2Proof.Machine.execLdw o s
  | .stb o => Sys2Proof.Machine.execStb o s
  | .stw o => Sys2Proof.Machine.execStw o s
  | .add o => Sys2Proof.Machine.execAdd o s
  | .sub o => Sys2Proof.Machine.execSub o s
  | .inc o => Sys2Proof.Machine.execInc o s
  | .dec o => Sys2Proof.Machine.execDec o s
  | .cmp o => Sys2Proof.Machine.execCmp o s
  | .and o => Sys2Proof.Machine.execAnd o s
  | .or o => Sys2Proof.Machine.execOr o s
  | .xor o => Sys2Proof.Machine.execXor o s
  | .not o => Sys2Proof.Machine.execNot o s
  | .tst o => Sys2Proof.Machine.execTst o s
  | .asr o => Sys2Proof.Machine.execAsr o s
  | .lsr o => Sys2Proof.Machine.execLsr o s
  | .ror o => Sys2Proof.Machine.execRor o s
  | .rorc o => Sys2Proof.Machine.execRorc o s
  | .asl o => Sys2Proof.Machine.execAsl o s
  | .lsl o => Sys2Proof.Machine.execLsl o s
  | .rol o => Sys2Proof.Machine.execRol o s
  | .rolc o => Sys2Proof.Machine.execRolc o s
  | .gMov l a b => Sys2Proof.Machine.execGMov l a b s
  | .gMov3 l a unused b => Sys2Proof.Machine.execGMov3 l a unused b s
  | .gIn regper regproc => Sys2Proof.Machine.execGIn regper regproc s
  | .gOut regproc regper => Sys2Proof.Machine.execGOut regproc regper s
  | .gIn1 regper => Sys2Proof.Machine.execGIn1 regper s
  | .gOut1 regper => Sys2Proof.Machine.execGOut1 regper s
  | .gLoad l a => Sys2Proof.Machine.execGLoad l a s
  | .gStore l b => Sys2Proof.Machine.execGStore l b s
  | .gPush l a => Sys2Proof.Machine.execGPush l a s
  | .gPop l b => Sys2Proof.Machine.execGPop l b s
  | .gPushpsw => Sys2Proof.Machine.execGPushpsw s
  | .gPoppsw => Sys2Proof.Machine.execGPoppsw s
  | .gMul t l f => Sys2Proof.Machine.execGMul t l f s
  | .gDiv t l f => Sys2Proof.Machine.execGDiv t l f s
  | .gMovc l srclen srcaddr fill dstlen dstaddr => Sys2Proof.Machine.execGMovc l srclen srcaddr fill dstlen dstaddr s
  | .gMovtc l srclen srcaddr fill tbladdr dstlen dstaddr => Sys2Proof.Machine.execGMovtc l srclen srcaddr fill tbladdr dstlen dstaddr s
  | .gCmpc l src1len src1addr fill src2len src2addr => Sys2Proof.Machine.execGCmpc l src1len src1addr fill src2len src2addr s
  | .gLocc l len addr char => Sys2Proof.Machine.execGLocc l len addr char s
  | .gSkpc l len addr char => Sys2Proof.Machine.execGSkpc l len addr char s
  | .gMatchc l src1len src1addr src2len src2addr => Sys2Proof.Machine.execGMatchc l src1len src1addr src2len src2addr s
  | .gAcb l limit step index displ => Sys2Proof.Machine.execGAcb l limit step index displ s
  | .gAob l limit index displ => Sys2Proof.Machine.execGAob l limit index displ s
  | .gSob l index displ => Sys2Proof.Machine.execGSob l index displ s
  | .gCase l selector base limit => Sys2Proof.Machine.execGCase l selector base limit s
  | .gBbs base pos displ => Sys2Proof.Machine.execGBbs base pos displ s
  | .gBbc base pos displ => Sys2Proof.Machine.execGBbc base pos displ s
  | .gAdd l f => Sys2Proof.Machine.execGAdd l f s
  | .gSub l f => Sys2Proof.Machine.execGSub l f s
  | .gCmp l f => Sys2Proof.Machine.execGCmp l f s
  | .gAnd l f => Sys2Proof.Machine.execGAnd l f s
  | .gOr l f => Sys2Proof.Machine.execGOr l f s
  | .gXor l f => Sys2Proof.Machine.execGXor l f s
  | .gTst l f => Sys2Proof.Machine.execGTst l f s
  | .gInc l f => Sys2Proof.Machine.execGInc l f s
  | .gDec l f => Sys2Proof.Machine.execGDec l f s
  | .gNot l f => Sys2Proof.Machine.execGNot l f s
  | .gAsr l f => Sys2Proof.Machine.execGAsr l f s
  | .gLsr l f => Sys2Proof.Machine.execGLsr l f s
  | .gRor l f => Sys2Proof.Machine.execGRor l f s
  | .gRorc l f => Sys2Proof.Machine.execGRorc l f s
  | .gAsl l f => Sys2Proof.Machine.execGAsl l f s
  | .gLsl l f => Sys2Proof.Machine.execGLsl l f s
  | .gRol l f => Sys2Proof.Machine.execGRol l f s
  | .gRolc l f => Sys2Proof.Machine.execGRolc l f s
  | .gJmp adr => Sys2Proof.Machine.execGJmp adr s
  | .gJmpind a => Sys2Proof.Machine.execGJmpind a s
  | .gBcc cc pom => Sys2Proof.Machine.execGBcc cc pom s
  | .gJcc cc adr => Sys2Proof.Machine.execGJcc cc adr s
  | .gJsr adr => Sys2Proof.Machine.execGJsr adr s
  | .gRts => Sys2Proof.Machine.execGRts s
  | .gInt adr => Sys2Proof.Machine.execGInt adr s
  | .gRti => Sys2Proof.Machine.execGRti s
  | .gInte => Sys2Proof.Machine.execGInte s
  | .gIntd => Sys2Proof.Machine.execGIntd s
  | .gNop => Sys2Proof.Machine.execGNop s

end Sys2Proof.Machine
end

