-- ==== Sys2Proof/Decode.lean ====
section
/-!
DEFINITION. The decoder of the RC, total on every byte string (30_encoding.md R99 to R112), and after
it the encoder. The opcode bytes and mode codes are the tables `OPC` (R112) and `AMCODE` (R106) at
their default values (note 12).
-/

namespace Sys2Proof

/-- Why a byte string is no RC instruction. `illegalOpcode` sets PRCOD (30_encoding.md R111),
`illegalAddressing` sets PRADR (R110). `truncated`: the list ended before the instruction did; the
fetch then reads another byte; four are always enough. -/
inductive DecodeError
  | illegalOpcode
  | illegalAddressing
  | truncated
deriving DecidableEq, Repr

/-- The four layouts of 30_encoding.md R99, each with the constructor it builds; a layout-A opcode
also fixes the operand width and the modes it admits (R101, R110). -/
inductive Layout
  | n (i : Instr)
  | b (mk : Byte → Instr)
  | j (mk : Word → Instr)
  | a8 (r : ModeRule) (mk : Operand 8 → Instr)
  | a16 (r : ModeRule) (mk : Operand 16 → Instr)

/-- Layout N: one byte (30_encoding.md R112). -/
def opcodesN : List (Byte × Layout) :=
  [ (0x00#8, .n .nop),
    (0x01#8, .n .prpd),
    (0x02#8, .n .prpe),
    (0x03#8, .n .intd),
    (0x04#8, .n .inte),
    (0x05#8, .n .trpd),
    (0x06#8, .n .trpe),
    (0x07#8, .n .stimr),
    (0x08#8, .n .stivtp),
    (0x09#8, .n .rts),
    (0x0A#8, .n .rti) ]

/-- Layout B: opcode and operand byte (30_encoding.md R112, R105). -/
def opcodesB : List (Byte × Layout) :=
  [ (0x10#8, .b .int),
    (0x20#8, .b .beql),
    (0x21#8, .b .bneq),
    (0x22#8, .b .bgrtu),
    (0x23#8, .b .bgreu),
    (0x24#8, .b .blssu),
    (0x25#8, .b .blequ),
    (0x26#8, .b .bgrt),
    (0x27#8, .b .bgre),
    (0x28#8, .b .blss),
    (0x29#8, .b .bleq),
    (0x2A#8, .b .bneg),
    (0x2B#8, .b .bnng),
    (0x2C#8, .b .bovf),
    (0x2D#8, .b .bnvf) ]

/-- Layout J: opcode and absolute address (30_encoding.md R112, R104). -/
def opcodesJ : List (Byte × Layout) :=
  [ (0x30#8, .j .jmp),
    (0x31#8, .j .jsr),
    (0x40#8, .j .jeql),
    (0x41#8, .j .jneq),
    (0x42#8, .j .jgrtu),
    (0x43#8, .j .jgreu),
    (0x44#8, .j .jlssu),
    (0x45#8, .j .jlequ),
    (0x46#8, .j .jgrt),
    (0x47#8, .j .jgre),
    (0x48#8, .j .jlss),
    (0x49#8, .j .jleq),
    (0x4A#8, .j .jneg),
    (0x4B#8, .j .jnng),
    (0x4C#8, .j .jovf),
    (0x4D#8, .j .jnvf) ]

/-- Layout A: opcode and address part (30_encoding.md R112, R110). -/
def opcodesA : List (Byte × Layout) :=
  [ (0x50#8, .a16 .memOnly .jmpind),
    (0x60#8, .a8 .any .ldb),
    (0x61#8, .a16 .any .ldw),
    (0x62#8, .a8 .noImm .stb),
    (0x63#8, .a16 .noImm .stw),
    (0x70#8, .a8 .any .add),
    (0x71#8, .a8 .any .sub),
    (0x72#8, .a8 .noImm .inc),
    (0x73#8, .a8 .noImm .dec),
    (0x74#8, .a8 .any .cmp),
    (0x80#8, .a8 .any .and),
    (0x81#8, .a8 .any .or),
    (0x82#8, .a8 .any .xor),
    (0x83#8, .a8 .noImm .not),
    (0x84#8, .a8 .any .tst),
    (0x90#8, .a8 .noImm .asr),
    (0x91#8, .a8 .noImm .lsr),
    (0x92#8, .a8 .noImm .ror),
    (0x93#8, .a8 .noImm .rorc),
    (0x94#8, .a8 .noImm .asl),
    (0x95#8, .a8 .noImm .lsl),
    (0x96#8, .a8 .noImm .rol),
    (0x97#8, .a8 .noImm .rolc) ]

/-- `OPC`: the operation codes of the RC (30_encoding.md R112). -/
def opcodes : List (Byte × Layout) := opcodesN ++ opcodesB ++ opcodesJ ++ opcodesA

/-- The layout of an opcode byte, none when `gropr` is 1 (30_encoding.md R111). -/
def opcodeLayout (b1 : Byte) : Option Layout := opcodes.lookup b1

/-- The mode codes without a meaning, 5 and C to F (`AMCODE`, 30_encoding.md R106). -/
def modeReserved (am : RegNo) : Bool := am = 0x5#4 || 0xC#4 ≤ am

/-- `badmode`: the address part is illegal under the opcode's rule (30_encoding.md R110). -/
def badMode (r : ModeRule) (am : RegNo) : Bool :=
  modeReserved am || (am = 0xB#4 && r != .any) || (am = 0x0#4 && r == .memOnly)

/-- The 16-bit field IR[15:0], high byte first (30_encoding.md R104). -/
def field16 : List Byte → Except DecodeError Word
  | h :: l :: _ => .ok (joinBytes h l)
  | _ => .error .truncated

/-- The 8-bit immediate IR[15:8] (30_encoding.md R101). -/
def field8 : List Byte → Except DecodeError Byte
  | b :: _ => .ok b
  | _ => .error .truncated

/-- The operand of an address part and the instruction's length, from the mode byte and the bytes
after it (30_encoding.md R101, R106); `imm` and `immBytes` read the immediate and say how long it
is. A reserved code has no operand. -/
def decodeOperand {w : Nat} (imm : List Byte → Except DecodeError (BitVec w)) (immBytes : Nat)
    (mode : Byte) (rest : List Byte) : Except DecodeError (Operand w × Nat) :=
  let r := loNibble mode
  match hiNibble mode with
  | 0x0#4 => .ok (.regdir r, 2)
  | 0x1#4 => .ok (.regind r, 2)
  | 0x2#4 => (field16 rest).map fun f => (.memdir f, 4)
  | 0x3#4 => (field16 rest).map fun f => (.memind f, 4)
  | 0x4#4 => (field16 rest).map fun f => (.regindpom r f, 4)
  | 0x6#4 => .ok (.preinc r, 2)
  | 0x7#4 => .ok (.postinc r, 2)
  | 0x8#4 => .ok (.predec r, 2)
  | 0x9#4 => .ok (.postdec r, 2)
  | 0xA#4 => (field16 rest).map fun f => (.pcpom f, 4)
  | 0xB#4 => (imm rest).map fun v => (.imm v, 2 + immBytes)
  | _ => .error .illegalAddressing

/-- A layout-A instruction after its opcode byte: the check `gradr` of byte 2 comes before any
further byte is looked at (30_encoding.md R100, R110). -/
def decodeA {w : Nat} (imm : List Byte → Except DecodeError (BitVec w)) (immBytes : Nat)
    (r : ModeRule) (mk : Operand w → Instr) : List Byte → Except DecodeError (Instr × Nat)
  | [] => .error .truncated
  | mode :: rest =>
    if badMode r (hiNibble mode) then .error .illegalAddressing
    else (decodeOperand imm immBytes mode rest).map fun p => (mk p.1, p.2)

/-- The decoder: the instruction at the head of a byte string and its length in bytes
(30_encoding.md R100, R101), or why there is none. -/
def decode : List Byte → Except DecodeError (Instr × Nat)
  | [] => .error .truncated
  | b1 :: rest =>
    match opcodeLayout b1 with
    | none => .error .illegalOpcode
    | some (.n i) => .ok (i, 1)
    | some (.b mk) => (field8 rest).map fun v => (mk v, 2)
    | some (.j mk) => (field16 rest).map fun v => (mk v, 3)
    | some (.a8 r mk) => decodeA field8 1 r mk rest
    | some (.a16 r mk) => decodeA field16 2 r mk rest

/-- The instruction the decoder reads from an instruction whose bits are `w`, numbered as
spec/opcode_table.json numbers them (note 14). -/
def decodeTableWord (nbits w : Nat) : Option Instr :=
  match decode (tableBytes nbits w) with
  | .ok (i, _) => some i
  | .error _ => none

/-- A 16-bit field as its two bytes, high byte first (30_encoding.md R104). -/
def bytesOf (v : Word) : List Byte := [hiByte v, loByte v]

/-- The address part of an operand (30_encoding.md R99, R106), with 0 in the ignored register
field (R124). -/
def encodeOperand {w : Nat} (imm : BitVec w → List Byte) : Operand w → List Byte
  | .regdir r => [modeByte 0x0#4 r]
  | .regind r => [modeByte 0x1#4 r]
  | .memdir f => modeByte 0x2#4 0#4 :: bytesOf f
  | .memind f => modeByte 0x3#4 0#4 :: bytesOf f
  | .regindpom r f => modeByte 0x4#4 r :: bytesOf f
  | .preinc r => [modeByte 0x6#4 r]
  | .postinc r => [modeByte 0x7#4 r]
  | .predec r => [modeByte 0x8#4 r]
  | .postdec r => [modeByte 0x9#4 r]
  | .pcpom f => modeByte 0xA#4 0#4 :: bytesOf f
  | .imm v => modeByte 0xB#4 0#4 :: imm v

/-- The address part of an 8-bit operand. -/
def encodeOp8 (o : Operand 8) : List Byte := encodeOperand (fun v => [v]) o

/-- The address part of a 16-bit operand. -/
def encodeOp16 (o : Operand 16) : List Byte := encodeOperand bytesOf o

/-- The bytes of an RC instruction (30_encoding.md R99, R112); none for a term of layer G, which has
no encoding (R96). -/
def encode : Instr → Option (List Byte)
  | .nop => some [0x00#8]
  | .prpd => some [0x01#8]
  | .prpe => some [0x02#8]
  | .intd => some [0x03#8]
  | .inte => some [0x04#8]
  | .trpd => some [0x05#8]
  | .trpe => some [0x06#8]
  | .stimr => some [0x07#8]
  | .stivtp => some [0x08#8]
  | .rts => some [0x09#8]
  | .rti => some [0x0A#8]
  | .int v => some [0x10#8, v]
  | .beql v => some [0x20#8, v]
  | .bneq v => some [0x21#8, v]
  | .bgrtu v => some [0x22#8, v]
  | .bgreu v => some [0x23#8, v]
  | .blssu v => some [0x24#8, v]
  | .blequ v => some [0x25#8, v]
  | .bgrt v => some [0x26#8, v]
  | .bgre v => some [0x27#8, v]
  | .blss v => some [0x28#8, v]
  | .bleq v => some [0x29#8, v]
  | .bneg v => some [0x2A#8, v]
  | .bnng v => some [0x2B#8, v]
  | .bovf v => some [0x2C#8, v]
  | .bnvf v => some [0x2D#8, v]
  | .jmp a => some (0x30#8 :: bytesOf a)
  | .jsr a => some (0x31#8 :: bytesOf a)
  | .jeql a => some (0x40#8 :: bytesOf a)
  | .jneq a => some (0x41#8 :: bytesOf a)
  | .jgrtu a => some (0x42#8 :: bytesOf a)
  | .jgreu a => some (0x43#8 :: bytesOf a)
  | .jlssu a => some (0x44#8 :: bytesOf a)
  | .jlequ a => some (0x45#8 :: bytesOf a)
  | .jgrt a => some (0x46#8 :: bytesOf a)
  | .jgre a => some (0x47#8 :: bytesOf a)
  | .jlss a => some (0x48#8 :: bytesOf a)
  | .jleq a => some (0x49#8 :: bytesOf a)
  | .jneg a => some (0x4A#8 :: bytesOf a)
  | .jnng a => some (0x4B#8 :: bytesOf a)
  | .jovf a => some (0x4C#8 :: bytesOf a)
  | .jnvf a => some (0x4D#8 :: bytesOf a)
  | .jmpind o => some (0x50#8 :: encodeOp16 o)
  | .ldb o => some (0x60#8 :: encodeOp8 o)
  | .ldw o => some (0x61#8 :: encodeOp16 o)
  | .stb o => some (0x62#8 :: encodeOp8 o)
  | .stw o => some (0x63#8 :: encodeOp16 o)
  | .add o => some (0x70#8 :: encodeOp8 o)
  | .sub o => some (0x71#8 :: encodeOp8 o)
  | .inc o => some (0x72#8 :: encodeOp8 o)
  | .dec o => some (0x73#8 :: encodeOp8 o)
  | .cmp o => some (0x74#8 :: encodeOp8 o)
  | .and o => some (0x80#8 :: encodeOp8 o)
  | .or o => some (0x81#8 :: encodeOp8 o)
  | .xor o => some (0x82#8 :: encodeOp8 o)
  | .not o => some (0x83#8 :: encodeOp8 o)
  | .tst o => some (0x84#8 :: encodeOp8 o)
  | .asr o => some (0x90#8 :: encodeOp8 o)
  | .lsr o => some (0x91#8 :: encodeOp8 o)
  | .ror o => some (0x92#8 :: encodeOp8 o)
  | .rorc o => some (0x93#8 :: encodeOp8 o)
  | .asl o => some (0x94#8 :: encodeOp8 o)
  | .lsl o => some (0x95#8 :: encodeOp8 o)
  | .rol o => some (0x96#8 :: encodeOp8 o)
  | .rolc o => some (0x97#8 :: encodeOp8 o)
  | .gMov _ _ _ | .gMov3 _ _ _ _ | .gIn _ _ | .gOut _ _ | .gIn1 _ | .gOut1 _ | .gLoad _ _
  | .gStore _ _ | .gPush _ _ | .gPop _ _ | .gPushpsw | .gPoppsw | .gMul _ _ _ | .gDiv _ _ _
  | .gMovc _ _ _ _ _ _ | .gMovtc _ _ _ _ _ _ _ | .gCmpc _ _ _ _ _ _ | .gLocc _ _ _ _
  | .gSkpc _ _ _ _ | .gMatchc _ _ _ _ _ | .gAcb _ _ _ _ _ | .gAob _ _ _ _ | .gSob _ _ _
  | .gCase _ _ _ _ | .gBbs _ _ _ | .gBbc _ _ _ | .gAdd _ _ | .gSub _ _ | .gCmp _ _ | .gAnd _ _
  | .gOr _ _ | .gXor _ _ | .gTst _ _ | .gInc _ _ | .gDec _ _ | .gNot _ _ | .gAsr _ _ | .gLsr _ _
  | .gRor _ _ | .gRorc _ _ | .gAsl _ _ | .gLsl _ _ | .gRol _ _ | .gRolc _ _ | .gJmp _ | .gJmpind _
  | .gBcc _ _ | .gJcc _ _ | .gJsr _ | .gRts | .gInt _ | .gRti | .gInte | .gIntd | .gNop => none

end Sys2Proof
end

