-- ==== Sys2Proof/Machine/Fetch.lean ====
section
/-!
DEFINITION. The fetch of an RC instruction (30_encoding.md R100) and the end of one, where the
service phase stands (60_exceptions.md R330).
-/

namespace Sys2Proof.Machine

/-- The fetch after the bytes `bs` were read: bytes at rising addresses, which wrap, until those read
decide, at most `n` more (30_encoding.md R100). So only byte 1 of an illegal opcode is read, only two bytes
of an addressing error, and of an instruction as many as it is long (20_memory.md R77). -/
def State.fetchFrom (s : State) (bs : List Byte) : Nat → Except DecodeError (Instr × Nat) × State
  | 0 => (decode bs, s)
  | n + 1 =>
    match decode bs with
    | .error .truncated =>
      let b := s.load8 (s.pc + BitVec.ofNat 16 bs.length)
      b.2.fetchFrom (bs ++ [b.1]) n
    | r => (r, s)

/-- The instruction at PC and its length, or why it is illegal, and the state after its bytes were read; the
longest instruction has four (30_encoding.md R99, R100). -/
def State.fetch (s : State) : Except DecodeError (Instr × Nat) × State := s.fetchFrom [] 4

/-- PC advanced over `n` bytes read (30_encoding.md R100, 10_state.md R39). -/
def State.advance (s : State) (n : Nat) : State := s.setPc (s.pc + BitVec.ofNat 16 n)

/-- The instruction is INT (44_jump.md R255). -/
def isInt : Instr → Bool
  | .int _ => true
  | _ => false

/-- The instruction is RTI, the operation signal in `prekid` (60_exceptions.md R331, R332). -/
def isRti : Instr → Bool
  | .rti => true
  | _ => false

/-- The service phase after an instruction. INT was served by its own meaning, and a service phase
serves one request only (60_exceptions.md R345, R349; note 9). -/
def State.endOfInstruction (s : State) (i : Instr) : State :=
  if isInt i then s else s.service 0 (isRti i)

/-- An illegal operation code: only PC was advanced, by 1, and PRCOD is set (60_exceptions.md R323). -/
def State.illegalOpcodeCycle (s : State) (inp : EnvInput) : State :=
  ((s.advance 1).latch inp).illegalOpcode

/-- An illegal addressing mode: only PC was advanced, by 2, and PRADR is set (60_exceptions.md
R324). -/
def State.illegalAddressingCycle (s : State) (inp : EnvInput) : State :=
  ((s.advance 2).latch inp).addressingError

/-- The end of the cycle of an instruction: the pulses of the transition are latched, then the
service phase runs (70_reset_and_hazards.md R389). A stop has no end of cycle. -/
def endCycle (i : Instr) (inp : EnvInput) : Result → Result
  | .next t => .next ((t.latch inp).endOfInstruction i)
  | .fault f => .fault f
  | .refused r => .refused r

/-- The bytes of an instruction placed from an address on. -/
def State.writeBytes (s : State) (a : Word) : List Byte → State
  | [] => s
  | b :: bs => (s.writeByte a b).writeBytes (a + 1) bs

/-- The next record of the environment has START = 1, so that the next transition fetches (note 4). -/
def startNext : List EnvInput → List EnvInput
  | [] => []
  | e :: es => { e with start := true } :: es

end Sys2Proof.Machine
end

