-- ==== Sys2Proof/Machine/Step.lean ====
section
/-!
DEFINITION. The step: one whole instruction cycle of the RC (70_reset_and_hazards.md R388, R389).
-/

namespace Sys2Proof.Machine

/-- Fetch, execution and end of one instruction, with the environment's record of this transition
(70_reset_and_hazards.md R388, R389). -/
def State.cycle (s : State) (inp : EnvInput) : Result :=
  match s.fetch with
  | (.error .illegalOpcode, t) => .next (t.illegalOpcodeCycle inp)
  | (.error .illegalAddressing, t) => .next (t.illegalAddressingCycle inp)
  | (.error .truncated, t) => .next (t.illegalOpcodeCycle inp) -- never: four bytes are enough
  | (.ok (i, n), t) => endCycle i inp (exec i (t.advance n))

/-- One transition: with START = 0 pulses are latched and nothing else happens; with START = 1 one
instruction cycle runs (70_reset_and_hazards.md R386, R389). A state with an internal request at the
boundary is refused (93_implementation_defined.md U11, note 10). -/
def step (s : State) : Host.Outcome State Fault Refusal :=
  if s.prins || s.prcod || s.pradr then .refused .requestAtBoundary
  else
    let x := s.nextInput
    if x.1.start then x.2.cycle x.1 else .next (x.2.latch x.1)

/-- The state with an instruction of the opcode table at PC, in memory and not in devices, the processor
active and no internal request at the boundary, so that the next step runs it (notes 4, 14). -/
def State.withFetchWord (s : State) (nbits w : Nat) : State :=
  let code := [s.pc, s.pc + 1, s.pc + 2, s.pc + 3]
  let m := { s with devices := s.devices.filter fun a => !code.contains a }
  let t := m.writeBytes s.pc (tableBytes nbits w)
  { t with start := true, env := startNext t.env, prins := false, prcod := false, pradr := false }

end Sys2Proof.Machine
end

