-- ==== Sys2Proof/Machine/GenericCycle.lean ====
section
/-!
DEFINITION. The cycle of a layer-G instruction that is given as a term: PC past the instruction, its
meaning, and the trap at its end. Layer G has no encoding to fetch from (30_encoding.md R96), so the
step of the machine never runs this (note 31).
-/

namespace Sys2Proof.Machine

/-- The instruction is the return from interrupt of layer G (60_exceptions.md R332). -/
def isGenericRti : Instr → Bool
  | .gRti => true
  | _ => false

/-- The trap after every instruction with T = 1, entry 0, except after RTI (60_exceptions.md R332,
which adopts the RC's exemption for both layers). -/
def GMachine.trap (g : GMachine) (rti : Bool) : GMachine :=
  if g.psw.t && !rti then g.takeInterrupt 0 else g

/-- One layer-G instruction that occupies `len` locations (30_encoding.md R90). -/
def State.genericCycle (s : State) (i : Instr) (len : Quad) : Result :=
  match exec i { s with g := s.g.setPc (s.g.pc + len) } with
  | .next t => .next { t with g := t.g.trap (isGenericRti i) }
  | .fault f => .fault f
  | .refused r => .refused r

end Sys2Proof.Machine
end

