-- ==== Sys2Proof/Safety.lean ====
section
/-!
DEFINITION. The terms claims are stated in: the invariants of the state, what an instruction leaves
unchanged, an idle machine, and the host's example of an end of run.
-/

namespace Sys2Proof.Machine

/-- No internal request is left at an instruction boundary: PRINS, PRCOD and PRADR are set and cleared
within one cycle (10_state.md R51, R56). -/
def State.boundary (s : State) : Bool := !s.prins && !s.prcod && !s.pradr

/-- A register file has the count of its kind, and every register holds its width's bits. -/
def RegKind.fits (k : RegKind) (rs : List Quad) : Bool :=
  rs.length == k.count && rs.all fun v => k.width.trunc v == v

/-- The generic machine's memory and I/O space keep the canonical form and their size, its address
registers hold AW_ADDR bits, and its other registers the counts and widths of the configuration
(10_state.md R20, R21, R28, R29; 20_memory.md R60). -/
def GMachine.ok (g : GMachine) : Bool :=
  g.mem.wf && g.mem.below (g.cfg.cell.bytes * 2 ^ g.cfg.aw.bits) && g.io.wf
    && g.io.below (8 * 2 ^ 64) && g.addr g.pc == g.pc && g.addr g.sp == g.sp && g.addr g.fp == g.fp
    && g.cfg.dr.fits g.dr && g.cfg.ar.fits g.ar && g.cfg.br.fits g.br && g.cfg.xr.fits g.xr
    && g.cfg.gpr.fits g.gpr && g.cfg.acc.trunc g.acc == g.acc

/-- The invariant of the machine: memory keeps the canonical form within 2^16 addresses (20_memory.md
R61), no internal request is left at the boundary, and the generic machine keeps its own. -/
def State.ok (s : State) : Bool :=
  s.mem.wf && s.mem.below (2 ^ 16) && s.boundary && s.g.ok

/-- The special registers, the request flip-flops, the environment and the generic machine are the
same in two states: everything but PC, SP, AW, AB, the general registers, the PSW, memory and the accesses
to devices. -/
def SameSpecials (s t : State) : Prop :=
  t.imr = s.imr ∧ t.ivtp = s.ivtp ∧ t.prins = s.prins ∧ t.prcod = s.prcod ∧ t.pradr = s.pradr ∧
    t.prinm = s.prinm ∧ t.printr = s.printr ∧ t.devices = s.devices ∧ t.start = s.start ∧
    t.vec = s.vec ∧ t.env = s.env ∧ t.g = s.g

/-- The PSW bits that are no indicator are the same: I, T, P and L. -/
def SameModes (p q : Psw) : Prop := q.i = p.i ∧ q.t = p.t ∧ q.p = p.p ∧ q.l = p.l

/-- Every byte of memory reads as before; device registers are no memory. -/
def SameMemory (s t : State) : Prop :=
  ∀ a : Word, s.isDevice a = false → t.readByte a = s.readByte a

/-- The bytes stored from `s` to `t`, at different addresses: those of memory read back, and every other byte
of memory reads as before (20_memory.md R64). -/
def Stored (s t : State) (ws : List (Word × Byte)) : Prop :=
  (∀ c ∈ ws, s.isDevice c.1 = false → t.readByte c.1 = c.2) ∧
    ∀ a : Word, s.isDevice a = false → (∀ c ∈ ws, a ≠ c.1) → t.readByte a = s.readByte a

/-- The state after reads at addresses, one after the other: nothing but what devices saw and what they
will answer differs (20_memory.md R68). -/
def State.afterReads (s : State) (as : List Word) : State := as.foldl State.afterRead s

/-- The state with the bytes among these that are written to device registers delivered, in their order
(20_memory.md R69). -/
def State.delivered (s : State) (ws : List (Word × Byte)) : State :=
  { s with
    devLog := s.devLog ++ (ws.filter fun c => s.isDevice c.1).map fun c => .write c.1 c.2 }

/-- Devices saw the same accesses in two states, and will answer the same. -/
def SameTraffic (s t : State) : Prop := t.devIn = s.devIn ∧ t.devLog = s.devLog

/-- `n` bytes read from an address on, one after the other, and the state after the reads. -/
def State.loadBytes (s : State) (a : Word) : Nat → List Byte × State
  | 0 => ([], s)
  | n + 1 =>
    let b := s.load8 a
    let r := b.2.loadBytes (a + 1) n
    (b.1 :: r.1, r.2)

/-- The addresses read to form an operand's address: the pointer of memory-indirect addressing, high byte
first (20_memory.md R77 (2)). -/
def pointerReads {w : Nat} : Operand w → List Word
  | .memind f => [f, f + 1]
  | .regdir _ | .regind _ | .memdir _ | .regindpom _ _ | .preinc _ | .postinc _ | .predec _ | .postdec _
  | .pcpom _ | .imm _ => []

/-- The addresses read for an operand: the pointer, then a byte or a word of memory, high byte first
(20_memory.md R77 (2), (3)). -/
def State.operandReads {w : Nat} (s : State) (o : Operand w) : List Word :=
  pointerReads o ++
    match (s.place o).1 with
    | .mem ea => if w = 16 then [ea, ea + 1] else [ea]
    | .reg _ | .lit _ => []

/-- The register an auto mode updates (30_encoding.md R107). -/
def autoRegister {w : Nat} : Operand w → Option RegNo
  | .preinc r | .postinc r | .predec r | .postdec r => some r
  | .regdir _ | .regind _ | .memdir _ | .memind _ | .regindpom _ _ | .pcpom _ | .imm _ => none

/-- Every general register but the listed ones is the same. -/
def SameRegistersBut (rs : List RegNo) (s t : State) : Prop :=
  ∀ r : RegNo, r ∉ rs → t.reg r = s.reg r

/-- Every general register is the same. -/
def SameRegisters (s t : State) : Prop := ∀ r : RegNo, t.reg r = s.reg r

/-- The accumulators are the same. -/
def SameAccumulators (s t : State) : Prop := t.aw = s.aw ∧ t.ab = s.ab

/-- The next `n` locations of the stack are memory, no device registers (20_memory.md R69). -/
def State.stackInMemory (s : State) (n : Nat) : Bool :=
  (List.range n).all fun k => !s.isDevice (s.sp + BitVec.ofNat 16 (k + 1))

/-- The bytes an entry pushes, with their addresses (60_exceptions.md R347). -/
def State.frameBytes (s : State) (savedPc : Word) : List (Word × Byte) :=
  [(s.sp + 1, hiByte savedPc), (s.sp + 2, loByte savedPc), (s.sp + 3, s.psw.high),
    (s.sp + 4, s.psw.low)]

/-- The interrupt stack frame that an entry from `s` with a saved PC leaves in `t`, every other byte of
memory as before (60_exceptions.md R347). -/
def InterruptFrame (s t : State) (savedPc : Word) : Prop :=
  t.sp = s.sp + 4 ∧ Stored s t (s.frameBytes savedPc)

/-- PC holds the routine address of a vector-table entry, read high byte first after the frame was pushed;
devices saw those accesses in that order (60_exceptions.md R341, 20_memory.md R77 (5)). -/
def EntersAt (s t : State) (savedPc : Word) (entry : Byte) : Prop :=
  let v := { s.delivered (s.frameBytes savedPc) with mem := t.mem }.load16
    (s.ivtp + BitVec.ofNat 16 (2 * entry.toNat))
  t.pc = v.1 ∧ SameTraffic v.2 t

/-- What no entry to an interrupt routine changes (60_exceptions.md R348). -/
def EntryKeeps (s t : State) : Prop :=
  SameAccumulators s t ∧ SameRegisters s t ∧ t.imr = s.imr ∧ t.ivtp = s.ivtp ∧
    t.devices = s.devices ∧ t.start = s.start ∧ t.vec = s.vec ∧ t.env = s.env ∧ t.g = s.g

/-- The RC's branch with a condition (44_jump.md R224). -/
def branchOf (cc : Cond) (pom : Byte) : Instr :=
  match cc with
  | .eql => .beql pom
  | .neq => .bneq pom
  | .grtu => .bgrtu pom
  | .greu => .bgreu pom
  | .lssu => .blssu pom
  | .lequ => .blequ pom
  | .grt => .bgrt pom
  | .gre => .bgre pom
  | .lss => .blss pom
  | .leq => .bleq pom
  | .neg => .bneg pom
  | .nng => .bnng pom
  | .ovf => .bovf pom
  | .nvf => .bnvf pom

/-- The RC's absolute jump with a condition (44_jump.md R224). -/
def jumpOf (cc : Cond) (adr : Word) : Instr :=
  match cc with
  | .eql => .jeql adr
  | .neq => .jneq adr
  | .grtu => .jgrtu adr
  | .greu => .jgreu adr
  | .lssu => .jlssu adr
  | .lequ => .jlequ adr
  | .grt => .jgrt adr
  | .gre => .jgre adr
  | .lss => .jlss adr
  | .leq => .jleq adr
  | .neg => .jneg adr
  | .nng => .jnng adr
  | .ovf => .jovf adr
  | .nvf => .jnvf adr

/-- The index of a condition, the low nibble of the opcode (44_jump.md R224). -/
def condIndex : Cond → Nat
  | .eql => 0
  | .neq => 1
  | .grtu => 2
  | .greu => 3
  | .lssu => 4
  | .lequ => 5
  | .grt => 6
  | .gre => 7
  | .lss => 8
  | .leq => 9
  | .neg => 10
  | .nng => 11
  | .ovf => 12
  | .nvf => 13

/-- The conditions of the jump table, as relations between the indicators (44_jump.md R224 to R252). -/
def Taken (p : Psw) : Cond → Prop
  | .eql => p.z = true
  | .neq => p.z = false
  | .grtu => p.c = false ∧ p.z = false
  | .greu => p.c = false
  | .lssu => p.c = true
  | .lequ => p.c = true ∨ p.z = true
  | .grt => p.n = p.v ∧ p.z = false
  | .gre => p.n = p.v
  | .lss => p.n ≠ p.v
  | .leq => p.n ≠ p.v ∨ p.z = true
  | .neg => p.n = true
  | .nng => p.n = false
  | .ovf => p.v = true
  | .nvf => p.v = false

/-- Line k has a request that is pending and unmasked (60_exceptions.md R334). -/
def PendingLine (s : State) (k : Nat) : Prop :=
  1 ≤ k ∧ k ≤ 7 ∧ s.printr.getLsbD (k - 1) = true ∧ s.imr.getLsbD k = true

/-- A read-modify-write instruction by its arithmetic: the operand's new value from its old one and
the old C, its C and its V; N and Z are those of the new value. -/
def ModifiesTo (mk : Operand 8 → Instr) (value : Byte → Bool → Nat) (carry : Byte → Bool → Prop)
    (overflow : Byte → Prop) : Prop :=
  ∀ (o : Operand 8) (s : State), o.isImm = false →
    ∃ f : Flags,
      let old := (s.place o).2.readPlace8 (s.place o).1
      let new : Byte := BitVec.ofNat 8 (value old.1 s.psw.c)
      exec (mk o) s = .next ((old.2.writePlace8 (s.place o).1 new).setFlags f) ∧
        (f.n = true ↔ 128 ≤ new.toNat) ∧ (f.z = true ↔ new.toNat = 0) ∧
        (f.c = true ↔ carry old.1 s.psw.c) ∧ (f.v = true ↔ overflow old.1)

/-- The signed value of a generic operand at its length (30_encoding.md R82). -/
def signedAt (l : Len) (v : Quad) : Int := (v.setWidth l.bits).toInt

/-- The indicators N and Z are those of a result at its length, C and V the given ones. -/
def FlagsAre (f : Flags) (l : Len) (r : Quad) (c v : Prop) : Prop :=
  (f.n = true ↔ signedAt l r < 0) ∧ (f.z = true ↔ l.trunc r = 0) ∧ (f.c = true ↔ c) ∧
    (f.v = true ↔ v)

/-- A value is outside the range of signed integers of a length. -/
def OutOfRange (l : Len) (x : Int) : Prop := x < -2 ^ (l.bits - 1) ∨ 2 ^ (l.bits - 1) ≤ x

/-- A two-source instruction of layer G by its result and indicators, in every form whose operands
are legal; where its operands are not, the addressing error is taken. -/
def GenericComputes (mk : BinForm → Instr) (l : Len) (result : Quad → Quad → Quad)
    (carry overflow : Quad → Quad → Prop) : Prop :=
  ∀ (f : BinForm) (s : State),
    let o := s.g.cfg.fmt.roles f
    (s.g.operandsOk o.sources o.dests = true →
      ∃ fl : Flags,
        let x := s.g.fetch l o
        exec (mk f) s = .next { s with
          g := (x.2.deliver l x.1.dest (l.trunc (result x.1.a x.1.b))).setFlags fl } ∧
        FlagsAre fl l (result x.1.a x.1.b) (carry x.1.a x.1.b) (overflow x.1.a x.1.b)) ∧
    (s.g.operandsOk o.sources o.dests = false →
      exec (mk f) s = .next { s with g := s.g.addressingError })

/-- A compare of layer G: the indicators alone are written, from a and b whatever FMT is, and a field c is
not used (41_arithmetic.md R174, 42_logic.md R199). Sources that are not legal take the addressing error. -/
def GenericCompares (mk : BinForm → Instr) (l : Len) (result : Quad → Quad → Quad)
    (carry overflow : Quad → Quad → Prop) : Prop :=
  (∀ (f : BinForm) (s : State),
    let o := compareRoles f
    (s.g.operandsOk o.sources [] = true → ∃ fl : Flags,
      let x := s.g.fetch l o
      exec (mk f) s = .next { s with g := x.2.setFlags fl } ∧
      FlagsAre fl l (result x.1.a x.1.b) (carry x.1.a x.1.b) (overflow x.1.a x.1.b)) ∧
    (s.g.operandsOk o.sources [] = false →
      exec (mk f) s = .next { s with g := s.g.addressingError })) ∧
  ∀ (a b c : GOperand) (s : State), exec (mk (.three a b c)) s = exec (mk (.two a b)) s ∧
    exec (mk (.twoSecond a b)) s = exec (mk (.two a b)) s

/-- A one-source instruction of layer G by its result and indicators, in its three forms; operands that
are not legal take the addressing error. -/
def GenericModifies (mk : UnForm → Instr) (l : Len) (result : Quad → Bool → Quad)
    (carry : Quad → Bool → Prop) (overflow : Quad → Prop) : Prop :=
  (∀ (a b : GOperand) (s : State), s.g.operandsOk [a] [b] = true →
    ∃ fl : Flags,
      let x := s.g.readOperand l a
      let r := l.trunc (result x.1 s.g.psw.c)
      exec (mk (.two a b)) s = .next { s with g := (x.2.writeOperand l b r).setFlags fl } ∧
      FlagsAre fl l r (carry x.1 s.g.psw.c) (overflow x.1)) ∧
  (∀ (a : GOperand) (s : State), s.g.operandsOk [] [a] = true →
    ∃ fl : Flags,
      let x := s.g.locate l a
      let r := l.trunc (result x.1.value s.g.psw.c)
      exec (mk (.one a)) s = .next { s with g := (x.2.writePlace l x.1.place r).setFlags fl } ∧
      FlagsAre fl l r (carry x.1.value s.g.psw.c) (overflow x.1.value)) ∧
  (∀ s : State,
    ∃ fl : Flags,
      let x := s.g.pop l
      let r := l.trunc (result x.1 s.g.psw.c)
      exec (mk .zero) s = .next { s with g := (x.2.push l r).setFlags fl } ∧
      FlagsAre fl l r (carry x.1 s.g.psw.c) (overflow x.1)) ∧
  (∀ (f : UnForm) (s : State), s.g.operandsOk f.sources f.dests = false →
    exec (mk f) s = .next { s with g := s.g.addressingError })

/-- A shift of layer G: its forms are those of a one-source instruction, b is the destination of both
two-address opcodes, and a three-address field c is not used (43_shift.md R201). -/
def GenericShifts (mk : BinForm → Instr) (l : Len) (result : Quad → Bool → Quad)
    (carry : Quad → Bool → Prop) : Prop :=
  GenericModifies (fun f => match f with
    | .two a b => mk (.two a b)
    | .one a => mk (.one a) | .zero => mk .zero) l result carry
      (fun _ => False) ∧
  ∀ (a b c : GOperand) (s : State), exec (mk (.three a b c)) s = exec (mk (.two a b)) s ∧
    exec (mk (.twoSecond a b)) s = exec (mk (.two a b)) s

/-- The register of the generic machine an auto mode updates (30_encoding.md R121). -/
def GMachine.autoRegister (g : GMachine) : GOperand → Option GReg
  | .preinc r | .postinc r | .predec r | .postdec r => some (g.cfg.addrReg r)
  | .regdir _ | .ardir _ | .brdir _ | .xrdir _ | .sp | .fp | .regind _ | .memdir _ | .memind _
  | .basedisp _ _ | .indexdisp _ _ | .regindpom _ _ | .baseindex _ _ _ | .fpdisp _ | .pcpom _ | .imm _ => none

/-- The parameters, the PSW, PC, IVTP and the I/O space of the generic machine are the same: everything
but its registers and its memory. -/
def SameGeneric (g h : GMachine) : Prop :=
  h.cfg = g.cfg ∧ h.psw = g.psw ∧ h.pc = g.pc ∧ h.ivtp = g.ivtp ∧ h.io = g.io

/-- Every location of the generic machine but the `n` from an address on reads as before. -/
def SameCellsBut (ea : Quad) (n : Nat) (g h : GMachine) : Prop :=
  ∀ c : Quad, (∀ i < n, c ≠ g.addr (ea + BitVec.ofNat 64 i)) → h.readCell c = g.readCell c

/-- An `l`-bit datum fits in the address space: its locations are different ones. -/
def GMachine.fits (g : GMachine) (l : Len) : Prop := g.span l ≤ 2 ^ g.cfg.aw.bits

/-- The data of two lengths at two addresses share no location. -/
def GMachine.Disjoint (g : GMachine) (l : Len) (a : Quad) (k : Len) (b : Quad) : Prop :=
  ∀ i < g.span l, ∀ j < g.span k, g.addr (a + BitVec.ofNat 64 i) ≠ g.addr (b + BitVec.ofNat 64 j)

/-- The register file has a register of this number. -/
def GMachine.present (g : GMachine) : GReg → Prop
  | .dr r => r < g.dr.length
  | .ar r => r < g.ar.length
  | .br r => r < g.br.length
  | .xr r => r < g.xr.length
  | .gpr r => r < g.gpr.length
  | .sp | .fp | .acc => True

/-- An `l`-bit value written at a place can be read back: a register that is there and wide enough, or
memory with room for it. -/
def GMachine.Holds (g : GMachine) (l : Len) : GPlace → Prop
  | .reg r => g.present r ∧ l.bits ≤ (g.cfg.regLen r).bits
  | .mem _ => g.fits l
  | .lit _ => False

/-- Two places share no register and no location. -/
def GMachine.Apart (g : GMachine) (l : Len) (p : GPlace) (k : Len) (q : GPlace) : Prop :=
  (∀ r, p = .reg r → q ≠ .reg r) ∧ ∀ a b, p = .mem a → q = .mem b → g.Disjoint l a k b

/-- The locations of a string's length and address hold what is written there and are apart. -/
def GMachine.HoldsString (g : GMachine) (l : Len) (w : StringPlace) : Prop :=
  g.Holds l w.len ∧ g.Holds g.cfg.aw w.addr ∧ g.Apart g.cfg.aw w.addr l w.len

/-- The locations of two strings are apart. -/
def GMachine.ApartStrings (g : GMachine) (l : Len) (u v : StringPlace) : Prop :=
  g.Apart l u.len l v.len ∧ g.Apart l u.len g.cfg.aw v.addr ∧ g.Apart g.cfg.aw u.addr l v.len ∧
    g.Apart g.cfg.aw u.addr g.cfg.aw v.addr

/-- The locations of a string's length and address are apart from the character at an address. -/
def GMachine.ApartChar (g : GMachine) (l : Len) (w : StringPlace) (a : Quad) : Prop :=
  g.Apart l w.len .l8 (.mem (g.addr a)) ∧ g.Apart g.cfg.aw w.addr .l8 (.mem (g.addr a))

/-- The locations of a string hold a length and an address. -/
def GMachine.Describes (g : GMachine) (l : Len) (w : StringPlace) (len : Nat) (addr : Quad) : Prop :=
  (g.readPlace l w.len).toNat = len ∧ g.readPlace g.cfg.aw w.addr = g.addr addr

/-- The first `n` characters from an address on are apart from the locations of a string. -/
def GMachine.ClearOf (g : GMachine) (l : Len) (w : StringPlace) (a : Quad) (n : Nat) : Prop :=
  ∀ k < n, g.ApartChar l w (a + BitVec.ofNat 64 k)

/-- The locations of a source and of a destination string hold what is written there, and they are apart
from each other and from the destination's characters. -/
def GMachine.CopyApart (g : GMachine) (l : Len) (u v : StringPlace) : Prop :=
  let q := g.strand l v
  g.HoldsString l u ∧ g.HoldsString l v ∧ g.ApartStrings l u v ∧ g.ClearOf l u q.addr q.len.toNat ∧
    g.ClearOf l v q.addr q.len.toNat

/-- The locations of two strings hold what is written there, and they are apart from each other and from
the characters of both. -/
def GMachine.CompareApart (g : GMachine) (l : Len) (u v : StringPlace) : Prop :=
  let p := g.strand l u
  let q := g.strand l v
  g.HoldsString l u ∧ g.HoldsString l v ∧ g.ApartStrings l u v ∧
    g.ClearOf l u p.addr p.len.toNat ∧ g.ClearOf l u q.addr q.len.toNat ∧
    g.ClearOf l v p.addr p.len.toNat ∧ g.ClearOf l v q.addr q.len.toNat

/-- The locations of a string hold what is written there, and they are apart from its characters. -/
def GMachine.ScanApart (g : GMachine) (l : Len) (w : StringPlace) : Prop :=
  g.HoldsString l w ∧ g.ClearOf l w (g.strand l w).addr (g.strand l w).len.toNat

/-- The locations of a string hold what is written there, and they are apart from those of the substring
and from the characters of both. -/
def GMachine.MatchApart (g : GMachine) (l : Len) (u v : StringPlace) : Prop :=
  g.ScanApart l u ∧ g.ApartStrings l u v ∧ g.ClearOf l u (g.strand l v).addr (g.strand l v).len.toNat

/-- A string instruction's loop goes on for ever: a turn follows every turn. -/
def GMachine.NeverEnds {α : Type} (g : GMachine) (turn : GMachine → Turn α) : Prop :=
  ∃ run : Nat → GMachine, run 0 = g ∧ ∀ k, turn (run k) = .goesOn (run (k + 1))

/-- The characters at two addresses share no location. -/
def GMachine.OtherChar (g : GMachine) (a b : Quad) : Prop := g.Disjoint .l8 (g.addr a) .l8 (g.addr b)

/-- What MOVC (no table) and MOVTC (a table at an address) put for a source character (46_string.md R282,
R283). -/
def translated (table : Option Quad) (g : GMachine) (c : Quad) : Quad :=
  match table with
  | none => c
  | some t => g.readChar (t + c)

/-- The addresses of the table's 256 characters, none without a table (46_string.md R283). -/
def InTable (table : Option Quad) (a : Quad) : Prop :=
  ∃ t c : Quad, table = some t ∧ c.toNat < 256 ∧ a = t + c

/-- The character of a string at a position, FILL past its end (46_string.md R284). -/
def GMachine.charAt (g : GMachine) (fill : Quad) (p : Strand) (k : Nat) : Quad :=
  if k < p.len.toNat then g.readChar (p.addr + BitVec.ofNat 64 k) else fill

/-- The substring stands at a position of the string (46_string.md R287). -/
def GMachine.MatchesAt (g : GMachine) (sub p : Strand) (k : Nat) : Prop :=
  k + sub.len.toNat ≤ p.len.toNat ∧ ∀ i < sub.len.toNat,
    g.readChar (p.addr + BitVec.ofNat 64 (k + i)) = g.readChar (sub.addr + BitVec.ofNat 64 i)

/-- The instruction is one of layer G (30_encoding.md R96). -/
def isGeneric (i : Instr) : Bool := (encode i).isNone

/-- Nothing of the RC differs: the two states differ in the generic machine only (note 1). -/
def SameRc (s t : State) : Prop := t = { s with g := t.g }

/-- The processor is idle in the coming transition (10_state.md R57). -/
def State.idle (s : State) : Bool := !s.nextInput.1.start

/-- A host's example of the condition STOP: the instruction at PC is a JMP to its own address
(70_reset_and_hazards.md R386, note 34). -/
def State.selfJump (s : State) : Bool :=
  let b := s.load8 s.pc
  b.1 == 0x30#8 && (b.2.load16 (s.pc + 1)).1 == s.pc

end Sys2Proof.Machine
end

