-- ==== Sys2Proof/Certificates/Slice0/Obligations.lean ====
section
/-!
DEFINITION. The statements about the model, for the provers: what the encoding, the step, the
interrupts and every instruction do. `t` is a state after `s`.
-/

open Sys2Proof Sys2Proof.Machine

/-! ## Encoding -/

/-- Words of the spec's examples decode to the instructions they stand for (note 12: the byte values
are the spec's own choice). -/
def Obligations.DecodesSpecWords : Prop :=
  decode [0x60#8, 0xB0#8, 0x7F#8] = .ok (.ldb (.imm 0x7F#8), 3) ∧
  decode [0x61#8, 0xB0#8, 0x00#8, 0xFE#8] = .ok (.ldw (.imm 0x00FE#16), 4) ∧
  decode [0x62#8, 0x20#8, 0x20#8, 0x00#8] = .ok (.stb (.memdir 0x2000#16), 4) ∧
  decode [0x63#8, 0x03#8] = .ok (.stw (.regdir 3), 2) ∧
  decode [0x31#8, 0x20#8, 0x00#8] = .ok (.jsr 0x2000#16, 3) ∧
  decode [0x10#8, 0x25#8] = .ok (.int 0x25#8, 2) ∧
  decode [0x0A#8] = .ok (.rti, 1) ∧
  decode [0x50#8, 0x15#8] = .ok (.jmpind (.regind 5), 2) ∧
  decode [0xFF#8] = .error .illegalOpcode ∧
  decode [0x62#8, 0xB0#8] = .error .illegalAddressing

/-- Every well-formed RC instruction reads back from its encoding, whatever bytes follow it. -/
def Obligations.EncodingReadsBack : Prop :=
  ∀ (i : Instr) (bs rest : List Byte), i.wf = true → encode i = some bs →
    decode (bs ++ rest) = .ok (i, bs.length) ∧ 1 ≤ bs.length ∧ bs.length ≤ 4

/-- What the decoder answers is a well-formed RC instruction, no longer than the bytes given, and its
encoding has the length the decoder reports. -/
def Obligations.DecoderAnswersLegal : Prop :=
  ∀ (bs : List Byte) (i : Instr) (n : Nat), decode bs = .ok (i, n) →
    i.wf = true ∧ isGeneric i = false ∧ 1 ≤ n ∧ n ≤ 4 ∧ n ≤ bs.length ∧
      ∀ es, encode i = some es → es.length = n

/-- The operation codes that are refused are exactly those outside the table OPC (note 12). -/
def Obligations.IllegalOpcodesRefused : Prop :=
  ∀ (b : Byte) (rest : List Byte), decode (b :: rest) = .error .illegalOpcode ↔
    ¬ (b.toNat ≤ 0x0A ∨ b.toNat = 0x10 ∨ (0x20 ≤ b.toNat ∧ b.toNat ≤ 0x2D) ∨ b.toNat = 0x30 ∨
      b.toNat = 0x31 ∨ (0x40 ≤ b.toNat ∧ b.toNat ≤ 0x4D) ∨ b.toNat = 0x50 ∨
      (0x60 ≤ b.toNat ∧ b.toNat ≤ 0x63) ∨ (0x70 ≤ b.toNat ∧ b.toNat ≤ 0x74) ∨
      (0x80 ≤ b.toNat ∧ b.toNat ≤ 0x84) ∨ (0x90 ≤ b.toNat ∧ b.toNat ≤ 0x97))

/-- The mode bytes that are refused are exactly those of the predicate `badmode`. -/
def Obligations.IllegalModesRefused : Prop :=
  ∀ (op mode : Byte) (rest : List Byte),
    decode (op :: mode :: rest) = .error .illegalAddressing ↔
      (op.toNat = 0x50 ∨ (0x60 ≤ op.toNat ∧ op.toNat ≤ 0x63) ∨ (0x70 ≤ op.toNat ∧ op.toNat ≤ 0x74) ∨
        (0x80 ≤ op.toNat ∧ op.toNat ≤ 0x84) ∨ (0x90 ≤ op.toNat ∧ op.toNat ≤ 0x97)) ∧
      (mode.toNat / 16 = 0x5 ∨ 0xC ≤ mode.toNat / 16 ∨
        (mode.toNat / 16 = 0xB ∧ (op.toNat = 0x50 ∨ op.toNat = 0x62 ∨ op.toNat = 0x63 ∨
          op.toNat = 0x72 ∨ op.toNat = 0x73 ∨ op.toNat = 0x83 ∨ 0x90 ≤ op.toNat)) ∨
        (mode.toNat / 16 = 0x0 ∧ op.toNat = 0x50))

/-- The register nibble of memory direct, memory indirect, PC-relative and immediate addressing is
ignored. -/
def Obligations.RegisterNibbleIgnored : Prop :=
  ∀ (op : Byte) (am r q : RegNo) (rest : List Byte),
    (op.toNat = 0x50 ∨ (0x60 ≤ op.toNat ∧ op.toNat ≤ 0x63) ∨ 0x70 ≤ op.toNat) →
    (am = 0x2#4 ∨ am = 0x3#4 ∨ am = 0xA#4 ∨ am = 0xB#4) →
    decode (op :: modeByte am r :: rest) = decode (op :: modeByte am q :: rest)

/-! ## The step -/

/-- When the bytes read from PC on are those of an instruction, once the environment's record is taken, the
step is that instruction executed with PC past its bytes and no further byte read (20_memory.md R77 (1)),
then the pulses latched, then the service phase, but for INT, which served its own request (note 9: the
model's choice of where that entry stands). -/
def Obligations.StepRunsDecoded : Prop :=
  ∀ (s : State) (i : Instr) (n : Nat),
    let u := s.nextInput.2.loadBytes s.pc n
    s.boundary = true → s.nextInput.1.start = true → decode u.1 = .ok (i, n) →
    ∀ t, exec i (u.2.setPc (s.pc + BitVec.ofNat 16 n)) = .next t →
      step s = .next (if isInt i then t.latch s.nextInput.1
        else (t.latch s.nextInput.1).service 0 (isRti i))

/-- The transition is total: at an instruction boundary there is a next state, and with START = 0 it
only takes the environment's record and latches its pulses. A state with an internal request at the
boundary is refused (note 10, the model's choice). -/
def Obligations.StepAnswersOrIdles : Prop :=
  ∀ s : State,
    (s.boundary = true → ∃ t, step s = .next t) ∧
    (s.boundary = true → s.nextInput.1.start = false →
      step s = .next { s.nextInput.2 with
        prinm := s.prinm || s.nextInput.1.inm, printr := s.printr ||| s.nextInput.1.intr }) ∧
    (s.boundary = false → step s = .refused .requestAtBoundary)

/-- An illegal operation code: only that byte is read, the saved PC is one past it, entry 3, nothing else
changed. -/
def Obligations.IllegalOpcodeInterrupt : Prop :=
  ∀ s : State,
    let u := s.nextInput.2.load8 s.pc
    s.boundary = true → s.nextInput.1.start = true → opcodeLayout u.1 = none →
    ∃ t, step s = .next t ∧ InterruptFrame u.2 t (s.pc + 1) ∧ EntersAt u.2 t (s.pc + 1) 3 ∧
      t.psw = { s.psw with i := false, t := false } ∧ t.boundary = true ∧
      EntryKeeps s.nextInput.2 t ∧ t.prinm = (s.prinm || s.nextInput.1.inm) ∧
      t.printr = s.printr ||| s.nextInput.1.intr

/-- An illegal addressing mode: only two bytes are read, the saved PC is two past the instruction's address,
entry 2, nothing else changed; no auto register has stepped. -/
def Obligations.IllegalAddressingInterrupt : Prop :=
  ∀ s : State,
    let u := s.nextInput.2.loadBytes s.pc 2
    s.boundary = true → s.nextInput.1.start = true → decode u.1 = .error .illegalAddressing →
    ∃ t, step s = .next t ∧ InterruptFrame u.2 t (s.pc + 2) ∧ EntersAt u.2 t (s.pc + 2) 2 ∧
      t.psw = { s.psw with i := false, t := false } ∧ t.boundary = true ∧
      EntryKeeps s.nextInput.2 t ∧ t.prinm = (s.prinm || s.nextInput.1.inm) ∧
      t.printr = s.printr ||| s.nextInput.1.intr

/-- The invariant holds after reset. -/
def Obligations.ResetKeepsInvariant : Prop := State.reset.ok = true

/-- Every instruction, of the RC and of layer G, keeps the invariant. -/
def Obligations.ExecKeepsInvariant : Prop :=
  ∀ (i : Instr) (s t : State), s.ok = true → exec i s = .next t → t.ok = true

/-- Every step keeps the invariant: memory stays canonical and within 2^16 addresses, and no internal
request is left at the boundary. -/
def Obligations.StepKeepsInvariant : Prop :=
  ∀ s t : State, s.ok = true → step s = .next t → t.ok = true

/-- The two layers stay apart (note 1): an RC instruction leaves the generic machine and the
environment, but that it may use answers of devices in their order and be seen by devices; an instruction of
layer G leaves the RC, and the parameters never change. -/
def Obligations.LayersStayApart : Prop :=
  ∀ (i : Instr) (s t : State), exec i s = .next t →
    (isGeneric i = false → t.g = s.g ∧ t.devices = s.devices ∧ t.devIn <:+ s.devIn ∧
      s.devLog <+: t.devLog ∧ t.start = s.start ∧ t.vec = s.vec ∧ t.env = s.env) ∧
    (isGeneric i = true → SameRc s t ∧ t.g.cfg = s.g.cfg)

/-! ## Transfer, RC -/

/-- LDB and LDW in every addressing mode: the accumulator's new value, the auto register's step, the reads
in their order, and nothing else changed. -/
def Obligations.LoadsInEveryMode : Prop :=
  ∀ (s : State) (r : RegNo) (f : Word) (b : Byte) (v : Word),
    let ldb (s : State) (a : Word) : Result := .next { (s.load8 a).2 with ab := (s.load8 a).1 }
    let ldw (s : State) (a : Word) : Result := .next { (s.load16 a).2 with aw := (s.load16 a).1 }
    let p := s.load16 f
    let up := s.setReg r (s.reg r + 1)
    let down := s.setReg r (s.reg r - 1)
    exec (.ldb (.regdir r)) s = .next { s with ab := loByte (s.reg r) } ∧
    exec (.ldb (.regind r)) s = ldb s (s.reg r) ∧
    exec (.ldb (.memdir f)) s = ldb s f ∧
    exec (.ldb (.memind f)) s = ldb p.2 p.1 ∧
    exec (.ldb (.regindpom r f)) s = ldb s (s.reg r + f) ∧
    exec (.ldb (.preinc r)) s = ldb up (s.reg r + 1) ∧
    exec (.ldb (.postinc r)) s = ldb up (s.reg r) ∧
    exec (.ldb (.predec r)) s = ldb down (s.reg r - 1) ∧
    exec (.ldb (.postdec r)) s = ldb down (s.reg r) ∧
    exec (.ldb (.pcpom f)) s = ldb s (s.pc + f) ∧
    exec (.ldb (.imm b)) s = .next { s with ab := b } ∧
    exec (.ldw (.regdir r)) s = .next { s with aw := s.reg r } ∧
    exec (.ldw (.regind r)) s = ldw s (s.reg r) ∧
    exec (.ldw (.memdir f)) s = ldw s f ∧
    exec (.ldw (.memind f)) s = ldw p.2 p.1 ∧
    exec (.ldw (.regindpom r f)) s = ldw s (s.reg r + f) ∧
    exec (.ldw (.preinc r)) s = ldw up (s.reg r + 1) ∧
    exec (.ldw (.postinc r)) s = ldw up (s.reg r) ∧
    exec (.ldw (.predec r)) s = ldw down (s.reg r - 1) ∧
    exec (.ldw (.postdec r)) s = ldw down (s.reg r) ∧
    exec (.ldw (.pcpom f)) s = ldw s (s.pc + f) ∧
    exec (.ldw (.imm v)) s = .next { s with aw := v }

/-- STB and STW in every addressing mode but immediate: a byte or a big-endian word stored, register
direct writing the low byte or the whole register, the pointer of memory indirect read before, and nothing
else changed. -/
def Obligations.StoresInEveryMode : Prop :=
  ∀ (s : State) (r : RegNo) (f : Word),
    let stb (u : State) (a : Word) : Result := .next (u.writeByte a s.ab)
    let stw (u : State) (a : Word) : Result := .next (u.writeWord a s.aw)
    let p := s.load16 f
    let up := s.setReg r (s.reg r + 1)
    let down := s.setReg r (s.reg r - 1)
    exec (.stb (.regdir r)) s = .next (s.setReg r (joinBytes (hiByte (s.reg r)) s.ab)) ∧
    exec (.stb (.regind r)) s = stb s (s.reg r) ∧
    exec (.stb (.memdir f)) s = stb s f ∧
    exec (.stb (.memind f)) s = stb p.2 p.1 ∧
    exec (.stb (.regindpom r f)) s = stb s (s.reg r + f) ∧
    exec (.stb (.preinc r)) s = stb up (s.reg r + 1) ∧
    exec (.stb (.postinc r)) s = stb up (s.reg r) ∧
    exec (.stb (.predec r)) s = stb down (s.reg r - 1) ∧
    exec (.stb (.postdec r)) s = stb down (s.reg r) ∧
    exec (.stb (.pcpom f)) s = stb s (s.pc + f) ∧
    exec (.stw (.regdir r)) s = .next (s.setReg r s.aw) ∧
    exec (.stw (.regind r)) s = stw s (s.reg r) ∧
    exec (.stw (.memdir f)) s = stw s f ∧
    exec (.stw (.memind f)) s = stw p.2 p.1 ∧
    exec (.stw (.regindpom r f)) s = stw s (s.reg r + f) ∧
    exec (.stw (.preinc r)) s = stw up (s.reg r + 1) ∧
    exec (.stw (.postinc r)) s = stw up (s.reg r) ∧
    exec (.stw (.predec r)) s = stw down (s.reg r - 1) ∧
    exec (.stw (.postdec r)) s = stw down (s.reg r) ∧
    exec (.stw (.pcpom f)) s = stw s (s.pc + f)

/-- Bytes and words of memory: a read after a write, big-endian and wrapping at 0xFFFF, and a read of memory
changes nothing. A read of a device register gives the environment's next answer and is seen by the device, a
write to it is delivered, and neither changes anything else (note 7: how the environment is met is the
model's choice). -/
def Obligations.MemoryReadsBack : Prop :=
  ∀ (s : State) (a b : Word) (v x y : Byte) (w : Word) (rest : List Byte),
    (s.isDevice a = false → s.load8 a = (s.readByte a, s) ∧ (s.isDevice b = false →
      (s.writeByte a v).readByte b = if b = a then v else s.readByte b)) ∧
    (s.isDevice a = false → s.isDevice (a + 1) = false →
      (s.writeWord a w).load16 a = (w, s.writeWord a w) ∧ (s.writeWord a w).readByte a = hiByte w ∧
      (s.writeWord a w).readByte (a + 1) = loByte w) ∧
    (s.isDevice b = false → b ≠ a → b ≠ a + 1 → (s.writeWord a w).readByte b = s.readByte b) ∧
    (s.isDevice 0xFFFF#16 = false → s.isDevice 0#16 = false →
      s.load16 0xFFFF#16 = (joinBytes (s.readByte 0xFFFF#16) (s.readByte 0#16), s)) ∧
    (s.isDevice a = true →
      s.writeByte a v = { s with devLog := s.devLog ++ [.write a v] } ∧
      (s.devIn = x :: rest →
        s.load8 a = (x, { s with devIn := rest, devLog := s.devLog ++ [.read a x] }))) ∧
    (s.isDevice a = true → s.isDevice (a + 1) = true →
      s.writeWord a w =
        { s with devLog := s.devLog ++ [.write a (hiByte w), .write (a + 1) (loByte w)] } ∧
      (s.devIn = x :: y :: rest →
        s.load16 a = (joinBytes x y,
          { s with devIn := rest, devLog := s.devLog ++ [.read a x, .read (a + 1) y] })))

/-- The frame of the instructions that read an operand: everything but an accumulator, the indicators
and the auto register of the operand is unchanged, and so is every byte of memory; devices see the reads of
the operand, in the order of 20_memory.md R77, and nothing else. -/
def Obligations.SourceFrame : Prop :=
  (∀ mk ∈ [Instr.ldb, Instr.add, Instr.sub, Instr.cmp, Instr.and, Instr.or, Instr.xor, Instr.tst],
    ∀ (o : Operand 8) (s t : State), exec (mk o) s = .next t →
      t.pc = s.pc ∧ t.sp = s.sp ∧ t.aw = s.aw ∧ SameSpecials s t ∧ SameModes s.psw t.psw ∧
      SameMemory s t ∧ SameTraffic (s.afterReads (s.operandReads o)) t ∧
      (∀ r, autoRegister o ≠ some r → t.reg r = s.reg r)) ∧
  (∀ mk ∈ [Instr.cmp, Instr.tst], ∀ (o : Operand 8) (s t : State), exec (mk o) s = .next t →
    t.ab = s.ab) ∧
  (∀ (o : Operand 8) (s t : State), exec (.ldb o) s = .next t → t.psw = s.psw) ∧
  (∀ (o : Operand 16) (s t : State), exec (.ldw o) s = .next t →
    t.pc = s.pc ∧ t.sp = s.sp ∧ t.ab = s.ab ∧ t.psw = s.psw ∧ SameSpecials s t ∧ SameMemory s t ∧
    SameTraffic (s.afterReads (s.operandReads o)) t ∧
    (∀ r, autoRegister o ≠ some r → t.reg r = s.reg r))

/-- The frame of the instructions that write an operand: only the destination, the auto register and,
but for the stores, the indicators change; of memory only the byte, or for STW the two bytes, at the
effective address. Devices see the reads and then the write of the operand, a store only the read of the
pointer and the write (20_memory.md R77). -/
def Obligations.DestinationFrame : Prop :=
  (∀ mk ∈ [Instr.stb, Instr.inc, Instr.dec, Instr.not, Instr.asr, Instr.lsr, Instr.ror, Instr.rorc,
      Instr.asl, Instr.lsl, Instr.rol, Instr.rolc],
    ∀ (o : Operand 8) (s t : State), o.isImm = false → exec (mk o) s = .next t →
      t.pc = s.pc ∧ t.sp = s.sp ∧ SameAccumulators s t ∧ SameSpecials s t ∧
      SameModes s.psw t.psw ∧
      (∀ r, autoRegister o ≠ some r → (s.place o).1 ≠ .reg r → t.reg r = s.reg r) ∧
      (∀ r, (s.place o).1 = .reg r → hiByte (t.reg r) = hiByte (s.reg r)) ∧
      (∀ ea, (s.place o).1 = .mem ea → ∃ v, Stored s t [(ea, v)]) ∧
      ((∀ ea, (s.place o).1 ≠ .mem ea) → SameMemory s t ∧ SameTraffic s t)) ∧
  (∀ mk ∈ [Instr.inc, Instr.dec, Instr.not, Instr.asr, Instr.lsr, Instr.ror, Instr.rorc,
      Instr.asl, Instr.lsl, Instr.rol, Instr.rolc],
    ∀ (o : Operand 8) (s t : State), o.isImm = false → exec (mk o) s = .next t →
      ∀ ea, (s.place o).1 = .mem ea → ∃ v, Stored s t [(ea, v)] ∧
        SameTraffic ((s.afterReads (s.operandReads o)).delivered [(ea, v)]) t) ∧
  (∀ (o : Operand 8) (s t : State), o.isImm = false → exec (.stb o) s = .next t → t.psw = s.psw ∧
      ∀ ea, (s.place o).1 = .mem ea → Stored s t [(ea, s.ab)] ∧
        SameTraffic ((s.afterReads (pointerReads o)).delivered [(ea, s.ab)]) t) ∧
  (∀ (o : Operand 16) (s t : State), o.isImm = false → exec (.stw o) s = .next t →
      t.pc = s.pc ∧ t.sp = s.sp ∧ SameAccumulators s t ∧ SameSpecials s t ∧ t.psw = s.psw ∧
      (∀ r, autoRegister o ≠ some r → (s.place o).1 ≠ .reg r → t.reg r = s.reg r) ∧
      (∀ ea, (s.place o).1 = .mem ea →
        let ws := [(ea, hiByte s.aw), (ea + 1, loByte s.aw)]
        Stored s t ws ∧ SameTraffic ((s.afterReads (pointerReads o)).delivered ws) t) ∧
      ((∀ ea, (s.place o).1 ≠ .mem ea) → SameMemory s t ∧ SameTraffic s t))

/-- An immediate destination, and a jump to no address, take the addressing error with nothing else
done (note 11: such a term has no encoding, the entry is the model's choice). -/
def Obligations.ImmediateDestinationTraps : Prop :=
  (∀ mk ∈ [Instr.stb, Instr.inc, Instr.dec, Instr.not, Instr.asr, Instr.lsr, Instr.ror, Instr.rorc,
      Instr.asl, Instr.lsl, Instr.rol, Instr.rolc],
    ∀ (v : Byte) (s : State), s.boundary = true →
      ∃ t, exec (mk (.imm v)) s = .next t ∧ InterruptFrame s t s.pc ∧ EntersAt s t s.pc 2 ∧
        t.psw = { s.psw with i := false, t := false } ∧ t.boundary = true ∧
        t.prinm = s.prinm ∧ t.printr = s.printr ∧ EntryKeeps s t) ∧
  (∀ i : Instr, (∃ v, i = .stw (.imm v)) ∨ (∃ v, i = .jmpind (.imm v)) ∨
      (∃ r, i = .jmpind (.regdir r)) → ∀ s : State, s.boundary = true →
      ∃ t, exec i s = .next t ∧ InterruptFrame s t s.pc ∧ EntersAt s t s.pc 2 ∧
        t.psw = { s.psw with i := false, t := false } ∧ t.boundary = true ∧
        t.prinm = s.prinm ∧ t.printr = s.printr ∧ EntryKeeps s t)

/-! ## Arithmetic, logic and shifts, RC -/

/-- The flag functions at any length: sum, difference and logic result with their indicators. -/
def Obligations.FlagFunctions : Prop :=
  ∀ (n : Nat) (a b : BitVec n), 0 < n →
    ((addF a b).1.toNat = (a.toNat + b.toNat) % 2 ^ n ∧
      (addF a b).2.n = (addF a b).1.getLsbD (n - 1) ∧
      ((addF a b).2.z = true ↔ (addF a b).1.toNat = 0) ∧
      ((addF a b).2.c = true ↔ 2 ^ n ≤ a.toNat + b.toNat) ∧
      ((addF a b).2.v = true ↔ a.getLsbD (n - 1) = b.getLsbD (n - 1) ∧
        (addF a b).1.getLsbD (n - 1) ≠ a.getLsbD (n - 1))) ∧
    (((subF a b).1.toNat : Int) = ((a.toNat : Int) - b.toNat) % 2 ^ n ∧
      (subF a b).2.n = (subF a b).1.getLsbD (n - 1) ∧
      ((subF a b).2.z = true ↔ (subF a b).1.toNat = 0) ∧
      ((subF a b).2.c = true ↔ a.toNat < b.toNat) ∧
      ((subF a b).2.v = true ↔ a.getLsbD (n - 1) ≠ b.getLsbD (n - 1) ∧
        (subF a b).1.getLsbD (n - 1) ≠ a.getLsbD (n - 1))) ∧
    ((logF a).n = a.getLsbD (n - 1) ∧ ((logF a).z = true ↔ a.toNat = 0) ∧ (logF a).c = false ∧
      (logF a).v = false)

/-- ADD, SUB and CMP on the byte accumulator: the result, C the carry or borrow, V exactly when the
signed sum or difference leaves the range of a byte. -/
def Obligations.AddSubCmpResults : Prop :=
  ∀ (o : Operand 8) (s : State),
    let p := s.place o
    let x := p.2.readPlace8 p.1
    let b := x.1
    (∃ f : Flags, exec (.add o) s = .next ((x.2.setAb (s.ab + b)).setFlags f) ∧
      (f.n = true ↔ 128 ≤ (s.ab + b).toNat) ∧ (f.z = true ↔ s.ab + b = 0) ∧
      (f.c = true ↔ 256 ≤ s.ab.toNat + b.toNat) ∧
      (f.v = true ↔ s.ab.toInt + b.toInt < -128 ∨ 127 < s.ab.toInt + b.toInt)) ∧
    (∃ f : Flags, exec (.sub o) s = .next ((x.2.setAb (s.ab - b)).setFlags f) ∧
      exec (.cmp o) s = .next (x.2.setFlags f) ∧
      (f.n = true ↔ 128 ≤ (s.ab - b).toNat) ∧ (f.z = true ↔ s.ab = b) ∧
      (f.c = true ↔ s.ab.toNat < b.toNat) ∧
      (f.v = true ↔ s.ab.toInt - b.toInt < -128 ∨ 127 < s.ab.toInt - b.toInt))

/-- AND, OR, XOR and TST on the byte accumulator: the bits of the result, N and Z from it, C and V 0. -/
def Obligations.LogicResults : Prop :=
  ∀ (o : Operand 8) (s : State),
    let p := s.place o
    let x := p.2.readPlace8 p.1
    let b := x.1
    let flags (r : Byte) : Flags :=
      { n := decide (128 ≤ r.toNat), z := decide (r.toNat = 0), c := false, v := false }
    exec (.and o) s = .next ((x.2.setAb (s.ab &&& b)).setFlags (flags (s.ab &&& b))) ∧
    exec (.or o) s = .next ((x.2.setAb (s.ab ||| b)).setFlags (flags (s.ab ||| b))) ∧
    exec (.xor o) s = .next ((x.2.setAb (s.ab ^^^ b)).setFlags (flags (s.ab ^^^ b))) ∧
    exec (.tst o) s = .next (x.2.setFlags (flags (s.ab &&& b)))

/-- INC, DEC and NOT of an operand, with the indicators of an addition or subtraction of 1 and of a
logic operation. -/
def Obligations.IncDecNotResults : Prop :=
  ModifiesTo Instr.inc (fun b _ => b.toNat + 1) (fun b _ => b.toNat = 255) (fun b => b.toNat = 127) ∧
  ModifiesTo Instr.dec (fun b _ => b.toNat + 255) (fun b _ => b.toNat = 0) (fun b => b.toNat = 128) ∧
  ModifiesTo Instr.not (fun b _ => 255 - b.toNat) (fun _ _ => False) (fun _ => False)

/-- The eight shifts and rotates by one place, as arithmetic on the operand and the old C: the bit
shifted out becomes C, V becomes 0. -/
def Obligations.ShiftResults : Prop :=
  ModifiesTo Instr.asr (fun b _ => b.toNat / 2 + (if 128 ≤ b.toNat then 128 else 0))
    (fun b _ => b.toNat % 2 = 1) (fun _ => False) ∧
  ModifiesTo Instr.lsr (fun b _ => b.toNat / 2) (fun b _ => b.toNat % 2 = 1) (fun _ => False) ∧
  ModifiesTo Instr.ror (fun b _ => b.toNat / 2 + 128 * (b.toNat % 2))
    (fun b _ => b.toNat % 2 = 1) (fun _ => False) ∧
  ModifiesTo Instr.rorc (fun b c => b.toNat / 2 + (if c then 128 else 0))
    (fun b _ => b.toNat % 2 = 1) (fun _ => False) ∧
  ModifiesTo Instr.asl (fun b _ => 2 * b.toNat) (fun b _ => 128 ≤ b.toNat) (fun _ => False) ∧
  ModifiesTo Instr.lsl (fun b _ => 2 * b.toNat) (fun b _ => 128 ≤ b.toNat) (fun _ => False) ∧
  ModifiesTo Instr.rol (fun b _ => 2 * b.toNat + b.toNat / 128) (fun b _ => 128 ≤ b.toNat)
    (fun _ => False) ∧
  ModifiesTo Instr.rolc (fun b c => 2 * b.toNat + (if c then 1 else 0)) (fun b _ => 128 ≤ b.toNat)
    (fun _ => False)

/-! ## Jumps, RC -/

/-- The 14 conditions: their opcode bytes 0x2c and 0x4c, the branch or jump to its target taken exactly when
the condition holds, nothing changed when it does not, and after CMP the ten relations of the first operand
to the second (44_jump.md R223, R224, R258, R259). -/
def Obligations.ConditionTable : Prop :=
  (∀ (cc : Cond) (pom : Byte) (adr : Word),
    encode (branchOf cc pom) = some [BitVec.ofNat 8 (0x20 + condIndex cc), pom] ∧
    encode (jumpOf cc adr) =
      some [BitVec.ofNat 8 (0x40 + condIndex cc), hiByte adr, loByte adr]) ∧
  (∀ (cc : Cond) (pom : Byte) (adr : Word) (s : State),
    (Taken s.psw cc → exec (branchOf cc pom) s = .next { s with pc := s.pc + pom.signExtend 16 } ∧
      exec (jumpOf cc adr) s = .next { s with pc := adr }) ∧
    (¬ Taken s.psw cc → exec (branchOf cc pom) s = .next s ∧ exec (jumpOf cc adr) s = .next s)) ∧
  (∀ (o : Operand 8) (s t : State), exec (.cmp o) s = .next t →
    let a := s.ab
    let b := (s.readOp8 o).1
    (Taken t.psw .eql ↔ a = b) ∧ (Taken t.psw .neq ↔ a ≠ b) ∧
    (Taken t.psw .grtu ↔ b.toNat < a.toNat) ∧ (Taken t.psw .greu ↔ b.toNat ≤ a.toNat) ∧
    (Taken t.psw .lssu ↔ a.toNat < b.toNat) ∧ (Taken t.psw .lequ ↔ a.toNat ≤ b.toNat) ∧
    (Taken t.psw .grt ↔ b.toInt < a.toInt) ∧ (Taken t.psw .gre ↔ b.toInt ≤ a.toInt) ∧
    (Taken t.psw .lss ↔ a.toInt < b.toInt) ∧ (Taken t.psw .leq ↔ a.toInt ≤ b.toInt))

/-- JMP writes PC; JMPIND writes the effective address, in every memory mode, and reads no operand. -/
def Obligations.JumpResults : Prop :=
  ∀ (s : State) (r : RegNo) (f : Word),
    exec (.jmp f) s = .next { s with pc := f } ∧
    exec (.jmpind (.regind r)) s = .next { s with pc := s.reg r } ∧
    exec (.jmpind (.memdir f)) s = .next { s with pc := f } ∧
    exec (.jmpind (.memind f)) s = .next { (s.load16 f).2 with pc := (s.load16 f).1 } ∧
    exec (.jmpind (.regindpom r f)) s = .next { s with pc := s.reg r + f } ∧
    exec (.jmpind (.preinc r)) s = .next { s.setReg r (s.reg r + 1) with pc := s.reg r + 1 } ∧
    exec (.jmpind (.postinc r)) s = .next { s.setReg r (s.reg r + 1) with pc := s.reg r } ∧
    exec (.jmpind (.predec r)) s = .next { s.setReg r (s.reg r - 1) with pc := s.reg r - 1 } ∧
    exec (.jmpind (.postdec r)) s = .next { s.setReg r (s.reg r - 1) with pc := s.reg r } ∧
    exec (.jmpind (.pcpom f)) s = .next { s with pc := s.pc + f }

/-- JSR pushes PC, high byte first, and RTS pops it: a call and its return give PC and SP back, on a
stack in memory (note 7). -/
def Obligations.SubroutineCalls : Prop :=
  (∀ (adr : Word) (s : State), ∃ t, exec (.jsr adr) s = .next t ∧ t.pc = adr ∧ t.sp = s.sp + 2 ∧
    Stored s t [(s.sp + 1, hiByte s.pc), (s.sp + 2, loByte s.pc)] ∧
    SameTraffic (s.delivered [(s.sp + 1, hiByte s.pc), (s.sp + 2, loByte s.pc)]) t ∧
    SameAccumulators s t ∧ SameRegisters s t ∧ t.psw = s.psw ∧ SameSpecials s t ∧
    (s.stackInMemory 2 = true → exec .rts t = .next { t with pc := s.pc, sp := s.sp })) ∧
  (∀ s : State,
    let lo := s.load8 s.sp
    let hi := lo.2.load8 (s.sp - 1)
    exec .rts s = .next { hi.2 with pc := joinBytes hi.1 lo.1, sp := s.sp - 2 })

/-- INT: the frame with the address of the next instruction and the old PSW, the routine of entry nn,
I and T cleared, everything else as before, whatever I, IMR and the pending requests are. -/
def Obligations.InterruptInstruction : Prop :=
  ∀ (nn : Byte) (s : State), ∃ t, exec (.int nn) s = .next t ∧ InterruptFrame s t s.pc ∧
    EntersAt s t s.pc nn ∧ t.psw = { s.psw with i := false, t := false } ∧ t.prins = false ∧
    t.prcod = s.prcod ∧ t.pradr = s.pradr ∧ t.prinm = s.prinm ∧ t.printr = s.printr ∧
    EntryKeeps s t

/-- RTI pops the PSW and PC, and undoes an INT: PC, SP and the whole PSW are as before it, on a stack in
memory (note 7). -/
def Obligations.ReturnFromInterrupt : Prop :=
  (∀ s : State,
    let pl := s.load8 s.sp
    let ph := pl.2.load8 (s.sp - 1)
    let cl := ph.2.load8 (s.sp - 2)
    let ch := cl.2.load8 (s.sp - 3)
    exec .rti s = .next { ch.2 with
      psw := Psw.ofBytes ph.1 pl.1, pc := joinBytes ch.1 cl.1, sp := s.sp - 4 }) ∧
  (∀ (nn : Byte) (s t : State), s.stackInMemory 4 = true → exec (.int nn) s = .next t →
    exec .rti t = .next { t with pc := s.pc, sp := s.sp, psw := s.psw })

/-- The mode-setting instructions write one PSW bit, STIMR and STIVTP copy the word accumulator, NOP
does nothing; nothing else changes. -/
def Obligations.ModeAndSpecialWrites : Prop :=
  ∀ s : State,
    exec .inte s = .next { s with psw := { s.psw with i := true } } ∧
    exec .intd s = .next { s with psw := { s.psw with i := false } } ∧
    exec .trpe s = .next { s with psw := { s.psw with t := true } } ∧
    exec .trpd s = .next { s with psw := { s.psw with t := false } } ∧
    exec .prpe s = .next { s with psw := { s.psw with p := true } } ∧
    exec .prpd s = .next { s with psw := { s.psw with p := false } } ∧
    exec .stimr s = .next { s with imr := s.aw } ∧
    exec .stivtp s = .next { s with ivtp := s.aw } ∧
    exec .nop s = .next s

/-! ## Interrupts, RC -/

/-- The signal `prekid`: without it the service phase ends at once, with it the steps of the service
follow. -/
def Obligations.ServicePhase : Prop :=
  ∀ (s : State) (nn : Byte) (rti : Bool),
    ((s.prins = true ∨ s.prcod = true ∨ s.pradr = true ∨ s.prinm = true ∨ s.printrSignal = true ∨
      (s.psw.t = true ∧ rti = false)) → s.service nn rti = s.takeInterrupt nn) ∧
    (¬ (s.prins = true ∨ s.prcod = true ∨ s.pradr = true ∨ s.prinm = true ∨
      s.printrSignal = true ∨ (s.psw.t = true ∧ rti = false)) → s.service nn rti = s)

/-- One request is served, in the fixed order INT, illegal opcode, illegal addressing, non-maskable,
maskable, trap: its entry number, its flip-flop cleared, the frame, and the rest unchanged. -/
def Obligations.ServiceOrder : Prop :=
  ∀ (s : State) (nn : Byte),
    let t := s.takeInterrupt nn
    InterruptFrame s t s.pc ∧ EntryKeeps s t ∧
    t.psw.i = false ∧ t.psw.t = false ∧ t.psw.p = s.psw.p ∧ t.psw.n = s.psw.n ∧
    t.psw.z = s.psw.z ∧ t.psw.c = s.psw.c ∧ t.psw.v = s.psw.v ∧
    EntersAt s t s.pc (if s.prins then nn else if s.prcod then 3 else if s.pradr then 2
      else if s.prinm then 1
      else if s.printrSignal then
        (if s.psw.p then s.vecOf s.prl else BitVec.ofNat 8 (8 + s.prl.toNat))
      else 0) ∧
    t.prins = false ∧ t.prcod = (s.prcod && s.prins) ∧ t.pradr = (s.pradr && (s.prins || s.prcod)) ∧
    t.prinm = (s.prinm && (s.prins || s.prcod || s.pradr))

/-- The priority encoder: prl is the highest line whose request is pending and unmasked. Without one prl
is 0, which 60_exceptions.md R336 permits ("prl is not used (a model may take prl = 0)"): the model's
choice. -/
def Obligations.HighestLine : Prop :=
  ∀ s : State,
    (s.irm ≠ 0 ↔ ∃ k, PendingLine s k) ∧
    ((∃ k, PendingLine s k) → PendingLine s s.prl.toNat ∧ ∀ k, PendingLine s k → k ≤ s.prl.toNat) ∧
    ((¬ ∃ k, PendingLine s k) → s.prl = 0)

/-- A maskable request is accepted exactly when interrupts are enabled and some unmasked pending line
is above the current level. -/
def Obligations.MaskableAcceptance : Prop :=
  ∀ s : State, s.printrSignal = true ↔
    s.psw.i = true ∧ ∃ k, PendingLine s k ∧ s.psw.l.toNat < k

/-- L and the line's flip-flop are written together, only for a maskable request, and the pushed PSW
has the old L. -/
def Obligations.LevelUpdate : Prop :=
  ∀ (s : State) (nn : Byte),
    let t := s.takeInterrupt nn
    let maskable := s.prins = false ∧ s.prcod = false ∧ s.pradr = false ∧ s.prinm = false ∧
      s.printrSignal = true
    (maskable → t.psw.l = s.prl ∧
      ∀ k, k < 7 → t.printr.getLsbD k = (s.printr.getLsbD k && decide (k + 1 ≠ s.prl.toNat))) ∧
    (¬ maskable → t.psw.l = s.psw.l ∧ t.printr = s.printr) ∧
    (s.isDevice (s.sp + 4) = false → (t.readByte (s.sp + 4)).extractLsb' 4 3 = s.psw.l)

/-- TRPE traps at its own end, with T = 1 in the pushed PSW; RTI does not trap at its end, even if the PSW
it restores has T = 1 (60_exceptions.md R332). The bytes 06 and 0A are the default codes (note 12). -/
def Obligations.TrapTiming : Prop :=
  ∀ s : State,
    let u := s.nextInput.2.load8 s.pc
    s.boundary = true → s.nextInput.1.start = true → s.nextInput.1.inm = false →
    s.nextInput.1.intr = 0 → s.prinm = false → s.printr = 0 →
    (u.1 = 0x06#8 →
      ∃ t, step s = .next t ∧
        let v := { u.2 with psw := { s.psw with t := true } }
        InterruptFrame v t (s.pc + 1) ∧ EntersAt v t (s.pc + 1) 0 ∧
        t.psw = { s.psw with i := false, t := false } ∧ EntryKeeps u.2 t) ∧
    (u.1 = 0x0A#8 →
      let pl := u.2.load8 s.sp
      let ph := pl.2.load8 (s.sp - 1)
      let cl := ph.2.load8 (s.sp - 2)
      let ch := cl.2.load8 (s.sp - 3)
      step s = .next { ch.2 with
        psw := Psw.ofBytes ph.1 pl.1, pc := joinBytes ch.1 cl.1, sp := s.sp - 4 })

/-! ## Layer G -/

/-- Register direct, register indirect, memory direct and memory indirect addressing, as source and as
destination, in both register organisations, and the registers AR, BR, XR, SP and FP named directly. A
register is read and written at the length of the operand: a wider one is cut on a read and keeps its upper
bits on a write (notes 17 and 21, the model's choices); one that holds an address is cut or zero-extended to
AW_ADDR bits (note 17, the model's choice). Register direct is a mode of DR or GPR alone in
30_encoding.md R113; the operands that name AR, BR and XR are the model's choice (note 22), and so are those
that name SP and FP (note 38, deduced). -/
def Obligations.GenericBasicModes : Prop :=
  ∀ (g : GMachine) (l : Len) (r : Nat) (adr v : Quad),
    let direct (o : GOperand) (q : GReg) : Prop :=
      g.readOperand l o = (l.trunc (g.readReg q), g) ∧
      g.writeOperand l o v = g.writeReg q (l.merge (g.readReg q) v)
    let indirect (q : GReg) : Prop :=
      g.readOperand l (.regind r) = (g.readData l (g.addr (g.readReg q)), g) ∧
      g.writeOperand l (.regind r) v = g.writeData l (g.addr (g.readReg q)) v
    (g.cfg.regorg = .split → direct (.regdir r) (.dr r) ∧ indirect (.ar r)) ∧
    (g.cfg.regorg = .gpr → direct (.regdir r) (.gpr r) ∧ indirect (.gpr r)) ∧
    direct (.ardir r) (.ar r) ∧ direct (.brdir r) (.br r) ∧ direct (.xrdir r) (.xr r) ∧
    direct .sp .sp ∧ direct .fp .fp ∧
    g.readOperand l (.memdir adr) = (g.readData l (g.addr adr), g) ∧
    g.writeOperand l (.memdir adr) v = g.writeData l (g.addr adr) v ∧
    g.readOperand l (.memind adr) =
      (g.readData l (g.readData g.cfg.aw (g.addr adr)), g) ∧
    g.writeOperand l (.memind adr) v = g.writeData l (g.readData g.cfg.aw (g.addr adr)) v

/-- The modes with a displacement, the PC-relative one and the auto modes, which step their register by 1;
an address that is stepped first is what the register then holds (note 22: base and index modes on general
registers are the model's choice; note 38: FP with a displacement is deduced from the listings of
10_state.md R55). A displacement is 64 bits, sign-extended already (note 41, the model's choice), and a
register of a width other than AW_ADDR gives an address its low bits, zero-extended (note 17, the model's
choice). -/
def Obligations.GenericOtherModes : Prop :=
  ∀ (g : GMachine) (r x : Nat) (pom : Quad),
    g.place (.basedisp r pom) = (.mem (g.addr (g.readReg (g.cfg.baseReg r) + pom)), g) ∧
    g.place (.indexdisp x pom) = (.mem (g.addr (g.readReg (g.cfg.indexReg x) + pom)), g) ∧
    g.place (.regindpom r pom) = (.mem (g.addr (g.readReg (.gpr r) + pom)), g) ∧
    g.place (.baseindex r x pom) =
      (.mem (g.addr (g.readReg (g.cfg.baseReg r) + g.readReg (g.cfg.indexReg x) + pom)), g) ∧
    g.place (.fpdisp pom) = (.mem (g.addr (g.fp + pom)), g) ∧
    g.place (.pcpom pom) = (.mem (g.addr (g.pc + pom)), g) ∧
    (let h := g.writeReg (g.cfg.addrReg r) (g.readReg (g.cfg.addrReg r) + 1)
     g.place (.preinc r) = (.mem (g.addr (h.readReg (g.cfg.addrReg r))), h)) ∧
    g.place (.postinc r) = (.mem (g.addr (g.readReg (g.cfg.addrReg r))),
      g.writeReg (g.cfg.addrReg r) (g.readReg (g.cfg.addrReg r) + 1)) ∧
    (let h := g.writeReg (g.cfg.addrReg r) (g.readReg (g.cfg.addrReg r) - 1)
     g.place (.predec r) = (.mem (g.addr (h.readReg (g.cfg.addrReg r))), h)) ∧
    g.place (.postdec r) = (.mem (g.addr (g.readReg (g.cfg.addrReg r))),
      g.writeReg (g.cfg.addrReg r) (g.readReg (g.cfg.addrReg r) - 1))

/-- The four stack variants: for a datum of one location, where a push writes and a pop reads and how SP
moves; for a datum of more locations, where the stack takes as many by the model's choice (note 39), a push
followed by a pop restores SP and gives the value left in memory. -/
def Obligations.StackVariants : Prop :=
  ∀ (g : GMachine) (l : Len) (v : Quad),
    (g.span l = 1 → g.cfg.stackDir = .up → g.cfg.stackTop = .lastOccupied →
      g.push l v = { g with sp := g.addr (g.sp + 1) }.writeData l (g.addr (g.sp + 1)) v ∧
      g.pop l = (g.readData l (g.addr g.sp), { g with sp := g.addr (g.sp - 1) })) ∧
    (g.span l = 1 → g.cfg.stackDir = .up → g.cfg.stackTop = .firstFree →
      g.push l v = { g.writeData l (g.addr g.sp) v with sp := g.addr (g.sp + 1) } ∧
      g.pop l = (g.readData l (g.addr (g.sp - 1)), { g with sp := g.addr (g.sp - 1) })) ∧
    (g.span l = 1 → g.cfg.stackDir = .down → g.cfg.stackTop = .lastOccupied →
      g.push l v = { g with sp := g.addr (g.sp - 1) }.writeData l (g.addr (g.sp - 1)) v ∧
      g.pop l = (g.readData l (g.addr g.sp), { g with sp := g.addr (g.sp + 1) })) ∧
    (g.span l = 1 → g.cfg.stackDir = .down → g.cfg.stackTop = .firstFree →
      g.push l v = { g.writeData l (g.addr g.sp) v with sp := g.addr (g.sp - 1) } ∧
      g.pop l = (g.readData l (g.addr (g.sp + 1)), { g with sp := g.addr (g.sp + 1) })) ∧
    (g.addr g.sp = g.sp → g.fits l →
      (g.push l v).pop l = (l.trunc v, { g.push l v with sp := g.sp }))

/-- MOV, LOAD, STORE, PUSH and POP complete for every operand the addressing check admits; the unused field
of MOV a, -, b is ignored. The others take the addressing error, as every immediate destination does. The
model's choices: the source is read first, then the destination written (note 20); a wider accumulator keeps
its upper bits (note 21); a source the processor does not have is an addressing error (note 22); PUSH and
POP with operands that involve SP (note 30); PUSH and POP move SP over as many locations as the operand
occupies (note 39). -/
def Obligations.GenericTransfers : Prop :=
  ∀ (l : Len) (a u b : GOperand) (s : State),
    (s.g.operandsOk [a] [b] = true →
      let x := s.g.readOperand l a
      exec (.gMov l a b) s = .next { s with g := x.2.writeOperand l b x.1 } ∧
      exec (.gMov3 l a u b) s = .next { s with g := x.2.writeOperand l b x.1 }) ∧
    (s.g.operandsOk [a] [] = true →
      let x := s.g.readOperand l a
      exec (.gLoad l a) s = .next { s with g := x.2.writeReg .acc (l.merge x.2.acc x.1) } ∧
      exec (.gPush l a) s = .next { s with g := x.2.push l x.1 }) ∧
    (s.g.operandsOk [] [b] = true →
      exec (.gStore l b) s = .next { s with g := s.g.writeOperand l b (l.trunc s.g.acc) } ∧
      (s.g.cfg.stackTop = .lastOccupied → exec (.gPop l b) s = .next { s with
        g := (s.g.writeOperand l b (s.g.pop l).1).spPop (s.g.span l) }) ∧
      (s.g.cfg.stackTop = .firstFree → exec (.gPop l b) s = .next { s with
        g := (s.g.pop l).2.writeOperand l b (s.g.pop l).1 })) ∧
    (s.g.operandsOk [a] [b] = false →
      exec (.gMov l a b) s = .next { s with g := s.g.addressingError } ∧
      exec (.gMov3 l a u b) s = .next { s with g := s.g.addressingError }) ∧
    (s.g.operandsOk [a] [] = false →
      exec (.gLoad l a) s = .next { s with g := s.g.addressingError } ∧
      exec (.gPush l a) s = .next { s with g := s.g.addressingError }) ∧
    (s.g.operandsOk [] [b] = false →
      exec (.gStore l b) s = .next { s with g := s.g.addressingError } ∧
      exec (.gPop l b) s = .next { s with g := s.g.addressingError }) ∧
    (b.isImm = true → s.g.operandsOk [] [b] = false ∧ s.g.operandsOk [a] [b] = false)

/-- The frames of layer G: what evaluating an operand, writing a place, a push and a pop leave unchanged,
and from them the frame of MOV, whose stored datum reads back (notes 17, 19, 21, 39: what registers and
locations of other widths hold is the model's choice). -/
def Obligations.GenericFrames : Prop :=
  (∀ (g : GMachine) (o : GOperand),
    let t := (g.place o).2
    SameGeneric g t ∧ t.mem = g.mem ∧
    ∀ q, g.autoRegister o ≠ some q → t.readReg q = g.readReg q) ∧
  (∀ (g : GMachine) (l : Len) (p : GPlace) (v : Quad),
    let t := g.writePlace l p v
    SameGeneric g t ∧ (∀ q, p ≠ .reg q → t.readReg q = g.readReg q) ∧
    (∀ q, p = .reg q → g.present q →
      t.readReg q = (g.cfg.regLen q).trunc (l.merge (g.readReg q) v)) ∧
    (∀ ea, p = .mem ea → SameCellsBut ea (g.span l) g t ∧
      (g.fits l → t.readData l ea = l.trunc v)) ∧
    ((∀ ea, p ≠ .mem ea) → t.mem = g.mem)) ∧
  (∀ (g : GMachine) (l : Len) (v : Quad),
    let t := g.push l v
    SameGeneric g t ∧ (∀ q, q ≠ .sp → t.readReg q = g.readReg q) ∧
    SameCellsBut (g.pushAddr (g.span l)) (g.span l) g t ∧
    (g.pop l).2 = { g with sp := (g.pop l).2.sp }) ∧
  (∀ (l : Len) (a b : GOperand) (s t : State), s.g.operandsOk [a] [b] = true →
    exec (.gMov l a b) s = .next t →
      let x := s.g.readOperand l a
      let p := (x.2.place b).1
      SameGeneric s.g t.g ∧
      (∀ ea, p = .mem ea → SameCellsBut ea (s.g.span l) s.g t.g ∧
        (s.g.fits l → t.g.readData l ea = x.1)) ∧
      ((∀ ea, p ≠ .mem ea) → t.g.mem = s.g.mem) ∧
      (∀ q, s.g.autoRegister a ≠ some q → s.g.autoRegister b ≠ some q → p ≠ .reg q →
        t.g.readReg q = s.g.readReg q))

/-- PUSHPSW and POPPSW complete, and a POPPSW after a PUSHPSW restores SP and the whole PSW (note 39: the
locations a pushed PSW takes are the model's choice). -/
def Obligations.GenericPswTransfers : Prop :=
  ∀ s : State,
    exec .gPushpsw s = .next { s with g := s.g.push .l16 (s.g.psw.word.setWidth 64) } ∧
    exec .gPoppsw s = .next { s with g := { (s.g.pop .l16).2 with
      psw := Psw.ofBytes ((s.g.pop .l16).1.extractLsb' 8 8) ((s.g.pop .l16).1.extractLsb' 0 8) } } ∧
    (s.g.addr s.g.sp = s.g.sp → s.g.fits .l16 → ∀ p : Psw,
      exec .gPoppsw { s with g := { s.g.push .l16 (s.g.psw.word.setWidth 64) with psw := p } } =
        .next { s with g := { s.g.push .l16 (s.g.psw.word.setWidth 64) with sp := s.g.sp } })

/-- IN and OUT with a separate I/O space: a register copied to and from the I/O space, and an IN after an
OUT gives the register's value back (notes 32 and 40); a register the processor does not have is the
addressing error (note 22); without a separate space their code is illegal (note 23). The notes are the
model's choices. -/
def Obligations.GenericIo : Prop :=
  ∀ (p : Quad) (r q : Nat) (s : State),
    let dr (r : Nat) : GReg := s.g.cfg.dataReg r
    (s.g.cfg.iospace = .separate → s.g.cfg.hasReg (dr r) = true →
      exec (.gIn p r) s = .next { s with g := s.g.writeReg (dr r) (s.g.readIo p) } ∧
      exec (.gOut r p) s = .next { s with g := s.g.writeIo p (s.g.readReg (dr r)) } ∧
      (s.g.cfg.hasReg (dr q) = true → ∀ t, exec (.gOut r p) s = .next t → exec (.gIn p q) t =
        .next { t with g := t.g.writeReg (dr q) (s.g.readReg (dr r)) })) ∧
    (s.g.cfg.iospace = .separate → s.g.cfg.hasReg (dr r) = false →
      exec (.gIn p r) s = .next { s with g := s.g.addressingError } ∧
      exec (.gOut r p) s = .next { s with g := s.g.addressingError }) ∧
    (s.g.cfg.iospace = .separate →
      exec (.gIn1 p) s = .next { s with g := { s.g with acc := s.g.cfg.acc.trunc (s.g.readIo p) } } ∧
      exec (.gOut1 p) s = .next { s with g := s.g.writeIo p s.g.acc } ∧
      ∀ v p' : Quad, (s.g.writeIo p v).readIo p' = if p' = p then v else s.g.readIo p') ∧
    (s.g.cfg.iospace = .memoryMapped →
      ∀ i ∈ [Instr.gIn p r, Instr.gOut r p, Instr.gIn1 p, Instr.gOut1 p],
        exec i s = .next { s with g := s.g.illegalOpcode })

/-- Which field of a form is source and which is destination under FMT, where the sources are taken from and
where the result goes (notes 20 and 37, the model's choices: operands left to right, a destination that is
no source last; the first operand as the destination of the one-and-a-half-address form). -/
def Obligations.GenericForms : Prop :=
  ∀ (g : GMachine) (l : Len) (a b c : GOperand) (v : Quad),
    (∀ t : AddrFormat, (t ≠ .threeAddress .a1 → t.roles (.three a b c) = .separate a b c) ∧
      (t ≠ .twoAddress .second → t.roles (.two a b) = .inFirst a b) ∧
      t.roles (.twoSecond a b) = .inSecond a b ∧ t.roles (.one a) = .accumulator a ∧
      t.roles .zero = .stack) ∧
    (AddrFormat.threeAddress .a1).roles (.three a b c) = .separate b c a ∧
    (AddrFormat.twoAddress .second).roles (.two a b) = .inSecond a b ∧
    (let x := g.readOperand l a
     let y := x.2.readOperand l b
     g.fetch l (.separate a b c) = ({ a := x.1, b := y.1, dest := .operand c }, y.2)) ∧
    (let x := g.place a
     let y := x.2.readOperand l b
     g.fetch l (.inFirst a b) = ({ a := x.2.readPlace l x.1, b := y.1, dest := .place x.1 }, y.2)) ∧
    (let x := g.readOperand l a
     let y := x.2.place b
     g.fetch l (.inSecond a b) = ({ a := x.1, b := y.2.readPlace l y.1, dest := .place y.1 }, y.2)) ∧
    (let x := g.readOperand l a
     g.fetch l (.accumulator a) =
       ({ a := l.trunc g.acc, b := x.1, dest := .place (.reg .acc) }, x.2)) ∧
    (let t2 := g.pop l
     let t1 := t2.2.pop l
     g.fetch l .stack = ({ a := t1.1, b := t2.1, dest := .stack }, t1.2)) ∧
    (∀ p, g.deliver l (.place p) v = g.writePlace l p v) ∧
    g.deliver l (.operand c) v = g.writeOperand l c v ∧ g.deliver l .stack v = g.push l v

/-- ADD, SUB and CMP of layer G at every length and in every form: the result, C the carry or borrow, V
exactly when the signed result leaves the range. CMP takes its sources from a and b whatever FMT is, and its
field c is not used (41_arithmetic.md R174). Operands that are not legal take the addressing error (note 22,
the model's choice for a source and for a place the processor does not have). The model's choices beside it:
operands evaluated left to right, a destination that is no source last (note 20); a narrow write keeps the
upper bits of a register (note 21); the zero-address form moves SP over as many locations as a datum
occupies (note 39). -/
def Obligations.GenericArithmetic : Prop :=
  ∀ l : Len,
    GenericComputes (Instr.gAdd l) l (fun a b => a + b)
      (fun a b => 2 ^ l.bits ≤ a.toNat + b.toNat)
      (fun a b => OutOfRange l (signedAt l a + signedAt l b)) ∧
    GenericComputes (Instr.gSub l) l (fun a b => a - b) (fun a b => a.toNat < b.toNat)
      (fun a b => OutOfRange l (signedAt l a - signedAt l b)) ∧
    GenericCompares (Instr.gCmp l) l (fun a b => a - b) (fun a b => a.toNat < b.toNat)
      (fun a b => OutOfRange l (signedAt l a - signedAt l b))

/-- AND, OR, XOR, TST and NOT of layer G at every length and in every form: C and V are 0. TST takes its
sources from a and b whatever FMT is, and its field c is not used (42_logic.md R199). Operands that are not
legal take the addressing error (note 22, the model's choice for a source and for a place the processor does
not have). The model's choices beside it: operands evaluated left to right, a destination that is no source
last (note 20); a narrow write keeps the upper bits of a register (note 21); the zero-address form moves SP
over as many locations as a datum occupies (note 39). -/
def Obligations.GenericLogic : Prop :=
  ∀ l : Len,
    GenericComputes (Instr.gAnd l) l (fun a b => a &&& b) (fun _ _ => False) (fun _ _ => False) ∧
    GenericComputes (Instr.gOr l) l (fun a b => a ||| b) (fun _ _ => False) (fun _ _ => False) ∧
    GenericComputes (Instr.gXor l) l (fun a b => a ^^^ b) (fun _ _ => False) (fun _ _ => False) ∧
    GenericCompares (Instr.gTst l) l (fun a b => a &&& b) (fun _ _ => False) (fun _ _ => False) ∧
    GenericModifies (Instr.gNot l) l (fun a _ => ~~~a) (fun _ _ => False) (fun _ => False)

/-- INC and DEC of layer G at every length and in every form: the operand plus or minus 1, C the carry or
borrow, V exactly when the signed sum or difference leaves the range. Operands that are not legal take the
addressing error (note 22, the model's choice for a source and for a place the processor does not have). The
model's choices beside it: operands evaluated left to right, a destination that is no source last (note 20);
a narrow write keeps the upper bits of a register (note 21); the zero-address form moves SP over as many
locations as a datum occupies (note 39). -/
def Obligations.GenericIncDec : Prop :=
  ∀ l : Len,
    GenericModifies (Instr.gInc l) l (fun a _ => a + 1) (fun a _ => a.toNat = 2 ^ l.bits - 1)
      (fun a => OutOfRange l (signedAt l a + signedAt l 1)) ∧
    GenericModifies (Instr.gDec l) l (fun a _ => a - 1) (fun a _ => a.toNat = 0)
      (fun a => OutOfRange l (signedAt l a - signedAt l 1))

/-- The eight shifts of layer G at every length and in every form, as arithmetic on the operand and the old
C; the field c of the three-address form is not used. Operands that are not legal take the addressing error
(note 22, the model's choice for a source and for a place the processor does not have). The model's choices
beside it: operands evaluated left to right, a destination that is no source last (note 20); a narrow write
keeps the upper bits of a register (note 21); the zero-address form moves SP over as many locations as a
datum occupies (note 39). -/
def Obligations.GenericShiftResults : Prop :=
  ∀ l : Len,
    let low (a : Quad) (_ : Bool) : Prop := a.toNat % 2 = 1
    let high (a : Quad) (_ : Bool) : Prop := 2 ^ (l.bits - 1) ≤ a.toNat
    let right (a : Quad) (top : Nat) : Quad := BitVec.ofNat 64 (a.toNat / 2 + 2 ^ (l.bits - 1) * top)
    let left (a : Quad) (bottom : Nat) : Quad := BitVec.ofNat 64 (2 * a.toNat + bottom)
    GenericShifts (Instr.gAsr l) l (fun a _ => right a (a.toNat / 2 ^ (l.bits - 1))) low ∧
    GenericShifts (Instr.gLsr l) l (fun a _ => right a 0) low ∧
    GenericShifts (Instr.gRor l) l (fun a _ => right a (a.toNat % 2)) low ∧
    GenericShifts (Instr.gRorc l) l (fun a c => right a c.toNat) low ∧
    GenericShifts (Instr.gAsl l) l (fun a _ => left a 0) high ∧
    GenericShifts (Instr.gLsl l) l (fun a _ => left a 0) high ∧
    GenericShifts (Instr.gRol l) l (fun a _ => left a (a.toNat / 2 ^ (l.bits - 1))) high ∧
    GenericShifts (Instr.gRolc l) l (fun a c => left a c.toNat) high

/-- MUL and DIV: the sources in the order of the form, result, length, C and V from MULDIV, N and Z from the
result; an erroneous division takes the divide-error entry and writes no result and no indicator (note 26:
MULDIV is opaque, the statement holds for every MULDIV; the entry is the model's choice). Operands that are
not legal take the addressing error (note 22, the model's choice for a source and for a place the processor
does not have). The model's choices beside it: operands evaluated left to right, a destination that is no
source last (note 20); a narrow write keeps the upper bits of a register (note 21); the zero-address form
moves SP over as many locations as a datum occupies (note 39). -/
def Obligations.GenericMulDiv : Prop :=
  ∀ (k : IntType) (l : Len) (f : BinForm) (s : State),
    let o := s.g.cfg.fmt.roles f
    (s.g.operandsOk o.sources o.dests = true →
      let x := s.g.fetch l o
      let a := x.1.a
      let b := x.1.b
      let m := Config.mulLen k l
      let p := Config.mulValue k l a b
      let pf : Flags := { n := decide (signedAt m p < 0), z := decide (m.trunc p = 0),
                          c := Config.mulC k l a b, v := Config.mulV k l a b }
      let d := Config.divLen k l
      let q := Config.divValue k l a b
      let qf : Flags := { n := decide (signedAt d q < 0), z := decide (d.trunc q = 0),
                          c := Config.divC k l a b, v := Config.divV k l a b }
      exec (.gMul k l f) s = .next { s with g := (x.2.deliver m x.1.dest p).setFlags pf } ∧
      exec (.gDiv k l f) s = .next { s with
        g := if Config.divError k l a b then x.2.takeInterrupt (s.g.cfg.divErrEntry.setWidth 64)
          else (x.2.deliver d x.1.dest q).setFlags qf }) ∧
    (s.g.operandsOk o.sources o.dests = false →
      exec (.gMul k l f) s = .next { s with g := s.g.addressingError } ∧
      exec (.gDiv k l f) s = .next { s with g := s.g.addressingError })

/-- The jumps of layer G: JMP, the conditional forms, JMPIND in the memory modes, and the addressing error
of JMPIND in the others and where the processor does not have the register (note 22, the model's choice). A
displacement is 64 bits, sign-extended already (note 41, the model's choice). -/
def Obligations.GenericJumps : Prop :=
  ∀ (s : State) (adr : Quad) (cc : Cond) (a : GOperand),
    exec (.gJmp adr) s = .next { s with g := { s.g with pc := s.g.addr adr } } ∧
    (Taken s.g.psw cc →
      exec (.gBcc cc adr) s = .next { s with g := { s.g with pc := s.g.addr (s.g.pc + adr) } } ∧
      exec (.gJcc cc adr) s = .next { s with g := { s.g with pc := s.g.addr adr } }) ∧
    (¬ Taken s.g.psw cc →
      exec (.gBcc cc adr) s = .next s ∧ exec (.gJcc cc adr) s = .next s) ∧
    (∀ ea, s.g.cfg.available a = true → (s.g.place a).1 = .mem ea →
      exec (.gJmpind a) s = .next { s with g := { (s.g.place a).2 with pc := s.g.addr ea } }) ∧
    (a.isMemory = false ∨ s.g.cfg.available a = false →
      exec (.gJmpind a) s = .next { s with g := s.g.addressingError })

/-- JSR and RTS of layer G complete, and a return gives PC and SP back, in every stack variant; INTE, INTD
and NOP. PC is pushed as a datum of AW_ADDR bits over as many locations as it occupies, the model's choice
where these are more than one (note 39). -/
def Obligations.GenericCallsAndModes : Prop :=
  ∀ (s : State) (adr : Quad),
    exec (.gJsr adr) s = .next { s with
      g := { s.g.push s.g.cfg.aw s.g.pc with pc := s.g.addr adr } } ∧
    exec .gRts s = .next { s with
      g := { (s.g.pop s.g.cfg.aw).2 with pc := (s.g.pop s.g.cfg.aw).1 } } ∧
    (s.g.addr s.g.sp = s.g.sp → s.g.addr s.g.pc = s.g.pc → ∀ t, exec (.gJsr adr) s = .next t →
      exec .gRts t = .next { t with g := { t.g with pc := s.g.pc, sp := s.g.sp } }) ∧
    exec .gInte s = .next { s with g := { s.g with psw := { s.g.psw with i := true } } } ∧
    exec .gIntd s = .next { s with g := { s.g with psw := { s.g.psw with i := false } } } ∧
    exec .gNop s = .next s

/-- INT and RTI of layer G: PC and PSW pushed, then with SAVE_ALL every register the processor has, each
once, in the order of the configuration; PC from the field or the table, I and T cleared; without SAVE_ALL
an RTI undoes an INT. The model's choices: the order of SAVE_ALL (note 25), I and T in layer G and the sum
of the vector address cut to AW_ADDR bits (note 36), a frame over several locations (note 39). -/
def Obligations.GenericInterrupts : Prop :=
  ∀ (s : State) (adr : Quad),
    let frame := (s.g.push s.g.cfg.aw s.g.pc).push .l16 (s.g.psw.word.setWidth 64)
    let g1 := if s.g.cfg.saveAll then s.g.cfg.saved.foldl GMachine.pushReg frame else frame
    (∃ t, exec (.gInt adr) s = .next t ∧
      t = { s with g := { g1 with pc := t.g.pc, psw := { s.g.psw with i := false, t := false } } } ∧
      (s.g.cfg.intField = .address → t.g.pc = s.g.addr adr) ∧
      (s.g.cfg.intField = .entry → t.g.pc =
        g1.readData s.g.cfg.aw (s.g.addr (s.g.ivtp + adr * BitVec.ofNat 64 s.g.cfg.ivtScale)))) ∧
    (∃ t, exec .gRti s = .next t ∧
      let x := if s.g.cfg.saveAll then s.g.cfg.saved.reverse.foldl GMachine.popReg s.g else s.g
      let p := x.pop .l16
      t = { s with g := { (p.2.pop p.2.cfg.aw).2 with
        pc := (p.2.pop p.2.cfg.aw).1
        psw := Psw.ofBytes (p.1.extractLsb' 8 8) (p.1.extractLsb' 0 8) } }) ∧
    (s.g.cfg.saved.Nodup ∧ ∀ q, q ∈ s.g.cfg.saved ↔ s.g.cfg.hasReg q = true) ∧
    (s.g.cfg.saveAll = false → s.g.addr s.g.sp = s.g.sp → s.g.addr s.g.pc = s.g.pc →
      s.g.span s.g.cfg.aw + s.g.span .l16 ≤ 2 ^ s.g.cfg.aw.bits → ∀ t,
      exec (.gInt adr) s = .next t → exec .gRti t =
        .next { t with g := { t.g with pc := s.g.pc, sp := s.g.sp, psw := s.g.psw } })

/-! ## String and loop-control groups -/

/-- MOVC and MOVTC: the copy over the destination length, with Z and C from the initial lengths. It
completes where the locations of the strings are apart from each other and from the destination, and is
refused only where its loop never ends. The model's choices: the operand order (note 20), the addressing
error for an operand the processor does not have (note 22), the refusal of a loop that never ends (note 27).
-/
def Obligations.MoveStringsComplete : Prop :=
  ∀ (l : Len) (sl sa fc tb dl da : GOperand) (s : State),
    let copies (i : Instr) (u v : StringPlace) (table : Option Quad) (fill : Quad) (g : GMachine) : Prop :=
      let p := g.strand l u
      let q := g.strand l v
      let loop := g.copyLoops l u v (translated table) fill
      (∀ t, loop = some t → exec i s = .next { s with
        g := t.setZC (decide (p.len = q.len)) (decide (p.len.toNat < q.len.toNat)) }) ∧
      (loop = none → exec i s = .refused .stringNeverEnds ∧ (g.ok = true →
        g.NeverEnds (GMachine.copyTurn l u v (translated table)) ∨
        ∃ h, g.loop (GMachine.copyTurn l u v (translated table)) = some h ∧
          h.NeverEnds (GMachine.fillTurn l v fill))) ∧
      (g.CopyApart l u v → ∃ t, loop = some t ∧ exec i s = .next { s with
        g := t.setZC (decide (p.len = q.len)) (decide (p.len.toNat < q.len.toNat)) })
    (s.g.operandsOk [fc] [sl, sa, dl, da] = true →
      let x := s.g.locateString sl sa
      let f := x.2.readOperand .l8 fc
      let y := f.2.locateString dl da
      copies (.gMovc l sl sa fc dl da) x.1 y.1 none f.1 y.2) ∧
    (s.g.operandsOk [fc, tb] [sl, sa, dl, da] = true →
      let x := s.g.locateString sl sa
      let f := x.2.readOperand .l8 fc
      let t := f.2.readOperand s.g.cfg.aw tb
      let y := t.2.locateString dl da
      copies (.gMovtc l sl sa fc tb dl da) x.1 y.1 (some t.1) f.1 y.2) ∧
    (s.g.operandsOk [fc] [sl, sa, dl, da] = false →
      exec (.gMovc l sl sa fc dl da) s = .next { s with g := s.g.addressingError }) ∧
    (s.g.operandsOk [fc, tb] [sl, sa, dl, da] = false →
      exec (.gMovtc l sl sa fc tb dl da) s = .next { s with g := s.g.addressingError })

/-- The copy of MOVC and, through a table, of MOVTC: what the four locations hold at the end, where they are
apart from each other and from the destination; and, where they are apart from the source string and the
table too, every character of the destination: the source's, put through the table, then FILL as it is
(46_string.md R282, R283; note 27). Source and destination may overlap: a source character that an earlier
one was stored over is read as it was stored (R288, ST6, ST7); the table is apart from the destination. -/
def Obligations.CopyMovesCharacters : Prop :=
  ∀ (g t : GMachine) (l : Len) (u v : StringPlace) (table : Option Quad) (fill : Quad),
    let p := g.strand l u
    let q := g.strand l v
    let n := q.len.toNat
    let m := min n p.len.toNat
    let d (i : Nat) : Quad := q.addr + BitVec.ofNat 64 i
    let c (i : Nat) : Quad := p.addr + BitVec.ofNat 64 i
    g.CopyApart l u v → g.copyLoops l u v (translated table) fill = some t →
    (t.Describes l u (p.len.toNat - n) (c m) ∧ t.Describes l v 0 (d n)) ∧
    (g.fits .l8 → g.ClearOf l u p.addr m → g.ClearOf l v p.addr m →
      (∀ i j, i < n → j < n → i ≠ j → g.OtherChar (d i) (d j)) →
      (∀ i j, i < n → j < m → g.addr (d i) = g.addr (c j) ∨ g.OtherChar (d i) (c j)) →
      (∀ a, InTable table a → g.ApartChar l u a ∧ g.ApartChar l v a ∧ ∀ i < n, g.OtherChar (d i) a) →
      ∀ i < n, t.readChar (d i) =
        if i < m then
          let old := if ∃ j < i, g.addr (d j) = g.addr (c i) then t else g
          Len.l8.trunc (translated table g (old.readChar (c i)))
        else Len.l8.trunc fill)

/-- CMPC: it completes where the strings are apart from the four locations; then the strings padded with
FILL are equal exactly when Z = 1, at the first difference C says which character is smaller, and the
locations hold what was not compared (notes 20, 22 and 27 name the model's choices). -/
def Obligations.CompareStrings : Prop :=
  (∀ (l : Len) (l1 a1 fc l2 a2 : GOperand) (s : State),
    s.g.operandsOk [fc] [l1, a1, l2, a2] = false →
      exec (.gCmpc l l1 a1 fc l2 a2) s = .next { s with g := s.g.addressingError }) ∧
  (∀ (l : Len) (l1 a1 fc l2 a2 : GOperand) (s : State),
    s.g.operandsOk [fc] [l1, a1, l2, a2] = true →
      let x := s.g.locateString l1 a1
      let f := x.2.readOperand .l8 fc
      let y := f.2.locateString l2 a2
      let loop := y.2.loop (GMachine.compareTurn l x.1 y.1 f.1)
      (∀ r, loop = some r → exec (.gCmpc l l1 a1 fc l2 a2) s = .next { s with
        g := r.1.setZC r.2.1 r.2.2 }) ∧
      (loop = none → exec (.gCmpc l l1 a1 fc l2 a2) s = .refused .stringNeverEnds ∧
        (y.2.ok = true → y.2.NeverEnds (GMachine.compareTurn l x.1 y.1 f.1))) ∧
      (y.2.CompareApart l x.1 y.1 → ∃ r, loop = some r ∧
        exec (.gCmpc l l1 a1 fc l2 a2) s = .next { s with g := r.1.setZC r.2.1 r.2.2 })) ∧
  (∀ (g t : GMachine) (z c : Bool) (l : Len) (u v : StringPlace) (fill : Quad),
    let p := g.strand l u
    let q := g.strand l v
    let n := max p.len.toNat q.len.toNat
    let rest (k : Nat) : Prop :=
      t.Describes l u (p.len.toNat - k) (p.addr + BitVec.ofNat 64 (min k p.len.toNat)) ∧
      t.Describes l v (q.len.toNat - k) (q.addr + BitVec.ofNat 64 (min k q.len.toNat))
    g.CompareApart l u v → g.loop (GMachine.compareTurn l u v fill) = some (t, z, c) →
    ((∀ k < n, g.charAt fill p k = g.charAt fill q k) → z = true ∧ c = false ∧ rest n) ∧
    (∀ k < n, (∀ j < k, g.charAt fill p j = g.charAt fill q j) →
      g.charAt fill p k ≠ g.charAt fill q k →
      z = false ∧ (c = true ↔ (g.charAt fill p k).toNat < (g.charAt fill q k).toNat) ∧ rest (k + 1)))

/-- LOCC and SKPC, with C = 0: they complete where the string is apart from its locations; then Z = 1 if
no character stops the scan, else Z = 0 and the locations hold the string after the first that does
(notes 20, 22 and 27 name the model's choices). -/
def Obligations.ScanStrings : Prop :=
  (∀ (l : Len) (ln ad ch : GOperand) (s : State), s.g.operandsOk [ch] [ln, ad] = false →
    exec (.gLocc l ln ad ch) s = .next { s with g := s.g.addressingError } ∧
    exec (.gSkpc l ln ad ch) s = .next { s with g := s.g.addressingError }) ∧
  (∀ (l : Len) (ln ad ch : GOperand) (s : State), s.g.operandsOk [ch] [ln, ad] = true →
    let x := s.g.locateString ln ad
    let c := x.2.readOperand .l8 ch
    let scans (i : Instr) (stop : Quad → Bool) : Prop :=
      let loop := c.2.loop (GMachine.scanTurn l x.1 stop)
      (∀ r, loop = some r → exec i s = .next { s with g := r.1.setZC r.2 false }) ∧
      (loop = none → exec i s = .refused .stringNeverEnds ∧
        (c.2.ok = true → c.2.NeverEnds (GMachine.scanTurn l x.1 stop))) ∧
      (c.2.ScanApart l x.1 → ∃ r, loop = some r ∧
        exec i s = .next { s with g := r.1.setZC r.2 false })
    scans (.gLocc l ln ad ch) (fun d => decide (d = c.1)) ∧
    scans (.gSkpc l ln ad ch) (fun d => decide (d ≠ c.1))) ∧
  (∀ (g t : GMachine) (z : Bool) (l : Len) (w : StringPlace) (stop : Quad → Bool),
    let p := g.strand l w
    let n := p.len.toNat
    let c (k : Nat) : Quad := p.addr + BitVec.ofNat 64 k
    g.ScanApart l w → g.loop (GMachine.scanTurn l w stop) = some (t, z) →
    ((∀ k < n, stop (g.readChar (c k)) = false) → z = true ∧ t.Describes l w 0 (c n)) ∧
    (∀ k < n, stop (g.readChar (c k)) = true → (∀ j < k, stop (g.readChar (c j)) = false) →
      z = false ∧ t.Describes l w (n - (k + 1)) (c (k + 1))))

/-- MATCHC, with C = 0: it completes where the strings are apart from the locations of the source string;
then Z = 0 and these hold the string from the first match on, or Z = 1 and what they hold is shorter than
the substring (notes 20, 22 and 27 name the model's choices, note 27 that the substring's operands can be
immediate). -/
def Obligations.MatchStrings : Prop :=
  (∀ (l : Len) (l1 a1 l2 a2 : GOperand) (s : State), s.g.operandsOk [l2, a2] [l1, a1] = false →
    exec (.gMatchc l l1 a1 l2 a2) s = .next { s with g := s.g.addressingError }) ∧
  (∀ (l : Len) (l1 a1 l2 a2 : GOperand) (s : State), s.g.operandsOk [l2, a2] [l1, a1] = true →
    let x := s.g.locateString l1 a1
    let y := x.2.locateString l2 a2
    let loop := y.2.loop (GMachine.matchTurn l x.1 y.1)
    (∀ r, loop = some r → exec (.gMatchc l l1 a1 l2 a2) s = .next { s with g := r.1.setZC r.2 false }) ∧
    (loop = none → exec (.gMatchc l l1 a1 l2 a2) s = .refused .stringNeverEnds ∧
      (y.2.ok = true → y.2.NeverEnds (GMachine.matchTurn l x.1 y.1))) ∧
    (y.2.MatchApart l x.1 y.1 → ∃ r, loop = some r ∧
      exec (.gMatchc l l1 a1 l2 a2) s = .next { s with g := r.1.setZC r.2 false })) ∧
  (∀ (g t : GMachine) (z : Bool) (l : Len) (u v : StringPlace),
    let p := g.strand l u
    let sub := g.strand l v
    let n := p.len.toNat
    let m := sub.len.toNat
    let c (k : Nat) : Quad := p.addr + BitVec.ofNat 64 k
    g.MatchApart l u v → g.loop (GMachine.matchTurn l u v) = some (t, z) →
    ((∀ k, ¬ g.MatchesAt sub p k) →
      z = true ∧ t.Describes l u (min n (m - 1)) (c (n - min n (m - 1)))) ∧
    (∀ k, g.MatchesAt sub p k → (∀ j < k, ¬ g.MatchesAt sub p j) →
      z = false ∧ t.Describes l u (n - k) (c k)))

/-- ACB, AOB and SOB: the jump is taken and the index written exactly when the signed condition holds; else
neither. The indicators do not change. The model's choices: the operand order (note 20) and the addressing
error for an operand the processor does not have (note 22). A displacement is 64 bits, sign-extended already
(note 41, the model's choice). -/
def Obligations.LoopBranches : Prop :=
  ∀ (l : Len) (lim st ix : GOperand) (d : Quad) (s : State),
    (s.g.operandsOk [lim, st] [ix] = true →
      let x := s.g.readOperand l lim
      let y := x.2.readOperand l st
      let z := y.2.locate l ix
      let v := l.trunc (z.1.value + y.1)
      exec (.gAcb l lim st ix d) s = .next { s with
        g := if signedAt l v ≤ signedAt l x.1 then
          (z.2.writePlace l z.1.place v).setPc (s.g.pc + d) else z.2 }) ∧
    (s.g.operandsOk [lim] [ix] = true →
      let x := s.g.readOperand l lim
      let z := x.2.locate l ix
      let v := l.trunc (z.1.value + 1)
      exec (.gAob l lim ix d) s = .next { s with
        g := if signedAt l v ≤ signedAt l x.1 then
          (z.2.writePlace l z.1.place v).setPc (s.g.pc + d) else z.2 }) ∧
    (s.g.operandsOk [] [ix] = true →
      let z := s.g.locate l ix
      let v := l.trunc (z.1.value - 1)
      exec (.gSob l ix d) s = .next { s with
        g := if 0 ≤ signedAt l v then
          (z.2.writePlace l z.1.place v).setPc (s.g.pc + d) else z.2 }) ∧
    (s.g.operandsOk [lim, st] [ix] = false →
      exec (.gAcb l lim st ix d) s = .next { s with g := s.g.addressingError }) ∧
    (s.g.operandsOk [lim] [ix] = false →
      exec (.gAob l lim ix d) s = .next { s with g := s.g.addressingError }) ∧
    (s.g.operandsOk [] [ix] = false →
      exec (.gSob l ix d) s = .next { s with g := s.g.addressingError })

/-- CASE: the displacement of the selected table entry, or the step over the table; base above limit is
refused (note 28). BBS and BBC: the jump on a bit of memory; a position outside the byte is refused (note 29).
That an entry of the table is sign-extended from CELL bits is the model's choice (note 28), and so is that
`pos` is read at 8 bits and `base` at AW_ADDR bits (note 29). The operand order and the addressing error for
an operand the processor does not have are the model's choices (notes 20 and 22). The displacement of BBS and
BBC is 64 bits, sign-extended already (note 41, the model's choice). -/
def Obligations.CaseAndBitBranches : Prop :=
  (∀ (l : Len) (sel ba li : GOperand) (s : State), s.g.operandsOk [sel, ba, li] [] = true →
    let x := s.g.readOperand l sel
    let y := x.2.readOperand l ba
    let z := y.2.readOperand l li
    let i := signedAt l x.1
    let lo := signedAt l y.1
    let hi := signedAt l z.1
    let c := s.g.cfg.cell
    (lo ≤ hi → exec (.gCase l sel ba li) s = .next { s with g := { z.2 with
      pc := s.g.addr (s.g.pc + (if lo ≤ i ∧ i ≤ hi then
        c.sext (z.2.readCell (s.g.addr (s.g.pc + BitVec.ofInt 64 (i - lo))))
        else BitVec.ofInt 64 (hi - lo + 1))) } }) ∧
    (hi < lo → exec (.gCase l sel ba li) s = .refused .caseBaseAboveLimit)) ∧
  (∀ (l : Len) (sel ba li : GOperand) (s : State), s.g.operandsOk [sel, ba, li] [] = false →
    exec (.gCase l sel ba li) s = .next { s with g := s.g.addressingError }) ∧
  (∀ (ba po : GOperand) (d : Quad) (s : State), s.g.operandsOk [ba, po] [] = false →
    exec (.gBbs ba po d) s = .next { s with g := s.g.addressingError } ∧
    exec (.gBbc ba po d) s = .next { s with g := s.g.addressingError }) ∧
  (∀ (ba po : GOperand) (d : Quad) (s : State), s.g.operandsOk [ba, po] [] = true →
    let x := s.g.readOperand s.g.cfg.aw ba
    let y := x.2.readOperand .l8 po
    let bit := (y.2.readData .l8 x.1).toNat / 2 ^ y.1.toNat % 2
    (y.1.toNat ≤ 7 →
      exec (.gBbs ba po d) s = .next { s with g := if bit = 1 then y.2.setPc (s.g.pc + d) else y.2 } ∧
      exec (.gBbc ba po d) s = .next { s with g := if bit = 0 then y.2.setPc (s.g.pc + d) else y.2 })
    ∧ (7 < y.1.toNat → exec (.gBbs ba po d) s = .refused .bitPositionOutsideByte ∧
      exec (.gBbc ba po d) s = .refused .bitPositionOutsideByte))
end

