-- ==== Sys2Proof/Laws/Memory.lean ====
section
/-!
SUPPORT. The laws of memory: a read after a write, the canonical form and the address bound kept by
every operation, and equal reads of two memories in canonical form make them equal.
-/

namespace Sys2Proof.Machine

theorem Memory.read_nil (a : Nat) : Memory.read [] a = Config.unlistedByte := rfl

theorem Memory.read_cons (c : Host.Cell) (m : Memory) (a : Nat) :
    Memory.read (c :: m) a = if c.1 = a then c.2 else Memory.read m a := rfl

/-- A listed byte reads back, and no other address changes. -/
theorem Memory.read_insert (m : Memory) (a b : Nat) (v : Byte) :
    (m.insert a v).read b = if a = b then v else m.read b := by
  induction m with
  | nil => simp [Memory.insert, Memory.read]
  | cons c m ih =>
    obtain ⟨k, w⟩ := c
    by_cases h1 : a < k
    · simp [Memory.insert, h1, Memory.read]
    · by_cases h2 : k = a
      · subst h2
        simp only [Memory.insert, Nat.lt_irrefl, if_false, if_true, Memory.read]
        split <;> rfl
      · simp only [Memory.insert, h1, h2, if_false, Memory.read, ih]
        by_cases h3 : k = b <;> by_cases h4 : a = b <;> simp [h3, h4]
        omega

/-- A filtered memory reads the unlisted byte at the address taken away. -/
theorem Memory.read_filter (m : Memory) (a b : Nat) :
    Memory.read (m.filter fun c => c.1 != a) b = if a = b then Config.unlistedByte else m.read b := by
  induction m with
  | nil => simp [Memory.read]
  | cons c m ih =>
    obtain ⟨k, w⟩ := c
    by_cases h : k = a
    · subst h
      rw [List.filter_cons_of_neg (by simp), ih]
      simp only [Memory.read]
      split <;> rfl
    · rw [List.filter_cons_of_pos (by simpa using h)]
      simp only [Memory.read, ih]
      by_cases h3 : k = b <;> by_cases h4 : a = b <;> simp [h3, h4]
      omega

/-- Reading after a write gives the byte written there and leaves every other address. -/
theorem Memory.read_write (m : Memory) (a b : Nat) (v : Byte) :
    (m.write a v).read b = if a = b then v else m.read b := by
  unfold Memory.write
  split
  · next h => rw [Memory.read_filter, h]
  · rw [Memory.read_insert]

@[simp] theorem Memory.read_write_same (m : Memory) (a : Nat) (v : Byte) :
    (m.write a v).read a = v := by simp [Memory.read_write]

theorem Memory.read_write_other (m : Memory) {a b : Nat} (v : Byte) (h : a ≠ b) :
    (m.write a v).read b = m.read b := by simp [Memory.read_write, h]

theorem Memory.wf_cons (k : Nat) (v : Byte) (m : Memory) :
    Memory.wf ((k, v) :: m) = true ↔
      v ≠ Config.unlistedByte ∧ (∀ c ∈ m, k < c.1) ∧ Memory.wf m = true := by
  simp [Memory.wf, and_assoc]

theorem Memory.all_insert (p : Nat → Bool) (m : Memory) (a : Nat) (v : Byte) (ha : p a = true)
    (hm : ∀ c ∈ m, p c.1 = true) : ∀ c ∈ m.insert a v, p c.1 = true := by
  induction m with
  | nil => simp [Memory.insert, ha]
  | cons d m ih =>
    obtain ⟨k, w⟩ := d
    have hk : p k = true := hm (k, w) (by simp)
    have ht : ∀ c ∈ m, p c.1 = true := fun c h => hm c (by simp [h])
    intro c hc
    simp only [Memory.insert] at hc
    split at hc
    · simp only [List.mem_cons] at hc
      rcases hc with rfl | rfl | hc
      exacts [ha, hk, ht c hc]
    · split at hc
      · simp only [List.mem_cons] at hc
        rcases hc with rfl | hc
        exacts [ha, ht c hc]
      · simp only [List.mem_cons] at hc
        rcases hc with rfl | hc
        exacts [hk, ih ht c hc]

theorem Memory.wf_insert (m : Memory) (a : Nat) (v : Byte) (hv : v ≠ Config.unlistedByte)
    (h : Memory.wf m = true) : Memory.wf (m.insert a v) = true := by
  induction m with
  | nil => simp [Memory.insert, Memory.wf, hv]
  | cons d m ih =>
    obtain ⟨k, w⟩ := d
    obtain ⟨hw, hk, hm⟩ := (Memory.wf_cons k w m).1 h
    simp only [Memory.insert]
    split
    · next hlt =>
      refine (Memory.wf_cons _ _ _).2 ⟨hv, ?_, h⟩
      intro c hc
      simp only [List.mem_cons] at hc
      rcases hc with rfl | hc
      · exact hlt
      · exact Nat.lt_trans hlt (hk c hc)
    · split
      · next heq => subst heq; exact (Memory.wf_cons _ _ _).2 ⟨hv, hk, hm⟩
      · next hlt hne =>
        refine (Memory.wf_cons _ _ _).2 ⟨hw, ?_, ih hm⟩
        intro c hc
        have := Memory.all_insert (fun n => decide (k < n)) m a v (by simp; omega)
          (fun c h => by simpa using hk c h) c hc
        simpa using this

theorem Memory.wf_filter (p : Host.Cell → Bool) (m : Memory) (h : Memory.wf m = true) :
    Memory.wf (m.filter p) = true := by
  induction m with
  | nil => rfl
  | cons d m ih =>
    obtain ⟨k, w⟩ := d
    obtain ⟨hw, hk, hm⟩ := (Memory.wf_cons k w m).1 h
    by_cases hp : p (k, w) = true
    · rw [List.filter_cons_of_pos hp]
      exact (Memory.wf_cons _ _ _).2 ⟨hw, fun c hc => hk c (List.mem_of_mem_filter hc), ih hm⟩
    · rw [List.filter_cons_of_neg hp]; exact ih hm

/-- A write keeps the canonical form. -/
theorem Memory.wf_write (m : Memory) (a : Nat) (v : Byte) (h : Memory.wf m = true) :
    Memory.wf (m.write a v) = true := by
  unfold Memory.write
  split
  · exact Memory.wf_filter _ m h
  · next hv => exact Memory.wf_insert m a v hv h

theorem Memory.below_iff (n : Nat) (m : Memory) :
    Memory.below n m = true ↔ ∀ c ∈ m, c.1 < n := by simp [Memory.below]

/-- A write below the bound keeps every listed address below it. -/
theorem Memory.below_write (n : Nat) (m : Memory) (a : Nat) (v : Byte) (ha : a < n)
    (h : Memory.below n m = true) : Memory.below n (m.write a v) = true := by
  rw [Memory.below_iff] at h ⊢
  intro c hc
  unfold Memory.write at hc
  split at hc
  · exact h c (List.mem_of_mem_filter hc)
  · have := Memory.all_insert (fun k => decide (k < n)) m a v (by simpa using ha)
      (fun c h' => by simpa using h c h') c hc
    simpa using this

theorem Memory.wf_writeSpan (m : Memory) (a n : Nat) (v : Quad) (h : Memory.wf m = true) :
    Memory.wf (m.writeSpan a n v) = true := by
  induction n generalizing v with
  | zero => exact h
  | succ n ih => exact Memory.wf_write _ _ _ (ih _)

theorem Memory.below_writeSpan (b : Nat) (m : Memory) (a n : Nat) (v : Quad) (ha : a + n ≤ b)
    (h : Memory.below b m = true) : Memory.below b (m.writeSpan a n v) = true := by
  induction n generalizing v with
  | zero => exact h
  | succ n ih => exact Memory.below_write _ _ _ _ (by omega) (ih _ (by omega))

/-- A span write leaves every address outside the span. -/
theorem Memory.read_writeSpan_other (m : Memory) (a n : Nat) (v : Quad) (b : Nat)
    (h : b < a ∨ a + n ≤ b) : (m.writeSpan a n v).read b = m.read b := by
  induction n generalizing v with
  | zero => rfl
  | succ n ih =>
    rw [Memory.writeSpan, Memory.read_write_other _ _ (by omega), ih _ (by omega)]

theorem Memory.readSpan_congr (m m' : Memory) (a n : Nat)
    (h : ∀ b, a ≤ b → b < a + n → m.read b = m'.read b) : m.readSpan a n = m'.readSpan a n := by
  induction n with
  | zero => rfl
  | succ n ih =>
    simp only [Memory.readSpan]
    rw [ih (fun b h1 h2 => h b h1 (by omega)), h (a + n) (by omega) (by omega)]

/-- A span read after a span write elsewhere. -/
theorem Memory.readSpan_writeSpan_other (m : Memory) (a n b k : Nat) (v : Quad)
    (h : b + k ≤ a ∨ a + n ≤ b) : (m.writeSpan a n v).readSpan b k = m.readSpan b k :=
  Memory.readSpan_congr _ _ _ _ fun c h1 h2 => Memory.read_writeSpan_other _ _ _ _ _ (by omega)

theorem Memory.readSpan_write_above (m : Memory) (a n b : Nat) (v : Byte) (h : a + n ≤ b) :
    (m.write b v).readSpan a n = m.readSpan a n :=
  Memory.readSpan_congr _ _ _ _ fun c _ h2 => Memory.read_write_other _ _ (by omega)

/-- A span read after the write of the same span gives the bits written. -/
theorem Memory.readSpan_writeSpan (m : Memory) (a n : Nat) (v : Quad) :
    (m.writeSpan a n v).readSpan a n = v &&& BitVec.ofNat 64 (2 ^ (8 * n) - 1) := by
  induction n generalizing v with
  | zero => simp [Memory.readSpan]
  | succ n ih =>
    simp only [Memory.readSpan, Memory.writeSpan]
    rw [Memory.readSpan_write_above _ _ _ _ _ (Nat.le_refl _), ih, Memory.read_write_same]
    apply BitVec.eq_of_getLsbD_eq
    intro i hi
    simp only [BitVec.getLsbD_or, BitVec.getLsbD_shiftLeft, BitVec.getLsbD_and,
      BitVec.getLsbD_ushiftRight, BitVec.getLsbD_ofNat, BitVec.getLsbD_setWidth, Nat.testBit_two_pow_sub_one]
    by_cases h : i < 8
    · simp [h, hi]; omega
    · have h1 : 8 + (i - 8) = i := by omega
      have h2 : (i - 8 < 8 * n) = (i < 8 * (n + 1)) := by apply propext; omega
      have h3 : i - 8 < 64 := by omega
      simp [h, hi, h1, h2, h3]

theorem Memory.read_below (k : Nat) (m : Memory) (h : ∀ c ∈ m, k < c.1) :
    m.read k = Config.unlistedByte := by
  induction m with
  | nil => rfl
  | cons d m ih =>
    have hd := h d (by simp)
    rw [Memory.read_cons, if_neg (by omega)]
    exact ih fun c hc => h c (by simp [hc])

/-- Above its bound a memory lists nothing. -/
theorem Memory.read_above {n : Nat} {m : Memory} (h : m.below n = true) {a : Nat} (ha : n ≤ a) :
    m.read a = Config.unlistedByte := by
  induction m with
  | nil => rfl
  | cons d m ih =>
    simp only [Memory.below, List.all_cons, Bool.and_eq_true, decide_eq_true_eq] at h
    rw [Memory.read_cons, if_neg (by omega)]
    exact ih h.2

/-- Two memories in canonical form that read the same everywhere are the same. -/
theorem Memory.ext_of_wf (m m' : Memory) (h : Memory.wf m = true) (h' : Memory.wf m' = true)
    (hr : ∀ a, m.read a = m'.read a) : m = m' := by
  induction m generalizing m' with
  | nil =>
    cases m' with
    | nil => rfl
    | cons d m' =>
      obtain ⟨k, w⟩ := d
      obtain ⟨hw, _, _⟩ := (Memory.wf_cons k w m').1 h'
      have := hr k
      simp [Memory.read] at this
      exact absurd this.symm hw
  | cons c m ih =>
    obtain ⟨k, v⟩ := c
    obtain ⟨hv, hk, hm⟩ := (Memory.wf_cons k v m).1 h
    cases m' with
    | nil =>
      have := hr k
      simp [Memory.read] at this
      exact absurd this hv
    | cons d m' =>
      obtain ⟨k', v'⟩ := d
      obtain ⟨hv', hk', hm'⟩ := (Memory.wf_cons k' v' m').1 h'
      have hkk : k = k' := by
        by_contra hne
        rcases Nat.lt_or_gt_of_ne hne with hlt | hlt
        · have := hr k
          rw [Memory.read_cons, if_pos rfl, Memory.read_cons, if_neg (by omega),
            Memory.read_below k m' fun c hc => Nat.lt_trans hlt (hk' c hc)] at this
          exact hv this
        · have := hr k'
          rw [Memory.read_cons, if_neg (by omega), Memory.read_cons, if_pos rfl,
            Memory.read_below k' m fun c hc => Nat.lt_trans hlt (hk c hc)] at this
          exact hv' this.symm
      subst hkk
      have hvv : v = v' := by simpa [Memory.read] using hr k
      subst hvv
      congr 1
      apply ih m' hm hm'
      intro a
      by_cases ha : k = a
      · subst ha; rw [Memory.read_below k m hk, Memory.read_below k m' hk']
      · have := hr a
        rwa [Memory.read_cons, if_neg ha, Memory.read_cons, if_neg ha] at this

end Sys2Proof.Machine
end

