-- ==== Sys2Proof/Laws/State.lean ====
section
/-!
SUPPORT. One lemma per field and update of the state, so that no proof unfolds a record update.
-/

namespace Sys2Proof.Machine

variable (s : State)

@[simp] theorem State.setReg_pc (r : RegNo) (v : Word) : (s.setReg r v).pc = s.pc := rfl
@[simp] theorem State.setReg_sp (r : RegNo) (v : Word) : (s.setReg r v).sp = s.sp := rfl
@[simp] theorem State.setReg_aw (r : RegNo) (v : Word) : (s.setReg r v).aw = s.aw := rfl
@[simp] theorem State.setReg_ab (r : RegNo) (v : Word) : (s.setReg r v).ab = s.ab := rfl
@[simp] theorem State.setReg_gpr (r : RegNo) (v : Word) : (s.setReg r v).gpr =
    s.gpr.set r.toNat v r.isLt := rfl
@[simp] theorem State.setReg_psw (r : RegNo) (v : Word) : (s.setReg r v).psw = s.psw := rfl
@[simp] theorem State.setReg_imr (r : RegNo) (v : Word) : (s.setReg r v).imr = s.imr := rfl
@[simp] theorem State.setReg_ivtp (r : RegNo) (v : Word) : (s.setReg r v).ivtp = s.ivtp := rfl
@[simp] theorem State.setReg_prins (r : RegNo) (v : Word) : (s.setReg r v).prins = s.prins := rfl
@[simp] theorem State.setReg_prcod (r : RegNo) (v : Word) : (s.setReg r v).prcod = s.prcod := rfl
@[simp] theorem State.setReg_pradr (r : RegNo) (v : Word) : (s.setReg r v).pradr = s.pradr := rfl
@[simp] theorem State.setReg_prinm (r : RegNo) (v : Word) : (s.setReg r v).prinm = s.prinm := rfl
@[simp] theorem State.setReg_printr (r : RegNo) (v : Word) : (s.setReg r v).printr = s.printr := rfl
@[simp] theorem State.setReg_mem (r : RegNo) (v : Word) : (s.setReg r v).mem = s.mem := rfl
@[simp] theorem State.setReg_devices (r : RegNo) (v : Word) : (s.setReg r v).devices =
    s.devices := rfl
@[simp] theorem State.setReg_devIn (r : RegNo) (v : Word) : (s.setReg r v).devIn = s.devIn := rfl
@[simp] theorem State.setReg_devLog (r : RegNo) (v : Word) : (s.setReg r v).devLog = s.devLog := rfl
@[simp] theorem State.setReg_start (r : RegNo) (v : Word) : (s.setReg r v).start = s.start := rfl
@[simp] theorem State.setReg_vec (r : RegNo) (v : Word) : (s.setReg r v).vec = s.vec := rfl
@[simp] theorem State.setReg_env (r : RegNo) (v : Word) : (s.setReg r v).env = s.env := rfl
@[simp] theorem State.setReg_g (r : RegNo) (v : Word) : (s.setReg r v).g = s.g := rfl

@[simp] theorem State.setAb_pc (v : Byte) : (s.setAb v).pc = s.pc := rfl
@[simp] theorem State.setAb_sp (v : Byte) : (s.setAb v).sp = s.sp := rfl
@[simp] theorem State.setAb_aw (v : Byte) : (s.setAb v).aw = s.aw := rfl
@[simp] theorem State.setAb_ab (v : Byte) : (s.setAb v).ab = v := rfl
@[simp] theorem State.setAb_gpr (v : Byte) : (s.setAb v).gpr = s.gpr := rfl
@[simp] theorem State.setAb_psw (v : Byte) : (s.setAb v).psw = s.psw := rfl
@[simp] theorem State.setAb_imr (v : Byte) : (s.setAb v).imr = s.imr := rfl
@[simp] theorem State.setAb_ivtp (v : Byte) : (s.setAb v).ivtp = s.ivtp := rfl
@[simp] theorem State.setAb_prins (v : Byte) : (s.setAb v).prins = s.prins := rfl
@[simp] theorem State.setAb_prcod (v : Byte) : (s.setAb v).prcod = s.prcod := rfl
@[simp] theorem State.setAb_pradr (v : Byte) : (s.setAb v).pradr = s.pradr := rfl
@[simp] theorem State.setAb_prinm (v : Byte) : (s.setAb v).prinm = s.prinm := rfl
@[simp] theorem State.setAb_printr (v : Byte) : (s.setAb v).printr = s.printr := rfl
@[simp] theorem State.setAb_mem (v : Byte) : (s.setAb v).mem = s.mem := rfl
@[simp] theorem State.setAb_devices (v : Byte) : (s.setAb v).devices = s.devices := rfl
@[simp] theorem State.setAb_devIn (v : Byte) : (s.setAb v).devIn = s.devIn := rfl
@[simp] theorem State.setAb_devLog (v : Byte) : (s.setAb v).devLog = s.devLog := rfl
@[simp] theorem State.setAb_start (v : Byte) : (s.setAb v).start = s.start := rfl
@[simp] theorem State.setAb_vec (v : Byte) : (s.setAb v).vec = s.vec := rfl
@[simp] theorem State.setAb_env (v : Byte) : (s.setAb v).env = s.env := rfl
@[simp] theorem State.setAb_g (v : Byte) : (s.setAb v).g = s.g := rfl

@[simp] theorem State.setPc_pc (a : Word) : (s.setPc a).pc = a := rfl
@[simp] theorem State.setPc_sp (a : Word) : (s.setPc a).sp = s.sp := rfl
@[simp] theorem State.setPc_aw (a : Word) : (s.setPc a).aw = s.aw := rfl
@[simp] theorem State.setPc_ab (a : Word) : (s.setPc a).ab = s.ab := rfl
@[simp] theorem State.setPc_gpr (a : Word) : (s.setPc a).gpr = s.gpr := rfl
@[simp] theorem State.setPc_psw (a : Word) : (s.setPc a).psw = s.psw := rfl
@[simp] theorem State.setPc_imr (a : Word) : (s.setPc a).imr = s.imr := rfl
@[simp] theorem State.setPc_ivtp (a : Word) : (s.setPc a).ivtp = s.ivtp := rfl
@[simp] theorem State.setPc_prins (a : Word) : (s.setPc a).prins = s.prins := rfl
@[simp] theorem State.setPc_prcod (a : Word) : (s.setPc a).prcod = s.prcod := rfl
@[simp] theorem State.setPc_pradr (a : Word) : (s.setPc a).pradr = s.pradr := rfl
@[simp] theorem State.setPc_prinm (a : Word) : (s.setPc a).prinm = s.prinm := rfl
@[simp] theorem State.setPc_printr (a : Word) : (s.setPc a).printr = s.printr := rfl
@[simp] theorem State.setPc_mem (a : Word) : (s.setPc a).mem = s.mem := rfl
@[simp] theorem State.setPc_devices (a : Word) : (s.setPc a).devices = s.devices := rfl
@[simp] theorem State.setPc_devIn (a : Word) : (s.setPc a).devIn = s.devIn := rfl
@[simp] theorem State.setPc_devLog (a : Word) : (s.setPc a).devLog = s.devLog := rfl
@[simp] theorem State.setPc_start (a : Word) : (s.setPc a).start = s.start := rfl
@[simp] theorem State.setPc_vec (a : Word) : (s.setPc a).vec = s.vec := rfl
@[simp] theorem State.setPc_env (a : Word) : (s.setPc a).env = s.env := rfl
@[simp] theorem State.setPc_g (a : Word) : (s.setPc a).g = s.g := rfl

@[simp] theorem State.setPsw_pc (p : Psw) : (s.setPsw p).pc = s.pc := rfl
@[simp] theorem State.setPsw_sp (p : Psw) : (s.setPsw p).sp = s.sp := rfl
@[simp] theorem State.setPsw_aw (p : Psw) : (s.setPsw p).aw = s.aw := rfl
@[simp] theorem State.setPsw_ab (p : Psw) : (s.setPsw p).ab = s.ab := rfl
@[simp] theorem State.setPsw_gpr (p : Psw) : (s.setPsw p).gpr = s.gpr := rfl
@[simp] theorem State.setPsw_psw (p : Psw) : (s.setPsw p).psw = p := rfl
@[simp] theorem State.setPsw_imr (p : Psw) : (s.setPsw p).imr = s.imr := rfl
@[simp] theorem State.setPsw_ivtp (p : Psw) : (s.setPsw p).ivtp = s.ivtp := rfl
@[simp] theorem State.setPsw_prins (p : Psw) : (s.setPsw p).prins = s.prins := rfl
@[simp] theorem State.setPsw_prcod (p : Psw) : (s.setPsw p).prcod = s.prcod := rfl
@[simp] theorem State.setPsw_pradr (p : Psw) : (s.setPsw p).pradr = s.pradr := rfl
@[simp] theorem State.setPsw_prinm (p : Psw) : (s.setPsw p).prinm = s.prinm := rfl
@[simp] theorem State.setPsw_printr (p : Psw) : (s.setPsw p).printr = s.printr := rfl
@[simp] theorem State.setPsw_mem (p : Psw) : (s.setPsw p).mem = s.mem := rfl
@[simp] theorem State.setPsw_devices (p : Psw) : (s.setPsw p).devices = s.devices := rfl
@[simp] theorem State.setPsw_devIn (p : Psw) : (s.setPsw p).devIn = s.devIn := rfl
@[simp] theorem State.setPsw_devLog (p : Psw) : (s.setPsw p).devLog = s.devLog := rfl
@[simp] theorem State.setPsw_start (p : Psw) : (s.setPsw p).start = s.start := rfl
@[simp] theorem State.setPsw_vec (p : Psw) : (s.setPsw p).vec = s.vec := rfl
@[simp] theorem State.setPsw_env (p : Psw) : (s.setPsw p).env = s.env := rfl
@[simp] theorem State.setPsw_g (p : Psw) : (s.setPsw p).g = s.g := rfl

@[simp] theorem State.setFlags_pc (f : Flags) : (s.setFlags f).pc = s.pc := rfl
@[simp] theorem State.setFlags_sp (f : Flags) : (s.setFlags f).sp = s.sp := rfl
@[simp] theorem State.setFlags_aw (f : Flags) : (s.setFlags f).aw = s.aw := rfl
@[simp] theorem State.setFlags_ab (f : Flags) : (s.setFlags f).ab = s.ab := rfl
@[simp] theorem State.setFlags_gpr (f : Flags) : (s.setFlags f).gpr = s.gpr := rfl
@[simp] theorem State.setFlags_psw (f : Flags) : (s.setFlags f).psw = s.psw.withFlags f := rfl
@[simp] theorem State.setFlags_imr (f : Flags) : (s.setFlags f).imr = s.imr := rfl
@[simp] theorem State.setFlags_ivtp (f : Flags) : (s.setFlags f).ivtp = s.ivtp := rfl
@[simp] theorem State.setFlags_prins (f : Flags) : (s.setFlags f).prins = s.prins := rfl
@[simp] theorem State.setFlags_prcod (f : Flags) : (s.setFlags f).prcod = s.prcod := rfl
@[simp] theorem State.setFlags_pradr (f : Flags) : (s.setFlags f).pradr = s.pradr := rfl
@[simp] theorem State.setFlags_prinm (f : Flags) : (s.setFlags f).prinm = s.prinm := rfl
@[simp] theorem State.setFlags_printr (f : Flags) : (s.setFlags f).printr = s.printr := rfl
@[simp] theorem State.setFlags_mem (f : Flags) : (s.setFlags f).mem = s.mem := rfl
@[simp] theorem State.setFlags_devices (f : Flags) : (s.setFlags f).devices = s.devices := rfl
@[simp] theorem State.setFlags_devIn (f : Flags) : (s.setFlags f).devIn = s.devIn := rfl
@[simp] theorem State.setFlags_devLog (f : Flags) : (s.setFlags f).devLog = s.devLog := rfl
@[simp] theorem State.setFlags_start (f : Flags) : (s.setFlags f).start = s.start := rfl
@[simp] theorem State.setFlags_vec (f : Flags) : (s.setFlags f).vec = s.vec := rfl
@[simp] theorem State.setFlags_env (f : Flags) : (s.setFlags f).env = s.env := rfl
@[simp] theorem State.setFlags_g (f : Flags) : (s.setFlags f).g = s.g := rfl

@[simp] theorem State.afterRead_pc (a : Word) : (s.afterRead a).pc = s.pc := rfl
@[simp] theorem State.afterRead_sp (a : Word) : (s.afterRead a).sp = s.sp := rfl
@[simp] theorem State.afterRead_aw (a : Word) : (s.afterRead a).aw = s.aw := rfl
@[simp] theorem State.afterRead_ab (a : Word) : (s.afterRead a).ab = s.ab := rfl
@[simp] theorem State.afterRead_gpr (a : Word) : (s.afterRead a).gpr = s.gpr := rfl
@[simp] theorem State.afterRead_psw (a : Word) : (s.afterRead a).psw = s.psw := rfl
@[simp] theorem State.afterRead_imr (a : Word) : (s.afterRead a).imr = s.imr := rfl
@[simp] theorem State.afterRead_ivtp (a : Word) : (s.afterRead a).ivtp = s.ivtp := rfl
@[simp] theorem State.afterRead_prins (a : Word) : (s.afterRead a).prins = s.prins := rfl
@[simp] theorem State.afterRead_prcod (a : Word) : (s.afterRead a).prcod = s.prcod := rfl
@[simp] theorem State.afterRead_pradr (a : Word) : (s.afterRead a).pradr = s.pradr := rfl
@[simp] theorem State.afterRead_prinm (a : Word) : (s.afterRead a).prinm = s.prinm := rfl
@[simp] theorem State.afterRead_printr (a : Word) : (s.afterRead a).printr = s.printr := rfl
@[simp] theorem State.afterRead_mem (a : Word) : (s.afterRead a).mem = s.mem := rfl
@[simp] theorem State.afterRead_devices (a : Word) : (s.afterRead a).devices = s.devices := rfl
@[simp] theorem State.afterRead_devIn (a : Word) : (s.afterRead a).devIn =
    if s.isDevice a then s.devIn.tail else s.devIn := rfl
@[simp] theorem State.afterRead_devLog (a : Word) : (s.afterRead a).devLog =
    if s.isDevice a then s.devLog ++ [.read a s.deviceByte] else s.devLog := rfl
@[simp] theorem State.afterRead_start (a : Word) : (s.afterRead a).start = s.start := rfl
@[simp] theorem State.afterRead_vec (a : Word) : (s.afterRead a).vec = s.vec := rfl
@[simp] theorem State.afterRead_env (a : Word) : (s.afterRead a).env = s.env := rfl
@[simp] theorem State.afterRead_g (a : Word) : (s.afterRead a).g = s.g := rfl

@[simp] theorem State.load16_pc (a : Word) : ((s.load16 a).2).pc = s.pc := rfl
@[simp] theorem State.load16_sp (a : Word) : ((s.load16 a).2).sp = s.sp := rfl
@[simp] theorem State.load16_aw (a : Word) : ((s.load16 a).2).aw = s.aw := rfl
@[simp] theorem State.load16_ab (a : Word) : ((s.load16 a).2).ab = s.ab := rfl
@[simp] theorem State.load16_gpr (a : Word) : ((s.load16 a).2).gpr = s.gpr := rfl
@[simp] theorem State.load16_psw (a : Word) : ((s.load16 a).2).psw = s.psw := rfl
@[simp] theorem State.load16_imr (a : Word) : ((s.load16 a).2).imr = s.imr := rfl
@[simp] theorem State.load16_ivtp (a : Word) : ((s.load16 a).2).ivtp = s.ivtp := rfl
@[simp] theorem State.load16_prins (a : Word) : ((s.load16 a).2).prins = s.prins := rfl
@[simp] theorem State.load16_prcod (a : Word) : ((s.load16 a).2).prcod = s.prcod := rfl
@[simp] theorem State.load16_pradr (a : Word) : ((s.load16 a).2).pradr = s.pradr := rfl
@[simp] theorem State.load16_prinm (a : Word) : ((s.load16 a).2).prinm = s.prinm := rfl
@[simp] theorem State.load16_printr (a : Word) : ((s.load16 a).2).printr = s.printr := rfl
@[simp] theorem State.load16_mem (a : Word) : ((s.load16 a).2).mem = s.mem := rfl
@[simp] theorem State.load16_devices (a : Word) : ((s.load16 a).2).devices = s.devices := rfl
@[simp] theorem State.load16_devIn (a : Word) : ((s.load16 a).2).devIn =
    ((s.afterRead a).afterRead (a + 1)).devIn := rfl
@[simp] theorem State.load16_devLog (a : Word) : ((s.load16 a).2).devLog =
    ((s.afterRead a).afterRead (a + 1)).devLog := rfl
@[simp] theorem State.load16_start (a : Word) : ((s.load16 a).2).start = s.start := rfl
@[simp] theorem State.load16_vec (a : Word) : ((s.load16 a).2).vec = s.vec := rfl
@[simp] theorem State.load16_env (a : Word) : ((s.load16 a).2).env = s.env := rfl
@[simp] theorem State.load16_g (a : Word) : ((s.load16 a).2).g = s.g := rfl

@[simp] theorem State.writeByte_pc (a : Word) (v : Byte) : (s.writeByte a v).pc = s.pc := rfl
@[simp] theorem State.writeByte_sp (a : Word) (v : Byte) : (s.writeByte a v).sp = s.sp := rfl
@[simp] theorem State.writeByte_aw (a : Word) (v : Byte) : (s.writeByte a v).aw = s.aw := rfl
@[simp] theorem State.writeByte_ab (a : Word) (v : Byte) : (s.writeByte a v).ab = s.ab := rfl
@[simp] theorem State.writeByte_gpr (a : Word) (v : Byte) : (s.writeByte a v).gpr = s.gpr := rfl
@[simp] theorem State.writeByte_psw (a : Word) (v : Byte) : (s.writeByte a v).psw = s.psw := rfl
@[simp] theorem State.writeByte_imr (a : Word) (v : Byte) : (s.writeByte a v).imr = s.imr := rfl
@[simp] theorem State.writeByte_ivtp (a : Word) (v : Byte) : (s.writeByte a v).ivtp = s.ivtp := rfl
@[simp] theorem State.writeByte_prins (a : Word) (v : Byte) : (s.writeByte a v).prins =
    s.prins := rfl
@[simp] theorem State.writeByte_prcod (a : Word) (v : Byte) : (s.writeByte a v).prcod =
    s.prcod := rfl
@[simp] theorem State.writeByte_pradr (a : Word) (v : Byte) : (s.writeByte a v).pradr =
    s.pradr := rfl
@[simp] theorem State.writeByte_prinm (a : Word) (v : Byte) : (s.writeByte a v).prinm =
    s.prinm := rfl
@[simp] theorem State.writeByte_printr (a : Word) (v : Byte) : (s.writeByte a v).printr =
    s.printr := rfl
@[simp] theorem State.writeByte_mem (a : Word) (v : Byte) : (s.writeByte a v).mem =
    if s.isDevice a then s.mem else s.mem.write a.toNat v := rfl
@[simp] theorem State.writeByte_devices (a : Word) (v : Byte) : (s.writeByte a v).devices =
    s.devices := rfl
@[simp] theorem State.writeByte_devIn (a : Word) (v : Byte) : (s.writeByte a v).devIn =
    s.devIn := rfl
@[simp] theorem State.writeByte_devLog (a : Word) (v : Byte) : (s.writeByte a v).devLog =
    if s.isDevice a then s.devLog ++ [.write a v] else s.devLog := rfl
@[simp] theorem State.writeByte_start (a : Word) (v : Byte) : (s.writeByte a v).start =
    s.start := rfl
@[simp] theorem State.writeByte_vec (a : Word) (v : Byte) : (s.writeByte a v).vec = s.vec := rfl
@[simp] theorem State.writeByte_env (a : Word) (v : Byte) : (s.writeByte a v).env = s.env := rfl
@[simp] theorem State.writeByte_g (a : Word) (v : Byte) : (s.writeByte a v).g = s.g := rfl

@[simp] theorem State.writeWord_pc (a v : Word) : (s.writeWord a v).pc = s.pc := rfl
@[simp] theorem State.writeWord_sp (a v : Word) : (s.writeWord a v).sp = s.sp := rfl
@[simp] theorem State.writeWord_aw (a v : Word) : (s.writeWord a v).aw = s.aw := rfl
@[simp] theorem State.writeWord_ab (a v : Word) : (s.writeWord a v).ab = s.ab := rfl
@[simp] theorem State.writeWord_gpr (a v : Word) : (s.writeWord a v).gpr = s.gpr := rfl
@[simp] theorem State.writeWord_psw (a v : Word) : (s.writeWord a v).psw = s.psw := rfl
@[simp] theorem State.writeWord_imr (a v : Word) : (s.writeWord a v).imr = s.imr := rfl
@[simp] theorem State.writeWord_ivtp (a v : Word) : (s.writeWord a v).ivtp = s.ivtp := rfl
@[simp] theorem State.writeWord_prins (a v : Word) : (s.writeWord a v).prins = s.prins := rfl
@[simp] theorem State.writeWord_prcod (a v : Word) : (s.writeWord a v).prcod = s.prcod := rfl
@[simp] theorem State.writeWord_pradr (a v : Word) : (s.writeWord a v).pradr = s.pradr := rfl
@[simp] theorem State.writeWord_prinm (a v : Word) : (s.writeWord a v).prinm = s.prinm := rfl
@[simp] theorem State.writeWord_printr (a v : Word) : (s.writeWord a v).printr = s.printr := rfl
@[simp] theorem State.writeWord_mem (a v : Word) : (s.writeWord a v).mem =
    ((s.writeByte a (hiByte v)).writeByte (a + 1) (loByte v)).mem := rfl
@[simp] theorem State.writeWord_devices (a v : Word) : (s.writeWord a v).devices = s.devices := rfl
@[simp] theorem State.writeWord_devIn (a v : Word) : (s.writeWord a v).devIn = s.devIn := rfl
@[simp] theorem State.writeWord_devLog (a v : Word) : (s.writeWord a v).devLog =
    ((s.writeByte a (hiByte v)).writeByte (a + 1) (loByte v)).devLog := rfl
@[simp] theorem State.writeWord_start (a v : Word) : (s.writeWord a v).start = s.start := rfl
@[simp] theorem State.writeWord_vec (a v : Word) : (s.writeWord a v).vec = s.vec := rfl
@[simp] theorem State.writeWord_env (a v : Word) : (s.writeWord a v).env = s.env := rfl
@[simp] theorem State.writeWord_g (a v : Word) : (s.writeWord a v).g = s.g := rfl

@[simp] theorem State.push8_pc (b : Byte) : (s.push8 b).pc = s.pc := rfl
@[simp] theorem State.push8_sp (b : Byte) : (s.push8 b).sp = s.sp + 1 := rfl
@[simp] theorem State.push8_aw (b : Byte) : (s.push8 b).aw = s.aw := rfl
@[simp] theorem State.push8_ab (b : Byte) : (s.push8 b).ab = s.ab := rfl
@[simp] theorem State.push8_gpr (b : Byte) : (s.push8 b).gpr = s.gpr := rfl
@[simp] theorem State.push8_psw (b : Byte) : (s.push8 b).psw = s.psw := rfl
@[simp] theorem State.push8_imr (b : Byte) : (s.push8 b).imr = s.imr := rfl
@[simp] theorem State.push8_ivtp (b : Byte) : (s.push8 b).ivtp = s.ivtp := rfl
@[simp] theorem State.push8_prins (b : Byte) : (s.push8 b).prins = s.prins := rfl
@[simp] theorem State.push8_prcod (b : Byte) : (s.push8 b).prcod = s.prcod := rfl
@[simp] theorem State.push8_pradr (b : Byte) : (s.push8 b).pradr = s.pradr := rfl
@[simp] theorem State.push8_prinm (b : Byte) : (s.push8 b).prinm = s.prinm := rfl
@[simp] theorem State.push8_printr (b : Byte) : (s.push8 b).printr = s.printr := rfl
@[simp] theorem State.push8_mem (b : Byte) : (s.push8 b).mem = (s.writeByte (s.sp + 1) b).mem := rfl
@[simp] theorem State.push8_devices (b : Byte) : (s.push8 b).devices = s.devices := rfl
@[simp] theorem State.push8_devIn (b : Byte) : (s.push8 b).devIn = s.devIn := rfl
@[simp] theorem State.push8_devLog (b : Byte) : (s.push8 b).devLog =
    (s.writeByte (s.sp + 1) b).devLog := rfl
@[simp] theorem State.push8_start (b : Byte) : (s.push8 b).start = s.start := rfl
@[simp] theorem State.push8_vec (b : Byte) : (s.push8 b).vec = s.vec := rfl
@[simp] theorem State.push8_env (b : Byte) : (s.push8 b).env = s.env := rfl
@[simp] theorem State.push8_g (b : Byte) : (s.push8 b).g = s.g := rfl

@[simp] theorem State.pop8_pc : (s.pop8.2).pc = s.pc := rfl
@[simp] theorem State.pop8_sp : (s.pop8.2).sp = s.sp - 1 := rfl
@[simp] theorem State.pop8_aw : (s.pop8.2).aw = s.aw := rfl
@[simp] theorem State.pop8_ab : (s.pop8.2).ab = s.ab := rfl
@[simp] theorem State.pop8_gpr : (s.pop8.2).gpr = s.gpr := rfl
@[simp] theorem State.pop8_psw : (s.pop8.2).psw = s.psw := rfl
@[simp] theorem State.pop8_imr : (s.pop8.2).imr = s.imr := rfl
@[simp] theorem State.pop8_ivtp : (s.pop8.2).ivtp = s.ivtp := rfl
@[simp] theorem State.pop8_prins : (s.pop8.2).prins = s.prins := rfl
@[simp] theorem State.pop8_prcod : (s.pop8.2).prcod = s.prcod := rfl
@[simp] theorem State.pop8_pradr : (s.pop8.2).pradr = s.pradr := rfl
@[simp] theorem State.pop8_prinm : (s.pop8.2).prinm = s.prinm := rfl
@[simp] theorem State.pop8_printr : (s.pop8.2).printr = s.printr := rfl
@[simp] theorem State.pop8_mem : (s.pop8.2).mem = s.mem := rfl
@[simp] theorem State.pop8_devices : (s.pop8.2).devices = s.devices := rfl
@[simp] theorem State.pop8_devIn : (s.pop8.2).devIn = (s.afterRead s.sp).devIn := rfl
@[simp] theorem State.pop8_devLog : (s.pop8.2).devLog = (s.afterRead s.sp).devLog := rfl
@[simp] theorem State.pop8_start : (s.pop8.2).start = s.start := rfl
@[simp] theorem State.pop8_vec : (s.pop8.2).vec = s.vec := rfl
@[simp] theorem State.pop8_env : (s.pop8.2).env = s.env := rfl
@[simp] theorem State.pop8_g : (s.pop8.2).g = s.g := rfl

@[simp] theorem State.push16_pc (v : Word) : (s.push16 v).pc = s.pc := rfl
@[simp] theorem State.push16_sp (v : Word) : (s.push16 v).sp = s.sp + 1 + 1 := rfl
@[simp] theorem State.push16_aw (v : Word) : (s.push16 v).aw = s.aw := rfl
@[simp] theorem State.push16_ab (v : Word) : (s.push16 v).ab = s.ab := rfl
@[simp] theorem State.push16_gpr (v : Word) : (s.push16 v).gpr = s.gpr := rfl
@[simp] theorem State.push16_psw (v : Word) : (s.push16 v).psw = s.psw := rfl
@[simp] theorem State.push16_imr (v : Word) : (s.push16 v).imr = s.imr := rfl
@[simp] theorem State.push16_ivtp (v : Word) : (s.push16 v).ivtp = s.ivtp := rfl
@[simp] theorem State.push16_prins (v : Word) : (s.push16 v).prins = s.prins := rfl
@[simp] theorem State.push16_prcod (v : Word) : (s.push16 v).prcod = s.prcod := rfl
@[simp] theorem State.push16_pradr (v : Word) : (s.push16 v).pradr = s.pradr := rfl
@[simp] theorem State.push16_prinm (v : Word) : (s.push16 v).prinm = s.prinm := rfl
@[simp] theorem State.push16_printr (v : Word) : (s.push16 v).printr = s.printr := rfl
@[simp] theorem State.push16_mem (v : Word) : (s.push16 v).mem =
    ((s.writeByte (s.sp + 1) (hiByte v)).writeByte (s.sp + 1 + 1) (loByte v)).mem := rfl
@[simp] theorem State.push16_devices (v : Word) : (s.push16 v).devices = s.devices := rfl
@[simp] theorem State.push16_devIn (v : Word) : (s.push16 v).devIn = s.devIn := rfl
@[simp] theorem State.push16_devLog (v : Word) : (s.push16 v).devLog =
    ((s.writeByte (s.sp + 1) (hiByte v)).writeByte (s.sp + 1 + 1) (loByte v)).devLog := rfl
@[simp] theorem State.push16_start (v : Word) : (s.push16 v).start = s.start := rfl
@[simp] theorem State.push16_vec (v : Word) : (s.push16 v).vec = s.vec := rfl
@[simp] theorem State.push16_env (v : Word) : (s.push16 v).env = s.env := rfl
@[simp] theorem State.push16_g (v : Word) : (s.push16 v).g = s.g := rfl

@[simp] theorem State.pop16_pc : (s.pop16.2).pc = s.pc := rfl
@[simp] theorem State.pop16_sp : (s.pop16.2).sp = s.sp - 1 - 1 := rfl
@[simp] theorem State.pop16_aw : (s.pop16.2).aw = s.aw := rfl
@[simp] theorem State.pop16_ab : (s.pop16.2).ab = s.ab := rfl
@[simp] theorem State.pop16_gpr : (s.pop16.2).gpr = s.gpr := rfl
@[simp] theorem State.pop16_psw : (s.pop16.2).psw = s.psw := rfl
@[simp] theorem State.pop16_imr : (s.pop16.2).imr = s.imr := rfl
@[simp] theorem State.pop16_ivtp : (s.pop16.2).ivtp = s.ivtp := rfl
@[simp] theorem State.pop16_prins : (s.pop16.2).prins = s.prins := rfl
@[simp] theorem State.pop16_prcod : (s.pop16.2).prcod = s.prcod := rfl
@[simp] theorem State.pop16_pradr : (s.pop16.2).pradr = s.pradr := rfl
@[simp] theorem State.pop16_prinm : (s.pop16.2).prinm = s.prinm := rfl
@[simp] theorem State.pop16_printr : (s.pop16.2).printr = s.printr := rfl
@[simp] theorem State.pop16_mem : (s.pop16.2).mem = s.mem := rfl
@[simp] theorem State.pop16_devices : (s.pop16.2).devices = s.devices := rfl
@[simp] theorem State.pop16_devIn : (s.pop16.2).devIn =
    ((s.afterRead s.sp).afterRead (s.sp - 1)).devIn := rfl
@[simp] theorem State.pop16_devLog : (s.pop16.2).devLog =
    ((s.afterRead s.sp).afterRead (s.sp - 1)).devLog := rfl
@[simp] theorem State.pop16_start : (s.pop16.2).start = s.start := rfl
@[simp] theorem State.pop16_vec : (s.pop16.2).vec = s.vec := rfl
@[simp] theorem State.pop16_env : (s.pop16.2).env = s.env := rfl
@[simp] theorem State.pop16_g : (s.pop16.2).g = s.g := rfl

@[simp] theorem State.advance_pc (n : Nat) : (s.advance n).pc = s.pc + BitVec.ofNat 16 n := rfl
@[simp] theorem State.advance_sp (n : Nat) : (s.advance n).sp = s.sp := rfl
@[simp] theorem State.advance_aw (n : Nat) : (s.advance n).aw = s.aw := rfl
@[simp] theorem State.advance_ab (n : Nat) : (s.advance n).ab = s.ab := rfl
@[simp] theorem State.advance_gpr (n : Nat) : (s.advance n).gpr = s.gpr := rfl
@[simp] theorem State.advance_psw (n : Nat) : (s.advance n).psw = s.psw := rfl
@[simp] theorem State.advance_imr (n : Nat) : (s.advance n).imr = s.imr := rfl
@[simp] theorem State.advance_ivtp (n : Nat) : (s.advance n).ivtp = s.ivtp := rfl
@[simp] theorem State.advance_prins (n : Nat) : (s.advance n).prins = s.prins := rfl
@[simp] theorem State.advance_prcod (n : Nat) : (s.advance n).prcod = s.prcod := rfl
@[simp] theorem State.advance_pradr (n : Nat) : (s.advance n).pradr = s.pradr := rfl
@[simp] theorem State.advance_prinm (n : Nat) : (s.advance n).prinm = s.prinm := rfl
@[simp] theorem State.advance_printr (n : Nat) : (s.advance n).printr = s.printr := rfl
@[simp] theorem State.advance_mem (n : Nat) : (s.advance n).mem = s.mem := rfl
@[simp] theorem State.advance_devices (n : Nat) : (s.advance n).devices = s.devices := rfl
@[simp] theorem State.advance_devIn (n : Nat) : (s.advance n).devIn = s.devIn := rfl
@[simp] theorem State.advance_devLog (n : Nat) : (s.advance n).devLog = s.devLog := rfl
@[simp] theorem State.advance_start (n : Nat) : (s.advance n).start = s.start := rfl
@[simp] theorem State.advance_vec (n : Nat) : (s.advance n).vec = s.vec := rfl
@[simp] theorem State.advance_env (n : Nat) : (s.advance n).env = s.env := rfl
@[simp] theorem State.advance_g (n : Nat) : (s.advance n).g = s.g := rfl

@[simp] theorem State.latch_pc (inp : EnvInput) : (s.latch inp).pc = s.pc := rfl
@[simp] theorem State.latch_sp (inp : EnvInput) : (s.latch inp).sp = s.sp := rfl
@[simp] theorem State.latch_aw (inp : EnvInput) : (s.latch inp).aw = s.aw := rfl
@[simp] theorem State.latch_ab (inp : EnvInput) : (s.latch inp).ab = s.ab := rfl
@[simp] theorem State.latch_gpr (inp : EnvInput) : (s.latch inp).gpr = s.gpr := rfl
@[simp] theorem State.latch_psw (inp : EnvInput) : (s.latch inp).psw = s.psw := rfl
@[simp] theorem State.latch_imr (inp : EnvInput) : (s.latch inp).imr = s.imr := rfl
@[simp] theorem State.latch_ivtp (inp : EnvInput) : (s.latch inp).ivtp = s.ivtp := rfl
@[simp] theorem State.latch_prins (inp : EnvInput) : (s.latch inp).prins = s.prins := rfl
@[simp] theorem State.latch_prcod (inp : EnvInput) : (s.latch inp).prcod = s.prcod := rfl
@[simp] theorem State.latch_pradr (inp : EnvInput) : (s.latch inp).pradr = s.pradr := rfl
@[simp] theorem State.latch_prinm (inp : EnvInput) : (s.latch inp).prinm =
    (s.prinm || inp.inm) := rfl
@[simp] theorem State.latch_printr (inp : EnvInput) : (s.latch inp).printr =
    s.printr ||| inp.intr := rfl
@[simp] theorem State.latch_mem (inp : EnvInput) : (s.latch inp).mem = s.mem := rfl
@[simp] theorem State.latch_devices (inp : EnvInput) : (s.latch inp).devices = s.devices := rfl
@[simp] theorem State.latch_devIn (inp : EnvInput) : (s.latch inp).devIn = s.devIn := rfl
@[simp] theorem State.latch_devLog (inp : EnvInput) : (s.latch inp).devLog = s.devLog := rfl
@[simp] theorem State.latch_start (inp : EnvInput) : (s.latch inp).start = s.start := rfl
@[simp] theorem State.latch_vec (inp : EnvInput) : (s.latch inp).vec = s.vec := rfl
@[simp] theorem State.latch_env (inp : EnvInput) : (s.latch inp).env = s.env := rfl
@[simp] theorem State.latch_g (inp : EnvInput) : (s.latch inp).g = s.g := rfl

/-- Two states with equal fields are equal. -/
theorem State.ext_fields {s t : State} (hpc : s.pc = t.pc) (hsp : s.sp = t.sp) (haw : s.aw = t.aw)
    (hab : s.ab = t.ab) (hgpr : s.gpr = t.gpr) (hpsw : s.psw = t.psw) (himr : s.imr = t.imr)
    (hivtp : s.ivtp = t.ivtp) (h1 : s.prins = t.prins) (h2 : s.prcod = t.prcod)
    (h3 : s.pradr = t.pradr) (h4 : s.prinm = t.prinm) (h5 : s.printr = t.printr)
    (hmem : s.mem = t.mem) (hd : s.devices = t.devices)
    (hdi : s.devIn = t.devIn) (hdo : s.devLog = t.devLog) (hst : s.start = t.start)
    (hvec : s.vec = t.vec) (henv : s.env = t.env)
    (hg : s.g = t.g) : s = t := by
  cases s; cases t; simp_all

@[simp] theorem Psw.withFlags_i (p : Psw) (f : Flags) : (p.withFlags f).i = p.i := rfl
@[simp] theorem Psw.withFlags_t (p : Psw) (f : Flags) : (p.withFlags f).t = p.t := rfl
@[simp] theorem Psw.withFlags_p (p : Psw) (f : Flags) : (p.withFlags f).p = p.p := rfl
@[simp] theorem Psw.withFlags_l (p : Psw) (f : Flags) : (p.withFlags f).l = p.l := rfl
@[simp] theorem Psw.withFlags_n (p : Psw) (f : Flags) : (p.withFlags f).n = f.n := rfl
@[simp] theorem Psw.withFlags_z (p : Psw) (f : Flags) : (p.withFlags f).z = f.z := rfl
@[simp] theorem Psw.withFlags_c (p : Psw) (f : Flags) : (p.withFlags f).c = f.c := rfl
@[simp] theorem Psw.withFlags_v (p : Psw) (f : Flags) : (p.withFlags f).v = f.v := rfl
@[simp] theorem Psw.entered_i (p : Psw) : p.entered.i = false := rfl
@[simp] theorem Psw.entered_t (p : Psw) : p.entered.t = false := rfl
@[simp] theorem Psw.entered_p (p : Psw) : p.entered.p = p.p := rfl
@[simp] theorem Psw.entered_l (p : Psw) : p.entered.l = p.l := rfl
@[simp] theorem Psw.entered_n (p : Psw) : p.entered.n = p.n := rfl
@[simp] theorem Psw.entered_z (p : Psw) : p.entered.z = p.z := rfl
@[simp] theorem Psw.entered_c (p : Psw) : p.entered.c = p.c := rfl
@[simp] theorem Psw.entered_v (p : Psw) : p.entered.v = p.v := rfl

/-- The reset state's memory has the canonical form. -/
theorem State.reset_mem_wf : State.reset.mem.wf = true := rfl

end Sys2Proof.Machine
end

