-- ==== Sys2Proof/Laws/Ops.lean ====
section
/-!
SUPPORT. One lemma per operation of Machine/Ops.lean: what it can do, for proofs to cite instead of
its definition.
-/

namespace Sys2Proof

/-- The bits of a concatenation of two bytes. -/
theorem getLsbD_joinBytes (h l : Byte) (i : Nat) :
    (joinBytes h l).getLsbD i = if i < 8 then l.getLsbD i else h.getLsbD (i - 8) := by
  rw [joinBytes]; exact (BitVec.getLsbD_append (x := h) (y := l)).trans (by split <;> simp_all)

/-- The bits of a concatenation of two nibbles. -/
theorem getLsbD_modeByte (am r : RegNo) (i : Nat) :
    (modeByte am r).getLsbD i = if i < 4 then r.getLsbD i else am.getLsbD (i - 4) := by
  rw [modeByte]; exact (BitVec.getLsbD_append (x := am) (y := r)).trans (by split <;> simp_all)

@[simp] theorem hiByte_joinBytes (h l : Byte) : hiByte (joinBytes h l) = h := by
  apply BitVec.eq_of_getLsbD_eq
  intro i hi
  simp [hiByte, getLsbD_joinBytes, hi]

@[simp] theorem loByte_joinBytes (h l : Byte) : loByte (joinBytes h l) = l := by
  apply BitVec.eq_of_getLsbD_eq
  intro i hi
  simp [loByte, getLsbD_joinBytes, hi]

@[simp] theorem joinBytes_hiByte_loByte (v : Word) : joinBytes (hiByte v) (loByte v) = v := by
  apply BitVec.eq_of_getLsbD_eq
  intro i hi
  by_cases h : i < 8
  · simp [hiByte, loByte, getLsbD_joinBytes, h]
  · have h1 : 8 + (i - 8) = i := by omega
    have h2 : i - 8 < 8 := by omega
    simp [hiByte, loByte, getLsbD_joinBytes, h, h1, h2]

@[simp] theorem hiNibble_modeByte (am r : RegNo) : hiNibble (modeByte am r) = am := by
  apply BitVec.eq_of_getLsbD_eq
  intro i hi
  simp [hiNibble, getLsbD_modeByte, hi]

@[simp] theorem loNibble_modeByte (am r : RegNo) : loNibble (modeByte am r) = r := by
  apply BitVec.eq_of_getLsbD_eq
  intro i hi
  simp [loNibble, getLsbD_modeByte, hi]

/-- A mode byte from its two nibbles. -/
theorem modeByte_nibbles (b : Byte) : modeByte (hiNibble b) (loNibble b) = b := by
  apply BitVec.eq_of_getLsbD_eq
  intro i hi
  by_cases h : i < 4
  · simp [hiNibble, loNibble, getLsbD_modeByte, h]
  · have h1 : 4 + (i - 4) = i := by omega
    have h2 : i - 4 < 4 := by omega
    simp [hiNibble, loNibble, getLsbD_modeByte, h, h1, h2]

namespace Machine

variable (s : State)

/-- Equal memories and devices read the same. -/
theorem State.readByte_congr {s t : State} (h : t.mem = s.mem) (hd : t.devices = s.devices)
    (hi : t.devIn = s.devIn) (hl : t.devLog = s.devLog) (a : Word) : t.readByte a = s.readByte a := by
  rw [State.readByte, State.isDevice, State.deviceByte, h, hd, hi, hl]; rfl

/-- A read does to devices the same, whatever else differs. -/
theorem State.afterRead_congr {s t : State} (hd : t.devices = s.devices)
    (hi : t.devIn = s.devIn) (hl : t.devLog = s.devLog) (a : Word) :
    (t.afterRead a).devIn = (s.afterRead a).devIn ∧
      (t.afterRead a).devLog = (s.afterRead a).devLog := by
  simp only [State.afterRead, State.isDevice, State.deviceByte, hd, hi, hl]
  exact ⟨rfl, rfl⟩

/-- A word read with equal memories and devices: the same word, and the same done to devices. -/
theorem State.load16_congr {s t : State} (h : t.mem = s.mem) (hd : t.devices = s.devices)
    (hi : t.devIn = s.devIn) (hl : t.devLog = s.devLog) (a : Word) :
    (t.load16 a).1 = (s.load16 a).1 ∧ (t.load16 a).2.devIn = (s.load16 a).2.devIn ∧
      (t.load16 a).2.devLog = (s.load16 a).2.devLog := by
  obtain ⟨h1, h2⟩ := State.afterRead_congr hd hi hl a
  refine ⟨?_, State.afterRead_congr (s := s.afterRead a) (t := t.afterRead a) hd h1 h2 (a + 1)⟩
  show joinBytes (t.readByte a) ((t.afterRead a).readByte (a + 1)) =
    joinBytes (s.readByte a) ((s.afterRead a).readByte (a + 1))
  rw [State.readByte_congr h hd hi hl,
    State.readByte_congr (s := s.afterRead a) (t := t.afterRead a) h hd h1 h2]

/-- Which addresses are device registers depends on the host's list alone. -/
theorem State.isDevice_congr {s t : State} (hd : t.devices = s.devices) (a : Word) :
    t.isDevice a = s.isDevice a := by rw [State.isDevice, hd]; rfl

@[simp] theorem State.isDevice_setReg (r : RegNo) (v a : Word) :
    (s.setReg r v).isDevice a = s.isDevice a := rfl
@[simp] theorem State.isDevice_writeByte (a b : Word) (v : Byte) :
    (s.writeByte a v).isDevice b = s.isDevice b := rfl
@[simp] theorem State.isDevice_writeWord (a b v : Word) :
    (s.writeWord a v).isDevice b = s.isDevice b := rfl
@[simp] theorem State.isDevice_push8 (b : Byte) (a : Word) :
    (s.push8 b).isDevice a = s.isDevice a := rfl
@[simp] theorem State.isDevice_push16 (v a : Word) :
    (s.push16 v).isDevice a = s.isDevice a := rfl

@[simp] theorem State.isDevice_afterRead (a b : Word) : (s.afterRead a).isDevice b = s.isDevice b := rfl
@[simp] theorem State.isDevice_load16 (a b : Word) : (s.load16 a).2.isDevice b = s.isDevice b := rfl
@[simp] theorem State.reg_afterRead (q : RegNo) (a : Word) : (s.afterRead a).reg q = s.reg q := rfl
@[simp] theorem State.reg_load16 (q : RegNo) (a : Word) : (s.load16 a).2.reg q = s.reg q := rfl
@[simp] theorem State.load8_fst (a : Word) : (s.load8 a).1 = s.readByte a := rfl
@[simp] theorem State.load8_snd (a : Word) : (s.load8 a).2 = s.afterRead a := rfl

/-- A read of plain memory has no side effect (20_memory.md R68). -/
theorem State.afterRead_memory (a : Word) (h : s.isDevice a = false) : s.afterRead a = s := by
  simp [State.afterRead, h]

/-- A read of a device register takes the environment's next answer (20_memory.md R69). -/
theorem State.afterRead_device (a : Word) (h : s.isDevice a = true) : s.afterRead a =
    { s with devIn := s.devIn.tail, devLog := s.devLog ++ [.read a s.deviceByte] } := by
  simp [State.afterRead, h]

/-- A read changes nothing but what devices saw and will answer. -/
theorem State.afterRead_frame (a : Word) : s.afterRead a =
    { s with devIn := (s.afterRead a).devIn, devLog := (s.afterRead a).devLog } := rfl

/-- A read leaves every byte of memory. -/
theorem State.readByte_afterRead (a b : Word) (h : s.isDevice b = false) :
    (s.afterRead a).readByte b = s.readByte b := by
  simp [State.readByte, h]

/-- A word read from two bytes, one after the other. -/
theorem State.load16_eq (a : Word) : s.load16 a =
    (joinBytes (s.readByte a) ((s.afterRead a).readByte (a + 1)), (s.afterRead a).afterRead (a + 1)) :=
  rfl

/-- A read of a word of plain memory has no side effect (20_memory.md R68). -/
theorem State.load16_memory (a : Word) (h : s.isDevice a = false) (h1 : s.isDevice (a + 1) = false) :
    s.load16 a = (joinBytes (s.readByte a) (s.readByte (a + 1)), s) := by
  rw [State.load16_eq, s.afterRead_memory a h, s.afterRead_memory _ h1]

/-- A write to a device register is delivered and stored nowhere (20_memory.md R69). -/
theorem State.writeByte_device (a : Word) (v : Byte) (h : s.isDevice a = true) :
    s.writeByte a v = { s with devLog := s.devLog ++ [.write a v] } := by simp [State.writeByte, h]

/-- A write to memory (20_memory.md R64). -/
theorem State.writeByte_memory (a : Word) (v : Byte) (h : s.isDevice a = false) :
    s.writeByte a v = { s with mem := s.mem.write a.toNat v } := by simp [State.writeByte, h]

/-- A byte of memory read after a byte write. -/
theorem State.readByte_writeByte (a b : Word) (v : Byte) (hb : s.isDevice b = false) :
    (s.writeByte a v).readByte b = if a = b then v else s.readByte b := by
  have h2 : (s.writeByte a v).isDevice b = false := hb
  simp only [State.readByte, h2, hb, Bool.false_eq_true, if_false]
  by_cases hab : a = b
  · subst hab; simp [hb]
  · have hn : a.toNat ≠ b.toNat := fun e => hab (BitVec.toNat_inj.1 e)
    cases h : s.isDevice a <;> simp [State.writeByte, h, hab, hn, Memory.read_write]

/-- A byte of memory read after a word write: the second byte wins where both fall together. -/
theorem State.readByte_writeWord (a b v : Word) (hb : s.isDevice b = false) :
    (s.writeWord a v).readByte b =
      if a + 1 = b then loByte v else if a = b then hiByte v else s.readByte b := by
  unfold State.writeWord
  rw [State.readByte_writeByte _ _ _ _ (by exact hb), State.readByte_writeByte _ _ _ _ hb]

/-- A word read after a write of the same word to memory. -/
theorem State.load16_writeWord (a v : Word) (h : s.isDevice a = false)
    (h1 : s.isDevice (a + 1) = false) : (s.writeWord a v).load16 a = (v, s.writeWord a v) := by
  have h2 : a + 1 ≠ a := by intro h; simp at h
  rw [State.load16_memory _ _ (by exact h) (by exact h1), State.readByte_writeWord _ _ _ _ h,
    State.readByte_writeWord _ _ _ _ h1, if_neg h2, if_pos rfl, if_pos rfl, joinBytes_hiByte_loByte]

/-- A register read after a register write. -/
theorem State.reg_setReg (r q : RegNo) (v : Word) :
    (s.setReg r v).reg q = if r = q then v else s.reg q := by
  unfold State.reg
  simp only [State.setReg_gpr, Vector.getElem_set, BitVec.toNat_inj]

@[simp] theorem State.reg_setAb (q : RegNo) (v : Byte) : (s.setAb v).reg q = s.reg q := rfl
@[simp] theorem State.reg_setPc (q : RegNo) (a : Word) : (s.setPc a).reg q = s.reg q := rfl
@[simp] theorem State.reg_setPsw (q : RegNo) (p : Psw) : (s.setPsw p).reg q = s.reg q := rfl
@[simp] theorem State.reg_setFlags (q : RegNo) (f : Flags) : (s.setFlags f).reg q = s.reg q := rfl
@[simp] theorem State.reg_writeByte (q : RegNo) (a : Word) (v : Byte) :
    (s.writeByte a v).reg q = s.reg q := rfl
@[simp] theorem State.reg_writeWord (q : RegNo) (a v : Word) :
    (s.writeWord a v).reg q = s.reg q := rfl
@[simp] theorem State.readByte_setReg (r : RegNo) (v a : Word) :
    (s.setReg r v).readByte a = s.readByte a := rfl
@[simp] theorem State.readByte_setAb (v : Byte) (a : Word) :
    (s.setAb v).readByte a = s.readByte a := rfl
@[simp] theorem State.readByte_setPc (v a : Word) : (s.setPc v).readByte a = s.readByte a := rfl
@[simp] theorem State.readByte_setPsw (p : Psw) (a : Word) :
    (s.setPsw p).readByte a = s.readByte a := rfl
@[simp] theorem State.readByte_setFlags (f : Flags) (a : Word) :
    (s.setFlags f).readByte a = s.readByte a := rfl

/-- A byte of memory read after a push. -/
theorem State.readByte_push8 (b : Byte) (a : Word) (h : s.isDevice a = false) :
    (s.push8 b).readByte a = if s.sp + 1 = a then b else s.readByte a :=
  State.readByte_writeByte { s with sp := s.sp + 1 } (s.sp + 1) a b h

/-- A byte of memory read after a push of a word. -/
theorem State.readByte_push16 (v a : Word) (h : s.isDevice a = false) : (s.push16 v).readByte a =
    if s.sp + 1 + 1 = a then loByte v else if s.sp + 1 = a then hiByte v else s.readByte a := by
  unfold State.push16
  rw [State.readByte_push8 _ _ _ (by exact h), State.readByte_push8 _ _ _ h]; rfl

/-- A pop after a push restores SP and, on a stack in memory, gives the byte. -/
theorem State.pop8_push8 (b : Byte) : (s.push8 b).pop8.2.sp = s.sp ∧
    (s.isDevice (s.sp + 1) = false → (s.push8 b).pop8.1 = b) := by
  refine ⟨add_sub_cancel_right s.sp 1, fun h => ?_⟩
  show (s.push8 b).readByte (s.push8 b).sp = b
  rw [State.push8_sp, State.readByte_push8 _ _ _ h, if_pos rfl]

/-- What a pop of a word answers: the low byte is read first. -/
theorem State.pop16_value :
    s.pop16.1 = joinBytes ((s.afterRead s.sp).readByte (s.sp - 1)) (s.readByte s.sp) := rfl

/-- A pop of a word after its push restores SP and, on a stack in memory, gives the word. -/
theorem State.pop16_push16 (v : Word) : (s.push16 v).pop16.2.sp = s.sp ∧
    (s.isDevice (s.sp + 1) = false → s.isDevice (s.sp + 1 + 1) = false →
      (s.push16 v).pop16.1 = v) := by
  constructor
  · show s.sp + 1 + 1 - 1 - 1 = s.sp
    rw [add_sub_cancel_right, add_sub_cancel_right]
  · intro d1 d2
    have h1 : s.sp + 1 + 1 ≠ s.sp + 1 := by intro h; simp at h
    rw [State.pop16_value, State.push16_sp, add_sub_cancel_right,
      State.readByte_afterRead _ _ _ (by exact d1), State.readByte_push16 _ _ _ d1,
      State.readByte_push16 _ _ _ d2, if_neg h1, if_pos rfl, if_pos rfl, joinBytes_hiByte_loByte]

/-- The two bytes of the PSW give it back. -/
@[simp] theorem Psw.ofBytes_high_low (p : Psw) : Psw.ofBytes p.high p.low = p := by
  obtain ⟨i, t, p, l, v, c, z, n⟩ := p
  have h2 : ∀ i t p : Bool, let b := Psw.high ⟨i, t, p, 0, false, false, false, false⟩
      b.getLsbD 7 = i ∧ b.getLsbD 6 = t ∧ b.getLsbD 5 = p := by decide
  have h3 : ∀ (l : BitVec 3) (v c z n : Bool), let b := Psw.low ⟨false, false, false, l, v, c, z, n⟩
      b.extractLsb' 4 3 = l ∧ b.getLsbD 3 = v ∧ b.getLsbD 2 = c ∧ b.getLsbD 1 = z ∧
        b.getLsbD 0 = n := by decide
  have e2 := h2 i t p
  have e3 := h3 l v c z n
  simp only [Psw.high, Psw.low] at e2 e3
  simp only [Psw.ofBytes, Psw.high, Psw.low, e2, e3]

@[simp] theorem Psw.hiByte_word (p : Psw) : hiByte p.word = p.high := hiByte_joinBytes _ _
@[simp] theorem Psw.loByte_word (p : Psw) : loByte p.word = p.low := loByte_joinBytes _ _

/-- The priority encoder gives 0 when no line is 1, else the highest line that is 1. -/
theorem priorityLine_spec : ∀ m : BitVec 7,
    (m = 0 → priorityLine m = 0) ∧
    (m ≠ 0 → 1 ≤ (priorityLine m).toNat ∧ m.getLsbD ((priorityLine m).toNat - 1) = true ∧
      ∀ k < 7, m.getLsbD k = true → k + 1 ≤ (priorityLine m).toNat) := by
  decide

/-- Which request is served: its entry number. -/
theorem State.acceptRequest_entry (nn : Byte) : (s.acceptRequest nn).1 =
    if s.prins then nn else if s.prcod then 3 else if s.pradr then 2 else if s.prinm then 1
    else if s.printrSignal then (if s.psw.p then s.vecOf s.prl else 8 + s.prl.setWidth 8)
    else 0 := by
  simp only [State.acceptRequest, apply_ite Prod.fst]

/-- Which request is served: the state with its flip-flop cleared, and L for a maskable one. -/
theorem State.acceptRequest_state (nn : Byte) : (s.acceptRequest nn).2 =
    if s.prins then { s with prins := false } else if s.prcod then { s with prcod := false }
    else if s.pradr then { s with pradr := false } else if s.prinm then { s with prinm := false }
    else if s.printrSignal then
      { s with printr := s.printr &&& ~~~(lineBit s.prl), psw := { s.psw with l := s.prl } }
    else s := by
  simp only [State.acceptRequest, apply_ite Prod.snd]

/-- Choosing a request touches only its flip-flop and L. -/
theorem State.acceptRequest_frame (nn : Byte) :
    let t := (s.acceptRequest nn).2
    t.pc = s.pc ∧ t.sp = s.sp ∧ t.aw = s.aw ∧ t.ab = s.ab ∧ t.gpr = s.gpr ∧ t.imr = s.imr ∧
    t.ivtp = s.ivtp ∧ t.mem = s.mem ∧ t.devices = s.devices ∧ t.devIn = s.devIn ∧
    t.devLog = s.devLog ∧ t.start = s.start ∧ t.vec = s.vec ∧ t.env = s.env ∧
    t.g = s.g ∧ t.psw.i = s.psw.i ∧ t.psw.t = s.psw.t ∧ t.psw.p = s.psw.p ∧ t.psw.v = s.psw.v ∧
    t.psw.c = s.psw.c ∧ t.psw.z = s.psw.z ∧ t.psw.n = s.psw.n := by
  rw [State.acceptRequest_state]
  dsimp only
  repeat' split
  all_goals simp

/-- The state whose requests are examined: PC and PSW are on the stack (60_exceptions.md R345). -/
def State.pushedFrame (s : State) : State := (s.push16 s.pc).push16 s.psw.word

/-- Pushing the frame leaves everything but SP, memory and what is delivered to devices. -/
theorem State.pushedFrame_eq : s.pushedFrame =
    { s with sp := s.sp + 4, mem := s.pushedFrame.mem, devLog := s.pushedFrame.devLog } := by
  have h : s.sp + 1 + 1 + 1 + 1 = s.sp + 4 := by
    rw [BitVec.add_assoc, BitVec.add_assoc, BitVec.add_assoc]; rfl
  apply State.ext_fields <;> first | rfl | exact h

/-- The bytes of the frame (60_exceptions.md R347). -/
theorem State.readByte_pushedFrame (a : Word) (h : s.isDevice a = false) : s.pushedFrame.readByte a =
    if s.sp + 4 = a then s.psw.low else if s.sp + 3 = a then s.psw.high
    else if s.sp + 2 = a then loByte s.pc else if s.sp + 1 = a then hiByte s.pc
    else s.readByte a := by
  have h4 : s.sp + 1 + 1 + 1 + 1 = s.sp + 4 := by
    rw [BitVec.add_assoc, BitVec.add_assoc, BitVec.add_assoc]; rfl
  have h3 : s.sp + 1 + 1 + 1 = s.sp + 3 := by
    rw [BitVec.add_assoc, BitVec.add_assoc]; rfl
  have h2 : s.sp + 1 + 1 = s.sp + 2 := BitVec.add_assoc _ _ _
  unfold State.pushedFrame
  rw [State.readByte_push16 _ _ _ (by exact h), State.readByte_push16 _ _ _ h, State.push16_sp,
    Psw.hiByte_word, Psw.loByte_word, h4, h3, h2]

/-- What is delivered while the frame is pushed: the bytes whose addresses are device registers. -/
theorem State.devLog_pushedFrame : s.pushedFrame.devLog = s.devLog ++
    ([(s.sp + 1, hiByte s.pc), (s.sp + 2, loByte s.pc), (s.sp + 3, s.psw.high),
      (s.sp + 4, s.psw.low)].filter fun c => s.isDevice c.1).map fun c => .write c.1 c.2 := by
  have h4 : s.sp + 1 + 1 + 1 + 1 = s.sp + 4 := by
    rw [BitVec.add_assoc, BitVec.add_assoc, BitVec.add_assoc]; rfl
  have h3 : s.sp + 1 + 1 + 1 = s.sp + 3 := by
    rw [BitVec.add_assoc, BitVec.add_assoc]; rfl
  have h2 : s.sp + 1 + 1 = s.sp + 2 := BitVec.add_assoc _ _ _
  have hw : ∀ (x : State) (a : Word) (v : Byte), (x.writeByte a v).devLog =
      x.devLog ++ ([(a, v)].filter fun c => x.isDevice c.1).map fun c => .write c.1 c.2 := by
    intro x a v
    cases h : x.isDevice a <;> simp [State.writeByte, h]
  have hp : ∀ (x : State) (v : Byte), (x.push8 v).devLog =
      x.devLog ++ ([(x.sp + 1, v)].filter fun c => x.isDevice c.1).map fun c => .write c.1 c.2 :=
    fun x v => hw { x with sp := x.sp + 1 } _ v
  unfold State.pushedFrame State.push16
  rw [hp, hp, hp, hp]
  simp only [State.isDevice_push8, State.push8_sp, List.append_assoc, ← List.map_append,
    ← List.filter_append, Psw.hiByte_word, Psw.loByte_word]
  rw [h4, h3, h2]
  rfl

/-- Taking an interrupt, once for all: the vector is read with the frame pushed (60_exceptions.md R345,
R348; 20_memory.md R77). -/
theorem State.takeInterrupt_eq (nn : Byte) :
    let e := s.pushedFrame.acceptRequest nn
    let v := s.pushedFrame.load16 (s.vectorAddr e.1)
    s.takeInterrupt nn = { e.2 with
      pc := v.1, psw := e.2.psw.entered, devIn := v.2.devIn, devLog := v.2.devLog } := by
  intro e v
  have hf := s.pushedFrame.acceptRequest_frame nn
  have hv : e.2.ivtp = s.ivtp := hf.2.2.2.2.2.2.1.trans rfl
  have ha : e.2.vectorAddr e.1 = s.vectorAddr e.1 := by rw [State.vectorAddr, hv]; rfl
  obtain ⟨h1, h2, h3⟩ := State.load16_congr hf.2.2.2.2.2.2.2.1 hf.2.2.2.2.2.2.2.2.1
    hf.2.2.2.2.2.2.2.2.2.1 hf.2.2.2.2.2.2.2.2.2.2.1 (s.vectorAddr e.1)
  change ((e.2.load16 (e.2.vectorAddr e.1)).2.setPc (e.2.load16 (e.2.vectorAddr e.1)).1).setPsw
    (e.2.load16 (e.2.vectorAddr e.1)).2.psw.entered = _
  rw [ha]
  apply State.ext_fields
  all_goals first | rfl | exact h1 | exact h2 | exact h3

/-- The service phase with no request (60_exceptions.md R345). -/
theorem State.service_of_not_prekid (nn : Byte) (rti : Bool) (h : s.prekid rti = false) :
    s.service nn rti = s := by simp [State.service, h]

/-- The service phase with a request (60_exceptions.md R345). -/
theorem State.service_of_prekid (nn : Byte) (rti : Bool) (h : s.prekid rti = true) :
    s.service nn rti = s.takeInterrupt nn := by simp [State.service, h]

/-- The request of an illegal code is always served. -/
theorem State.illegalOpcode_eq :
    s.illegalOpcode = { s with prcod := true }.takeInterrupt 0 := by
  simp [State.illegalOpcode, State.service, State.prekid]

/-- The request of an illegal addressing mode is always served. -/
theorem State.addressingError_eq :
    s.addressingError = { s with pradr := true }.takeInterrupt 0 := by
  simp [State.addressingError, State.service, State.prekid]

/-- The request of INT is always served. -/
theorem State.interruptInstruction_eq (nn : Byte) :
    s.interruptInstruction nn = { s with prins := true }.takeInterrupt nn := by
  simp [State.interruptInstruction, State.service, State.prekid]

/-- The return from an interrupt, once for all: four reads at falling addresses (44_jump.md R256,
20_memory.md R77). -/
theorem State.returnFromInterrupt_eq :
    let pl := s.load8 s.sp
    let ph := pl.2.load8 (s.sp - 1)
    let cl := ph.2.load8 (s.sp - 2)
    let ch := cl.2.load8 (s.sp - 3)
    s.returnFromInterrupt =
      { ch.2 with psw := Psw.ofBytes ph.1 pl.1, pc := joinBytes ch.1 cl.1, sp := s.sp - 4 } := by
  intro pl ph cl ch
  have h2 : s.sp - 1 - 1 = s.sp - 2 := sub_sub s.sp 1 1
  have h3 : s.sp - 1 - 1 - 1 = s.sp - 3 := by rw [sub_sub, sub_sub]; rfl
  have h4 : s.sp - 1 - 1 - 1 - 1 = s.sp - 4 := by rw [sub_sub, sub_sub, sub_sub]; rfl
  simp only [pl, ph, cl, ch, ← h2, ← h3, ← h4]
  rfl

/-- Where the environment's record of a transition comes from (60_exceptions.md R333). -/
theorem State.nextInput_nil (h : s.env = []) :
    s.nextInput =
      ({ inm := false, intr := 0, start := s.start, vec := s.vec }, s) := by
  simp [State.nextInput, h]

theorem State.nextInput_cons (e : EnvInput) (es : List EnvInput) (h : s.env = e :: es) :
    s.nextInput = (e, { s with start := e.start, vec := e.vec, env := es }) := by
  simp [State.nextInput, h]

end Machine
end Sys2Proof
end

