-- ==== Sys2Proof/Laws/Operands.lean ====
section
/-!
SUPPORT. The laws of the operands: what the evaluation of a specifier changes, and what a write
through a place changes.
-/

namespace Sys2Proof.Machine

variable (s : State)

/-- The evaluation of a specifier changes general registers only, and what devices saw and will answer. -/
theorem State.place_frame {w : Nat} (o : Operand w) : (s.place o).2 =
    { s with gpr := (s.place o).2.gpr, devIn := (s.place o).2.devIn,
             devLog := (s.place o).2.devLog } := by cases o <;> rfl

/-- What the evaluation of a specifier does to devices: the reads of the pointer (20_memory.md R77). -/
theorem State.traffic_place {w : Nat} (o : Operand w) :
    SameTraffic (s.afterReads (pointerReads o)) (s.place o).2 := by cases o <;> exact ⟨rfl, rfl⟩

/-- It changes no register but that of an auto mode. -/
theorem State.reg_place {w : Nat} (o : Operand w) (r : RegNo) (h : autoRegister o ≠ some r) :
    (s.place o).2.reg r = s.reg r := by
  cases o <;> simp_all [State.place, autoRegister, State.reg_setReg]

/-- Memory reads the same after it. -/
theorem State.readByte_place {w : Nat} (o : Operand w) (a : Word) (h : s.isDevice a = false) :
    (s.place o).2.readByte a = s.readByte a := by
  have h2 : (s.place o).2.isDevice a = false := by rw [State.place_frame]; exact h
  rw [State.readByte, State.readByte, h, h2, State.place_frame]; rfl

/-- A read of a byte at a place changes nothing but what devices saw and will answer. -/
theorem State.readPlace8_frame (p : Place 8) : (s.readPlace8 p).2 =
    { s with devIn := (s.readPlace8 p).2.devIn, devLog := (s.readPlace8 p).2.devLog } := by
  cases p <;> rfl

/-- A read of a word at a place changes nothing but what devices saw and will answer. -/
theorem State.readPlace16_frame (p : Place 16) : (s.readPlace16 p).2 =
    { s with devIn := (s.readPlace16 p).2.devIn, devLog := (s.readPlace16 p).2.devLog } := by
  cases p <;> rfl

/-- An operand is immediate exactly where its place is the value itself. -/
theorem State.place_lit {w : Nat} (o : Operand w) (v : BitVec w) :
    (s.place o).1 = .lit v ↔ o = .imm v := by cases o <;> simp [State.place]

/-- An operand is a register exactly where its place is that register. -/
theorem State.place_reg {w : Nat} (o : Operand w) (r : RegNo) :
    (s.place o).1 = .reg r ↔ o = .regdir r := by cases o <;> simp [State.place]

/-- The designated devices are the same after it. -/
@[simp] theorem State.isDevice_place {w : Nat} (o : Operand w) (a : Word) :
    (s.place o).2.isDevice a = s.isDevice a := by cases o <;> rfl

/-- A byte written at a place changes general registers, memory or what devices saw. -/
theorem State.writePlace8_frame (p : Place 8) (v : Byte) : s.writePlace8 p v =
    { s with gpr := (s.writePlace8 p v).gpr, mem := (s.writePlace8 p v).mem,
             devLog := (s.writePlace8 p v).devLog } := by
  cases p <;> rfl

/-- A byte written at a place, read back as a byte of memory. -/
theorem State.readByte_writePlace8 (p : Place 8) (v : Byte) (a : Word) (h : s.isDevice a = false) :
    (s.writePlace8 p v).readByte a = if p = .mem a then v else s.readByte a := by
  cases p with
  | reg r => simp [State.writePlace8]
  | mem ea => simp [State.writePlace8, State.readByte_writeByte _ _ _ _ h]
  | lit v => simp [State.writePlace8]

/-- A byte written at a place, read back as a register. -/
theorem State.reg_writePlace8 (p : Place 8) (v : Byte) (r : RegNo) :
    (s.writePlace8 p v).reg r =
      if p = .reg r then joinBytes (hiByte (s.reg r)) v else s.reg r := by
  cases p with
  | reg q =>
    simp only [State.writePlace8, State.reg_setReg, Place.reg.injEq]
    split
    · next h => rw [h]
    · rfl
  | mem ea => simp [State.writePlace8]
  | lit v => simp [State.writePlace8]

/-- A byte written at a place reads back, but for an immediate and a device register. -/
theorem State.readPlace8_writePlace8 (p : Place 8) (v : Byte) (h : ∀ x, p ≠ .lit x)
    (hd : ∀ a, p = .mem a → s.isDevice a = false) :
    ((s.writePlace8 p v).readPlace8 p).1 = v := by
  cases p with
  | reg r => simp [State.readPlace8, State.reg_writePlace8]
  | mem ea => simp [State.readPlace8, State.readByte_writePlace8 _ _ _ _ (hd ea rfl)]
  | lit x => exact absurd rfl (h x)

/-- A word written at a place changes general registers, memory or what devices saw. -/
theorem State.writePlace16_frame (p : Place 16) (v : Word) : s.writePlace16 p v =
    { s with gpr := (s.writePlace16 p v).gpr, mem := (s.writePlace16 p v).mem,
             devLog := (s.writePlace16 p v).devLog } := by
  cases p <;> rfl

/-- A word written at a place reads back, but for an immediate and device registers. -/
theorem State.readPlace16_writePlace16 (p : Place 16) (v : Word) (h : ∀ x, p ≠ .lit x)
    (hd : ∀ a, p = .mem a → s.isDevice a = false ∧ s.isDevice (a + 1) = false) :
    ((s.writePlace16 p v).readPlace16 p).1 = v := by
  cases p with
  | reg r => simp [State.readPlace16, State.writePlace16, State.reg_setReg]
  | mem ea => exact congrArg Prod.fst (State.load16_writeWord _ _ _ (hd ea rfl).1 (hd ea rfl).2)
  | lit x => exact absurd rfl (h x)

/-- Reads one after the other. -/
theorem State.afterReads_append (as bs : List Word) :
    s.afterReads (as ++ bs) = (s.afterReads as).afterReads bs := by simp [State.afterReads]

/-- Reads change nothing but what devices saw and will answer. -/
theorem State.afterReads_frame (as : List Word) : s.afterReads as =
    { s with devIn := (s.afterReads as).devIn, devLog := (s.afterReads as).devLog } := by
  induction as generalizing s with
  | nil => rfl
  | cons a as ih => exact ih (s.afterRead a)

/-- A read after the same traffic leaves the same traffic. -/
theorem SameTraffic.afterRead {s t : State} (hd : t.devices = s.devices) (h : SameTraffic s t) (a : Word) :
    SameTraffic (s.afterRead a) (t.afterRead a) := State.afterRead_congr hd h.1 h.2 a

/-- What a read of a byte operand does to devices (20_memory.md R77 (2), (3)). -/
theorem State.traffic_readOp8 (o : Operand 8) :
    SameTraffic (s.afterReads (s.operandReads o)) (s.readOp8 o).2 := by
  have hp := s.traffic_place o
  have hd : (s.place o).2.devices = (s.afterReads (pointerReads o)).devices := by
    rw [State.place_frame, State.afterReads_frame]
  unfold State.operandReads State.readOp8
  rw [State.afterReads_append]
  dsimp only
  cases (s.place o).1 with
  | reg _ | lit _ => exact hp
  | mem ea => exact hp.afterRead hd ea

/-- What a read of a word operand does to devices (20_memory.md R77 (2), (3)). -/
theorem State.traffic_readOp16 (o : Operand 16) :
    SameTraffic (s.afterReads (s.operandReads o)) (s.readOp16 o).2 := by
  have hp := s.traffic_place o
  have hd : (s.place o).2.devices = (s.afterReads (pointerReads o)).devices := by
    rw [State.place_frame, State.afterReads_frame]
  unfold State.operandReads State.readOp16
  rw [State.afterReads_append]
  dsimp only
  cases (s.place o).1 with
  | reg _ | lit _ => exact hp
  | mem ea => exact (hp.afterRead hd ea).afterRead (by exact hd) (ea + 1)

/-- A read of a byte operand changes the auto register, and what devices saw and will answer. -/
theorem State.readOp8_frame (o : Operand 8) : (s.readOp8 o).2 =
    { s with gpr := (s.place o).2.gpr, devIn := (s.readOp8 o).2.devIn, devLog := (s.readOp8 o).2.devLog } := by
  unfold State.readOp8; rw [State.readPlace8_frame, State.place_frame]

/-- A read of a word operand changes the auto register, and what devices saw and will answer. -/
theorem State.readOp16_frame (o : Operand 16) : (s.readOp16 o).2 =
    { s with gpr := (s.place o).2.gpr, devIn := (s.readOp16 o).2.devIn, devLog := (s.readOp16 o).2.devLog } := by
  unfold State.readOp16; rw [State.readPlace16_frame, State.place_frame]

/-- A byte of memory read where memory and the devices are the same. -/
theorem State.readByte_memory {s t : State} (hm : t.mem = s.mem) (hd : t.devices = s.devices) {a : Word}
    (h : s.isDevice a = false) : t.readByte a = s.readByte a := by
  have ht : t.isDevice a = false := by rw [State.isDevice_congr hd, h]
  rw [State.readByte, State.readByte, h, ht, hm]; rfl

/-- A read-modify-write, in terms of the one evaluation of its operand. -/
theorem State.modifyOp8_eq (o : Operand 8) (f : Byte → Bool → Byte × Flags) : s.modifyOp8 o f =
    ((s.readOp8 o).2.writePlace8 (s.place o).1 (f (s.readOp8 o).1 s.psw.c).1).setFlags
      (f (s.readOp8 o).1 s.psw.c).2 := rfl

/-- A read-modify-write of a destination the opcode admits is not turned away. -/
theorem State.modify_of_allowed (o : Operand 8) (f : Byte → Bool → Byte × Flags)
    (h : o.isImm = false) : s.modify o f = s.modifyOp8 o f := by
  simp [State.modify, Operand.allowed, h]

end Sys2Proof.Machine
end

