-- ==== Sys2Proof/Laws/Fetch.lean ====
section
/-!
SUPPORT. The fetch: it reads the bytes of an instruction, or as many as decide that there is none, and no
more (20_memory.md R77 (1)).
-/

namespace Sys2Proof.Machine

/-- Bytes read one after the other: so many. -/
@[simp] theorem State.length_loadBytes (s : State) (a : Word) (n : Nat) :
    (s.loadBytes a n).1.length = n := by
  induction n generalizing s a with
  | zero => rfl
  | succ n ih => exact congrArg Nat.succ (ih _ _)

/-- Reading bytes changes nothing but what devices saw and will answer. -/
theorem State.loadBytes_frame (s : State) (a : Word) (n : Nat) : (s.loadBytes a n).2 =
    { s with devIn := (s.loadBytes a n).2.devIn, devLog := (s.loadBytes a n).2.devLog } := by
  induction n generalizing s a with
  | zero => rfl
  | succ n ih => exact ih (s.afterRead a) (a + 1)

/-- The fetch reads bytes until those read decide. -/
theorem State.fetchFrom_eq (s : State) (bs : List Byte) (a : Word) (k m : Nat)
    (ha : a = s.pc + BitVec.ofNat 16 bs.length) (hk : k ≤ m)
    (hp : ∀ j < k, decode (bs ++ (s.loadBytes a k).1.take j) = .error .truncated)
    (hd : decode (bs ++ (s.loadBytes a k).1) ≠ .error .truncated) :
    s.fetchFrom bs m = (decode (bs ++ (s.loadBytes a k).1), (s.loadBytes a k).2) := by
  induction k generalizing s bs a m with
  | zero =>
    simp only [State.loadBytes, List.append_nil] at hd ⊢
    cases m with
    | zero => rfl
    | succ m =>
      rw [State.fetchFrom]
      split
      · next h => exact absurd h hd
      · rfl
  | succ k ih =>
    obtain ⟨m, rfl⟩ : ∃ j, m = j + 1 := ⟨m - 1, by omega⟩
    have h0 := hp 0 (by omega)
    simp only [List.take_zero, List.append_nil] at h0
    have hb : ∀ xs, bs ++ (s.load8 a).1 :: xs = (bs ++ [(s.load8 a).1]) ++ xs := fun xs => by simp
    have hl : (s.loadBytes a (k + 1)).1 = (s.load8 a).1 :: ((s.load8 a).2.loadBytes (a + 1) k).1 := rfl
    rw [hl, hb] at hd ⊢
    rw [State.fetchFrom, h0]
    dsimp only
    rw [← ha]
    refine ih (s.load8 a).2 (bs ++ [(s.load8 a).1]) (a + 1) m ?_ (by omega) (fun j hj => ?_) hd
    · rw [ha, List.length_append, List.length_singleton, BitVec.ofNat_add, ← BitVec.add_assoc]; rfl
    · have := hp (j + 1) (by omega)
      rwa [hl, List.take_succ_cons, hb] at this

/-- Two bytes are a 16-bit field, fewer are not. -/
theorem decode_field16 (bs : List Byte) :
    (∃ h l rest, bs = h :: l :: rest) ∨ (bs.length < 2 ∧ field16 bs = .error .truncated) := by
  cases bs with
  | nil => exact .inr ⟨by simp, rfl⟩
  | cons h bs =>
    cases bs with
    | nil => exact .inr ⟨by simp, rfl⟩
    | cons l rest => exact .inl ⟨h, l, rest, rfl⟩

/-- Fewer bytes than an operand takes are truncated. -/
theorem decodeOperand_take {w : Nat} {imm : List Byte → Except DecodeError (BitVec w)} {k : Nat}
    (himm : ∀ bs v, imm bs = .ok v → ∀ j < k, imm (bs.take j) = .error .truncated)
    {mode : Byte} {bs : List Byte} {o : Operand w} {n : Nat} (h : decodeOperand imm k mode bs = .ok (o, n))
    {j : Nat} (hj : j + 2 < n) : decodeOperand imm k mode (bs.take j) = .error .truncated := by
  have h16 : j < 2 → field16 (bs.take j) = .error .truncated := fun hj => by
    rcases decode_field16 (bs.take j) with ⟨x, y, rest, he⟩ | ⟨-, he⟩
    · have := congrArg List.length he; simp at this; omega
    · exact he
  unfold decodeOperand at h ⊢
  dsimp only at h ⊢
  split at h
  case h_12 => cases h
  case h_11 =>
    cases hi : imm bs with
    | error e => rw [hi] at h; cases h
    | ok v => rw [hi] at h; cases h; rw [himm bs v hi j (by omega)]; rfl
  case h_3 | h_4 | h_5 | h_10 =>
    cases hf : field16 bs with
    | error e => rw [hf] at h; cases h
    | ok v => rw [hf] at h; cases h; rw [h16 (by omega)]; rfl
  all_goals cases h; omega

/-- Fewer bytes than an instruction has are truncated (30_encoding.md R100, R101). -/
theorem decode_take {bs : List Byte} {i : Instr} {n : Nat} (h : decode bs = .ok (i, n)) {j : Nat}
    (hj : j < n) : decode (bs.take j) = .error .truncated := by
  have h8 : ∀ (bs : List Byte) (v : Byte), field8 bs = .ok v → ∀ j < 1,
      field8 (bs.take j) = .error .truncated := fun bs v _ j hj => by
    obtain rfl : j = 0 := by omega
    rfl
  have h16 : ∀ (bs : List Byte) (j : Nat), j < 2 → field16 (bs.take j) = .error .truncated :=
    fun bs j hj => by
      rcases decode_field16 (bs.take j) with ⟨x, y, rest, he⟩ | ⟨-, he⟩
      · have := congrArg List.length he; simp at this; omega
      · exact he
  have hA : ∀ {w k : Nat} {imm : List Byte → Except DecodeError (BitVec w)} {r : ModeRule}
      {mk : Operand w → Instr} {bs : List Byte} {j : Nat},
      (∀ bs v, imm bs = .ok v → ∀ j < k, imm (bs.take j) = .error .truncated) →
      decodeA imm k r mk bs = .ok (i, n) → j + 1 < n →
      decodeA imm k r mk (bs.take j) = .error .truncated := by
    intro w k imm r mk bs j himm h hj
    cases bs with
    | nil => cases h
    | cons mode rest =>
      cases j with
      | zero => rfl
      | succ j =>
        simp only [decodeA, List.take_succ_cons] at h ⊢
        split at h
        · cases h
        · next hb =>
          rw [if_neg hb]
          cases ho : decodeOperand imm k mode rest with
          | error e => rw [ho] at h; cases h
          | ok p => rw [ho] at h; cases h; rw [decodeOperand_take himm ho (by omega)]; rfl
  cases bs with
  | nil => cases h
  | cons b rest =>
    cases j with
    | zero => rfl
    | succ j =>
      simp only [decode, List.take_succ_cons] at h ⊢
      split at h
      · cases h
      · cases h; omega
      · cases hf : field8 rest with
        | error e => rw [hf] at h; cases h
        | ok v => rw [hf] at h; cases h; rw [h8 rest v hf j (by omega)]; rfl
      · cases hf : field16 rest with
        | error e => rw [hf] at h; cases h
        | ok v => rw [hf] at h; cases h; rw [h16 rest j (by omega)]; rfl
      · exact hA h8 h (by omega)
      · exact hA (fun bs _ _ j hj => h16 bs j hj) h (by omega)

/-- Four bytes decide. -/
theorem decode_four (b1 b2 b3 b4 : Byte) (rest : List Byte) :
    decode (b1 :: b2 :: b3 :: b4 :: rest) ≠ .error .truncated := by
  have hA : ∀ {w k : Nat} {imm : List Byte → Except DecodeError (BitVec w)} (r : ModeRule)
      (mk : Operand w → Instr), (∀ a b rest, ∃ v, imm (a :: b :: rest) = .ok v) →
      decodeA imm k r mk (b2 :: b3 :: b4 :: rest) ≠ .error .truncated := by
    intro w k imm r mk himm
    obtain ⟨v, hv⟩ := himm b3 b4 rest
    unfold decodeA decodeOperand
    dsimp only [field16]
    rw [hv]
    split
    · nofun
    · split <;> nofun
  unfold decode
  dsimp only
  split
  · nofun
  · nofun
  · nofun
  · nofun
  · exact hA _ _ fun _ _ _ => ⟨_, rfl⟩
  · exact hA _ _ fun _ _ _ => ⟨_, rfl⟩

/-- The longest instruction has four bytes (30_encoding.md R99). -/
theorem decode_length {bs : List Byte} {i : Instr} {n : Nat} (h : decode bs = .ok (i, n)) : n ≤ 4 := by
  cases Nat.lt_or_ge 4 n with
  | inr hn => exact hn
  | inl hn =>
    have h4 := decode_take h hn
    cases bs with
    | nil => cases h
    | cons b1 bs =>
      cases bs with
      | nil => rw [List.take_of_length_le (by simp)] at h4; rw [h4] at h; cases h
      | cons b2 bs =>
        cases bs with
        | nil => rw [List.take_of_length_le (by simp)] at h4; rw [h4] at h; cases h
        | cons b3 bs =>
          cases bs with
          | nil => rw [List.take_of_length_le (by simp)] at h4; rw [h4] at h; cases h
          | cons b4 bs => exact absurd h4 (decode_four b1 b2 b3 b4 _)

/-- The fetch of an instruction reads its bytes and no more. -/
theorem State.fetch_ok {s : State} {i : Instr} {n : Nat}
    (h : decode (s.loadBytes s.pc n).1 = .ok (i, n)) :
    s.fetch = (.ok (i, n), (s.loadBytes s.pc n).2) := by
  rw [State.fetch, s.fetchFrom_eq [] s.pc n 4 (by simp) (decode_length h)
    (fun j hj => decode_take h hj) (by rw [List.nil_append, h]; nofun)]
  rw [List.nil_append, h]

end Sys2Proof.Machine
end

