-- ==== Sys2Proof/Laws/Generic.lean ====
section
/-!
SUPPORT. The laws of the generic machine: addresses, registers, data of one or several locations (a
datum stored reads back, whatever CELL, AW_ADDR and ENDIAN are), and the stack.
-/

namespace Sys2Proof

theorem Len.bits_le (l : Len) : l.bits ≤ 64 := l.pred.isLt

theorem Len.bits_pos (l : Len) : 0 < l.bits := Nat.succ_pos _

theorem Len.bits_le_bytes (l : Len) : l.bits ≤ 8 * l.bytes := by unfold Len.bytes; omega

/-- The bits a cut keeps. -/
theorem Len.getLsbD_trunc (l : Len) (v : Quad) (i : Nat) :
    (l.trunc v).getLsbD i = (decide (i < l.bits) && v.getLsbD i) := by
  have h := l.bits_le
  simp only [Len.trunc, BitVec.getLsbD_setWidth]
  by_cases h1 : i < l.bits
  · simp [h1, show i < 64 by omega]
  · simp [h1]

@[simp] theorem Len.trunc_trunc (l : Len) (v : Quad) : l.trunc (l.trunc v) = l.trunc v := by
  apply BitVec.eq_of_getLsbD_eq
  intro i _
  simp only [Len.getLsbD_trunc]
  cases decide (i < l.bits) <;> simp

theorem Len.toNat_trunc (l : Len) (v : Quad) : (l.trunc v).toNat = v.toNat % 2 ^ l.bits := by
  have h := l.bits_le
  have h2 : v.toNat % 2 ^ l.bits < 2 ^ 64 :=
    Nat.lt_of_lt_of_le (Nat.mod_lt _ (Nat.two_pow_pos _)) (Nat.pow_le_pow_right (by decide) h)
  rw [Len.trunc, BitVec.toNat_setWidth, BitVec.toNat_setWidth, Nat.mod_eq_of_lt h2]

theorem Len.toNat_trunc_lt (l : Len) (v : Quad) : (l.trunc v).toNat < 2 ^ l.bits := by
  rw [Len.toNat_trunc]; exact Nat.mod_lt _ (Nat.two_pow_pos _)

namespace Machine

variable (g : GMachine)

@[simp] theorem GMachine.addr_addr (a : Quad) : g.addr (g.addr a) = g.addr a := Len.trunc_trunc _ _

theorem GMachine.addr_lt (a : Quad) : (g.addr a).toNat < 2 ^ g.cfg.aw.bits :=
  Len.toNat_trunc_lt _ _

/-- The two bounds of a cut: the shorter one. -/
theorem Len.trunc_trunc_of_le (k l : Len) (v : Quad) (h : k.bits ≤ l.bits) :
    k.trunc (l.trunc v) = k.trunc v := by
  apply BitVec.eq_of_getLsbD_eq
  intro i _
  simp only [Len.getLsbD_trunc]
  by_cases h1 : i < k.bits
  · simp [h1, show i < l.bits by omega]
  · simp [h1]

/-- The bits of a value merged into a wider one. -/
theorem Len.trunc_merge (l : Len) (old new : Quad) : l.trunc (l.merge old new) = l.trunc new := by
  apply BitVec.eq_of_getLsbD_eq
  intro i hi
  simp only [Len.merge, Len.getLsbD_trunc, BitVec.getLsbD_or, BitVec.getLsbD_and, BitVec.getLsbD_not,
    BitVec.getLsbD_allOnes]
  by_cases h : i < l.bits <;> simp [h, hi]

/-- A register read after it was written: as many bits as it is wide. -/
theorem GMachine.readReg_writeReg_same (r : GReg) (v : Quad) (h : g.present r) :
    (g.writeReg r v).readReg r = (g.cfg.regLen r).trunc v := by
  cases r <;> simp_all [GMachine.writeReg, GMachine.setReg, GMachine.readReg, GMachine.present]

/-- A register read after another was written. -/
theorem GMachine.readReg_writeReg_other (r q : GReg) (v : Quad) (h : r ≠ q) :
    (g.writeReg r v).readReg q = g.readReg q := by
  cases r <;> cases q <;>
    simp_all [GMachine.writeReg, GMachine.setReg, GMachine.readReg]

/-- A register write leaves the configuration, the PSW, PC, IVTP, memory and the I/O space. -/
theorem GMachine.writeReg_frame (r : GReg) (v : Quad) :
    (g.writeReg r v).cfg = g.cfg ∧ (g.writeReg r v).psw = g.psw ∧ (g.writeReg r v).pc = g.pc ∧
    (g.writeReg r v).ivtp = g.ivtp ∧ (g.writeReg r v).mem = g.mem ∧ (g.writeReg r v).io = g.io := by
  cases r <;> simp [GMachine.writeReg, GMachine.setReg]

/-- A register write adds and removes no register. -/
theorem GMachine.present_writeReg (r q : GReg) (v : Quad) : (g.writeReg r v).present q = g.present q := by
  cases r <;> cases q <;> simp [GMachine.writeReg, GMachine.setReg, GMachine.present]

@[simp] theorem GMachine.writeCell_cfg (a v : Quad) : (g.writeCell a v).cfg = g.cfg := rfl

/-- A location read after it was written. -/
theorem GMachine.readCell_writeCell_same (a v : Quad) :
    (g.writeCell a v).readCell a = g.cfg.cell.trunc v := by
  have h : (g.writeCell a v).readCell a =
      g.cfg.cell.trunc (g.cfg.cell.trunc v &&& BitVec.ofNat 64 (2 ^ (8 * g.cfg.cell.bytes) - 1)) :=
    congrArg g.cfg.cell.trunc (Memory.readSpan_writeSpan _ _ _ _)
  have hb := g.cfg.cell.bits_le_bytes
  rw [h]
  apply BitVec.eq_of_getLsbD_eq
  intro i hi
  simp only [BitVec.getLsbD_and, BitVec.getLsbD_ofNat, Nat.testBit_two_pow_sub_one,
    Len.getLsbD_trunc]
  by_cases h1 : i < g.cfg.cell.bits
  · simp [h1, hi, show i < 8 * g.cfg.cell.bytes by omega]
  · simp [h1]

/-- A location read after another was written. -/
theorem GMachine.readCell_writeCell_other (a b v : Quad) (h : a ≠ b) :
    (g.writeCell a v).readCell b = g.readCell b := by
  have hne : a.toNat ≠ b.toNat := fun e => h (BitVec.toNat_inj.1 e)
  refine congrArg g.cfg.cell.trunc (Memory.readSpan_writeSpan_other _ _ _ _ _ _ ?_)
  rcases Nat.lt_or_gt_of_ne hne with hl | hl
  · right
    exact (Nat.mul_succ _ _).symm ▸ Nat.mul_le_mul_left g.cfg.cell.bytes hl
  · left
    exact (Nat.mul_succ _ _).symm ▸ Nat.mul_le_mul_left g.cfg.cell.bytes hl

/-- A store changes memory only. -/
theorem GMachine.writePieces_frame (a : Quad) (m : Nat) (v : Quad) (i : Nat) :
    g.writePieces a m v i = { g with mem := (g.writePieces a m v i).mem } := by
  induction i with
  | zero => rfl
  | succ i ih =>
    rw [GMachine.writePieces, GMachine.writeCell]
    generalize g.writePieces a m v i = x at ih
    rw [ih]

/-- A store changes memory only. -/
theorem GMachine.writeData_frame (l : Len) (a v : Quad) :
    g.writeData l a v = { g with mem := (g.writeData l a v).mem } := g.writePieces_frame _ _ _ _

@[simp] theorem GMachine.writeData_cfg (l : Len) (a v : Quad) : (g.writeData l a v).cfg = g.cfg := by
  rw [g.writeData_frame]

/-- A push changes SP and memory only. -/
theorem GMachine.push_frame (l : Len) (v : Quad) : g.push l v =
    { g with sp := (g.spPush (g.span l)).sp, mem := (g.push l v).mem } := by
  rw [GMachine.push, GMachine.writeData_frame]
  unfold GMachine.spPush
  split <;> rfl

/-- A pop changes SP only. -/
theorem GMachine.pop_frame (l : Len) : (g.pop l).2 = { g with sp := (g.pop l).2.sp } := by
  simp only [GMachine.pop, GMachine.spPop]
  split <;> rfl

/-- Locations less than the size of the address space apart have different addresses. -/
theorem GMachine.addr_add_inj (a : Quad) (i j : Nat) (hi : i < 2 ^ g.cfg.aw.bits)
    (hj : j < 2 ^ g.cfg.aw.bits)
    (h : g.addr (a + BitVec.ofNat 64 i) = g.addr (a + BitVec.ofNat 64 j)) : i = j := by
  have h1 := congrArg BitVec.toNat h
  simp only [GMachine.addr, Len.toNat_trunc, BitVec.toNat_add, BitVec.toNat_ofNat] at h1
  have hb : 2 ^ g.cfg.aw.bits ∣ 2 ^ 64 := Nat.pow_dvd_pow 2 g.cfg.aw.bits_le
  rw [Nat.mod_mod_of_dvd _ hb, Nat.mod_mod_of_dvd _ hb] at h1
  have h2 : ∀ n, (a.toNat + n % 2 ^ 64) % 2 ^ g.cfg.aw.bits =
      (a.toNat + n) % 2 ^ g.cfg.aw.bits := fun n => by
    rw [Nat.add_mod, Nat.mod_mod_of_dvd _ hb, ← Nat.add_mod]
  rw [h2, h2] at h1
  have h3 : i % 2 ^ g.cfg.aw.bits = j % 2 ^ g.cfg.aw.bits := Nat.ModEq.add_left_cancel' _ h1
  rwa [Nat.mod_eq_of_lt hi, Nat.mod_eq_of_lt hj] at h3

/-- The location of a part reads the part, once it is stored. -/
theorem GMachine.readCell_writePieces (a : Quad) (m : Nat) (v : Quad) (n : Nat)
    (hn : n ≤ 2 ^ g.cfg.aw.bits) (j : Nat)
    (hj : j < n) : (g.writePieces a m v n).readCell (g.addr (a + BitVec.ofNat 64 j)) =
      g.cfg.cell.trunc (v >>> pieceShift g.cfg.endian g.cfg.cell.bits m j) := by
  induction n with
  | zero => omega
  | succ n ih =>
    have hc : (g.writePieces a m v n).cfg = g.cfg := by rw [g.writePieces_frame]
    rw [GMachine.writePieces]
    by_cases h : j = n
    · subst h
      rw [GMachine.readCell_writeCell_same, hc]
    · rw [GMachine.readCell_writeCell_other, ih (by omega) (by omega)]
      intro he
      exact h (g.addr_add_inj a n j (by omega) (by omega) he).symm

/-- A location outside those of a datum keeps its content when the datum is stored. -/
theorem GMachine.readCell_writePieces_other (a : Quad) (m : Nat) (v c : Quad) (n : Nat)
    (h : ∀ i < n, c ≠ g.addr (a + BitVec.ofNat 64 i)) :
    (g.writePieces a m v n).readCell c = g.readCell c := by
  induction n with
  | zero => rfl
  | succ n ih =>
    rw [GMachine.writePieces, GMachine.readCell_writeCell_other _ _ _ _ (Ne.symm (h n (by omega))),
      ih fun i hi => h i (by omega)]

/-- The bits of a datum gathered from its locations. -/
theorem GMachine.getLsbD_readPieces (a : Quad) (m n k : Nat) :
    (g.readPieces a m n).getLsbD k = true ↔ ∃ j < n, k < 64 ∧
      pieceShift g.cfg.endian g.cfg.cell.bits m j ≤ k ∧
      (g.readCell (g.addr (a + BitVec.ofNat 64 j))).getLsbD
        (k - pieceShift g.cfg.endian g.cfg.cell.bits m j) = true := by
  induction n with
  | zero => simp [GMachine.readPieces]
  | succ n ih =>
    simp only [GMachine.readPieces, BitVec.getLsbD_or, BitVec.getLsbD_shiftLeft, Bool.or_eq_true,
      Bool.and_eq_true, decide_eq_true_eq, Bool.not_eq_true', decide_eq_false_iff_not, Nat.not_lt, ih]
    constructor
    · rintro (⟨j, hj, h⟩ | ⟨⟨h1, h2⟩, h3⟩)
      · exact ⟨j, by omega, h⟩
      · exact ⟨n, by omega, h1, h2, h3⟩
    · rintro ⟨j, hj, h1, h2, h3⟩
      by_cases e : j = n
      · subst e; exact Or.inr ⟨⟨h1, h2⟩, h3⟩
      · exact Or.inl ⟨j, by omega, h1, h2, h3⟩

/-- The locations of a datum hold it together. -/
theorem locations_spec (cell l : Len) : 0 < locations cell l ∧ l.bits ≤ cell.bits * locations cell l := by
  have hc := cell.bits_pos
  have hl := l.bits_pos
  constructor
  · exact Nat.div_pos (by omega) hc
  · have h := Nat.lt_mul_div_succ (l.bits + cell.bits - 1) hc
    rw [Nat.mul_succ] at h
    unfold locations
    omega

/-- A datum has no more locations than bits. -/
theorem locations_le (cell l : Len) : locations cell l ≤ l.bits := by
  have hc := cell.bits_pos
  have hl := l.bits_pos
  refine Nat.div_le_of_le_mul ?_
  have : (cell.bits - 1) * (l.bits - 1) + l.bits + cell.bits - 1 = cell.bits * l.bits := by
    obtain ⟨c, hc'⟩ := Nat.exists_eq_succ_of_ne_zero (Nat.pos_iff_ne_zero.1 hc)
    obtain ⟨k, hk'⟩ := Nat.exists_eq_succ_of_ne_zero (Nat.pos_iff_ne_zero.1 hl)
    rw [hc', hk']
    simp only [Nat.succ_eq_add_one, Nat.add_sub_cancel]
    ring_nf
    omega
  omega

/-- An address fits in the address space. -/
theorem GMachine.fits_aw : g.fits g.cfg.aw :=
  Nat.le_trans (locations_le _ _) (Nat.le_of_lt Nat.lt_two_pow_self)

/-- Every bit of a datum is in one of its locations. -/
theorem exists_piece (e : Endian) (b m k : Nat) (hb : 0 < b) (hk : k < b * m) :
    ∃ j < m, pieceShift e b m j ≤ k ∧ k - pieceShift e b m j < b := by
  have hq : k / b < m := Nat.div_lt_of_lt_mul hk
  have hd := Nat.div_add_mod k b
  have hr := Nat.mod_lt k hb
  generalize k / b = q at hq hd
  cases e with
  | big =>
    refine ⟨m - 1 - q, by omega, ?_⟩
    have : m - 1 - (m - 1 - q) = q := by omega
    simp only [pieceShift, this]
    omega
  | little => exact ⟨q, hq, by simp only [pieceShift]; omega⟩

/-- A datum stored at an address reads back, cut to its length (20_memory.md R65). -/
theorem GMachine.readData_writeData (l : Len) (a v : Quad) (h8 : g.fits l) :
    (g.writeData l a v).readData l a = l.trunc v := by
  obtain ⟨h0, hl⟩ := locations_spec g.cfg.cell l
  have hsp : (g.writeData l a v).span l = locations g.cfg.cell l := by simp [GMachine.span]
  apply BitVec.eq_of_getLsbD_eq
  intro k hk
  rw [GMachine.readData, Len.getLsbD_trunc, Len.getLsbD_trunc, hsp]
  by_cases hkl : k < l.bits
  · simp only [hkl, decide_true, Bool.true_and]
    rw [Bool.eq_iff_iff, GMachine.getLsbD_readPieces]
    have hcb := g.cfg.cell.bits_pos
    have hbits : ∀ j < locations g.cfg.cell l,
        (g.writeData l a v).readCell ((g.writeData l a v).addr (a + BitVec.ofNat 64 j)) =
        g.cfg.cell.trunc (l.trunc v >>>
          pieceShift g.cfg.endian g.cfg.cell.bits (locations g.cfg.cell l) j) := by
      intro j hj
      have := g.readCell_writePieces a (locations g.cfg.cell l) (l.trunc v) _ h8 j hj
      rw [← this]
      simp only [GMachine.writeData, GMachine.span, GMachine.addr]
      rw [g.writePieces_frame]
    simp only [GMachine.writeData_cfg]
    constructor
    · rintro ⟨j, hj, _, h1, h2⟩
      rw [hbits j hj, Len.getLsbD_trunc, BitVec.getLsbD_ushiftRight, Len.getLsbD_trunc] at h2
      rw [show pieceShift g.cfg.endian g.cfg.cell.bits (locations g.cfg.cell l) j +
        (k - pieceShift g.cfg.endian g.cfg.cell.bits (locations g.cfg.cell l) j) = k by omega] at h2
      simp only [Bool.and_eq_true] at h2
      exact h2.2.2
    · intro hv
      obtain ⟨j, hj, h1, h2⟩ := exists_piece g.cfg.endian g.cfg.cell.bits (locations g.cfg.cell l) k
        hcb (by omega)
      refine ⟨j, hj, hk, h1, ?_⟩
      rw [hbits j hj, Len.getLsbD_trunc, BitVec.getLsbD_ushiftRight, Len.getLsbD_trunc]
      rw [show pieceShift g.cfg.endian g.cfg.cell.bits (locations g.cfg.cell l) j +
        (k - pieceShift g.cfg.endian g.cfg.cell.bits (locations g.cfg.cell l) j) = k by omega]
      simp [hkl, h2, hv]
  · simp [hkl]

/-- Equal configurations and memories hold equal data. -/
theorem GMachine.readData_congr {g h : GMachine} (hc : h.cfg = g.cfg) (l : Len) (a : Quad)
    (hr : ∀ i < g.span l, h.readCell (g.addr (a + BitVec.ofNat 64 i)) =
      g.readCell (g.addr (a + BitVec.ofNat 64 i))) : h.readData l a = g.readData l a := by
  have hs : h.span l = g.span l := by simp only [GMachine.span, hc]
  have ha : ∀ x, h.addr x = g.addr x := fun x => by simp only [GMachine.addr, hc]
  have hp : ∀ n ≤ g.span l, h.readPieces a (g.span l) n = g.readPieces a (g.span l) n := by
    intro n hn
    induction n with
    | zero => rfl
    | succ n ih => rw [GMachine.readPieces, GMachine.readPieces, ih (by omega), ha, hr n (by omega), hc]
  rw [GMachine.readData, GMachine.readData, hs, hp _ (Nat.le_refl _)]

/-- A datum that shares no location with a stored one keeps its value. -/
theorem GMachine.readData_writeData_other (l k : Len) (a b v : Quad) (h : g.Disjoint l a k b) :
    (g.writeData l a v).readData k b = g.readData k b :=
  GMachine.readData_congr (g.writeData_cfg l a v) k b fun j hj =>
    g.readCell_writePieces_other a _ _ _ _ fun i hi => (h i hi j hj).symm

/-- A register write leaves every datum in memory. -/
theorem GMachine.readData_writeReg (r : GReg) (v : Quad) (l : Len) (a : Quad) :
    (g.writeReg r v).readData l a = g.readData l a := by
  obtain ⟨hc, -, -, -, hm, -⟩ := g.writeReg_frame r v
  exact GMachine.readData_congr hc l a fun i _ => by simp only [GMachine.readCell, hc, hm]

/-- A store leaves every register. -/
theorem GMachine.readReg_writeData (l : Len) (a v : Quad) (r : GReg) :
    (g.writeData l a v).readReg r = g.readReg r := by
  rw [g.writeData_frame]; cases r <;> rfl

/-- A value written at a place that holds it reads back. -/
theorem GMachine.readPlace_writePlace_same (l : Len) (p : GPlace) (v : Quad) (h : g.Holds l p) :
    (g.writePlace l p v).readPlace l p = l.trunc v := by
  cases p with
  | reg r =>
    show l.trunc ((g.writeReg r _).readReg r) = _
    rw [g.readReg_writeReg_same r _ h.1, Len.trunc_trunc_of_le _ _ _ h.2, Len.trunc_merge]
  | mem a => exact g.readData_writeData l a v h
  | lit _ => exact h.elim

/-- A value at a place apart from the written one stays. -/
theorem GMachine.readPlace_writePlace_other (l k : Len) (p q : GPlace) (v : Quad)
    (h : g.Apart l p k q) : (g.writePlace l p v).readPlace k q = g.readPlace k q := by
  cases p with
  | reg r =>
    cases q with
    | reg r' =>
      have hne : r ≠ r' := fun e => h.1 r rfl (e ▸ rfl)
      exact congrArg k.trunc (g.readReg_writeReg_other r r' _ hne)
    | mem b => exact g.readData_writeReg r _ k b
    | lit _ => rfl
  | mem a =>
    cases q with
    | reg r => exact congrArg k.trunc (g.readReg_writeData l a v r)
    | mem b => exact g.readData_writeData_other l k a b v (h.2 a b rfl rfl)
    | lit _ => rfl
  | lit _ => rfl

/-- The configuration and the presence of registers, which no operation changes. -/
def GMachine.SameShape (g h : GMachine) : Prop :=
  h.cfg = g.cfg ∧ ∀ q, h.present q ↔ g.present q

theorem GMachine.SameShape.trans {g h k : GMachine} (h1 : g.SameShape h) (h2 : h.SameShape k) :
    g.SameShape k := ⟨h2.1.trans h1.1, fun q => (h2.2 q).trans (h1.2 q)⟩

/-- A write through a place keeps the shape. -/
theorem GMachine.sameShape_writePlace (l : Len) (p : GPlace) (v : Quad) :
    g.SameShape (g.writePlace l p v) := by
  cases p with
  | reg r => exact ⟨(g.writeReg_frame r _).1, fun q => by
      show GMachine.present (g.writeReg r _) q ↔ _; rw [g.present_writeReg]⟩
  | mem a =>
    refine ⟨g.writeData_cfg l a v, fun q => ?_⟩
    show GMachine.present (g.writeData l a v) q ↔ _
    rw [g.writeData_frame]; cases q <;> rfl
  | lit _ => exact ⟨rfl, fun _ => Iff.rfl⟩

end Machine
end Sys2Proof
end

