-- ==== Sys2Proof/Laws/Invariant.lean ====
section
/-!
SUPPORT. Every operation keeps the invariants of the state: the canonical form and the size of the
memories, and the width of the address registers of the generic machine.
-/

namespace Sys2Proof.Machine

/-- The invariant of the generic machine, spelt out. -/
theorem GMachine.ok_iff (g : GMachine) : g.ok = true ↔
    (Memory.wf g.mem = true ∧ Memory.below (g.cfg.cell.bytes * 2 ^ g.cfg.aw.bits) g.mem = true) ∧
    (Memory.wf g.io = true ∧ Memory.below (8 * 2 ^ 64) g.io = true) ∧
    (g.addr g.pc = g.pc ∧ g.addr g.sp = g.sp ∧ g.addr g.fp = g.fp) ∧
    g.cfg.dr.fits g.dr = true ∧ g.cfg.ar.fits g.ar = true ∧ g.cfg.br.fits g.br = true ∧
    g.cfg.xr.fits g.xr = true ∧ g.cfg.gpr.fits g.gpr = true ∧ g.cfg.acc.trunc g.acc = g.acc := by
  simp [GMachine.ok, and_assoc]

/-- A register file keeps its count and its width when a register is written. -/
theorem RegKind.fits_set (k : RegKind) (rs : List Quad) (h : k.fits rs = true) (r : Nat) (v : Quad) :
    k.fits (rs.set r (k.width.trunc v)) = true := by
  simp only [RegKind.fits, Bool.and_eq_true, beq_iff_eq, List.all_eq_true, List.length_set] at h ⊢
  refine ⟨h.1, fun x hx => ?_⟩
  rcases List.mem_or_eq_of_mem_set hx with hm | rfl
  · exact h.2 x hm
  · exact Len.trunc_trunc _ _

variable {g : GMachine}

theorem GMachine.ok_setPc (h : g.ok = true) (a : Quad) : (g.setPc a).ok = true := by
  rw [GMachine.ok_iff] at h ⊢
  exact ⟨h.1, h.2.1, ⟨g.addr_addr a, h.2.2.1.2⟩, h.2.2.2⟩

theorem GMachine.ok_psw (h : g.ok = true) (p : Psw) : { g with psw := p }.ok = true := h

theorem GMachine.ok_setFlags (h : g.ok = true) (f : Flags) : (g.setFlags f).ok = true := h

theorem GMachine.ok_sp (h : g.ok = true) (a : Quad) : { g with sp := g.addr a }.ok = true := by
  rw [GMachine.ok_iff] at h ⊢
  exact ⟨h.1, h.2.1, ⟨h.2.2.1.1, g.addr_addr a, h.2.2.1.2.2⟩, h.2.2.2⟩

theorem GMachine.ok_spPush (h : g.ok = true) (m : Nat) : (g.spPush m).ok = true := by
  unfold GMachine.spPush; split <;> exact GMachine.ok_sp h _

theorem GMachine.ok_spPop (h : g.ok = true) (m : Nat) : (g.spPop m).ok = true := by
  unfold GMachine.spPop; split <;> exact GMachine.ok_sp h _

theorem GMachine.ok_writeReg (h : g.ok = true) (r : GReg) (v : Quad) : (g.writeReg r v).ok = true := by
  rw [GMachine.ok_iff] at h ⊢
  obtain ⟨h1, h2, h3, hd, ha, hb, hx, hg, hc⟩ := h
  cases r with
  | dr r => exact ⟨h1, h2, h3, RegKind.fits_set _ _ hd _ _, ha, hb, hx, hg, hc⟩
  | ar r => exact ⟨h1, h2, h3, hd, RegKind.fits_set _ _ ha _ _, hb, hx, hg, hc⟩
  | br r => exact ⟨h1, h2, h3, hd, ha, RegKind.fits_set _ _ hb _ _, hx, hg, hc⟩
  | xr r => exact ⟨h1, h2, h3, hd, ha, hb, RegKind.fits_set _ _ hx _ _, hg, hc⟩
  | gpr r => exact ⟨h1, h2, h3, hd, ha, hb, hx, RegKind.fits_set _ _ hg _ _, hc⟩
  | sp => exact ⟨h1, h2, ⟨h3.1, g.addr_addr v, h3.2.2⟩, hd, ha, hb, hx, hg, hc⟩
  | fp => exact ⟨h1, h2, ⟨h3.1, h3.2.1, g.addr_addr v⟩, hd, ha, hb, hx, hg, hc⟩
  | acc => exact ⟨h1, h2, h3, hd, ha, hb, hx, hg, Len.trunc_trunc _ _⟩

theorem GMachine.ok_writeCell (h : g.ok = true) (a v : Quad) (ha : a.toNat < 2 ^ g.cfg.aw.bits) :
    (g.writeCell a v).ok = true := by
  rw [GMachine.ok_iff] at h ⊢
  refine ⟨⟨Memory.wf_writeSpan _ _ _ _ h.1.1, Memory.below_writeSpan _ _ _ _ _ ?_ h.1.2⟩, h.2⟩
  show g.cfg.cell.bytes * a.toNat + g.cfg.cell.bytes ≤ g.cfg.cell.bytes * 2 ^ g.cfg.aw.bits
  exact (Nat.mul_succ _ _).symm ▸ Nat.mul_le_mul_left g.cfg.cell.bytes ha

theorem GMachine.ok_writePieces (h : g.ok = true) (a : Quad) (m : Nat) (v : Quad) (i : Nat) :
    (g.writePieces a m v i).ok = true := by
  induction i with
  | zero => exact h
  | succ i ih =>
    refine GMachine.ok_writeCell ih _ _ ?_
    have hc : (g.writePieces a m v i).cfg = g.cfg := by rw [g.writePieces_frame]
    rw [hc]
    exact g.addr_lt _

theorem GMachine.ok_writeData (h : g.ok = true) (l : Len) (a v : Quad) :
    (g.writeData l a v).ok = true := GMachine.ok_writePieces h _ _ _ _

theorem GMachine.ok_writePlace (h : g.ok = true) (l : Len) (p : GPlace) (v : Quad) :
    (g.writePlace l p v).ok = true := by
  cases p with
  | reg r => exact GMachine.ok_writeReg h _ _
  | mem a => exact GMachine.ok_writeData h _ _ _
  | lit _ => exact h

theorem GMachine.ok_place (h : g.ok = true) (o : GOperand) : (g.place o).2.ok = true := by
  cases o <;> first | exact h | exact GMachine.ok_writeReg h _ _

theorem GMachine.ok_writeOperand (h : g.ok = true) (l : Len) (o : GOperand) (v : Quad) :
    (g.writeOperand l o v).ok = true := GMachine.ok_writePlace (GMachine.ok_place h o) _ _ _

theorem GMachine.ok_push (h : g.ok = true) (l : Len) (v : Quad) : (g.push l v).ok = true :=
  GMachine.ok_writeData (GMachine.ok_spPush h _) _ _ _

theorem GMachine.ok_pop (h : g.ok = true) (l : Len) : (g.pop l).2.ok = true :=
  GMachine.ok_spPop h _

theorem GMachine.ok_popReg (h : g.ok = true) (r : GReg) : (g.popReg r).ok = true :=
  GMachine.ok_writeReg (GMachine.ok_pop h _) _ _

theorem GMachine.ok_foldl (f : GMachine → GReg → GMachine)
    (hf : ∀ g : GMachine, g.ok = true → ∀ r, (f g r).ok = true) (rs : List GReg) (g : GMachine)
    (h : g.ok = true) : (rs.foldl f g).ok = true := by
  induction rs generalizing g with
  | nil => exact h
  | cons r rs ih => exact ih _ (hf g h r)

theorem GMachine.ok_pushFrame (h : g.ok = true) : g.pushFrame.ok = true := by
  have h1 := GMachine.ok_push (GMachine.ok_push h g.cfg.aw g.pc) .l16 g.psw.quad
  unfold GMachine.pushFrame
  dsimp only
  split
  · exact GMachine.ok_foldl _ (fun g h r => GMachine.ok_push h _ _) _ _ h1
  · exact h1

/-- A stored or popped address is an address. -/
theorem GMachine.addr_readData (g : GMachine) (a : Quad) :
    g.addr (g.readData g.cfg.aw a) = g.readData g.cfg.aw a := Len.trunc_trunc _ _

theorem GMachine.ok_takeInterrupt (h : g.ok = true) (e : Quad) : (g.takeInterrupt e).ok = true := by
  have h1 := GMachine.ok_setPc (GMachine.ok_pushFrame h) (g.pushFrame.vector e)
  rw [GMachine.setPc, GMachine.vector, GMachine.addr_readData] at h1
  exact h1

theorem GMachine.ok_takeInterruptAt (h : g.ok = true) (a : Quad) : (g.takeInterruptAt a).ok = true :=
  GMachine.ok_setPc (GMachine.ok_pushFrame h) a

theorem GMachine.ok_returnFromInterrupt (h : g.ok = true) : g.returnFromInterrupt.ok = true := by
  have h1 : (if g.cfg.saveAll then g.cfg.saved.reverse.foldl GMachine.popReg g else g).ok =
      true := by
    split
    · exact GMachine.ok_foldl _ (fun g h r => GMachine.ok_popReg h r) _ _ h
    · exact h
  unfold GMachine.returnFromInterrupt
  generalize (if g.cfg.saveAll then g.cfg.saved.reverse.foldl GMachine.popReg g else g) = x at h1
  have h2 := GMachine.ok_pop h1 .l16
  have h3 := GMachine.ok_pop h2 (x.pop .l16).2.cfg.aw
  have h4 := GMachine.ok_setPc h3 ((x.pop .l16).2.pop (x.pop .l16).2.cfg.aw).1
  have hc : ((x.pop .l16).2.pop (x.pop .l16).2.cfg.aw).2.cfg = (x.pop .l16).2.cfg := by
    rw [GMachine.pop_frame]
  have he : ((x.pop .l16).2.pop (x.pop .l16).2.cfg.aw).2.addr
      ((x.pop .l16).2.pop (x.pop .l16).2.cfg.aw).1 =
      ((x.pop .l16).2.pop (x.pop .l16).2.cfg.aw).1 := by
    rw [GMachine.addr, hc]; exact Len.trunc_trunc _ _
  rw [GMachine.setPc, he] at h4
  exact h4

/-- A checked instruction keeps the invariant if its effect does. -/
theorem GMachine.ok_checked (h : g.ok = true) (srcs dsts : List GOperand)
    (k : GMachine → GMachine) (hk : (k g).ok = true) : (g.checked srcs dsts k).ok = true := by
  unfold GMachine.checked
  split
  · exact hk
  · exact GMachine.ok_takeInterrupt h _

variable {s : State}

/-- The invariant of the machine, spelt out. -/
theorem State.ok_iff (s : State) : s.ok = true ↔
    Memory.wf s.mem = true ∧ Memory.below (2 ^ 16) s.mem = true ∧ s.prins = false ∧
    s.prcod = false ∧ s.pradr = false ∧ s.g.ok = true := by
  simp [State.ok, State.boundary, and_assoc]

theorem State.ok_writeByte (h : s.ok = true) (a : Word) (v : Byte) : (s.writeByte a v).ok = true := by
  rw [State.ok_iff] at h ⊢
  rw [State.writeByte_mem]
  split
  · exact h
  · exact ⟨Memory.wf_write _ _ _ h.1, Memory.below_write _ _ _ _ a.isLt h.2.1, h.2.2⟩

theorem State.ok_writeWord (h : s.ok = true) (a v : Word) : (s.writeWord a v).ok = true :=
  State.ok_writeByte (State.ok_writeByte h _ _) _ _

theorem State.ok_setReg (h : s.ok = true) (r : RegNo) (v : Word) : (s.setReg r v).ok = true := h

theorem State.ok_place {w : Nat} (h : s.ok = true) (o : Operand w) : (s.place o).2.ok = true := by
  rw [State.place_frame]; exact h

theorem State.ok_readPlace8 (h : s.ok = true) (p : Place 8) : (s.readPlace8 p).2.ok = true := by
  rw [State.readPlace8_frame]; exact h

theorem State.ok_readPlace16 (h : s.ok = true) (p : Place 16) : (s.readPlace16 p).2.ok = true := by
  rw [State.readPlace16_frame]; exact h

theorem State.ok_writePlace8 (h : s.ok = true) (p : Place 8) (v : Byte) :
    (s.writePlace8 p v).ok = true := by
  cases p with
  | reg r => exact h
  | mem ea => exact State.ok_writeByte h _ _
  | lit _ => exact h

theorem State.ok_writePlace16 (h : s.ok = true) (p : Place 16) (v : Word) :
    (s.writePlace16 p v).ok = true := by
  cases p with
  | reg r => exact h
  | mem ea => exact State.ok_writeWord h _ _
  | lit _ => exact h

theorem State.ok_push8 (h : s.ok = true) (b : Byte) : (s.push8 b).ok = true :=
  State.ok_writeByte (s := { s with sp := s.sp + 1 }) h _ _

theorem State.ok_push16 (h : s.ok = true) (v : Word) : (s.push16 v).ok = true :=
  State.ok_push8 (State.ok_push8 h _) _

theorem State.ok_returnFromInterrupt (h : s.ok = true) : s.returnFromInterrupt.ok = true := by
  rw [State.ok_iff] at h ⊢
  exact h

/-- Memory stays canonical through an entry to an interrupt routine. -/
theorem State.takeInterrupt_mem (s : State) (nn : Byte) :
    (s.takeInterrupt nn).mem = s.pushedFrame.mem ∧ (s.takeInterrupt nn).g = s.g := by
  rw [State.takeInterrupt_eq]
  have hf := s.pushedFrame.acceptRequest_frame nn
  constructor
  · show (s.pushedFrame.acceptRequest nn).2.mem = _
    exact hf.2.2.2.2.2.2.2.1
  · show (s.pushedFrame.acceptRequest nn).2.g = _
    rw [hf.2.2.2.2.2.2.2.2.2.2.2.2.2.2.1, State.pushedFrame_eq]

/-- An entry with at most one internal request leaves none. -/
theorem State.ok_takeInterrupt (nn : Byte) (hm : s.mem.wf = true)
    (hb : Memory.below (2 ^ 16) s.mem = true) (hg : s.g.ok = true)
    (h1 : s.prins = true → s.prcod = false ∧ s.pradr = false)
    (h2 : s.prcod = true → s.pradr = false) : (s.takeInterrupt nn).ok = true := by
  have hw : ∀ x : State, Memory.wf x.mem = true → ∀ b, Memory.wf (x.push8 b).mem = true :=
    fun x h b => by
      rw [State.push8_mem, State.writeByte_mem]
      split
      · exact h
      · exact Memory.wf_write _ _ _ h
  have hbl : ∀ x : State, Memory.below (2 ^ 16) x.mem = true → ∀ b,
      Memory.below (2 ^ 16) (x.push8 b).mem = true :=
    fun x h b => by
      rw [State.push8_mem, State.writeByte_mem]
      split
      · exact h
      · exact Memory.below_write _ _ _ _ (x.sp + 1).isLt h
  rw [State.ok_iff, (s.takeInterrupt_mem nn).1, (s.takeInterrupt_mem nn).2]
  refine ⟨hw _ (hw _ (hw _ (hw _ hm _) _) _) _, hbl _ (hbl _ (hbl _ (hbl _ hb _) _) _) _, ?_⟩
  rw [State.takeInterrupt_eq, State.acceptRequest_state, s.pushedFrame_eq]
  dsimp only
  cases hi : s.prins <;> cases hc : s.prcod <;> cases ha : s.pradr <;> simp_all
  all_goals
    try split
    all_goals try split
    all_goals simp_all

end Sys2Proof.Machine
end

