-- ==== Sys2Proof/Laws/Strings.lean ====
section
/-!
SUPPORT. The laws of the string group: what an update of a string's locations does, and that the terms
claims use depend on the configuration and the register files only, which no update changes.
-/

namespace Sys2Proof.Machine

variable (g : GMachine) (l : Len) (w : StringPlace)

/-- A sum of addresses, cut before or after the addition. -/
theorem GMachine.addr_add (a b : Quad) : g.addr (g.addr a + b) = g.addr (a + b) := by
  apply BitVec.eq_of_toNat_eq
  simp only [GMachine.addr, Len.toNat_trunc, BitVec.toNat_add]
  have hb : 2 ^ g.cfg.aw.bits ∣ 2 ^ 64 := Nat.pow_dvd_pow 2 g.cfg.aw.bits_le
  rw [Nat.mod_mod_of_dvd _ hb, Nat.mod_mod_of_dvd _ hb, Nat.add_mod, Nat.mod_mod, ← Nat.add_mod]

/-- The next character's address is one further. -/
theorem GMachine.addr_succ (a : Quad) (k : Nat) :
    g.addr (g.addr (a + 1) + BitVec.ofNat 64 k) = g.addr (a + BitVec.ofNat 64 (k + 1)) := by
  rw [GMachine.addr_add, BitVec.add_assoc, Nat.add_comm k 1, BitVec.ofNat_add]
  rfl

namespace GMachine.SameShape

variable {g h : GMachine}

theorem refl : g.SameShape g := ⟨rfl, fun _ => Iff.rfl⟩

theorem addr (s : g.SameShape h) (a : Quad) : h.addr a = g.addr a := by
  simp only [GMachine.addr, s.1]

theorem span (s : g.SameShape h) (l : Len) : h.span l = g.span l := by
  simp only [GMachine.span, s.1]

theorem disjoint (s : g.SameShape h) (l : Len) (a : Quad) (k : Len) (b : Quad) :
    h.Disjoint l a k b ↔ g.Disjoint l a k b := by
  simp only [GMachine.Disjoint, s.addr, s.span]

theorem fits (s : g.SameShape h) (l : Len) : h.fits l ↔ g.fits l := by
  simp only [GMachine.fits, s.span, s.1]

theorem holds (s : g.SameShape h) (l : Len) (p : GPlace) : h.Holds l p ↔ g.Holds l p := by
  cases p <;> simp only [GMachine.Holds, s.fits, s.1, s.2]

theorem apart (s : g.SameShape h) (l : Len) (p : GPlace) (k : Len) (q : GPlace) :
    h.Apart l p k q ↔ g.Apart l p k q := by
  simp only [GMachine.Apart, s.disjoint]

theorem holdsString (s : g.SameShape h) (l : Len) (w : StringPlace) :
    h.HoldsString l w ↔ g.HoldsString l w := by
  simp only [GMachine.HoldsString, s.apart, s.holds, s.1]

theorem apartStrings (s : g.SameShape h) (l : Len) (u v : StringPlace) :
    h.ApartStrings l u v ↔ g.ApartStrings l u v := by
  simp only [GMachine.ApartStrings, s.apart, s.1]

theorem apartChar (s : g.SameShape h) (l : Len) (w : StringPlace) (a : Quad) :
    h.ApartChar l w a ↔ g.ApartChar l w a := by
  simp only [GMachine.ApartChar, s.apart, s.addr, s.1]

theorem otherChar (s : g.SameShape h) (a b : Quad) : h.OtherChar a b ↔ g.OtherChar a b := by
  simp only [GMachine.OtherChar, s.disjoint, s.addr]

theorem describes_succ (st : g.SameShape h) {l : Len} {w : StringPlace}
    {m k : Nat} {a : Quad} (hd : h.Describes l w m (g.addr (a + 1) + BitVec.ofNat 64 k)) :
    h.Describes l w m (a + BitVec.ofNat 64 (k + 1)) :=
  ⟨hd.1, hd.2.trans (by rw [st.addr, st.addr, GMachine.addr_succ])⟩

/-- The rest of a string is apart from the locations if the string is. -/
theorem clearOf_succ (s : g.SameShape h) {l : Len} {w : StringPlace} {a : Quad} {n : Nat}
    (hc : g.ClearOf l w a (n + 1)) : h.ClearOf l w (g.addr (a + 1)) n := by
  intro k hk
  have := hc (k + 1) (by omega)
  rw [s.apartChar]
  unfold GMachine.ApartChar at this ⊢
  rwa [GMachine.addr_succ]

theorem clearOf (s : g.SameShape h) {l : Len} {w : StringPlace} {a : Quad} {n : Nat}
    (hc : g.ClearOf l w a n) : h.ClearOf l w a n := fun k hk => (s.apartChar _ _ _).2 (hc k hk)

/-- One address names one character. -/
theorem readChar_congr (s : g.SameShape h) {a b : Quad} (e : g.addr a = g.addr b) :
    h.readChar a = h.readChar b := by
  unfold GMachine.readChar
  rw [s.addr, s.addr, e]

end GMachine.SameShape

/-- Disjointness of data is symmetric. -/
theorem GMachine.Disjoint.symm {g : GMachine} {l k : Len} {a b : Quad} (h : g.Disjoint l a k b) :
    g.Disjoint k b l a := fun i hi j hj e => h j hj i hi e.symm

/-- Being apart is symmetric. -/
theorem GMachine.Apart.symm {g : GMachine} {l k : Len} {p q : GPlace} (h : g.Apart l p k q) :
    g.Apart k q l p :=
  ⟨fun r e1 e2 => h.1 r e2 e1, fun a b e1 e2 => (h.2 b a e2 e1).symm⟩

/-- A write apart from the locations of a string leaves the string they describe. -/
theorem GMachine.strand_writePlace (k : Len) (p : GPlace) (v : Quad) (h1 : g.Apart k p l w.len)
    (h2 : g.Apart k p g.cfg.aw w.addr) : (g.writePlace k p v).strand l w = g.strand l w := by
  simp only [GMachine.strand, (g.sameShape_writePlace k p v).1,
    GMachine.readPlace_writePlace_other _ _ _ _ _ _ h1, GMachine.readPlace_writePlace_other _ _ _ _ _ _ h2]

theorem GMachine.sameShape_bumpAddr : g.SameShape (g.bumpAddr w) := g.sameShape_writePlace _ _ _

theorem GMachine.sameShape_dropLen : g.SameShape (g.dropLen l w) := g.sameShape_writePlace _ _ _

theorem GMachine.sameShape_stepString : g.SameShape (g.stepString l w) :=
  (g.sameShape_bumpAddr w).trans (GMachine.sameShape_dropLen _ _ _)

theorem GMachine.sameShape_stepIfAny : g.SameShape (g.stepIfAny l w) := by
  unfold GMachine.stepIfAny
  split
  · exact .refl
  · exact g.sameShape_stepString l w

/-- A stored character keeps the shape. -/
theorem GMachine.sameShape_writeChar (a c : Quad) : g.SameShape (g.writeChar a c) :=
  g.sameShape_writePlace .l8 (.mem (g.addr a)) c

/-- A character apart from the locations of a string leaves the string they describe. -/
theorem GMachine.strand_writeChar (a c : Quad) (h : g.ApartChar l w a) :
    (g.writeChar a c).strand l w = g.strand l w :=
  g.strand_writePlace l w .l8 (.mem (g.addr a)) c h.1.symm h.2.symm

/-- The increment of the address of a string. -/
theorem GMachine.strand_bumpAddr (h : g.HoldsString l w) : (g.bumpAddr w).strand l w =
    { len := (g.strand l w).len, addr := g.addr ((g.strand l w).addr + 1) } := by
  simp only [GMachine.strand, (g.sameShape_bumpAddr w).1, Strand.mk.injEq]
  exact ⟨g.readPlace_writePlace_other _ _ _ _ _ h.2.2, g.readPlace_writePlace_same _ _ _ h.2.1⟩

/-- The decrement of the length of a string. -/
theorem GMachine.strand_dropLen (h : g.HoldsString l w) : (g.dropLen l w).strand l w =
    { len := l.trunc ((g.strand l w).len - 1), addr := (g.strand l w).addr } := by
  simp only [GMachine.strand, (g.sameShape_dropLen l w).1, Strand.mk.injEq]
  exact ⟨g.readPlace_writePlace_same _ _ _ h.1, g.readPlace_writePlace_other _ _ _ _ _ h.2.2.symm⟩

/-- A length has the bits of its length. -/
theorem GMachine.strand_len_lt : (g.strand l w).len.toNat < 2 ^ l.bits := by
  unfold GMachine.strand
  cases w.len <;> exact Len.toNat_trunc_lt _ _

/-- A length that is not 0, one less. -/
theorem GMachine.toNat_len_pred (hz : (g.strand l w).len ≠ 0) :
    (l.trunc ((g.strand l w).len - 1)).toNat = (g.strand l w).len.toNat - 1 := by
  have hlt := g.strand_len_lt l w
  have hne : (g.strand l w).len.toNat ≠ 0 := fun h => hz (BitVec.eq_of_toNat_eq h)
  have h1 : (1 : Quad) ≤ (g.strand l w).len := Nat.one_le_iff_ne_zero.2 hne
  rw [Len.toNat_trunc, BitVec.toNat_sub_of_le h1]
  exact Nat.mod_eq_of_lt (Nat.lt_of_le_of_lt (Nat.sub_le _ _) hlt)

/-- The locations of a string moved past one character hold what is left of it. -/
theorem GMachine.strand_stepString (h : g.HoldsString l w) : (g.stepString l w).strand l w =
    { len := l.trunc ((g.strand l w).len - 1), addr := g.addr ((g.strand l w).addr + 1) } := by
  rw [GMachine.stepString, GMachine.strand_dropLen _ _ _ (((g.sameShape_bumpAddr w).holdsString l w).2 h),
    g.strand_bumpAddr l w h]

/-- Moving the locations of a string leaves every place apart from them. -/
theorem GMachine.readPlace_stepString (k : Len) (q : GPlace) (h1 : g.Apart g.cfg.aw w.addr k q)
    (h2 : g.Apart l w.len k q) : (g.stepString l w).readPlace k q = g.readPlace k q := by
  rw [GMachine.stepString, GMachine.dropLen, GMachine.readPlace_writePlace_other _ _ _ _ _ _
    (((g.sameShape_bumpAddr w).apart _ _ _ _).2 h2)]
  exact g.readPlace_writePlace_other _ _ _ _ _ h1

/-- Moving the locations of a string leaves a string whose locations are apart from them. -/
theorem GMachine.strand_stepString_other (v : StringPlace) (h : g.ApartStrings l w v) :
    (g.stepString l w).strand l v = g.strand l v := by
  simp only [GMachine.strand, (g.sameShape_stepString l w).1,
    g.readPlace_stepString l w _ _ h.2.2.1 h.1, g.readPlace_stepString l w _ _ h.2.2.2 h.2.1]

/-- Moving the locations of a string leaves every character apart from them. -/
theorem GMachine.readChar_stepString (a : Quad) (h : g.ApartChar l w a) :
    (g.stepString l w).readChar a = g.readChar a := by
  have := g.readPlace_stepString l w .l8 (.mem (g.addr a)) h.2 h.1
  rw [GMachine.readChar, (g.sameShape_stepString l w).addr]
  exact this

theorem GMachine.readChar_stepIfAny (a : Quad) (h : g.ApartChar l w a) :
    (g.stepIfAny l w).readChar a = g.readChar a := by
  unfold GMachine.stepIfAny
  split
  · rfl
  · exact g.readChar_stepString l w a h

/-- Being apart is symmetric. -/
theorem GMachine.ApartStrings.symm {g : GMachine} {l : Len} {u v : StringPlace}
    (h : g.ApartStrings l u v) : g.ApartStrings l v u :=
  ⟨h.1.symm, h.2.2.1.symm, h.2.1.symm, h.2.2.2.symm⟩

end Sys2Proof.Machine
end

