-- ==== Sys2Proof/Laws/Loops.lean ====
section
/-!
SUPPORT. The loop of the string instructions: `GMachine.loop` answers what the loop ends with, however many
turns that takes, and none only for a loop that never ends.
-/

namespace Sys2Proof.Machine

variable {α : Type} (turn : GMachine → Turn α)

/-- What `n` turns of a loop come to. -/
def GMachine.after : Nat → GMachine → Turn α
  | 0, g => .goesOn g
  | n + 1, g =>
    match turn g with
    | .ended r => .ended r
    | .goesOn h => GMachine.after n h

/-- The result of a loop that has ended. -/
def Turn.result : Turn α → Option α
  | .ended r => some r
  | .goesOn _ => none

theorem GMachine.after_add (m n : Nat) (g : GMachine) : GMachine.after turn (m + n) g =
    match GMachine.after turn m g with
    | .ended r => .ended r
    | .goesOn h => GMachine.after turn n h := by
  induction m generalizing g with
  | zero => rw [Nat.zero_add]; rfl
  | succ m ih =>
    rw [Nat.succ_add]
    simp only [GMachine.after]
    cases turn g with
    | ended r => rfl
    | goesOn h => exact ih h

/-- A loop that has ended stays so. -/
theorem GMachine.after_mono {m n : Nat} (h : m ≤ n) {g : GMachine} {r : α}
    (he : GMachine.after turn m g = .ended r) : GMachine.after turn n g = .ended r := by
  rw [← Nat.add_sub_cancel' h, GMachine.after_add, he]

theorem GMachine.turns_eq (k : Nat) (next : GMachine → Option α) (g : GMachine) :
    GMachine.turns turn k next g =
      match GMachine.after turn (2 ^ k) g with
      | .ended r => some r
      | .goesOn h => next h := by
  induction k generalizing next g with
  | zero =>
    simp only [GMachine.turns, pow_zero, GMachine.after]
    cases turn g <;> rfl
  | succ k ih =>
    rw [GMachine.turns, ih, pow_succ, Nat.mul_two, GMachine.after_add]
    cases GMachine.after turn (2 ^ k) g with
    | ended r => rfl
    | goesOn h => exact ih next h

theorem GMachine.follow_eq (n k : Nat) (g : GMachine) :
    GMachine.follow turn n k g = (GMachine.after turn (2 ^ k * (2 ^ n - 1)) g).result := by
  induction n generalizing k g with
  | zero => rfl
  | succ n ih =>
    have hp : 2 ^ k * (2 ^ (n + 1) - 1) = 2 ^ k + 2 ^ (k + 1) * (2 ^ n - 1) := by
      obtain ⟨a, ha⟩ : ∃ a, 2 ^ n = a + 1 := ⟨2 ^ n - 1, by have := Nat.one_le_two_pow (n := n); omega⟩
      rw [pow_succ 2 n, pow_succ 2 k, ha]
      simp only [Nat.add_sub_cancel]
      rw [show (a + 1) * 2 - 1 = 1 + 2 * a by omega]; ring
    rw [GMachine.follow, GMachine.turns_eq, hp, GMachine.after_add]
    cases GMachine.after turn (2 ^ k) g with
    | ended r => rfl
    | goesOn h => exact ih _ h

/-- The loop is followed for `2 ^ (bits + 1) - 1` turns. -/
theorem GMachine.loop_eq (g : GMachine) :
    g.loop turn = (GMachine.after turn (2 ^ (g.bits + 1) - 1) g).result := by
  rw [GMachine.loop, GMachine.follow_eq, pow_zero, Nat.one_mul]

/-- A loop that ends in less than 2^192 turns is answered. -/
theorem GMachine.loop_of_after {n : Nat} {g : GMachine} {r : α} (hn : n < 2 ^ 192)
    (he : GMachine.after turn n g = .ended r) : g.loop turn = some r := by
  have hb : 192 ≤ g.bits + 1 := by unfold GMachine.bits; omega
  have := Nat.pow_le_pow_right (n := 2) (by omega) hb
  rw [GMachine.loop_eq, GMachine.after_mono turn (by omega) he]; rfl

/-- What a loop answers is what it ends with. -/
theorem GMachine.after_of_loop {g : GMachine} {r : α} (h : g.loop turn = some r) :
    ∃ n, GMachine.after turn n g = .ended r := by
  obtain ⟨n, hn⟩ : ∃ n, g.loop turn = (GMachine.after turn n g).result := ⟨_, GMachine.loop_eq turn g⟩
  refine ⟨n, ?_⟩
  rw [hn] at h
  cases he : GMachine.after turn n g with
  | ended x => rw [he] at h; cases h; rfl
  | goesOn x => rw [he] at h; cases h

/-- A loop whose turn changes nothing is not answered. -/
theorem GMachine.loop_of_fixed {g : GMachine} (h : turn g = .goesOn g) : g.loop turn = none := by
  have : ∀ n, GMachine.after turn n g = .goesOn g := fun n => by
    induction n with
    | zero => rfl
    | succ n ih => simp only [GMachine.after, h, ih]
  rw [GMachine.loop_eq, this]; rfl

/-! ## A loop that is not answered never ends -/

/-- A machine made from another that kept its invariant and all but memory and registers. -/
def GMachine.Keeps (g h : GMachine) : Prop := (g.ok = true → h.ok = true) ∧ SameGeneric g h

namespace GMachine.Keeps

variable {g h k : GMachine}

theorem refl : g.Keeps g := ⟨id, rfl, rfl, rfl, rfl, rfl⟩

theorem trans (a : g.Keeps h) (b : h.Keeps k) : g.Keeps k :=
  ⟨b.1 ∘ a.1, b.2.1.trans a.2.1, b.2.2.1.trans a.2.2.1, b.2.2.2.1.trans a.2.2.2.1,
    b.2.2.2.2.1.trans a.2.2.2.2.1, b.2.2.2.2.2.trans a.2.2.2.2.2⟩

theorem writePlace (g : GMachine) (l : Len) (p : GPlace) (v : Quad) : g.Keeps (g.writePlace l p v) := by
  refine ⟨fun h => GMachine.ok_writePlace h l p v, ?_⟩
  cases p with
  | reg r =>
    obtain ⟨h1, h2, h3, h4, -, h6⟩ := g.writeReg_frame r (l.merge (g.readReg r) v)
    exact ⟨h1, h2, h3, h4, h6⟩
  | mem a => show SameGeneric g (g.writeData l a v); rw [g.writeData_frame]; exact ⟨rfl, rfl, rfl, rfl, rfl⟩
  | lit _ => exact ⟨rfl, rfl, rfl, rfl, rfl⟩

theorem writeChar (g : GMachine) (a c : Quad) : g.Keeps (g.writeChar a c) :=
  writePlace g .l8 (.mem (g.addr a)) c

theorem bumpAddr (g : GMachine) (w : StringPlace) : g.Keeps (g.bumpAddr w) := writePlace _ _ _ _

theorem dropLen (g : GMachine) (l : Len) (w : StringPlace) : g.Keeps (g.dropLen l w) :=
  writePlace _ _ _ _

theorem stepString (g : GMachine) (l : Len) (w : StringPlace) : g.Keeps (g.stepString l w) :=
  (bumpAddr g w).trans (dropLen _ l w)

theorem stepIfAny (g : GMachine) (l : Len) (w : StringPlace) : g.Keeps (g.stepIfAny l w) := by
  unfold GMachine.stepIfAny
  split
  · exact refl
  · exact stepString g l w

/-- The turns of the string instructions change memory and registers only. -/
theorem copyTurn (l : Len) (u v : StringPlace) (tr : GMachine → Quad → Quad) (x y : GMachine)
    (h : GMachine.copyTurn l u v tr x = .goesOn y) : x.Keeps y := by
  unfold GMachine.copyTurn at h
  dsimp only at h
  split at h
  · cases h
  · cases h
    exact ((((writeChar x _ _).trans (bumpAddr _ u)).trans (bumpAddr _ v)).trans (dropLen _ l u)).trans
      (dropLen _ l v)

theorem fillTurn (l : Len) (v : StringPlace) (fill : Quad) (x y : GMachine)
    (h : GMachine.fillTurn l v fill x = .goesOn y) : x.Keeps y := by
  unfold GMachine.fillTurn at h
  dsimp only at h
  split at h
  · cases h
  · cases h; exact (writeChar x _ _).trans (stepString _ l v)

theorem compareTurn (l : Len) (u v : StringPlace) (fill : Quad) (x y : GMachine)
    (h : GMachine.compareTurn l u v fill x = .goesOn y) : x.Keeps y := by
  unfold GMachine.compareTurn at h
  dsimp only at h
  split at h
  · cases h
  · split at h
    · cases h; exact (stepIfAny x l u).trans (stepIfAny _ l v)
    · cases h

theorem scanTurn (l : Len) (w : StringPlace) (stop : Quad → Bool) (x y : GMachine)
    (h : GMachine.scanTurn l w stop x = .goesOn y) : x.Keeps y := by
  unfold GMachine.scanTurn at h
  dsimp only at h
  repeat' split at h
  all_goals cases h
  exact stepString x l w

theorem matchTurn (l : Len) (u v : StringPlace) (x y : GMachine)
    (h : GMachine.matchTurn l u v x = .goesOn y) : x.Keeps y := by
  unfold GMachine.matchTurn at h
  dsimp only at h
  repeat' split at h
  all_goals cases h
  exact stepString x l u

end GMachine.Keeps

/-- The registers an operand names. -/
def GMachine.registers (g : GMachine) : List Quad :=
  g.dr ++ g.ar ++ g.br ++ g.xr ++ g.gpr ++ [g.sp, g.fp, g.acc]

/-- Two machines that differ in memory and registers at most, and have equal ones, are equal. -/
theorem GMachine.eq_of_registers {g h : GMachine} (hg : g.ok = true) (hh : h.ok = true)
    (hs : SameGeneric g h)
    (hm : ∀ a < g.cfg.cell.bytes * 2 ^ g.cfg.aw.bits, h.mem.read a = g.mem.read a)
    (hr : h.registers = g.registers) : h = g := by
  rw [GMachine.ok_iff] at hg hh
  obtain ⟨hc, hp, hpc, hv, hio⟩ := hs
  obtain ⟨⟨w1, b1⟩, -, -, f1⟩ := hg
  obtain ⟨⟨w2, b2⟩, -, -, f2⟩ := hh
  have hmem : h.mem = g.mem := by
    refine Memory.ext_of_wf _ _ w2 w1 fun a => ?_
    by_cases ha : a < g.cfg.cell.bytes * 2 ^ g.cfg.aw.bits
    · exact hm a ha
    · rw [Memory.read_above b1 (by omega), Memory.read_above (hc ▸ b2) (by omega)]
  simp only [RegKind.fits, Bool.and_eq_true, beq_iff_eq] at f1 f2
  rw [hc] at f2
  obtain ⟨⟨l1, -⟩, ⟨l2, -⟩, ⟨l3, -⟩, ⟨l4, -⟩, ⟨l5, -⟩, -⟩ := f1
  obtain ⟨⟨k1, -⟩, ⟨k2, -⟩, ⟨k3, -⟩, ⟨k4, -⟩, ⟨k5, -⟩, -⟩ := f2
  unfold GMachine.registers at hr
  obtain ⟨hr, e6⟩ := List.append_inj hr (by simp [l1, l2, l3, l4, l5, k1, k2, k3, k4, k5])
  obtain ⟨hr, e5⟩ := List.append_inj hr (by simp [l1, l2, l3, l4, k1, k2, k3, k4])
  obtain ⟨hr, e4⟩ := List.append_inj hr (by simp [l1, l2, l3, k1, k2, k3])
  obtain ⟨hr, e3⟩ := List.append_inj hr (by simp [l1, l2, k1, k2])
  obtain ⟨e1, e2⟩ := List.append_inj hr (by simp [l1, k1])
  cases g; cases h
  simp_all

/-- The machine that a turn goes on from. -/
def GMachine.afterTurn (g : GMachine) : GMachine :=
  match turn g with
  | .ended _ => g
  | .goesOn h => h

/-- The machines a loop runs through. -/
def GMachine.trace (g : GMachine) (k : Nat) : GMachine := (GMachine.afterTurn turn)^[k] g

theorem GMachine.trace_succ (g : GMachine) (k : Nat) :
    GMachine.trace turn g (k + 1) = GMachine.afterTurn turn (GMachine.trace turn g k) :=
  Function.iterate_succ_apply' _ _ _

/-- Before a loop has ended every turn goes on. -/
theorem GMachine.turn_trace {n : Nat} {g h : GMachine} (hn : GMachine.after turn n g = .goesOn h)
    {k : Nat} (hk : k < n) :
    turn (GMachine.trace turn g k) = .goesOn (GMachine.trace turn g (k + 1)) := by
  induction n generalizing g k with
  | zero => omega
  | succ n ih =>
    simp only [GMachine.after] at hn
    cases ht : turn g with
    | ended r => rw [ht] at hn; cases hn
    | goesOn x =>
      rw [ht] at hn
      have hx : GMachine.afterTurn turn g = x := by simp only [GMachine.afterTurn, ht]
      cases k with
      | zero => rw [GMachine.trace_succ]; exact ht.trans (congrArg _ hx.symm)
      | succ k =>
        have := ih hn (k := k) (by omega)
        simp only [GMachine.trace, Function.iterate_succ_apply] at this ⊢
        rwa [hx]

/-- A loop that is not answered never ends: within `2 ^ (bits + 1) - 1` turns it has come back to a machine
it has been at. `turn` is one that changes memory and registers only. -/
theorem GMachine.neverEnds_of_loop {g : GMachine} (hg : g.ok = true)
    (hk : ∀ x y : GMachine, turn x = .goesOn y → x.Keeps y)
    (hn : g.loop turn = none) : g.NeverEnds turn := by
  obtain ⟨h, he⟩ : ∃ h, GMachine.after turn (2 ^ (g.bits + 1) - 1) g = .goesOn h := by
    rw [GMachine.loop_eq] at hn
    cases hc : GMachine.after turn (2 ^ (g.bits + 1) - 1) g with
    | ended r => rw [hc] at hn; cases hn
    | goesOn h => exact ⟨h, rfl⟩
  have hpos : 2 ^ g.bits < 2 ^ (g.bits + 1) := Nat.pow_lt_pow_succ (by omega)
  generalize hN : 2 ^ (g.bits + 1) - 1 = N at he
  have hstep := fun {k} (hkN : k < N) => GMachine.turn_trace turn he hkN
  have hinv : ∀ k ≤ N, (GMachine.trace turn g k).ok = true ∧ SameGeneric g (GMachine.trace turn g k) := by
    intro k
    induction k with
    | zero => exact fun _ => ⟨hg, rfl, rfl, rfl, rfl, rfl⟩
    | succ k ih =>
      intro hkN
      obtain ⟨h1, a1, a2, a3, a4, a5⟩ := ih (by omega)
      obtain ⟨h2, b1, b2, b3, b4, b5⟩ := hk _ _ (hstep (k := k) (by omega))
      exact ⟨h2 h1, b1.trans a1, b2.trans a2, b3.trans a3, b4.trans a4, b5.trans a5⟩
  -- two of the machines are the same
  obtain ⟨i, j, hij, hjN, heq⟩ : ∃ i j, i < j ∧ j ≤ N ∧
      GMachine.trace turn g i = GMachine.trace turn g j := by
    let B := g.cfg.cell.bytes * 2 ^ g.cfg.aw.bits
    let R := g.dr.length + g.ar.length + g.br.length + g.xr.length + g.gpr.length + 3
    let code : Fin (N + 1) → (Fin B → Fin (2 ^ 8)) × (Fin R → Fin (2 ^ 64)) := fun k =>
      (fun a => ((GMachine.trace turn g k).mem.read a).toFin,
        fun r => ((GMachine.trace turn g k).registers.getD r 0).toFin)
    have hcard : Fintype.card ((Fin B → Fin (2 ^ 8)) × (Fin R → Fin (2 ^ 64))) <
        Fintype.card (Fin (N + 1)) := by
      simp only [Fintype.card_prod, Fintype.card_fun, Fintype.card_fin]
      rw [← Nat.pow_mul, ← Nat.pow_mul, ← Nat.pow_add]
      show 2 ^ g.bits < N + 1
      omega
    obtain ⟨x, y, hxy, hc⟩ := Fintype.exists_ne_map_eq_of_card_lt code hcard
    have hsame : GMachine.trace turn g x = GMachine.trace turn g y := by
      obtain ⟨o1, s1⟩ := hinv x (by omega)
      obtain ⟨o2, s2⟩ := hinv y (by omega)
      have hlen : ∀ k ≤ N, (GMachine.trace turn g k).registers.length = R := by
        intro k hkN
        obtain ⟨o, sg⟩ := hinv k hkN
        rw [GMachine.ok_iff] at o hg
        obtain ⟨-, -, -, f⟩ := o
        obtain ⟨-, -, -, f0⟩ := hg
        simp only [RegKind.fits, Bool.and_eq_true, beq_iff_eq, sg.1] at f f0
        simp only [GMachine.registers, List.length_append, f.1.1, f.2.1.1, f.2.2.1.1, f.2.2.2.1.1,
          f.2.2.2.2.1.1, R, f0.1.1, f0.2.1.1, f0.2.2.1.1, f0.2.2.2.1.1, f0.2.2.2.2.1.1]
        rfl
      have l1 := hlen x (by omega)
      have l2 := hlen y (by omega)
      have hgen : SameGeneric (GMachine.trace turn g y) (GMachine.trace turn g x) :=
        ⟨s1.1.trans s2.1.symm, s1.2.1.trans s2.2.1.symm, s1.2.2.1.trans s2.2.2.1.symm,
          s1.2.2.2.1.trans s2.2.2.2.1.symm, s1.2.2.2.2.trans s2.2.2.2.2.symm⟩
      refine GMachine.eq_of_registers o2 o1 hgen (fun a ha => ?_) ?_
      · rw [s2.1] at ha
        have := congrFun (congrArg Prod.fst hc) ⟨a, ha⟩
        exact BitVec.toFin_inj.1 this
      · refine List.ext_getElem (l1.trans l2.symm) fun r h1 h2 => ?_
        have := congrFun (congrArg Prod.snd hc) ⟨r, l1 ▸ h1⟩
        have := BitVec.toFin_inj.1 this
        rw [List.getD_eq_getElem _ _ h1, List.getD_eq_getElem _ _ h2] at this
        exact this
    rcases Nat.lt_or_gt_of_ne (fun e => hxy (Fin.ext e)) with hlt | hlt
    · exact ⟨x, y, hlt, by omega, hsame⟩
    · exact ⟨y, x, hlt, by omega, hsame.symm⟩
  -- so the loop runs in a circle
  have hcycle : ∀ d, GMachine.trace turn g (i + d) = GMachine.trace turn g (j + d) := by
    intro d
    simp only [GMachine.trace, Nat.add_comm _ d, Function.iterate_add_apply] at heq ⊢
    rw [heq]
  refine ⟨GMachine.trace turn g, rfl, fun k => ?_⟩
  induction k using Nat.strong_induction_on with
  | _ k ih =>
    by_cases hkN : k < N
    · exact hstep hkN
    · have h1 := hcycle (k - j)
      have h2 := hcycle (k + 1 - j)
      rw [Nat.add_sub_cancel' (by omega : j ≤ k)] at h1
      rw [Nat.add_sub_cancel' (by omega : j ≤ k + 1)] at h2
      rw [← h1, ← h2, show i + (k + 1 - j) = i + (k - j) + 1 by omega]
      exact ih _ (by omega)

end Sys2Proof.Machine
end

