-- ==== Sys2Proof/Machine/DataTypes.lean ====
section
/-!
DEFINITION. The data representations of 30_encoding.md R80 to R88. Instructions use the unsigned and
the two's complement integers only (R80); the rest stand alone (note 35).
-/

namespace Sys2Proof

/-- A word read as an unsigned integer (30_encoding.md R81). -/
def unsignedValue {n : Nat} (a : BitVec n) : Nat := a.toNat

/-- A word read as a two's complement integer (30_encoding.md R82). -/
def twosComplementValue {n : Nat} (a : BitVec n) : Int := a.toInt

/-- A word read as sign and magnitude (30_encoding.md R80). -/
def signMagnitudeValue {n : Nat} (a : BitVec n) : Int :=
  let m : Int := (a.toNat % 2 ^ (n - 1) : Nat)
  if a.msb then -m else m

/-- A word read as ones' complement (30_encoding.md R80). -/
def onesComplementValue {n : Nat} (a : BitVec n) : Int :=
  if a.msb then -((~~~a).toNat : Int) else a.toNat

/-- The lengths of a fixed-length integer: 8, 16, 32 or 64 bits (30_encoding.md R83). -/
def Len.fixedLengths : List Len := [.l8, .l16, .l32, .l64]

/-- The value is an address of `aw` bits, those of AW_ADDR: it has no bits above them (20_memory.md R60). -/
def Len.isAddress (aw : Len) (a : Quad) : Bool := aw.trunc a == a

/-- A variable-length integer: the starting address A, of AW_ADDR bits, the position P of the least
significant bit and the length S (30_encoding.md R83; the width of A: note 17). R83 gives no unit of P or S
and does not say whether S can be 0: that both count bits, P any number of them and S 1 to 64, is the model's
choice (note 35). No instruction works on one. -/
structure VariableInteger where
  addr : Quad
  position : Nat
  size : Len
deriving DecidableEq, Repr

/-- The variable-length integers of a machine whose addresses have `aw` bits and whose longest fixed
length is `longest`: A is one of its addresses and S is at most that length (30_encoding.md R83). -/
def VariableInteger.legal (aw longest : Len) (v : VariableInteger) : Bool :=
  Len.fixedLengths.contains longest && aw.isAddress v.addr && decide (v.size.bits ≤ longest.bits)

/-- A string, alphanumeric or numeric: the address A of its first byte, of AW_ADDR bits, and its length L
in bytes (30_encoding.md R85, R86; the width: note 17). -/
structure StringDescriptor where
  addr : Quad
  length : Nat
deriving DecidableEq, Repr

/-- The strings of a machine whose addresses have `aw` bits: A is one of its addresses (30_encoding.md
R85, R86). -/
def StringDescriptor.legal (aw : Len) (s : StringDescriptor) : Bool := aw.isAddress s.addr

/-- What a 32-bit floating-point word stands for: a finite value is `mantissa * 2 ^ exponent`
(30_encoding.md R84). -/
inductive Float32Value
  | notANumber
  | infinity (negative : Bool)
  | finite (negative : Bool) (mantissa : Nat) (exponent : Int)
deriving DecidableEq, Repr

/-- The sign bit 31 (30_encoding.md R84). -/
def floatSign (a : BitVec 32) : Bool := a.getLsbD 31

/-- The exponent, bits 30:23 (30_encoding.md R84). -/
def floatExponent (a : BitVec 32) : Nat := (a.extractLsb' 23 8).toNat

/-- The fraction, bits 22:0 (30_encoding.md R84). -/
def floatFraction (a : BitVec 32) : Nat := (a.extractLsb' 0 23).toNat

/-- The value of a 32-bit floating-point word, its five cases (30_encoding.md R84). -/
def float32Value (a : BitVec 32) : Float32Value :=
  if floatExponent a = 255 then
    if floatFraction a = 0 then .infinity (floatSign a) else .notANumber
  else if floatExponent a = 0 then .finite (floatSign a) (floatFraction a) (-149)
  else .finite (floatSign a) (2 ^ 23 + floatFraction a) ((floatExponent a : Int) - 150)

/-- The digit a byte or nibble stands for, if it is 0 to 9. -/
def digitOf (v : BitVec 4) : Option Nat := if v.toNat ≤ 9 then some v.toNat else none

/-- A digit byte with a given high nibble (30_encoding.md R86, R87). -/
def unpackedDigit (high : BitVec 4) (b : Byte) : Option Nat :=
  if hiNibble b = high then digitOf (loNibble b) else none

/-- The number whose decimal digits are listed, most significant first, after those of `acc`. -/
def digitsValue (acc : Nat) : List Nat → Nat
  | [] => acc
  | d :: ds => digitsValue (10 * acc + d) ds

/-- The digit of a byte of the unpacked trailing format: 0x30 to 0x39, or 0x70 to 0x79 for a negative
digit (30_encoding.md R86). -/
def signedDigit (b : Byte) : Option Nat :=
  match unpackedDigit 3 b with
  | some d => some d
  | none => unpackedDigit 7 b

/-- A numeric string in unpacked trailing format: every byte is a digit with a sign, and the sign of the
number is that of the last (30_encoding.md R86). -/
def trailingValue (acc : Nat) : List Byte → Option Int
  | [] => none
  | [b] => (signedDigit b).map fun d =>
      if hiNibble b = 7#4 then -(10 * acc + d : Nat) else (10 * acc + d : Nat)
  | b :: bs => (signedDigit b).bind fun d => trailingValue (10 * acc + d) bs

/-- A numeric string in unpacked leading separate format: a sign byte, then digits (30_encoding.md
R87). The rule does not say what a sign without digits stands for: it has no value (note 35, the model's
choice). -/
def leadingValue : List Byte → Option Int
  | [] | [_] => none
  | s :: bs =>
    let m := (bs.mapM (unpackedDigit 3)).map (digitsValue 0)
    if s = 0x2B#8 then m.map fun v => (v : Int)
    else if s = 0x2D#8 then m.map fun v => -(v : Int)
    else none

/-- A number in unsigned packed BCD: two digits a byte and no sign, the reading +83 of 10000011 in
30_encoding.md R80. No digits at all have no value (note 35, the model's choice). -/
def unsignedPackedValue (acc : Nat) : List Byte → Option Nat
  | [] => none
  | [b] => (digitOf (hiNibble b)).bind fun d => (digitOf (loNibble b)).map fun e => 10 * (10 * acc + d) + e
  | b :: bs =>
    (digitOf (hiNibble b)).bind fun d => (digitOf (loNibble b)).bind fun e =>
      unsignedPackedValue (10 * (10 * acc + d) + e) bs

/-- The sign nibble of the packed format: A, C, E and F are plus, B and D minus (30_encoding.md R88). -/
def packedSign (v : BitVec 4) : Option Bool :=
  if v = 0xA#4 || v = 0xC#4 || v = 0xE#4 || v = 0xF#4 then some false
  else if v = 0xB#4 || v = 0xD#4 then some true
  else none

/-- A numeric string in packed format: the last nibble is the sign (30_encoding.md R88). -/
def packedValue (acc : Nat) : List Byte → Option Int
  | [] => none
  | [b] =>
    (digitOf (hiNibble b)).bind fun d => (packedSign (loNibble b)).map fun neg =>
      if neg then -(10 * acc + d : Nat) else (10 * acc + d : Nat)
  | b :: bs =>
    (digitOf (hiNibble b)).bind fun d => (digitOf (loNibble b)).bind fun e =>
      packedValue (10 * (10 * acc + d) + e) bs

end Sys2Proof
end

