-- ==== Sys2Proof/Machine/GenericFormat.lean ====
section
/-!
DEFINITION. Which forms a processor of layer G has by its address format FMT, its kind of architecture
and its I/O space (30_encoding.md R91 to R95, 40_transfer.md R130 to R139). FMT decides which field is
the destination (`AddrFormat.roles`); every form has its meaning, also on a processor that does not have
it (note 37).
-/

namespace Sys2Proof.Machine

/-- The format has three explicit operands. -/
def AddrFormat.isThree : AddrFormat → Bool
  | .threeAddress _ => true
  | .twoAddress _ | .oneAndHalf | .oneAddress | .zeroAddress => false

/-- The format has two explicit operands. -/
def AddrFormat.isTwo : AddrFormat → Bool
  | .twoAddress _ => true
  | .threeAddress _ | .oneAndHalf | .oneAddress | .zeroAddress => false

/-- Two operands belong to the format: any pair to two addresses, `reg, mem/reg/imm` to one and a half
(30_encoding.md R92, R95). -/
def AddrFormat.hasPair (t : AddrFormat) (a : GOperand) : Bool :=
  t.isTwo || (t == .oneAndHalf && a.isRegister)

/-- The form of a two-source instruction belongs to the format (30_encoding.md R91 to R95). -/
def AddrFormat.hasBin (t : AddrFormat) : BinForm → Bool
  | .three _ _ _ => t.isThree
  | .two a _ => t.hasPair a
  | .twoSecond _ _ => t == .twoAddress .both
  | .one _ => t == .oneAddress
  | .zero => t == .zeroAddress

/-- The form of a shift belongs to the format; its destination is b whatever FMT says (43_shift.md
R201). Of one and a half addresses the register can be the source a or the destination b (note 37, the
model's choice: 30_encoding.md R95 does not say which it is). -/
def AddrFormat.hasShift (t : AddrFormat) : BinForm → Bool
  | .three _ _ _ => t.isThree
  | .two a b => t.hasPair a || t.hasPair b
  | .twoSecond _ _ => false
  | .one _ => t == .oneAddress
  | .zero => t == .zeroAddress

/-- The form of INC, DEC or NOT belongs to the format; these have no three-address form, and
`OP a, b` serves the three-address processors too (41_arithmetic.md R160, R172). Of one and a half
addresses the register can be a or b (note 37, the model's choice). -/
def AddrFormat.hasUn (t : AddrFormat) : UnForm → Bool
  | .two a b => t.isThree || t.hasPair a || t.hasPair b
  | .one _ => t == .oneAddress
  | .zero => t == .zeroAddress

/-- The operands of a two-source instruction are where the kind of architecture has them: all in memory;
one source a register, the other in memory and the destination either; all in registers (30_encoding.md
R95, note 37). -/
def ArchKind.hasRoles (k : ArchKind) (r : Roles) : Bool :=
  let mixed (x y : GOperand) := (x.isRegister && y.isMemory) || (x.isMemory && y.isRegister)
  match k with
  | .unrestricted => true
  | .memoryMemory => (r.sources ++ r.dests).all GOperand.isMemory
  | .memoryRegister =>
    match r with
    | .separate x y _ | .inFirst x y | .inSecond x y => mixed x y
    | .accumulator y => y.isMemory
    | .stack => false
  | .registerRegister =>
    match r with
    | .separate _ _ _ | .inFirst _ _ | .inSecond _ _ | .accumulator _ =>
      (r.sources ++ r.dests).all GOperand.isRegister
    | .stack => false

/-- The operands of a one-source instruction are where the kind of architecture has them; the operand of
the form without addresses is in memory, on the stack (30_encoding.md R95, note 37). -/
def ArchKind.hasUn (k : ArchKind) (f : UnForm) : Bool :=
  let os := f.sources ++ f.dests
  match k with
  | .unrestricted => true
  | .memoryMemory => os.all GOperand.isMemory
  | .memoryRegister => !os.isEmpty && os.all fun o => !o.isImm
  | .registerRegister => !os.isEmpty && os.all GOperand.isRegister

/-- The kind of architecture has a transfer between two operands: with all operands in memory both are
there; with the other two kinds one side is a register, which is how memory is loaded and stored, and none
is immediate (30_encoding.md R95, note 37). -/
def ArchKind.hasMove (k : ArchKind) (a b : GOperand) : Bool :=
  match k with
  | .unrestricted => true
  | .memoryMemory => a.isMemory && b.isMemory
  | .memoryRegister | .registerRegister => !a.isImm && !b.isImm && (a.isRegister || b.isRegister)

/-- The kind of architecture has a load or store of the accumulator: it reaches memory with all three
kinds (30_encoding.md R95, note 37). -/
def ArchKind.hasLoad (k : ArchKind) (a : GOperand) : Bool :=
  match k with
  | .unrestricted => true
  | .memoryMemory => a.isMemory
  | .memoryRegister | .registerRegister => !a.isImm

/-- The kind of architecture has instructions with a register as an operand (30_encoding.md R95). -/
def ArchKind.hasRegisters (k : ArchKind) : Bool := k != .memoryMemory

/-- The operands of a loop-control, a string or a stack instruction are where the kind of architecture has
them (30_encoding.md R95, note 37). -/
def ArchKind.hasOperands (k : ArchKind) (os : List GOperand) : Bool :=
  match k with
  | .unrestricted => true
  | .memoryMemory => os.all GOperand.isMemory
  | .memoryRegister =>
    os.all (fun o => !o.isImm) &&
      (os.length == 1 || os.any GOperand.isRegister && os.any GOperand.isMemory)
  | .registerRegister => os.all GOperand.isRegister

/-- The kind of architecture has instructions beside load and store that reach data in memory
(30_encoding.md R95). -/
def ArchKind.reachesMemory (k : ArchKind) : Bool := k != .registerRegister

/-- A two-source instruction with a destination is one of the processor's. -/
def GConfig.hasBin (c : GConfig) (f : BinForm) : Bool :=
  c.fmt.hasBin f && c.arch.hasRoles (c.fmt.roles f) && (c.fmt.roles f).dests.all fun o => !o.isImm

/-- A string instruction with these values and locations is one of the processor's: it reads memory itself
(46_string.md R281). -/
def GConfig.hasString (c : GConfig) (values locations : List GOperand) : Bool :=
  c.arch.reachesMemory && c.arch.hasOperands (values ++ locations) && locations.all fun o => !o.isImm

/-- The instruction is one of a processor with these parameters. PUSH, POP, PUSHPSW and POPPSW are those of
every address format: 40_transfer.md R138 and R139 name zero-address processors and register machines and are
silent on the others (note 37, the model's choice). The string, loop-control, jump, interrupt and mode
instructions, which no rule ties to a format, are those of every format too (note 37, the model's choice). -/
def GConfig.admits (c : GConfig) : Instr → Bool
  | .gMov _ a b =>
    (c.fmt.hasPair a || c.fmt.hasPair b) && c.arch.hasMove a b && !b.isImm
  | .gMov3 _ a _ b => c.fmt.isThree && c.arch.hasMove a b && !b.isImm
  | .gIn _ _ | .gOut _ _ => c.iospace == .separate && c.fmt.isTwo && c.arch.hasRegisters
  | .gIn1 _ | .gOut1 _ => c.iospace == .separate && c.fmt == .oneAddress
  | .gLoad _ a => c.fmt == .oneAddress && c.arch.hasLoad a
  | .gStore _ b => c.fmt == .oneAddress && c.arch.hasLoad b && !b.isImm
  | .gMul _ _ f | .gDiv _ _ f => c.hasBin f
  | .gAdd _ f | .gSub _ f | .gAnd _ f | .gOr _ f | .gXor _ f => c.hasBin f
  | .gCmp _ f | .gTst _ f => c.fmt.hasBin f && c.arch.hasRoles (compareRoles f)
  | .gAsr _ f | .gLsr _ f | .gRor _ f | .gRorc _ f | .gAsl _ f | .gLsl _ f | .gRol _ f
  | .gRolc _ f => c.fmt.hasShift f && c.arch.hasUn f.shiftForm && f.shiftDestOk
  | .gInc _ f | .gDec _ f | .gNot _ f => c.fmt.hasUn f && c.arch.hasUn f && f.destOk
  | .gPush _ a => c.arch.hasOperands [a]
  | .gPop _ b => c.arch.hasOperands [b] && !b.isImm
  | .gPushpsw | .gPoppsw => true
  | .gMovc _ sl sa f dl da => c.hasString [f] [sl, sa, dl, da]
  | .gMovtc _ sl sa f t dl da => c.hasString [f, t] [sl, sa, dl, da]
  | .gCmpc _ l1 a1 f l2 a2 => c.hasString [f] [l1, a1, l2, a2]
  | .gLocc _ len adr ch | .gSkpc _ len adr ch => c.hasString [ch] [len, adr]
  | .gMatchc _ l1 a1 l2 a2 => c.hasString [l2, a2] [l1, a1]
  | .gAcb _ limit step index _ => c.arch.hasOperands [limit, step, index] && !index.isImm
  | .gAob _ limit index _ => c.arch.hasOperands [limit, index] && !index.isImm
  | .gSob _ index _ => c.arch.hasOperands [index] && !index.isImm
  | .gCase _ sel base limit => c.arch.hasOperands [sel, base, limit]
  | .gBbs base pos _ | .gBbc base pos _ =>
    c.arch.reachesMemory && c.arch.hasOperands [base, pos]
  | .gJmp _ | .gJmpind _ | .gBcc _ _ | .gJcc _ _ | .gJsr _ | .gRts | .gInt _ | .gRti | .gInte
  | .gIntd | .gNop => true
  | .nop | .prpd | .prpe | .intd | .inte | .trpd | .trpe | .stimr | .stivtp | .rts | .rti => false
  | .int _ | .beql _ | .bneq _ | .bgrtu _ | .bgreu _ | .blssu _ | .blequ _ | .bgrt _ | .bgre _
  | .blss _ | .bleq _ | .bneg _ | .bnng _ | .bovf _ | .bnvf _ => false
  | .jmp _ | .jsr _ | .jeql _ | .jneq _ | .jgrtu _ | .jgreu _ | .jlssu _ | .jlequ _ | .jgrt _
  | .jgre _ | .jlss _ | .jleq _ | .jneg _ | .jnng _ | .jovf _ | .jnvf _ => false
  | .jmpind _ | .ldb _ | .ldw _ | .stb _ | .stw _ | .add _ | .sub _ | .inc _ | .dec _ | .cmp _
  | .and _ | .or _ | .xor _ | .not _ | .tst _ | .asr _ | .lsr _ | .ror _ | .rorc _ | .asl _
  | .lsl _ | .rol _ | .rolc _ => false

end Sys2Proof.Machine
end

