-- ==== Sys2Proof/Tests/Slice0.lean ====
section
/-!
SUPPORT. Tests of the model on the vectors of spec/95_test_vectors.md, each named after the row it
takes its values from, and for every statement with hypotheses a witness that meets them.
-/

namespace Sys2Proof.Tests

open Sys2Proof Sys2Proof.Machine

/-- The start state of the RC rows: PC = 0x0200, SP = 0x8000, IVTP = 0x1000, all else 0. -/
def rc : State := { State.reset with pc := 0x200, sp := 0x8000, ivtp := 0x1000 }

/-- A PSW from its word. -/
def psw (w : Word) : Psw := Psw.ofBytes (hiByte w) (loByte w)

/-- One record of inputs with START = 1: a pulse on inm, and pulses on the lines. -/
def pulse (inm : Bool) (intr : BitVec 7) : EnvInput :=
  { inm := inm, intr := intr, start := true, vec := .replicate 7 0 }

/-- The state with bytes placed at PC. -/
def code (s : State) (bs : List Byte) : State := s.writeBytes s.pc bs

/-- The state after one step that answers one. -/
def run (s : State) : State :=
  match step s with
  | .next t => t
  | .fault _ | .refused _ => s

/-- The state after an instruction that answers one. -/
def ran (i : Instr) (s : State) : State :=
  match exec i s with
  | .next t => t
  | .fault _ | .refused _ => s

/-! ## Well-formed terms -/

/-- One ill-formed term for every check of `Instr.wf`, and one that passes it beside it. -/
theorem test_wf_rc :
    (Instr.jmpind (.imm 0x3579)).wf = false ∧ (Instr.jmpind (.regdir 5)).wf = false ∧
    (Instr.jmpind (.memind 0x1234)).wf = true ∧ (Instr.stw (.imm 1)).wf = false ∧
    (Instr.stw (.regdir 3)).wf = true ∧ (Instr.ldw (.imm 1)).wf = true ∧
    (Instr.cmp (.imm 1)).wf = true := by decide

theorem test_wf_byte_destinations :
    [Instr.stb, Instr.inc, Instr.dec, Instr.not, Instr.asr, Instr.lsr, Instr.ror, Instr.rorc, Instr.asl,
      Instr.lsl, Instr.rol, Instr.rolc].all
      (fun mk => !(mk (.imm 5)).wf && (mk (.postinc 5)).wf) = true := by decide

theorem test_wf_generic :
    (Instr.gMov .l8 (.imm 1) (.imm 2)).wf = false ∧ (Instr.gMov .l8 (.imm 1) .sp).wf = true ∧
    (Instr.gMov3 .l8 .fp .fp (.imm 2)).wf = false ∧ (Instr.gStore .l8 (.imm 5)).wf = false ∧
    (Instr.gPop .l8 (.imm 5)).wf = false ∧ (Instr.gJmpind (.regdir 1)).wf = false ∧
    (Instr.gJmpind (.imm 1)).wf = false ∧ (Instr.gJmpind (.regind 1)).wf = true := by decide

theorem test_wf_generic_forms :
    ([Instr.gMul .signed .l8, Instr.gDiv .signed .l8, Instr.gAdd .l8, Instr.gSub .l8, Instr.gAnd .l8,
      Instr.gOr .l8, Instr.gXor .l8].all fun mk => !(mk (.three (.imm 0) .sp (.imm 0))).wf
        && (mk (.three (.imm 0) .sp .sp)).wf && !(mk (.two (.imm 0) (.imm 0))).wf
        && !(mk (.twoSecond .sp (.imm 0))).wf && (mk (.one (.imm 0))).wf) = true ∧
    ([Instr.gAsr .l8, Instr.gLsr .l8, Instr.gRor .l8, Instr.gRorc .l8, Instr.gAsl .l8, Instr.gLsl .l8,
      Instr.gRol .l8, Instr.gRolc .l8].all fun mk => !(mk (.three .sp (.imm 0) .sp)).wf
        && !(mk (.two .sp (.imm 0))).wf && !(mk (.twoSecond .sp (.imm 0))).wf
        && !(mk (.one (.imm 0))).wf && (mk .zero).wf) = true ∧
    ([Instr.gInc .l8, Instr.gDec .l8, Instr.gNot .l8].all fun mk => !(mk (.two .sp (.imm 0))).wf
        && !(mk (.one (.imm 0))).wf) = true := by decide

theorem test_wf_strings_loops :
    (Instr.gMovc .l8 (.imm 3) .sp .sp .sp .sp).wf = false ∧
    (Instr.gMovc .l8 .sp (.imm 3) .sp .sp .sp).wf = false ∧
    (Instr.gMovc .l8 .sp .sp .sp (.imm 3) .sp).wf = false ∧
    (Instr.gMovtc .l8 .sp .sp .sp .sp .sp (.imm 3)).wf = false ∧
    (Instr.gCmpc .l8 .sp .sp .sp (.imm 3) .sp).wf = false ∧
    (Instr.gLocc .l8 (.imm 3) .sp .sp).wf = false ∧ (Instr.gSkpc .l8 .sp (.imm 3) .sp).wf = false ∧
    (Instr.gMatchc .l8 .sp (.imm 3) .sp .sp).wf = false ∧
    (Instr.gAcb .l8 .sp .sp (.imm 3) 0).wf = false ∧ (Instr.gAob .l8 .sp (.imm 3) 0).wf = false ∧
    (Instr.gSob .l8 (.imm 3) 0).wf = false := by decide

/-! ## Decoding: every constructor's word, written out from 30_encoding.md R99, R106 and R112 -/

/-- The words decode to their instructions, with the stated lengths. -/
def reads (l : List (List Byte × Instr)) : Bool :=
  l.all fun p => decode p.1 == .ok (p.2, p.1.length)

theorem test_decode_layout_n : reads
    [([0b00000000], .nop), ([0b00000001], .prpd), ([0b00000010], .prpe), ([0b00000011], .intd),
     ([0b00000100], .inte), ([0b00000101], .trpd), ([0b00000110], .trpe), ([0b00000111], .stimr),
     ([0b00001000], .stivtp), ([0b00001001], .rts), ([0b00001010], .rti)] = true := by decide

theorem test_decode_layout_b : reads
    [([0b00010000, 0x25], .int 0x25), ([0b00100000, 0x80], .beql 0x80), ([0b00100001, 0xFA], .bneq 0xFA),
     ([0b00100010, 0x01], .bgrtu 0x01), ([0b00100011, 0x02], .bgreu 0x02),
     ([0b00100100, 0x04], .blssu 0x04), ([0b00100101, 0x08], .blequ 0x08),
     ([0b00100110, 0x10], .bgrt 0x10), ([0b00100111, 0x20], .bgre 0x20),
     ([0b00101000, 0x40], .blss 0x40), ([0b00101001, 0x80], .bleq 0x80),
     ([0b00101010, 0x7F], .bneg 0x7F), ([0b00101011, 0x81], .bnng 0x81),
     ([0b00101100, 0xFF], .bovf 0xFF), ([0b00101101, 0x00], .bnvf 0x00)] = true := by decide

theorem test_decode_layout_j : reads
    [([0b00110000, 0x12, 0x34], .jmp 0x1234), ([0b00110001, 0x20, 0x01], .jsr 0x2001),
     ([0b01000000, 0x80, 0x01], .jeql 0x8001), ([0b01000001, 0x40, 0x02], .jneq 0x4002),
     ([0b01000010, 0x20, 0x04], .jgrtu 0x2004), ([0b01000011, 0x10, 0x08], .jgreu 0x1008),
     ([0b01000100, 0x08, 0x10], .jlssu 0x0810), ([0b01000101, 0x04, 0x20], .jlequ 0x0420),
     ([0b01000110, 0x02, 0x40], .jgrt 0x0240), ([0b01000111, 0x01, 0x80], .jgre 0x0180),
     ([0b01001000, 0xAB, 0xCD], .jlss 0xABCD), ([0b01001001, 0x00, 0xFF], .jleq 0x00FF),
     ([0b01001010, 0xFF, 0x00], .jneg 0xFF00), ([0b01001011, 0x7F, 0xFF], .jnng 0x7FFF),
     ([0b01001100, 0xFF, 0xFE], .jovf 0xFFFE), ([0b01001101, 0x00, 0x01], .jnvf 0x0001)] = true := by
  decide

theorem test_decode_layout_a : reads
    [([0b01010000, 0b00010101], .jmpind (.regind 5)), ([0b01100000, 0b10110000, 0x7F], .ldb (.imm 0x7F)),
     ([0b01100001, 0b10110000, 0x00, 0xFE], .ldw (.imm 0x00FE)),
     ([0b01100010, 0b00100000, 0x20, 0x10], .stb (.memdir 0x2010)),
     ([0b01100011, 0b01110101], .stw (.postinc 5)), ([0b01110000, 0b01000010, 0x00, 0x10], .add (.regindpom 2 0x10)),
     ([0b01110001, 0b00001111], .sub (.regdir 15)), ([0b01110010, 0b01100011], .inc (.preinc 3)),
     ([0b01110011, 0b10000001], .dec (.predec 1)), ([0b01110100, 0b10010010], .cmp (.postdec 2)),
     ([0b10000000, 0b00110000, 0x40, 0x02], .and (.memind 0x4002)),
     ([0b10000001, 0b10100000, 0xFF, 0xFE], .or (.pcpom 0xFFFE)),
     ([0b10000010, 0b00011000], .xor (.regind 8)), ([0b10000011, 0b00000100], .not (.regdir 4)),
     ([0b10000100, 0b10110000, 0x80], .tst (.imm 0x80)), ([0b10010000, 0b00000001], .asr (.regdir 1)),
     ([0b10010001, 0b00000010], .lsr (.regdir 2)), ([0b10010010, 0b00000011], .ror (.regdir 3)),
     ([0b10010011, 0b00000100], .rorc (.regdir 4)), ([0b10010100, 0b00000101], .asl (.regdir 5)),
     ([0b10010101, 0b00000110], .lsl (.regdir 6)), ([0b10010110, 0b00000111], .rol (.regdir 7)),
     ([0b10010111, 0b00010110], .rolc (.regind 6))] = true := by decide

/-- AM24 to AM28, F1 to F10, T16, J24, J25: what the decoder refuses, and why. -/
theorem test_decode_refuses :
    ([0x53, 0xC3, 0xD3, 0xE3, 0xF3].all fun m => decode [0x60, m, 0x12, 0x34] == .error .illegalAddressing)
      = true ∧
    ([0x0B, 0x11, 0x2E, 0x4F, 0x51, 0x64, 0x75, 0x85, 0x98, 0xFF].all fun b =>
      decode [b, 0, 0, 0] == .error .illegalOpcode) = true ∧
    decode [0x62, 0xB0, 0x01, 0] = .error .illegalAddressing ∧
    decode [0x50, 0x05, 0, 0] = .error .illegalAddressing ∧
    decode [0x50, 0xB0, 0x35, 0x79] = .error .illegalAddressing := by decide

/-- The table numbers bits from the right of a 32-bit word; the operation code is its top byte. -/
theorem test_decode_table_word :
    decodeTableWord 32 0x60B07F00 = some (.ldb (.imm 0x7F)) ∧
    decodeTableWord 32 0x0A000000 = some .rti ∧ decodeTableWord 32 0x31200100 = some (.jsr 0x2001) ∧
    decodeTableWord 32 0xFF000000 = none := by decide

theorem test_with_fetch_word :
    (run (State.reset.withFetchWord 32 0x60B07F00)).ab = 0x7F ∧
    (run (State.reset.withFetchWord 32 0x31200100)).pc = 0x2001 := by decide

/-! ## Reset, START, stores into code -/

theorem test_reset_runs_nop : let t := run State.reset; t.pc = 1 ∧ t.psw.word = 0 := by decide

/-- X1 and X2. -/
theorem test_idle_X2 : let e := { pulse false 8 with start := false }
    let s := { rc with start := false, env := [e] }
    run s = { s with printr := 8, env := [] } := by decide

/-- SM1: the byte a store writes is the byte the next fetch reads. -/
theorem test_store_into_code_SM1 :
    let s := run (code { rc with ab := 4 } [0x62, 0x20, 0x02, 0x04, 0x00])
    (run s).psw.word = 0x8000 ∧ (run s).pc = 0x205 := by decide

theorem test_self_jump :
    ({ (code rc [0x30, 0x02, 0x00]) with pc := 0x200 }).selfJump = true := by decide

/-! ## Flags, conditions and the other jumps -/

/-- Section 1.9 and 1.10: sums and differences of 4-bit words. -/
theorem test_flags_four_bits :
    addF 0b1010#4 0b0010#4 = (0b1100#4, { n := true, z := false, c := false, v := false }) ∧
    subF 0b1010#4 0b0010#4 = (0b1000#4, { n := true, z := false, c := false, v := false }) ∧
    subF 0b0010#4 0b1010#4 = (0b1000#4, { n := true, z := false, c := true, v := true }) ∧
    subF 0b0010#4 0b0011#4 = (0b1111#4, { n := true, z := false, c := true, v := false }) := by
  decide

/-- Section 1.11. -/
theorem test_shift_sequences :
    (lsrF 0b1000#4 false).1 = 0b0100#4 ∧ (asrF 0b1000#4 false).1 = 0b1100#4 ∧
    (asrF 0b1100#4 false).1 = 0b1110#4 ∧ (aslF 0b1110#4 false).1 = 0b1100#4 ∧
    (lslF 0b0010#4 false).1 = 0b0100#4 := by decide

/-- The conditions that hold, by their index, for an indicator setting N Z C V. -/
def holds (nzcv : BitVec 4) : List Nat :=
  let p := { Psw.zero with n := nzcv.getLsbD 3, z := nzcv.getLsbD 2, c := nzcv.getLsbD 1,
                           v := nzcv.getLsbD 0 }
  [Cond.eql, .neq, .grtu, .greu, .lssu, .lequ, .grt, .gre, .lss, .leq, .neg, .nng, .ovf,
    .nvf].filterMap fun cc => if p.cond cc then some (condIndex cc) else none

/-- The table of section 2.1, its 16 rows. -/
theorem test_condition_table :
    holds 0b0000 = [1, 2, 3, 6, 7, 11, 13] ∧ holds 0b0001 = [1, 2, 3, 8, 9, 11, 12] ∧
    holds 0b0010 = [1, 4, 5, 6, 7, 11, 13] ∧ holds 0b0011 = [1, 4, 5, 8, 9, 11, 12] ∧
    holds 0b0100 = [0, 3, 5, 7, 9, 11, 13] ∧ holds 0b0101 = [0, 3, 5, 8, 9, 11, 12] ∧
    holds 0b0110 = [0, 4, 5, 7, 9, 11, 13] ∧ holds 0b0111 = [0, 4, 5, 8, 9, 11, 12] ∧
    holds 0b1000 = [1, 2, 3, 8, 9, 10, 13] ∧ holds 0b1001 = [1, 2, 3, 6, 7, 10, 12] ∧
    holds 0b1010 = [1, 4, 5, 8, 9, 10, 13] ∧ holds 0b1011 = [1, 4, 5, 6, 7, 10, 12] ∧
    holds 0b1100 = [0, 3, 5, 8, 9, 10, 13] ∧ holds 0b1101 = [0, 3, 5, 7, 9, 10, 12] ∧
    holds 0b1110 = [0, 4, 5, 8, 9, 10, 13] ∧ holds 0b1111 = [0, 4, 5, 7, 9, 10, 12] := by decide

/-- The operation codes 0x20 to 0x2D whose branch is taken from 0x0202 on an indicator setting. -/
def branches (flags : Word) : List Nat :=
  (List.range 14).filter fun k =>
    (run (code { rc with psw := psw flags } [BitVec.ofNat 8 (0x20 + k), 0x10])).pc == 0x212

/-- The operation codes 0x40 to 0x4D whose jump is taken on an indicator setting. -/
def jumps (flags : Word) : List Nat :=
  (List.range 14).filter fun k =>
    (run (code { rc with psw := psw flags } [BitVec.ofNat 8 (0x40 + k), 0x12, 0x34])).pc == 0x1234

/-- The rows 0000, 1011 and 0100 of section 2.1 for the 14 branches, then the 14 jumps. -/
theorem test_branches :
    branches 0x0 = [1, 2, 3, 6, 7, 11, 13] ∧ branches 0xD = [1, 4, 5, 6, 7, 10, 12] ∧
    branches 0x2 = [0, 3, 5, 7, 9, 11, 13] := by decide

theorem test_jumps : jumps 0x0 = [1, 2, 3, 6, 7, 11, 13] ∧ jumps 0xD = [1, 4, 5, 6, 7, 10, 12] ∧
    jumps 0x2 = [0, 3, 5, 7, 9, 11, 13] := by decide

/-! ## Layer G -/

/-- A generic machine with 8-bit locations and 16-bit addresses, registers split by kind. -/
def g8 : GMachine := { GMachine.reset with cfg := { GConfig.reset with regorg := .split }, sp := 0x8000 }

/-- The same with 16-bit locations, as the four-digit values of the source need. -/
def g16 : GMachine := { g8 with cfg := { g8.cfg with cell := .l16 }, sp := 0x151 }

/-- The generic machine after an instruction. -/
def gen (i : Instr) (g : GMachine) : GMachine := (ran i { State.reset with g := g }).g

/-- Data of a length from an address on. -/
def fill (l : Len) (a : Quad) (vs : List Quad) (g : GMachine) : GMachine :=
  (vs.foldl (fun p v => (p.1.writeData l p.2 v, p.2 + 1)) (g, a)).1

/-- The characters from an address on. -/
def chars (g : GMachine) (a : Quad) (n : Nat) : List Quad :=
  (List.range n).map fun k => g.readData .l8 (a + BitVec.ofNat 64 k)

/-- The indicators N Z C V. -/
def nzcv (g : GMachine) : List Bool := [g.psw.n, g.psw.z, g.psw.c, g.psw.v]

theorem test_gMov_G1 :
    (gen (.gMov .l16 (.memdir 0xA) (.memdir 0xC)) (fill .l16 0xA [5] g16)).readData
    .l16 0xC = 5 := by decide

theorem test_gMov3_G2 : (gen (.gMov3 .l16 (.memdir 0xA) (.imm 1) (.memdir 0xC))
    (fill .l16 0xA [5] g16)).readData .l16 0xC = 5 := by decide

theorem test_gLoad_G3 :
    (gen (.gLoad .l16 (.memdir 0xA)) (fill .l16 0xA [7] g16)).acc = 7 := by decide

theorem test_gStore_G4 :
    (gen (.gStore .l16 (.memdir 0xC)) { g16 with acc := 7 }).readData .l16 0xC = 7 := by
  decide

theorem test_gStore_G5 : let t := gen (.gStore .l16 (.imm 5)) { g16 with acc := 7, pc := 9 }
    t.acc = 7 ∧ t.sp = 0x153 ∧ t.readData .l16 0x152 = 9 ∧ t.readData .l16 5 = 0 := by decide

/-- The generic machine with a separate I/O space. -/
def gio : GMachine := { g16 with cfg := { g16.cfg with iospace := .separate } }

theorem test_gIn_G6 : let t := gen (.gIn 3 1) (gio.writeIo 3 0xA5)
    t.readReg (.dr 1) = 0xA5 ∧ t.mem = [] := by decide

theorem test_gOut_G7 : (gen (.gOut 1 3) (gio.writeReg (.dr 1) 0xA5)).readIo 3 = 0xA5 := by decide

theorem test_gIn1_G8 : (gen (.gIn1 3) (gio.writeIo 3 0xA5)).acc = 0xA5 := by decide

theorem test_gOut1_G9 : (gen (.gOut1 3) { gio with acc := 0x11 }).readIo 3 = 0x11 := by decide

/-- 93_implementation_defined.md U5: a register the processor does not have. -/
theorem test_gOut_absent : let t := gen (.gOut 16 3) { fill .l16 4 [0x66] gio with pc := 9 }
    t.pc = 0x66 ∧ t.readIo 3 = 0 := by decide

/-- IN with memory-mapped I/O is an illegal operation code: entry 3, scaled by 2. -/
theorem test_gIn_memory_mapped : (gen (.gIn 3 1) (fill .l16 6 [0x77] g16)).pc = 0x77 := by decide

/-- The machine of G10 to G14 with a stack variant. -/
def stacked (d : StackDir) (t : StackTop) : GMachine :=
  { g16 with cfg := { g16.cfg with stackDir := d, stackTop := t } }.writeReg (.dr 5) 0x1234

/-- Section 1.4 (G10, G11): SP and the location written by `PUSH R5` in the four variants. -/
theorem test_gPush_G10 :
    let t := fun d p => gen (.gPush .l16 (.regdir 5)) (stacked d p)
    (t .up .lastOccupied).sp = 0x152 ∧ (t .up .lastOccupied).readData .l16 0x152 = 0x1234 ∧
    (t .up .firstFree).sp = 0x152 ∧ (t .up .firstFree).readData .l16 0x151 = 0x1234 ∧
    (t .down .lastOccupied).sp = 0x150 ∧ (t .down .lastOccupied).readData .l16 0x150 = 0x1234 ∧
    (t .down .firstFree).sp = 0x150 ∧ (t .down .firstFree).readData .l16 0x151 = 0x1234 := by decide

/-- Section 1.4 (G12): `POP R7` after it. -/
theorem test_gPop_G12 :
    let t := fun d p => gen (.gPop .l16 (.regdir 7)) (gen (.gPush .l16 (.regdir 5)) (stacked d p))
    (t .up .lastOccupied).sp = 0x151 ∧ (t .up .lastOccupied).readReg (.dr 7) = 0x1234 ∧
    (t .up .firstFree).sp = 0x151 ∧ (t .up .firstFree).readReg (.dr 7) = 0x1234 ∧
    (t .down .lastOccupied).sp = 0x151 ∧ (t .down .lastOccupied).readReg (.dr 7) = 0x1234 ∧
    (t .down .firstFree).sp = 0x151 ∧ (t .down .firstFree).readReg (.dr 7) = 0x1234 := by decide

theorem test_gPushpsw_G13 : let t := gen .gPushpsw { g16 with psw := psw 0x800A }
    t.sp = 0x152 ∧ t.readData .l16 0x152 = 0x800A := by decide

theorem test_gPoppsw_G14 :
    let t := gen .gPoppsw { fill .l16 0x152 [5] g16 with sp := 0x152, psw := psw 0x8000 }
    t.psw.word = 5 ∧ t.sp = 0x151 := by decide

/-- Section 1.5: the control stack of JSR and RTS. -/
theorem test_gJsr : let t := gen (.gJsr 0x115) { g16 with pc := 0x47, sp := 0x515 }
    t.pc = 0x115 ∧ t.sp = 0x516 ∧ t.readData .l16 0x516 = 0x47 := by decide

theorem test_gRts : let t := gen .gRts { fill .l16 0x516 [0x47] g16 with sp := 0x516 }
    t.pc = 0x47 ∧ t.sp = 0x515 := by decide

/-- A machine with bytes at 0xA, 0xB, 0xC. -/
def abc (a b c : Quad) : GMachine := fill .l8 0xA [a, b, c] g8

/-- The operand that is the byte at an address of `abc`. -/
def at8 (a : Quad) : GOperand := .memdir a

theorem test_gAdd_G20 :
    let t := gen (.gAdd .l8 (.three (at8 0xA) (at8 0xB) (at8 0xC))) (abc 0x7F 1 0)
    t.readData .l8 0xC = 0x80 ∧ nzcv t = [true, false, false, true] ∧ t.readData .l8 0xA = 0x7F := by
  decide

theorem test_gSub_G21 : let t := gen (.gSub .l8 (.two (at8 0xA) (at8 0xB))) (abc 0 1 0)
    t.readData .l8 0xA = 0xFF ∧ nzcv t = [true, false, true, false] := by decide

theorem test_gAdd_G22 : let t := gen (.gAdd .l8 (.one (at8 0xA))) { abc 1 0 0 with acc := 0xFF }
    t.acc = 0 ∧ nzcv t = [false, true, true, false] := by decide

theorem test_gSub_G23 :
    let t := gen (.gSub .l8 .zero) { fill .l8 0x151 [0xA, 2] g8 with sp := 0x152 }
    t.sp = 0x151 ∧ t.readData .l8 0x151 = 8 ∧ nzcv t = [false, false, false, false] := by decide

theorem test_gCmp_G24 : let t := gen (.gCmp .l8 (.two (at8 0xA) (at8 0xB))) (abc 5 5 0)
    nzcv t = [false, true, false, false] ∧ t.mem = (abc 5 5 0).mem := by decide

theorem test_gInc_G25 : let t := gen (.gInc .l8 (.one (at8 0xA))) (abc 0xFF 0 0)
    t.readData .l8 0xA = 0 ∧ nzcv t = [false, true, true, false] := by decide

theorem test_gInc_G26 : let t := gen (.gInc .l8 (.two (at8 0xA) (at8 0xB))) (abc 0x7F 0 0)
    t.readData .l8 0xB = 0x80 ∧ nzcv t = [true, false, false, true] ∧ t.readData .l8 0xA = 0x7F := by
  decide

/-- 00_scope.md R10, 41_arithmetic.md R172, R173 at the length of one bit, where 1 is -1. -/
theorem test_gInc_one_bit :
    let t := fun (mk : UnForm → Instr) d => nzcv (gen (mk (.one (.regdir 1))) (g8.writeReg (.dr 1) d))
    let l : Len := ⟨0⟩
    t (.gInc l) 0 = [true, false, false, false] ∧ t (.gInc l) 1 = [false, true, true, true] ∧
    t (.gDec l) 0 = [true, false, true, true] ∧ t (.gDec l) 1 = [false, true, false, false] := by decide

theorem test_gDec_G27 :
    (gen (.gDec .l8 (.one (.imm 5))) (fill .l16 4 [0x7100] g8)).pc = 0x7100 := by decide

theorem test_gAnd_G28 : let t := gen (.gAnd .l8 (.two (at8 0xA) (at8 0xB))) (abc 0xF0 0x3C 0)
    t.readData .l8 0xA = 0x30 ∧ nzcv t = [false, false, false, false] := by decide

theorem test_gNot_G29 : let t := gen (.gNot .l8 (.two (at8 0xA) (at8 0xB))) (abc 0x0F 0 0)
    t.readData .l8 0xB = 0xF0 ∧ nzcv t = [true, false, false, false] := by decide

/-- 41_arithmetic.md R174, 42_logic.md R199: field c is not used, whatever FMT says. -/
theorem test_compare_unused_field :
    let as := fun (mk : Len → BinForm → Instr) => nzcv (gen (mk .l8 (.three (at8 0xA) (at8 0xB) (at8 0xC)))
      { abc 1 2 2 with cfg := { g8.cfg with fmt := .threeAddress .a1 } })
    as .gCmp = [true, false, true, false] ∧ as .gTst = [false, true, false, false] := by decide

theorem test_gTst_G30 : let t := gen (.gTst .l8 (.two (at8 0xA) (at8 0xB))) (abc 0x0F 0xF0 0)
    nzcv t = [false, true, false, false] ∧ t.mem = (abc 0x0F 0xF0 0).mem := by decide

/-- L3 and L6 in the one-address form. -/
theorem test_gOr :
    (gen (.gOr .l8 (.one (at8 0xA))) { abc 0x0E 0 0 with acc := 0x81 }).acc = 0x8F := by decide

theorem test_gXor :
    (gen (.gXor .l8 (.one (at8 0xA))) { abc 0xFF 0 0 with acc := 0x55 }).acc = 0xAA := by decide

/-- S1, S5, S9, S13, S16, S17, S25, S29, S32 on the top of the stack. -/
theorem test_gShifts :
    let t := fun i (v : Quad) c => let u := gen i { fill .l8 0x8000 [v] g8 with psw := psw c }
      (u.readData .l8 0x8000, u.psw.word)
    t (.gAsr .l8 .zero) 0x81 8 = (0xC0, 5) ∧ t (.gLsr .l8 .zero) 0x81 8 = (0x40, 4) ∧
    t (.gRor .l8 .zero) 0x81 8 = (0xC0, 5) ∧ t (.gRorc .l8 .zero) 0x81 8 = (0x40, 4) ∧
    t (.gRorc .l8 .zero) 0 4 = (0x80, 1) ∧ t (.gAsl .l8 .zero) 0x81 8 = (2, 4) ∧
    t (.gLsl .l8 .zero) 0x80 0 = (0, 6) ∧ t (.gRol .l8 .zero) 0x81 8 = (3, 4) ∧
    t (.gRolc .l8 .zero) 0 4 = (1, 0) := by decide

/-- Section 1.12. -/
theorem test_gJmpind : (gen (.gJmpind (.regind 5)) (g8.writeReg (.ar 5) 0x3579)).pc = 0x3579 ∧
    (gen (.gJmpind (.memind 0x1234)) (fill .l16 0x1234 [0x3579] g8)).pc = 0x3579 ∧
    (gen (.gJmpind (.memdir 0x3579)) g8).pc = 0x3579 ∧ (gen (.gJmp 0x3579) g8).pc = 0x3579 := by
  decide

/-- J5 and J14 in layer G. -/
theorem test_gBcc : (gen (.gBcc .eql 0x10) { g8 with pc := 0x202, psw := psw 2 }).pc = 0x212 ∧
    (gen (.gJcc .neq 0x1234) { g8 with pc := 0x203, psw := psw 2 }).pc = 0x203 ∧
    (gen (.gJcc .eql 0x1234) { g8 with pc := 0x203, psw := psw 2 }).pc = 0x1234 := by decide

/-- I13 in layer G, with the entry's number in the instruction. -/
theorem test_gInt :
    let g := { fill .l16 0x104A [0x3000] g8 with ivtp := 0x1000, pc := 0x402, psw := psw 0xC001 }
    let t := gen (.gInt 0x25) g
    t.pc = 0x3000 ∧ t.sp = 0x8004 ∧ t.readData .l16 0x8001 = 0x402 ∧
    t.readData .l16 0x8003 = 0xC001 ∧
    t.psw.word = 1 := by decide

/-- I19 in layer G. -/
theorem test_gRti : let t := gen .gRti (fill .l16 0x7FFD [0x201] (fill .l16 0x7FFF [0xFFFF] g8))
    t.pc = 0x201 ∧ t.psw.word = 0xE07F ∧ t.sp = 0x7FFC := by decide

theorem test_gMode_bits :
    (gen .gInte g8).psw.word = 0x8000 ∧ (gen .gIntd { g8 with psw := psw 0xFFFF }).psw.i
    = false ∧ gen .gNop g8 = g8 := by decide

/-- 44_jump.md R255, R256: SAVE_ALL pushes every register, two in the order of the configuration and
then the others, and RTI takes them back. -/
theorem test_save_all :
    let k : RegKind := { count := 2, width := .l16 }
    let c := { g16.cfg with saveAll := true, saveOrder := [.xr 1, .sp], dr := k, ar := k, br := k, xr := k }
    let g := { g16 with cfg := c, dr := [1, 2], ar := [3, 4], br := [0xB0, 0xB1], xr := [5, 0x33], acc := 0xACC }
    let t := gen (.gInt 0x25) g
    let u := gen .gRti { t with br := [9, 9], xr := [9, 9], acc := 9 }
    t.sp = 0x151 + 2 + 11 ∧ t.readData .l16 0x154 = 0x33 ∧ t.readData .l16 0x155 = 0x154 ∧
    t.readData .l16 0x15A = 0xB0 ∧ t.readData .l16 t.sp = 0xACC ∧
    (u.br, u.xr, u.acc, u.sp, u.pc) = (g.br, g.xr, g.acc, g.sp, g.pc) := by decide

/-- 10_state.md R23: transfers write and read AR, BR and XR, and a register wider than the operand keeps
its upper bits. -/
theorem test_register_kinds :
    let g := gen (.gMov .l16 (.imm 0x1234) (.ardir 5)) g16
    let h := gen (.gMov .l8 (.ardir 5) (.xrdir 0)) (g.writeReg (.xr 0) 0xABCD)
    g.readReg (.ar 5) = 0x1234 ∧ g.readReg (.dr 5) = 0 ∧ h.readReg (.xr 0) = 0xAB34 ∧
    (gen (.gAdd .l16 (.two (.brdir 1) (.ardir 5))) g).readReg (.br 1) = 0x1234 := by decide

/-- 30_encoding.md R91, R92, R95: 5 - 3 with the destination in each of the places FMT allows. -/
theorem test_address_formats :
    let run := fun f => gen (.gSub .l8 f) (abc 5 3 0)
    let as := fun t f => gen (.gSub .l8 f) { abc 5 3 9 with cfg := { g8.cfg with fmt := t } }
    let at3 := fun (g : GMachine) => chars g 0xA 3
    at3 (run (.two (at8 0xA) (at8 0xB))) = [2, 3, 0] ∧ at3 (run (.twoSecond (at8 0xA) (at8 0xB))) = [5, 2, 0] ∧
    at3 (as (.twoAddress .second) (.two (at8 0xA) (at8 0xB))) = [5, 2, 9] ∧
    at3 (as (.threeAddress .a3) (.three (at8 0xA) (at8 0xB) (at8 0xC))) = [5, 3, 2] ∧
    at3 (as (.threeAddress .a1) (.three (at8 0xA) (at8 0xB) (at8 0xC))) = [0xFA, 3, 9] := by decide

/-- 00_scope.md R5: 12-bit locations and addresses. -/
theorem test_other_widths : let k : Len := ⟨11⟩
    let g := { g8 with cfg := { g8.cfg with cell := k, aw := k } }
    let t := g.writeData ⟨23⟩ 0xFFF 0xABCDEF
    k.bits = 12 ∧ t.readData k 0xFFF = 0xABC ∧ t.readData k 0 = 0xDEF ∧ t.readData ⟨23⟩ 0xFFF = 0xABCDEF := by
  decide

/-- A 32-bit datum at 55 in byte locations (section 1.2), big and little endian. -/
theorem test_long_datum :
    (List.range 4).map (fun k => (g8.writeData .l32 55 0x11223344).readData .l8 (55 + BitVec.ofNat 64 k)) =
      [0x11, 0x22, 0x33, 0x44] ∧
    (List.range 4).map (fun k => ({ g8 with cfg := { g8.cfg with endian := .little } }.writeData .l32 55
      0x11223344).readData .l8 (55 + BitVec.ofNat 64 k)) = [0x44, 0x33, 0x22, 0x11] := by decide

/-- G31: MUL and DIV run; their results are the parameter MULDIV. -/
theorem test_gMul_G31 : ∃ t, exec (.gMul .signed .l8 (.two (at8 0xA) (at8 0xB))) State.reset = .next t :=
  ⟨_, rfl⟩

theorem test_gDiv_G31 : ∃ t, exec (.gDiv .unsigned .l8 .zero) State.reset = .next t :=
  ⟨_, rfl⟩

/-! ## Strings and loops -/

/-- A string in registers: its length in D n, its address in D (n + 1). -/
def str (n : Nat) (len addr : Quad) (g : GMachine) : GMachine :=
  (g.writeReg (.dr n) len).writeReg (.dr (n + 1)) addr

/-- Two strings: lengths and addresses in D1 to D4. -/
def two (l1 a1 l2 a2 : Quad) (g : GMachine) : GMachine := str 3 l2 a2 (str 1 l1 a1 g)

/-- What a string instruction leaves: Z, C, and D1 to D4. -/
def left (g : GMachine) : Bool × Bool × List Quad :=
  (g.psw.z, g.psw.c, [1, 2, 3, 4].map fun r => g.readReg (.dr r))

/-- The machine after MOVC over D1 to D4 with FILL 0x2A. -/
def movc (g : GMachine) : GMachine :=
  gen (.gMovc .l16 (.regdir 1) (.regdir 2) (.imm 0x2A) (.regdir 3) (.regdir 4)) g

theorem test_gMovc_ST1 : let t := movc (two 3 0x100 5 0x200 (fill .l8 0x100 [0x41, 0x42, 0x43] g8))
    chars t 0x200 5 = [0x41, 0x42, 0x43, 0x2A, 0x2A] ∧
    left t = (false, true, [0, 0x103, 0, 0x205]) := by decide

theorem test_gMovc_ST3 : let t := movc (two 3 0x100 2 0x200 (fill .l8 0x100 [0x41, 0x42, 0x43] g8))
    chars t 0x200 3 = [0x41, 0x42, 0] ∧ left t = (false, false, [1, 0x102, 0, 0x202]) := by decide

/-- ST6 and ST7: overlapping strings. -/
theorem test_gMovc_overlap : let m := fill .l8 0x100 [0x41, 0x42, 0x43, 0x44] g8
    chars (movc (two 3 0x100 3 0x101 m)) 0x100 4 = [0x41, 0x41, 0x41, 0x41] ∧
    chars (movc (two 3 0x101 3 0x100 m)) 0x100 4 = [0x42, 0x43, 0x44, 0x44] := by decide

/-- 46_string.md R282, 92_eei_decisions.md D41: the length held at 0x101, inside the string; the update after
the first character is what the second one is. -/
theorem test_gMovc_over_length :
    let t := gen (.gMovc .l8 (.memdir 0x101) (.regdir 2) (.imm 0x2A) (.regdir 3) (.regdir 4))
      (two 0 0x100 3 0x200 (fill .l8 0x100 [0x41, 3, 0x43] g8))
    chars t 0x200 3 = [0x41, 2, 0x43] ∧ t.readData .l8 0x101 = 0 := by decide

/-- 46_string.md R281, R282: one location is both lengths, so every character takes two from it. -/
theorem test_gMovc_one_length :
    let t := gen (.gMovc .l16 (.regdir 1) (.regdir 2) (.imm 0x2A) (.regdir 1) (.regdir 4))
      (two 4 0x100 0 0x200 (fill .l8 0x100 [0x41, 0x42, 0x43, 0x44] g8))
    chars t 0x200 3 = [0x41, 0x42, 0] ∧ left t = (true, false, [0, 0x102, 0, 0x202]) := by decide

theorem test_gMovtc_ST8 :
    let t := gen (.gMovtc .l16 (.regdir 1) (.regdir 2) (.imm 0x20) (.imm 0x300) (.regdir 3) (.regdir 4))
      (two 2 0x100 3 0x200 (fill .l8 0x100 [0x61, 0x62] (fill .l8 0x361 [0x41, 0x42] g8)))
    chars t 0x200 3 = [0x41, 0x42, 0x20] ∧ left t = (false, true, [0, 0x102, 0, 0x203]) := by decide

/-- What CMPC over D1 to D4 with FILL 0x20 leaves. -/
def cmpc (g : GMachine) : Bool × Bool × List Quad :=
  left (gen (.gCmpc .l16 (.regdir 1) (.regdir 2) (.imm 0x20) (.regdir 3) (.regdir 4)) g)

/-- ST9, ST11, ST12 and ST13. -/
theorem test_gCmpc_ST9 :
    cmpc (two 3 0x100 3 0x200 (fill .l8 0x100 [0x41, 0x42, 0x43] (fill .l8 0x200 [0x41, 0x42, 0x44] g8))) =
      (false, true, [0, 0x103, 0, 0x203]) ∧
    cmpc (two 2 0x100 3 0x200 (fill .l8 0x100 [0x41, 0x42] (fill .l8 0x200 [0x41, 0x42, 0x20] g8))) =
      (true, false, [0, 0x102, 0, 0x203]) := by decide

theorem test_gCmpc_ST13 :
    cmpc (two 2 0x100 3 0x200 (fill .l8 0x100 [0x41, 0x42] (fill .l8 0x200 [0x41, 0x42, 0x43] g8))) =
      (false, true, [0, 0x102, 0, 0x203]) ∧
    cmpc (two 3 0x100 3 0x200 (fill .l8 0x100 [0x41, 0x58, 0x43] (fill .l8 0x200 [0x41, 0x42, 0x43] g8))) =
      (false, false, [1, 0x102, 1, 0x202]) := by decide

/-- ST15, ST16 and ST17. -/
theorem test_gLocc_ST15 : let m := fill .l8 0x100 [0x61, 0x62, 0x63, 0x64] g8
    let t := fun n c => left (gen (.gLocc .l16 (.regdir 1) (.regdir 2) (.imm c)) (str 1 n 0x100 m))
    t 4 0x63 = (false, false, [1, 0x103, 0, 0]) ∧ t 4 0x7A = (true, false, [0, 0x104, 0, 0]) ∧
    t 0 0x61 = (true, false, [0, 0x100, 0, 0]) := by decide

/-- 46_string.md R285: the length, 4, held at 0x105, has become 2 when the scan meets it. -/
theorem test_gLocc_over_length :
    let t := gen (.gLocc .l8 (.memdir 0x105) (.regdir 2) (.imm 2))
      ((fill .l8 0x103 [9, 9, 4, 9] g8).writeReg (.dr 2) 0x103)
    t.psw.z = false ∧ t.readReg (.dr 2) = 0x106 ∧ t.readData .l8 0x105 = 1 := by decide

/-- ST18 and ST19. -/
theorem test_gSkpc_ST18 : let m := fill .l8 0x100 [0x20, 0x20, 0x78, 0x79] g8
    let t := fun n => left (gen (.gSkpc .l16 (.regdir 1) (.regdir 2) (.imm 0x20)) (str 1 n 0x100 m))
    t 4 = (false, false, [1, 0x103, 0, 0]) ∧ t 2 = (true, false, [0, 0x102, 0, 0]) := by decide

/-- ST20 to ST23. -/
theorem test_gMatchc_ST20 : let m := fill .l8 0x100 [0x68, 0x65, 0x6C, 0x6C, 0x6F] g8
    let t := fun n k sub => let u := left (gen (.gMatchc .l16 (.regdir 1) (.regdir 2) (.regdir 3) (.regdir 4))
        (two n 0x100 k 0x200 (fill .l8 0x200 sub m))); (u.1, u.2.1, u.2.2.take 2)
    t 5 2 [0x6C, 0x6C] = (false, false, [3, 0x102]) ∧
    t 5 2 [0x6C, 0x78] = (true, false, [1, 0x104]) ∧
    t 2 3 [0x68, 0x65, 0x6C] = (true, false, [2, 0x100]) ∧ t 2 0 [] = (false, false, [2, 0x100]) := by
  decide

/-- The index in D1 and PC after a loop instruction with PC = 0x100. -/
def looped (i : Instr) (index : Quad) : Quad × Quad :=
  let t := gen i { g16.writeReg (.dr 1) index with pc := 0x100 }
  (t.readReg (.dr 1), t.pc)

/-- LC1 to LC4. -/
theorem test_gAcb_LC1 :
    let acb := fun l s => Instr.gAcb .l16 (.imm l) (.imm s) (.regdir 1) 0x20
    looped (acb 10 2) 8 = (10, 0x120) ∧ looped (acb 10 2) 10 = (10, 0x100) ∧
    looped (acb 0 1) 0xFFFD = (0xFFFE, 0x120) ∧ looped (acb 0x7FFF 1) 0x7FFF = (0x8000, 0x120) := by
  decide

/-- LC5 and LC6. -/
theorem test_gAob_LC5 : looped (.gAob .l16 (.imm 3) (.regdir 1) 0x20) 2 = (3, 0x120) ∧
    looped (.gAob .l16 (.imm 3) (.regdir 1) 0x20) 3 = (3, 0x100) := by decide

/-- LC7 to LC9. -/
theorem test_gSob_LC7 : looped (.gSob .l16 (.regdir 1) 0x20) 2 = (1, 0x120) ∧
    looped (.gSob .l16 (.regdir 1) 0x20) 1 = (0, 0x120) ∧
    looped (.gSob .l16 (.regdir 1) 0x20) 0 = (0, 0x100) := by decide

/-- LC10 to LC13; the table stands at T = 0x100. -/
theorem test_gCase_LC10 :
    let t := fun v => (gen (.gCase .l16 (.imm v) (.imm 1) (.imm 3))
      { fill .l16 0x100 [10, 20, 30] g16 with pc := 0x100 }).pc
    t 2 = 0x100 + 20 ∧ t 5 = 0x103 ∧ t 0 = 0x103 ∧ t 1 = 0x100 + 10 := by decide

/-- LC14 to LC18. -/
theorem test_gBbs_LC14 :
    let t := fun i (b : Quad) => (gen i { fill .l8 40 [b] g8 with pc := 0x100 }).pc
    t (.gBbs (.imm 40) (.imm 3) 0x20) 8 = 0x120 ∧ t (.gBbs (.imm 40) (.imm 2) 0x20) 8 = 0x100 ∧
    t (.gBbc (.imm 40) (.imm 2) 0x20) 8 = 0x120 ∧ t (.gBbc (.imm 40) (.imm 3) 0x20) 8 = 0x100 ∧
    t (.gBbs (.imm 40) (.imm 7) 0x20) 0x80 = 0x120 := by decide

/-- The refusals of 93_implementation_defined.md U3, U4 and U11. -/
theorem test_refusals :
    exec (.gCase .l16 (.imm 2) (.imm 3) (.imm 2)) State.reset = .refused .caseBaseAboveLimit ∧
    exec (.gBbs (.imm 40) (.imm 8) 0x20) State.reset = .refused .bitPositionOutsideByte ∧
    exec (.gBbc (.imm 40) (.imm 8) 0x20) State.reset = .refused .bitPositionOutsideByte ∧
    step { rc with prins := true } = .refused .requestAtBoundary := ⟨rfl, rfl, rfl, rfl⟩

/-! ## Data representations -/

/-- Section 1.1. -/
theorem test_readings_of_one_word : unsignedValue 0b10000011#8 = 131 ∧
    signMagnitudeValue 0b10000011#8 = -3 ∧ onesComplementValue 0b10000011#8 = -124 ∧
    twosComplementValue 0b10000011#8 = -125 ∧ unsignedPackedValue 0 [0b10000011] = some 83 := by decide

/-- R83 and R86: a 20-bit address fits a machine of 20-bit addresses and no machine of 16-bit ones; a
variable-length integer is no longer than the longest fixed length, which is 8, 16, 32 or 64 bits. -/
theorem test_described_operands :
    let v (size : Len) : VariableInteger := { addr := 0xABCDE, position := 3, size := size }
    (v ⟨31⟩).legal ⟨19⟩ .l32 = true ∧ (v ⟨32⟩).legal ⟨19⟩ .l32 = false ∧
    (v ⟨31⟩).legal .l16 .l32 = false ∧ (v ⟨7⟩).legal ⟨19⟩ ⟨19⟩ = false ∧
    StringDescriptor.legal ⟨19⟩ { addr := 0xFFFFF, length := 4 } = true ∧
    StringDescriptor.legal ⟨19⟩ { addr := 0x100000, length := 4 } = false := by decide

/-- R114 and R121 with 16-bit addresses: of a 32-bit register the low 16 bits, an 8-bit one extended with
zeros and stepped at its own width (note 17). -/
theorem test_address_register_width :
    let g (width : Len) (v : Quad) := { GMachine.reset with
      cfg := { GConfig.reset with gpr := { count := 1, width := width }, regorg := .gpr }, gpr := [v] }
    ((g .l32 0x12345678).place (.regind 0)).1 = .mem 0x5678 ∧
    ((g .l8 0x80).place (.regind 0)).1 = .mem 0x80 ∧
    ((g .l8 0xFF).place (.preinc 0)).1 = .mem 0 := by decide

/-- DR6, DR7, DR8, DR10, DR11, DR12 and DR14. -/
theorem test_floating_point :
    float32Value 0x3F800000 = .finite false (2 ^ 23) (-23) ∧
    float32Value 0xC0400000 = .finite true (3 * 2 ^ 22) (-22) ∧
    float32Value 0x7F800000 = .infinity false ∧ float32Value 0xFFC00000 = .notANumber ∧
    float32Value 0x00000001 = .finite false 1 (-149) ∧
    float32Value 0x00400000 = .finite false (2 ^ 22) (-149) ∧
    float32Value 0x00800000 = .finite false (2 ^ 23) (-149) := by decide

/-- Section 1.3 and DR15 to DR18. -/
theorem test_numeric_strings :
    trailingValue 0 [0x31, 0x32, 0x33] = some 123 ∧
    trailingValue 0 [0x31, 0x32, 0x73] = some (-123) ∧
    trailingValue 0 [0x71, 0x72, 0x73] = some (-123) ∧ trailingValue 0 [0x71, 0x32] = some 12 ∧
    leadingValue [0x2B, 0x31, 0x32, 0x33] = some 123 ∧ leadingValue [0x2D, 0x37] = some (-7) ∧
    leadingValue [0x2B] = none ∧ leadingValue [0x31, 0x32] = none ∧
    packedValue 0 [0x12, 0x3C] = some 123 ∧ packedValue 0 [0x01, 0x2D] = some (-12) ∧
    packedValue 0 [0x98, 0x7D] = some (-987) ∧ packedValue 0 [0x5C] = some 5 := by decide

/-! ## One step of the RC, sections 2.2 to 2.10 of the vectors -/

theorem test_ldb_T2 : let t := run (code (rc.setReg 3 0x12AB) [0x60, 0x03]);
    t.ab = 0xAB := by decide

theorem test_ldw_T5 :
    let t := run (code (rc.writeBytes 0x2000 [0xAB, 0xCD]) [0x61, 0x20, 0x20, 0x00]);
    t.aw = 0xABCD := by decide

theorem test_ldw_T7 :
    let t := run (code ((rc.writeBytes 0xFFFF
      [0x12]).writeBytes 0 [0x34]) [0x61, 0x20, 0xFF, 0xFF]);
    t.aw = 0x1234 := by decide

theorem test_stb_T8 : let t := run (code ({ rc with ab := 0x5A }.setReg 3 0x1234) [0x62, 0x03]);
    t.reg 3 = 0x125A := by decide

theorem test_stw_T12 : let t := run (code { rc with aw := 0x1234 } [0x63, 0x20, 0xFF, 0xFF]);
    t.readByte 0 = 0x34 ∧ t.readByte 0xFFFF = 0x12 := by decide

theorem test_stw_T13 :
    let t := run (code ({ rc with aw := 0x1234 }.setReg 5 0x4000) [0x63, 0x75]);
    t.reg 5 = 0x4001 ∧ t.readByte 0x4000 = 0x12 ∧ t.readByte 0x4001 = 0x34 := by decide

theorem test_stimr_T14 : let t := run (code { rc with aw := 0xFE, psw := psw 0xF } [0x07]);
    t.imr = 0xFE := by decide

theorem test_stivtp_T15 :
    let t := run (code { rc with aw := 0x1000, psw := psw 0xF, ivtp := 0 } [0x08]);
    t.ivtp = 0x1000 := by decide

theorem test_stb_entry_T16 :
    let t := run (code ({ rc with ab := 0x5A }.writeBytes 0x1004
      [0x71, 0]) [0x62, 0xB0, 0x01]);
    t.pc = 0x7100 ∧ t.sp = 0x8004 ∧ t.readByte 0x8001 = 0x2 ∧ t.readByte 0x8002 =
    0x2 ∧ t.readByte 0x8003 = 0 ∧ t.readByte 0x8004 = 0 := by decide

theorem test_add_A3 : let t := run (code { rc with ab := 0x80 } [0x70, 0xB0, 0x80]);
    t.ab = 0 ∧ t.psw.word = 0xE := by decide

theorem test_sub_A10 : let t := run (code { rc with ab := 0x7F } [0x71, 0xB0, 0xFF]);
    t.ab = 0x80 ∧ t.psw.word = 0xD := by decide

theorem test_sub_A11 : let t := run (code { rc with ab := 0x50 } [0x71, 0xB0, 0xF0]);
    t.ab = 0x60 ∧ t.psw.word = 0x4 := by decide

theorem test_add_A13 :
    let t := run (code (({ rc with ab := 0x10 }.setReg 2 0x100).writeBytes 0x110
      [0x22]) [0x70, 0x42, 0x00, 0x10]);
    t.ab = 0x32 := by decide

theorem test_inc_A16 : let t := run (code (rc.setReg 4 0x12FF) [0x72, 0x04]);
    t.reg 4 = 0x1200 ∧ t.psw.word = 0x6 := by decide

theorem test_dec_A17 : let t := run (code (rc.writeBytes 0x3000 [0]) [0x73, 0x20, 0x30, 0x00]);
    t.psw.word = 0x5 ∧ t.readByte 0x3000 = 0xFF := by decide

theorem test_cmp_A26 : let t := run (code { rc with ab := 0x20 } [0x74, 0xB0, 0xA0]);
    t.psw.word = 0xD := by decide

theorem test_cmp_A27 : let t := run (code { rc with ab := 0x80 } [0x74, 0xB0, 0x7F]);
    t.psw.word = 0x8 := by decide

theorem test_and_L1 :
    let t := run (code { rc with psw := psw 0xC, ab := 0xF0 } [0x80, 0xB0, 0x3C]);
    t.ab = 0x30 ∧ t.psw.word = 0 := by decide

theorem test_and_L2 :
    let t := run (code { rc with psw := psw 0xC, ab := 0xF0 } [0x80, 0xB0, 0x0F]);
    t.ab = 0 ∧ t.psw.word = 0x2 := by decide

theorem test_or_L3 :
    let t := run (code { rc with psw := psw 0xC, ab := 0x81 } [0x81, 0xB0, 0x0E]);
    t.ab = 0x8F ∧ t.psw.word = 0x1 := by decide

theorem test_xor_L5 :
    let t := run (code { rc with psw := psw 0xC, ab := 0x55 } [0x82, 0xB0, 0x55]);
    t.ab = 0 ∧ t.psw.word = 0x2 := by decide

theorem test_xor_L6 :
    let t := run (code { rc with psw := psw 0xC, ab := 0x55 } [0x82, 0xB0, 0xFF]);
    t.ab = 0xAA ∧ t.psw.word = 0x1 := by decide

theorem test_not_L7 :
    let t := run (code ({ rc with psw := psw 0xC, ab := 0x33 }.setReg 1 0xAB0F) [0x83, 0x01]);
    t.reg 1 = 0xABF0 ∧ t.psw.word = 0x1 := by decide

theorem test_not_L8 :
    let t := run (code ({ rc with psw := psw 0xC }.writeBytes 0x3000
      [0xFF]) [0x83, 0x20, 0x30, 0x00]);
    t.psw.word = 0x2 ∧ t.readByte 0x3000 = 0 := by decide

theorem test_tst_L9 :
    let t := run (code { rc with psw := psw 0xC, ab := 0x80 } [0x84, 0xB0, 0x80]);
    t.psw.word = 0x1 := by decide

theorem test_tst_L10 :
    let t := run (code ({ rc with psw := psw 0xC, ab := 0xF }.writeBytes 0x3000
      [0xF0]) [0x84, 0x20, 0x30, 0x00]);
    t.psw.word = 0x2 := by decide

theorem test_asr_S1 :
    let t := run (code ({ rc with psw := psw 0x8 }.setReg 1 0xAB81) [0x90, 0x01]);
    t.reg 1 = 0xABC0 ∧ t.psw.word = 0x5 := by decide

theorem test_lsr_S5 :
    let t := run (code ({ rc with psw := psw 0x8 }.setReg 1 0xAB81) [0x91, 0x01]);
    t.reg 1 = 0xAB40 ∧ t.psw.word = 0x4 := by decide

theorem test_ror_S9 :
    let t := run (code ({ rc with psw := psw 0x8 }.setReg 1 0xAB81) [0x92, 0x01]);
    t.reg 1 = 0xABC0 ∧ t.psw.word = 0x5 := by decide

theorem test_ror_S10 :
    let t := run (code ({ rc with psw := psw 0x4 }.setReg 1 0xAB01) [0x92, 0x01]);
    t.reg 1 = 0xAB80 ∧ t.psw.word = 0x5 := by decide

theorem test_rorc_S13 :
    let t := run (code ({ rc with psw := psw 0x8 }.setReg 1 0xAB81) [0x93, 0x01]);
    t.reg 1 = 0xAB40 ∧ t.psw.word = 0x4 := by decide

theorem test_rorc_S16 :
    let t := run (code ({ rc with psw := psw 0x4 }.setReg 1 0xAB00) [0x93, 0x01]);
    t.reg 1 = 0xAB80 ∧ t.psw.word = 0x1 := by decide

theorem test_asl_S17 :
    let t := run (code ({ rc with psw := psw 0x8 }.setReg 1 0xAB81) [0x94, 0x01]);
    t.reg 1 = 0xAB02 ∧ t.psw.word = 0x4 := by decide

theorem test_asl_S19 : let t := run (code (rc.setReg 1 0xAB80) [0x94, 0x01]);
    t.reg 1 = 0xAB00 ∧ t.psw.word = 0x6 := by decide

theorem test_rol_S26 :
    let t := run (code ({ rc with psw := psw 0x4 }.setReg 1 0xAB01) [0x96, 0x01]);
    t.reg 1 = 0xAB02 ∧ t.psw.word = 0 := by decide

theorem test_rol_S27 : let t := run (code (rc.setReg 1 0xAB80) [0x96, 0x01]);
    t.reg 1 = 0xAB01 ∧ t.psw.word = 0x4 := by decide

theorem test_rolc_S29 :
    let t := run (code ({ rc with psw := psw 0x8 }.setReg 1 0xAB81) [0x97, 0x01]);
    t.reg 1 = 0xAB02 ∧ t.psw.word = 0x4 := by decide

theorem test_asr_S33 :
    let t := run (code (rc.writeBytes 0x3000 [0x82]) [0x90, 0x20, 0x30, 0x00]);
    t.psw.word = 0x1 ∧ t.readByte 0x3000 = 0xC1 := by decide

theorem test_rolc_S34 :
    let t := run (code (({ rc with psw := psw 0x4 }.setReg 6 0x3000).writeBytes 0x3000
      [0x40]) [0x97, 0x16]);
    t.psw.word = 0x1 ∧ t.readByte 0x3000 = 0x81 := by decide

theorem test_jmp_J1 : let t := run (code { rc with pc := 0x100 } [0x30, 0x12, 0x34]);
    t.pc = 0x1234 := by decide

theorem test_jsr_J2 : let t := run (code { rc with pc := 0x100 } [0x31, 0x20, 0x00]);
    t.pc = 0x2000 ∧ t.sp = 0x8002 ∧ t.readByte 0x8001 = 0x1 ∧ t.readByte 0x8002 =
    0x3 := by decide

theorem test_rts_J3 :
    let t := run (code ({ rc with sp := 0x8002, pc := 0x2005 }.writeBytes 0x8001
      [0x1, 0x3]) [0x09]);
    t.pc = 0x103 ∧ t.sp = 0x8000 := by decide

theorem test_jsr_J4 :
    let t := run (code { rc with sp := 0xFFFF, pc := 0xFFFE } [0x31, 0x20, 0x00]);
    t.pc = 0x2000 ∧ t.sp = 0x1 ∧ t.readByte 0 = 0 ∧ t.readByte 0x1 = 0x1 := by decide

theorem test_beql_J5 : let t := run (code { rc with psw := psw 0x2 } [0x20, 0x10]);
    t.pc = 0x212 := by decide

theorem test_bneq_J7 : let t := run (code rc [0x21, 0xFC]);
    t.pc = 0x1FE := by decide

theorem test_bneg_J9 : let t := run (code { rc with psw := psw 0x1 } [0x2A, 0x7F]);
    t.pc = 0x281 := by decide

theorem test_bnng_J10 : let t := run (code rc [0x2B, 0x80]);
    t.pc = 0x182 := by decide

theorem test_bnvf_J12 : let t := run (code { rc with pc := 0x10 } [0x2D, 0x80]);
    t.pc = 0xFF92 := by decide

theorem test_jeql_J13 : let t := run (code { rc with psw := psw 0x2 } [0x40, 0x12, 0x34]);
    t.pc = 0x1234 := by decide

theorem test_jneq_J14 : let t := run (code { rc with psw := psw 0x2 } [0x41, 0x12, 0x34]);
    t.pc = 0x203 := by decide

theorem test_jovf_J15 : let t := run (code { rc with psw := psw 0x8 } [0x4C, 0xAB, 0xCD]);
    t.pc = 0xABCD := by decide

theorem test_jmpind_J18 :
    let t := run (code (rc.writeBytes 0x1234 [0x35, 0x79]) [0x50, 0x30, 0x12, 0x34]);
    t.pc = 0x3579 := by decide

theorem test_jmpind_J21 : let t := run (code (rc.setReg 2 0x3579) [0x50, 0x62]);
    t.pc = 0x357A ∧ t.reg 2 = 0x357A := by decide

theorem test_jmpind_entry_J24 :
    let t := run (code ((rc.setReg 5 0x3579).writeBytes 0x1004 [0x71, 0]) [0x50, 0x05]);
    t.pc = 0x7100 ∧ t.sp = 0x8004 ∧ t.readByte 0x8001 = 0x2 ∧ t.readByte 0x8002 =
    0x2 ∧ t.readByte 0x8003 = 0 ∧ t.readByte 0x8004 = 0 := by decide

theorem test_nop_entry_M1 :
    let t := run (code ({ rc with pc := 0x100, psw := psw 0x604F }.writeBytes 0x1000
      [0x60, 0]) [0x00]);
    t.pc = 0x6000 ∧ t.sp = 0x8004 ∧ t.psw.word = 0x204F ∧ t.readByte 0x8001 = 0x1 ∧
    t.readByte 0x8002 = 0x1 ∧ t.readByte 0x8003 = 0x60 ∧ t.readByte 0x8004 = 0x4F := by decide

theorem test_prpd_entry_M2 :
    let t := run (code ({ rc with pc := 0x100, psw := psw 0xE07F }.writeBytes 0x1000
      [0x60, 0]) [0x01]);
    t.pc = 0x6000 ∧ t.sp = 0x8004 ∧ t.psw.word = 0x7F ∧ t.readByte 0x8001 = 0x1 ∧
    t.readByte 0x8002 = 0x1 ∧ t.readByte 0x8003 = 0xC0 ∧ t.readByte 0x8004 = 0x7F := by decide

theorem test_prpe_M3 :
    let t := run (code ({ rc with pc := 0x100 }.writeBytes 0x1000 [0x60, 0]) [0x02]);
    t.psw.word = 0x2000 := by decide

theorem test_intd_M4 :
    let t := run (code ({ rc with pc := 0x100, psw := psw 0xA07F }.writeBytes 0x1000
      [0x60, 0]) [0x03]);
    t.psw.word = 0x207F := by decide

theorem test_inte_M5 :
    let t := run (code ({ rc with pc := 0x100, psw := psw 0x2 }.writeBytes 0x1000
      [0x60, 0]) [0x04]);
    t.psw.word = 0x8002 := by decide

theorem test_trpd_M6 :
    let t := run (code ({ rc with pc := 0x100, psw := psw 0x4000 }.writeBytes 0x1000
      [0x60, 0]) [0x05]);
    t.psw.word = 0 := by decide

theorem test_trpe_entry_M8 :
    let t := run (code ({ rc with pc := 0x100 }.writeBytes 0x1000 [0x60, 0]) [0x06]);
    t.pc = 0x6000 ∧ t.sp = 0x8004 ∧ t.readByte 0x8001 = 0x1 ∧ t.readByte 0x8002 =
    0x1 ∧ t.readByte 0x8003 = 0x40 ∧ t.readByte 0x8004 = 0 := by decide

theorem test_ldb_AM10 :
    let t := run (code (((rc.setReg 3 0x3000).writeBytes 0x3000
      [0x11, 0x22, 0x33, 0x44]).writeBytes 0x4000 [0x30, 0x2]) [0x60, 0x63]);
    t.ab = 0x22 ∧ t.reg 3 = 0x3001 ∧ t.psw.word = 0 := by decide

theorem test_inc_AM21 :
    let t := run (code (((rc.setReg 3 0x3000).writeBytes 0x3000
      [0x11, 0x22, 0x33, 0x44]).writeBytes 0x4000 [0x30, 0x2]) [0x72, 0x73]);
    t.reg 3 = 0x3001 ∧ t.readByte 0x3000 = 0x12 := by decide

theorem test_dec_AM22 :
    let t := run (code ((rc.writeBytes 0x3000
      [0x11, 0x22, 0x33, 0x44]).writeBytes 0x4000 [0x30, 0x2]) [0x73, 0x30, 0x40, 0x00]);
    t.readByte 0x3002 = 0x32 := by decide

theorem test_stb_AM23 :
    let t := run (code ((({ rc with ab := 0x99 }.setReg 3 0x3001).writeBytes 0x3000
      [0x11, 0x22, 0x33, 0x44]).writeBytes 0x4000 [0x30, 0x2]) [0x62, 0x83]);
    t.reg 3 = 0x3000 ∧ t.readByte 0x3000 = 0x99 := by decide

theorem test_prcod_entry_F1 :
    let t := run (code ({ rc with psw := psw 0x8005, pc := 0x300 }.writeBytes 0x1006
      [0x70, 0]) [0x0B]);
    t.pc = 0x7000 ∧ t.sp = 0x8004 ∧ t.psw.word = 0x5 ∧ t.readByte 0x8001 = 0x3 ∧
    t.readByte 0x8002 = 0x1 ∧ t.readByte 0x8003 = 0x80 ∧ t.readByte 0x8004 = 0x5 := by decide

theorem test_prcod_entry_F10 :
    let t := run (code ({ rc with psw := psw 0x8005, pc := 0xFFFF }.writeBytes 0x1006
      [0x70, 0]) [0xFF]);
    t.pc = 0x7000 ∧ t.sp = 0x8004 ∧ t.psw.word = 0x5 ∧ t.readByte 0x8001 = 0 ∧
    t.readByte 0x8002 = 0 ∧ t.readByte 0x8003 = 0x80 ∧ t.readByte 0x8004 = 0x5 := by decide

theorem test_service_I1 :
    let t := run (code ({ rc with psw := psw 0x8000, imr := 0x8, printr := 4 }.writeBytes 0x1016
      [0x40, 0]) [0x00]);
    t.pc = 0x4000 ∧ t.sp = 0x8004 ∧ t.printr.getLsbD 2 = false ∧ t.psw.word = 0x30 ∧
    t.readByte 0x8001 = 0x2 ∧ t.readByte 0x8002 = 0x1 ∧ t.readByte 0x8003 = 0x80 ∧
    t.readByte 0x8004 = 0 := by decide

theorem test_no_service_I4 :
    let t := run (code ({ rc with psw := psw 0x8030, imr := 0x8, printr := 4 }.writeBytes 0x1016
      [0x40, 0]) [0x00]);
    t.pc = 0x201 := by decide

theorem test_service_I6 :
    let t := run (code
      ({ rc with psw := psw 0xA000, imr := 0xFE, printr := 18, vec := rc.vec.set 4 0x40 }.writeBytes 0x1080
      [0x55, 0]) [0x00]);
    t.pc = 0x5500 ∧ t.sp = 0x8004 ∧ t.printr.getLsbD 4 = false ∧ t.psw.word = 0x2050
    ∧ t.readByte 0x8001 = 0x2 ∧ t.readByte 0x8002 = 0x1 ∧ t.readByte 0x8003 = 0xA0 ∧
    t.readByte 0x8004 = 0 := by decide

theorem test_service_I8 :
    let t := run (code
      ({ rc with psw := psw 0x8060, imr := 0x80, env := [pulse false 64] }.writeBytes 0x101E
      [0x47, 0]) [0x00]);
    t.pc = 0x4700 ∧ t.sp = 0x8004 ∧ t.psw.word = 0x70 ∧ t.readByte 0x8001 = 0x2 ∧
    t.readByte 0x8002 = 0x1 ∧ t.readByte 0x8003 = 0x80 ∧ t.readByte 0x8004 = 0x60 := by decide

theorem test_inte_entry_I11 :
    let t := run (code ({ rc with psw := psw 0xC000, prinm := true }.writeBytes 0x1002
      [0x72, 0]) [0x04]);
    t.pc = 0x7200 ∧ t.sp = 0x8004 ∧ t.prinm = false ∧ t.psw.word = 0 ∧ t.readByte
    0x8001 = 0x2 ∧ t.readByte 0x8002 = 0x1 ∧ t.readByte 0x8003 = 0xC0 ∧ t.readByte
    0x8004 = 0 := by decide

theorem test_service_I12 :
    let t := run (code ({ rc with env := [pulse true 0] }.writeBytes 0x1002 [0x72, 0]) [0x00]);
    t.pc = 0x7200 ∧ t.sp = 0x8004 ∧ t.readByte 0x8001 = 0x2 ∧ t.readByte 0x8002 =
    0x1 ∧ t.readByte 0x8003 = 0 ∧ t.readByte 0x8004 = 0 := by decide

theorem test_int_entry_I16 :
    let t := run (code ({ rc with ivtp := 0xFF80 }.writeBytes 0x17E
      [0x12, 0x34]) [0x10, 0xFF]);
    t.pc = 0x1234 ∧ t.sp = 0x8004 ∧ t.readByte 0x8001 = 0x2 ∧ t.readByte 0x8002 =
    0x2 ∧ t.readByte 0x8003 = 0 ∧ t.readByte 0x8004 = 0 := by decide

theorem test_int_entry_I17 :
    let t := run (code ({ rc with sp := 0xFFFE, psw := psw 0x3 }.writeBytes 0x1000
      [0x60, 0]) [0x10, 0x00]);
    t.pc = 0x6000 ∧ t.sp = 0x2 ∧ t.readByte 0 = 0x2 ∧ t.readByte 0x1 = 0 ∧
    t.readByte 0x2 = 0x3 ∧ t.readByte 0xFFFF = 0x2 := by decide

theorem test_rti_I19 :
    let t := run (code ({ rc with pc := 0x6010 }.writeBytes 0x7FFD
      [0x2, 0x1, 0xFF, 0xFF]) [0x0A]);
    t.pc = 0x201 ∧ t.sp = 0x7FFC ∧ t.psw.word = 0xE07F := by decide

theorem test_rti_entry_I20 :
    let t := run (code
      (({ rc with pc := 0x6010, psw := psw 0x30, imr := 0x4, printr := 2 }.writeBytes 0x7FFD
      [0x2, 0x1, 0x80, 0]).writeBytes 0x1014 [0x44, 0]) [0x0A]);
    t.pc = 0x4400 ∧ t.printr.getLsbD 1 = false ∧ t.psw.word = 0x20 ∧ t.readByte
    0x7FFD = 0x2 ∧ t.readByte 0x7FFE = 0x1 ∧ t.readByte 0x7FFF = 0x80 ∧ t.readByte
    0x8000 = 0 := by decide

/-- Two device registers, at 0x7000 and 0x7001, and the bytes the environment answers their reads with. -/
def dev (bs : List Byte) : State := { rc with devices := [0x7000, 0x7001], aw := 0x1234, devIn := bs }

/-- 20_memory.md R68, R69: each read of a device register returns the environment's next byte, a write is
delivered. -/
theorem test_device :
    let t := run (code (dev [0x5A, 0x6B, 0x7C]) [0x61, 0x20, 0x70, 0x00])
    let u := run (code (dev []) [0x63, 0x20, 0x6F, 0xFF])
    t.aw = 0x5A6B ∧ t.devIn = [0x7C] ∧ t.devLog = [.read 0x7000 0x5A, .read 0x7001 0x6B] ∧
    u.devLog = [.write 0x7000 0x34] ∧ u.readByte 0x6FFF = 0x12 := by decide

/-- 20_memory.md R68, R77 (2), (3): the pointer and the operand are the same device register, which answers
each of the reads anew; (3), (4): INC reads before it writes. -/
theorem test_device_sequence :
    let t := run (code (dev [0x70, 0x00, 0x99]) [0x60, 0x30, 0x70, 0x00])
    let u := run (code (dev [0x0F, 0x55]) [0x72, 0x20, 0x70, 0x00])
    t.ab = 0x99 ∧ t.devLog = [.read 0x7000 0x70, .read 0x7001 0x00, .read 0x7000 0x99] ∧
    u.devLog = [.read 0x7000 0x0F, .write 0x7000 0x10] ∧ u.devIn = [0x55] := by decide

/-- 20_memory.md R77 (1): an illegal opcode takes one byte, an addressing error two, an instruction as many
as it is long. -/
theorem test_device_fetch :
    let t := fun bs => (run { dev bs with pc := 0x7000 }).devLog
    t [0xFF, 1] = [.read 0x7000 0xFF] ∧
    t [0x62, 0xB0, 1] = [.read 0x7000 0x62, .read 0x7001 0xB0] ∧ t [0, 1] = [.read 0x7000 0] := by decide

/-- 30_encoding.md R121: an address register of 8 bits holding FF is incremented to 00, and that is the
address. -/
theorem test_narrow_preinc :
    let g := { g8 with cfg := { g8.cfg with ar := { count := 1, width := .l8 } }, ar := [0xFF] }
    (g.place (.preinc 0)).1 = .mem 0 ∧ (g.place (.preinc 0)).2.ar = [0] ∧
    ({ g with ar := [0] }.place (.predec 0)).1 = .mem 0xFF := by decide

/-- 30_encoding.md R95: with all operands in registers a loop index is no memory location and there is no
string instruction; with all in memory it is no register. -/
theorem test_kinds :
    let c := fun k => { g8.cfg with arch := k }
    let aob := Instr.gAob .l8 (.regdir 1) (.regdir 2) 0
    (c .registerRegister).admits (.gAob .l8 (.regdir 1) (.memdir 2) 0) = false ∧
    (c .registerRegister).admits aob = true ∧ (c .memoryMemory).admits aob = false ∧
    (c .registerRegister).admits (.gLocc .l8 (.regdir 1) (.regdir 2) (.regdir 3)) = false ∧
    (c .registerRegister).admits (.gPush .l8 (.memdir 1)) = false ∧
    (c .registerRegister).admits (.gPop .l8 (.regdir 1)) = true ∧
    (c .memoryMemory).admits (.gPush .l8 (.imm 1)) = false ∧
    { c .registerRegister with fmt := .zeroAddress }.admits (.gInc .l8 .zero) = false ∧
    { c .memoryMemory with fmt := .zeroAddress }.admits (.gInc .l8 .zero) = true ∧
    { c .memoryMemory with fmt := .twoAddress .first }.admits (.gMov .l8 (.imm 1) (.memdir 2)) = false ∧
    (c .unrestricted).admits (.gLocc .l8 (.regdir 1) (.memdir 2) (.imm 3)) = true := by decide

/-! ## Witnesses: the hypotheses of every statement can be met, clause by clause -/

theorem witness_EncodingReadsBack :
    (Instr.ldw (.imm 0xFFFF)).wf = true ∧
    encode (.ldw (.imm 0xFFFF)) = some [0x61, 0xB0, 0xFF, 0xFF] ∧
    Instr.nop.wf = true ∧ encode .nop = some [0x00] := by decide

theorem witness_DecoderAnswersLegal :
    decode [0x00] = .ok (.nop, 1) ∧ encode .nop = some [0x00] ∧
    decode [0x63, 0xAF, 0xFF, 0xFF] = .ok (.stw (.pcpom 0xFFFF), 4) ∧
    encode (.stw (.pcpom 0xFFFF)) = some [0x63, 0xA0, 0xFF, 0xFF] := by decide

/-- Both sides of the statement, at the ends of the ranges of the table OPC. -/
theorem witness_IllegalOpcodesRefused :
    ([0x0B, 0x0F, 0x11, 0x1F, 0x2E, 0x2F, 0x32, 0x3F, 0x4E, 0x4F, 0x51, 0x5F, 0x64, 0x6F, 0x75, 0x7F,
      0x85, 0x8F, 0x98, 0xFF].all fun b => decode [b, 0, 0, 0] == .error .illegalOpcode) = true ∧
    ([0x00, 0x0A, 0x10, 0x20, 0x2D, 0x30, 0x31, 0x40, 0x4D, 0x50, 0x60, 0x63, 0x70, 0x74, 0x80, 0x84,
      0x90, 0x97].all fun b => decode [b, 0x10, 0, 0] != .error .illegalOpcode) = true := by decide

/-- Both sides of the statement, at the ends of its ranges. -/
theorem witness_IllegalModesRefused :
    ([(0x60, 0x50), (0x97, 0xC0), (0x50, 0xFF), (0x62, 0xB0), (0x73, 0xBF), (0x83, 0xB0), (0x90, 0xB0),
      (0x50, 0x0F)].all fun p => decode [p.1, p.2, 0, 0] == .error .illegalAddressing) = true ∧
    ([(0x60, 0x40), (0x97, 0x6F), (0x50, 0x10), (0x61, 0xB0), (0x74, 0xB0), (0x84, 0xBF), (0x62, 0xA0),
      (0x62, 0x00), (0x09, 0x50)].all
        fun p => decode [p.1, p.2, 0, 0] != .error .illegalAddressing) = true := by decide

theorem witness_RegisterNibbleIgnored :
    ((0x50#8).toNat = 0x50 ∨ (0x60 ≤ (0x50#8).toNat ∧ (0x50#8).toNat ≤ 0x63) ∨ 0x70 ≤ (0x50#8).toNat) ∧
    decode [0x50, 0x20, 1, 2] = decode [0x50, 0x2F, 1, 2] ∧
    decode [0x60, 0x30, 1, 2] = decode [0x60, 0x3F, 1, 2] ∧
    decode [0x63, 0xA1, 1, 2] = decode [0x63, 0xAE, 1, 2] ∧
    decode [0x70, 0xB0, 1, 2] = decode [0x70, 0xB8, 1, 2] := by decide

/-- The premises of `StepRunsDecoded` for a state and the bytes at its PC. -/
def fetches (s : State) (i : Instr) (n : Nat) : Prop :=
  s.boundary = true ∧ s.nextInput.1.start = true ∧
    decode (s.nextInput.2.loadBytes s.pc n).1 = .ok (i, n)

theorem witness_StepRunsDecoded :
    (fetches (code rc [0x60, 0xB0, 0x7F]) (.ldb (.imm 0x7F)) 3 ∧
      ∃ t, exec (.ldb (.imm 0x7F)) ((code rc [0x60, 0xB0, 0x7F]).nextInput.2.setPc 0x203) = .next t) ∧
    fetches { dev [0x04] with pc := 0x7000 } .inte 1 ∧
    fetches (code { rc with pc := 0xFFFF } [0x10, 0x25]) (.int 0x25) 2 ∧
    fetches (code { rc with pc := 0xFFFC } [0x63, 0x20, 0x30, 0x00]) (.stw (.memdir 0x3000)) 4 := by
  unfold fetches
  exact ⟨⟨by decide, _, rfl⟩, by decide, by decide, by decide⟩

theorem witness_StepAnswersOrIdles :
    rc.boundary = true ∧ { rc with start := false }.boundary = true ∧
    { rc with start := false }.nextInput.1.start = false ∧
    { rc with prins := true }.boundary = false ∧ { rc with prcod := true }.boundary = false ∧
    { rc with pradr := true }.boundary = false := by decide

theorem witness_IllegalOpcodeInterrupt : let s := code { rc with pc := 0xFFFF } [0xFF]
    s.boundary = true ∧ s.nextInput.1.start = true ∧ opcodeLayout (s.nextInput.2.load8 s.pc).1 = none :=
  ⟨by decide, by decide, rfl⟩

theorem witness_IllegalAddressingInterrupt : let s := code { rc with pc := 0xFFFF } [0x62, 0xB0]
    s.boundary = true ∧ s.nextInput.1.start = true ∧
    decode (s.nextInput.2.loadBytes s.pc 2).1 = .error .illegalAddressing := by decide

theorem witness_ExecKeepsInvariant :
    ({ rc with aw := 0x1234 }.ok = true ∧
      ∃ t, exec (.stw (.memdir 0xFFFF)) { rc with aw := 0x1234 } = .next t) ∧
    ({ rc with g := abc 1 2 3 }.ok = true ∧
      ∃ t, exec (.gAdd .l8 (.three (at8 0xA) (at8 0xB) (at8 0xC))) { rc with g := abc 1 2 3 } = .next t) :=
  ⟨⟨by decide, _, rfl⟩, by decide, _, rfl⟩

theorem witness_StepKeepsInvariant :
    (code rc [0x31, 0x20, 0x00]).ok = true ∧ ∃ t, step (code rc [0x31, 0x20, 0x00]) = .next t :=
  ⟨by decide, _, rfl⟩

theorem witness_LayersStayApart :
    (isGeneric (.jsr 0x2000) = false ∧ ∃ t, exec (.jsr 0x2000) rc = .next t) ∧
    (isGeneric (.gJsr 0x2000) = true ∧ ∃ t, exec (.gJsr 0x2000) rc = .next t) :=
  ⟨⟨by decide, _, rfl⟩, by decide, _, rfl⟩

/-- A word in memory over the end of the address space, and one in two device registers there, which have
two answers left. -/
theorem witness_MemoryReadsBack : (1#16 ≠ 0xFFFF#16 ∧ 1#16 ≠ 0xFFFF#16 + 1) ∧
    rc.isDevice 0xFFFF = false ∧ rc.isDevice (0xFFFF + 1) = false ∧
    (let s := { rc with devices := [0xFFFF, 0], devIn := [5, 6] }
     s.isDevice 0xFFFF = true ∧ s.isDevice (0xFFFF + 1) = true ∧ s.isDevice 1 = false ∧
     s.devIn = 5 :: [6] ∧ s.devIn = 5 :: 6 :: []) := by decide

theorem witness_SourceFrame :
    (Instr.xor ∈ [Instr.ldb, Instr.add, Instr.sub, Instr.cmp, Instr.and, Instr.or, Instr.xor, Instr.tst] ∧
      (∃ t, exec (.xor (.postinc 15)) rc = .next t) ∧
      autoRegister (Operand.postinc (w := 8) 15) ≠ some 14) ∧
    (∃ t, exec (.cmp (.imm 1)) rc = .next t) ∧ (∃ t, exec (.tst (.regdir 0)) rc = .next t) ∧
    (∃ t, exec (.ldb (.memind 0xFFFF)) rc = .next t) ∧
    (∃ t, exec (.ldw (.predec 0)) rc = .next t) ∧
    autoRegister (Operand.predec (w := 16) 0) ≠ some 15 :=
  ⟨⟨by simp, ⟨_, rfl⟩, by decide⟩, ⟨_, rfl⟩, ⟨_, rfl⟩, ⟨_, rfl⟩, ⟨_, rfl⟩, by decide⟩

theorem witness_DestinationFrame :
    ((Operand.regdir (w := 8) 3).isImm = false ∧ (∃ t, exec (.rolc (.regdir 3)) rc = .next t) ∧
      autoRegister (Operand.regdir (w := 8) 3) ≠ some 4 ∧
      (rc.place (Operand.regdir (w := 8) 3)).1 ≠ .reg 4 ∧
      (rc.place (Operand.regdir (w := 8) 3)).1 = .reg 3 ∧
      (rc.place (Operand.regdir (w := 8) 3)).1 ≠ .mem 0) ∧
    (∃ t, exec (.stb (.preinc 3)) rc = .next t) ∧
    ((∃ t, exec (.stw (.memdir 0xFFFF)) rc = .next t) ∧
      (rc.place (Operand.memdir (w := 16) 0xFFFF)).1 = .mem 0xFFFF ∧
      ∀ ea, (rc.place (Operand.regdir (w := 16) 0)).1 ≠ .mem ea) :=
  ⟨⟨by decide, ⟨_, rfl⟩, by decide, by decide, by decide, by decide⟩, ⟨_, rfl⟩, ⟨_, rfl⟩, by decide,
    fun _ h => nomatch h⟩

theorem witness_ImmediateDestinationTraps : rc.boundary = true ∧
    (∃ v, Instr.stw (.imm 1) = .stw (.imm v)) ∧ (∃ v, Instr.jmpind (.imm 1) = .jmpind (.imm v)) ∧
    (∃ r, Instr.jmpind (.regdir 15) = .jmpind (.regdir r)) :=
  ⟨by decide, ⟨_, rfl⟩, ⟨_, rfl⟩, ⟨_, rfl⟩⟩

/-- The smallest length, where the sign bit is the only bit. -/
theorem witness_FlagFunctions : 0 < 1 ∧ (addF 1#1 1#1).2.c = true ∧ (subF 0#1 1#1).2.c = true := by decide

theorem witness_IncDecNotResults :
    (Operand.regdir (w := 8) 15).isImm = false ∧ (Operand.postdec (w := 8) 0).isImm = false := by decide

theorem witness_ShiftResults :
    (Operand.regdir (w := 8) 0).isImm = false ∧ (Operand.pcpom (w := 8) 0xFFFE).isImm = false := by decide

/-- Every condition holds for some indicators and fails for some. -/
theorem witness_ConditionTable :
    (∀ cc, (∃ p, Taken p cc) ∧ ∃ p, ¬ Taken p cc) ∧
    ∃ t, exec (.cmp (.imm 0x80)) { rc with ab := 0x7F } = .next t := by
  refine ⟨fun cc => ?_, _, rfl⟩
  cases cc <;> constructor <;>
    first
    | exact ⟨psw 0, by unfold Taken; decide⟩
    | exact ⟨psw 1, by unfold Taken; decide⟩
    | exact ⟨psw 2, by unfold Taken; decide⟩
    | exact ⟨psw 4, by unfold Taken; decide⟩
    | exact ⟨psw 8, by unfold Taken; decide⟩

/-- A stack over the end of the address space, and one that a device register lies on. -/
theorem witness_SubroutineCalls : { rc with sp := 0xFFFE }.stackInMemory 2 = true ∧
    { rc with sp := 0xFFFE, devices := [0] }.stackInMemory 2 = false := by decide

theorem witness_ReturnFromInterrupt : { rc with sp := 0xFFFD, psw := psw 0xE07F }.stackInMemory 4 = true ∧
    ∃ t, exec (.int 0xFF) { rc with sp := 0xFFFD, psw := psw 0xE07F } = .next t :=
  ⟨by decide, _, rfl⟩

/-- The six disjuncts of the signal `prekid`, and a state with none. -/
theorem witness_ServicePhase :
    { rc with prins := true }.prins = true ∧ { rc with prcod := true }.prcod = true ∧
    { rc with pradr := true }.pradr = true ∧ { rc with prinm := true }.prinm = true ∧
    { rc with psw := psw 0x8060, printr := 64, imr := 0x80 }.printrSignal = true ∧
    ({ rc with psw := psw 0x4000 }.psw.t = true ∧ (false = false)) ∧
    ¬ (rc.prins = true ∨ rc.prcod = true ∨ rc.pradr = true ∨ rc.prinm = true ∨
      rc.printrSignal = true ∨ (rc.psw.t = true ∧ true = false)) := by decide

theorem witness_HighestLine :
    PendingLine { rc with printr := 64, imr := 0x80 } 7 ∧ PendingLine { rc with printr := 1, imr := 2 } 1 ∧
    ¬ ∃ k, PendingLine rc k := by
  refine ⟨by unfold PendingLine; decide, by unfold PendingLine; decide, ?_⟩
  rintro ⟨k, -, -, h, -⟩
  simp [rc, State.reset] at h

/-- Line 7 above level 6, line 7 not above level 7, and a line of level 1 with interrupts disabled. -/
theorem witness_MaskableAcceptance :
    { rc with psw := psw 0x8060, printr := 64, imr := 0x80 }.printrSignal = true ∧
    { rc with psw := psw 0x8070, printr := 64, imr := 0x80 }.printrSignal = false ∧
    { rc with psw := psw 0x0000, printr := 1, imr := 0x02 }.printrSignal = false := by decide

theorem witness_LevelUpdate :
    (let s := { rc with psw := psw 0x8060, printr := 65, imr := 0xFE }
     s.prins = false ∧ s.prcod = false ∧ s.pradr = false ∧ s.prinm = false ∧ s.printrSignal = true ∧
     s.isDevice (s.sp + 4) = false) ∧
    (let s := { rc with psw := psw 0x8000, printr := 1, imr := 0xFE, prinm := true }
     ¬ (s.prins = false ∧ s.prcod = false ∧ s.pradr = false ∧ s.prinm = false ∧
        s.printrSignal = true)) := by decide

/-- The premises of `TrapTiming` with an operation code. -/
theorem witness_TrapTiming :
    ∀ b ∈ [0x06#8, 0x0A#8], let s := code { rc with psw := psw 0x8000, imr := 0xFE } [b]
      s.boundary = true ∧ s.nextInput.1.start = true ∧ s.nextInput.1.inm = false ∧
      s.nextInput.1.intr = 0 ∧ s.prinm = false ∧ s.printr = 0 ∧ (s.nextInput.2.load8 s.pc).1 = b := by
  decide

theorem witness_GenericBasicModes :
    g8.cfg.regorg = .split ∧ GMachine.reset.cfg.regorg = .gpr := by decide

theorem witness_StackVariants :
    ([StackDir.up, .down].all fun d => [StackTop.lastOccupied, .firstFree].all fun p =>
      (stacked d p).span .l16 == 1 && (stacked d p).cfg.stackDir == d &&
        (stacked d p).cfg.stackTop == p) = true ∧
    (let g := { g8 with sp := 0xFFFF }; g.addr g.sp = g.sp ∧ g.span .l64 = 8 ∧ g.fits .l64) := by
  unfold GMachine.fits; decide

theorem witness_GenericTransfers :
    g8.operandsOk [.imm 5] [.postinc 15] = true ∧ g8.operandsOk [.memind 0xFFFF] [] = true ∧
    g8.operandsOk [] [.sp] = true ∧ (stacked .up .lastOccupied).cfg.stackTop = .lastOccupied ∧
    (stacked .down .firstFree).cfg.stackTop = .firstFree ∧
    (stacked .down .firstFree).operandsOk [] [.regdir 0] = true ∧
    (GOperand.imm 5).isImm = true ∧ g8.operandsOk [.imm 1] [.imm 5] = false ∧
    g8.operandsOk [.regindpom 0 1] [] = false ∧ g8.operandsOk [] [.imm 5] = false := by decide

theorem witness_GenericFrames :
    g8.autoRegister (.postinc 1) ≠ some (.ar 2) ∧
    (GPlace.mem 0xFFFF ≠ .reg .sp ∧ GPlace.mem 0xFFFF = .mem 0xFFFF ∧ ∀ ea, GPlace.reg .sp ≠ .mem ea) ∧
    (g8.present (.xr 15) ∧ g8.fits .l16) ∧
    ((1 : Quad) ≠ g8.addr (0xFFFF + 0) ∧ (1 : Quad) ≠ g8.addr (0xFFFF + 1) ∧ g8.span .l16 = 2) ∧
    (g8.operandsOk [.postinc 1] [.memdir 0xFFFF] = true ∧
      (∃ t, exec (.gMov .l16 (.postinc 1) (.memdir 0xFFFF)) { rc with g := g8 } = .next t) ∧
      ((g8.readOperand .l16 (.postinc 1)).2.place (.memdir 0xFFFF)).1 = .mem 0xFFFF ∧
      g8.autoRegister (.memdir 0xFFFF) ≠ some (.ar 2)) :=
  ⟨by decide, ⟨by decide, rfl, fun _ h => nomatch h⟩, by unfold GMachine.present GMachine.fits; decide,
    by decide, by decide, ⟨_, rfl⟩, by decide, by decide⟩

theorem witness_GenericPswTransfers :
    let g := { g8 with sp := 0xFFFF }
    g.addr g.sp = g.sp ∧ g.fits .l16 := by unfold GMachine.fits; decide

/-- The last register the processor has, and the number after it. -/
theorem witness_GenericIo :
    (gio.cfg.iospace = .separate ∧ gio.cfg.hasReg (gio.cfg.dataReg 15) = true ∧
      ∃ t, exec (.gOut 15 3) { rc with g := gio } = .next t) ∧
    gio.cfg.hasReg (gio.cfg.dataReg 16) = false ∧ g8.cfg.iospace = .memoryMapped :=
  ⟨⟨by decide, by decide, _, rfl⟩, by decide, by decide⟩

/-- The address formats the clauses of `GenericForms` set apart. -/
theorem witness_GenericForms :
    AddrFormat.threeAddress .a3 ≠ .threeAddress .a1 ∧ AddrFormat.twoAddress .both ≠ .twoAddress .second ∧
    AddrFormat.oneAndHalf ≠ .twoAddress .second := by decide

/-- The roles of a form's fields on `g8`. -/
def rolesOf (f : BinForm) : Roles := g8.cfg.fmt.roles f

/-- A form of each address format, whose operands are legal. -/
def legal : List BinForm := [.three (.imm 1) (.postinc 2) .fp, .two (.predec 15) (.imm 1),
  .twoSecond (.imm 1) (.xrdir 15), .one (.imm 1), .zero]

theorem witness_GenericArithmetic :
    (legal.all fun f => g8.operandsOk (rolesOf f).sources (rolesOf f).dests &&
      g8.operandsOk (compareRoles f).sources []) = true ∧
    g8.operandsOk (compareRoles (.one (.regindpom 0 1))).sources [] = false ∧
    g8.operandsOk (rolesOf (BinForm.two (.imm 1) .sp)).sources
      (rolesOf (BinForm.two (.imm 1) .sp)).dests = false := by decide

theorem witness_GenericLogic :
    (legal.all fun f => g8.operandsOk (rolesOf f).sources (rolesOf f).dests &&
      g8.operandsOk (compareRoles f).sources []) = true ∧
    g8.operandsOk (rolesOf (BinForm.three .sp .sp (.imm 1))).sources (rolesOf (BinForm.three .sp .sp (.imm 1))).dests
      = false ∧
    g8.operandsOk (compareRoles (.one (.regindpom 0 1))).sources [] = false ∧
    g8.operandsOk [.imm 1] [.regdir 0] = true ∧ g8.operandsOk [] [.memdir 0] = true ∧
    g8.operandsOk (UnForm.one (.imm 1)).sources (UnForm.one (.imm 1)).dests = false := by decide

theorem witness_GenericIncDec :
    g8.operandsOk [.imm 1] [.regdir 0] = true ∧ g8.operandsOk [] [.postdec 15] = true ∧
    g8.operandsOk (UnForm.two .sp (.imm 1)).sources (UnForm.two .sp (.imm 1)).dests = false := by
  decide

theorem witness_GenericShiftResults :
    g8.operandsOk [.imm 1] [.regdir 0] = true ∧ g8.operandsOk [] [.baseindex 0 1 2] = true ∧
    g8.operandsOk (UnForm.two (.regindpom 0 1) .sp).sources (UnForm.two (.regindpom 0 1) .sp).dests
      = false := by decide

theorem witness_GenericMulDiv :
    (legal.all fun f => g8.operandsOk (rolesOf f).sources (rolesOf f).dests) = true ∧
    g8.operandsOk (rolesOf (BinForm.one (.regindpom 0 1))).sources (rolesOf (BinForm.one (.regindpom 0 1))).dests
      = false := by decide

theorem witness_GenericJumps :
    (∀ cc, (∃ p, Taken p cc) ∧ ∃ p, ¬ Taken p cc) ∧
    (g8.cfg.available (.preinc 3) = true ∧ (g8.place (.preinc 3)).1 = .mem 1) ∧
    (GOperand.regdir 0).isMemory = false ∧ (GOperand.imm 0).isMemory = false ∧
    GOperand.sp.isMemory = false ∧ GOperand.fp.isMemory = false ∧
    (g8.cfg.available (.regind 16) = false ∧ (GOperand.regind 16).isMemory = true) :=
  ⟨witness_ConditionTable.1, by decide, by decide, by decide, by decide, by decide, by decide⟩

theorem witness_GenericCallsAndModes : let g := { g8 with sp := 0xFFFF, pc := 0xFFFF }
    g.addr g.sp = g.sp ∧ g.addr g.pc = g.pc ∧ ∃ t, exec (.gJsr 5) { rc with g := g } = .next t :=
  ⟨by decide, by decide, _, rfl⟩

/-- A machine that saves every register on an entry, the address in the instruction. -/
def gsave : GMachine :=
  { g8 with cfg := { g8.cfg with saveAll := true, saveOrder := [.dr 1, .sp], intField := .address } }

theorem witness_GenericInterrupts :
    g8.cfg.intField = .entry ∧ gsave.cfg.intField = .address ∧ gsave.cfg.saveAll = true ∧
    g8.cfg.saveAll = false ∧ g8.addr g8.sp = g8.sp ∧ g8.addr g8.pc = g8.pc ∧
    g8.span g8.cfg.aw + g8.span .l16 ≤ 2 ^ g8.cfg.aw.bits ∧
    ∃ t, exec (.gInt 0xFF) { rc with g := g8 } = .next t :=
  ⟨by decide, by decide, by decide, by decide, by decide, by decide, by decide, _, rfl⟩

/-! The strings of the witnesses: the length in a register or at the end of memory, the address in a
register. -/

theorem apart_regs (g : GMachine) (l k : Len) {q r : GReg} (h : q ≠ r) : g.Apart l (.reg q) k (.reg r) :=
  ⟨fun _ h1 h2 => h (by cases h1; cases h2; rfl), fun _ _ h1 => by cases h1⟩

theorem apart_reg_mem (g : GMachine) (l k : Len) (q : GReg) (a : Quad) : g.Apart l (.reg q) k (.mem a) :=
  ⟨fun _ _ h => (nomatch h), fun _ _ h => (nomatch h)⟩

theorem apart_mems (g : GMachine) (l k : Len) {a b : Quad} (h : g.Disjoint l a k b) :
    g.Apart l (.mem a) k (.mem b) :=
  ⟨fun _ h => (nomatch h), fun _ _ h1 h2 => by cases h1; cases h2; exact h⟩

/-- A string operand in D n and D (n + 1). -/
def inRegs (n : Nat) : StringPlace := { len := .reg (.dr n), addr := .reg (.dr (n + 1)) }

/-- A string operand whose length is in memory. -/
def inMem (a : Quad) (n : Nat) : StringPlace := { len := .mem a, addr := .reg (.dr n) }

theorem regs_clear {g : GMachine} {l : Len} {n : Nat} {a : Quad} {k : Nat} :
    g.ClearOf l (inRegs n) a k :=
  fun _ _ => ⟨apart_reg_mem .., apart_reg_mem ..⟩

/-- Two strings in D1 to D4. -/
theorem regs_apart (g : GMachine) : g.ApartStrings .l16 (inRegs 1) (inRegs 3) :=
  ⟨apart_regs _ _ _ (by decide), apart_regs _ _ _ (by decide), apart_regs _ _ _ (by decide),
    apart_regs _ _ _ (by decide)⟩

/-- D n and D (n + 1) hold a length and an address. -/
theorem regs_hold (g : GMachine) (n : Nat) (h : n + 1 < g.dr.length ∧ 16 ≤ g.cfg.dr.width.bits ∧
    g.cfg.aw.bits ≤ g.cfg.dr.width.bits) : g.HoldsString .l16 (inRegs n) :=
  ⟨⟨Nat.lt_of_succ_lt h.1, h.2.1⟩, ⟨h.1, h.2.2⟩, apart_regs _ _ _ (by simp)⟩

theorem regs_copy (g : GMachine) (h : 4 < g.dr.length ∧ 16 ≤ g.cfg.dr.width.bits ∧
    g.cfg.aw.bits ≤ g.cfg.dr.width.bits) : g.CopyApart .l16 (inRegs 1) (inRegs 3) :=
  ⟨regs_hold g 1 ⟨by omega, h.2⟩, regs_hold g 3 h, regs_apart g, regs_clear, regs_clear⟩

/-- Empty strings, in registers. -/
theorem witness_MoveStringsComplete :
    g8.operandsOk [.imm 0x2A] [.regdir 1, .regdir 2, .memdir 3, .postinc 4] = true ∧
    g8.operandsOk [.imm 0x2A, .imm 0x300] [.regdir 1, .regdir 2, .memdir 3, .postinc 4] = true ∧
    g8.operandsOk [.imm 0x2A] [.imm 5, .regdir 2, .memdir 3, .postinc 4] = false ∧
    g8.operandsOk [.imm 0x2A, .regindpom 0 1] [.regdir 1, .regdir 2, .memdir 3, .fp] = false ∧
    (let x := g8.locateString (.regdir 1) (.regdir 2)
     let f := x.2.readOperand .l8 (.imm 0x20)
     let y := f.2.locateString (.regdir 3) (.regdir 4)
     y.2.CopyApart .l16 x.1 y.1) :=
  ⟨by decide, by decide, by decide, by decide, regs_copy g8 (by decide)⟩

/-- ST6: the character at 0x100 is stored at 0x101, where the next one is read. -/
theorem witness_overlap :
    let g := two 3 0x100 3 0x101 g8
    let d (i : Nat) : Quad := (g.strand .l16 (inRegs 3)).addr + BitVec.ofNat 64 i
    let c (i : Nat) : Quad := (g.strand .l16 (inRegs 1)).addr + BitVec.ofNat 64 i
    g.addr (d 0) = g.addr (c 1) ∧ (∀ i < 3, ∀ j < 3, g.addr (d i) = g.addr (c j) ∨ g.OtherChar (d i) (c j)) ∧
    (∀ i < 3, ∀ j < 3, i ≠ j → g.OtherChar (d i) (d j)) ∧
    ∃ t, g.copyLoops .l16 (inRegs 1) (inRegs 3) (translated none) 0x20 = some t := by
  unfold GMachine.OtherChar GMachine.Disjoint
  exact ⟨by decide, by decide, by decide, _, rfl⟩

/-- Two characters to 0x200, one from 0x100, and ST8's table at 0x300. -/
theorem witness_CopyMovesCharacters :
    let g := two 1 0x100 2 0x200 g8
    let p := g.strand .l16 (inRegs 1)
    let q := g.strand .l16 (inRegs 3)
    let n := q.len.toNat
    let m := min n p.len.toNat
    (g.CopyApart .l16 (inRegs 1) (inRegs 3) ∧ g.fits .l8 ∧ g.ClearOf .l16 (inRegs 1) p.addr m ∧
      g.ClearOf .l16 (inRegs 3) p.addr m) ∧
    (∀ i < n, ∀ j < n, i ≠ j → g.OtherChar (q.addr + BitVec.ofNat 64 i) (q.addr + BitVec.ofNat 64 j)) ∧
    (∀ i < n, ∀ j < m, g.OtherChar (q.addr + BitVec.ofNat 64 i) (p.addr + BitVec.ofNat 64 j)) ∧
    (∀ a, InTable (some 0x300) a → g.ApartChar .l16 (inRegs 1) a ∧ g.ApartChar .l16 (inRegs 3) a ∧
      ∀ i < n, g.OtherChar (q.addr + BitVec.ofNat 64 i) a) ∧
    (∀ a, ¬ InTable none a) ∧ (m = 1 ∧ n = 2) ∧
    ∃ t, g.copyLoops .l16 (inRegs 1) (inRegs 3) (translated none) 0x20 = some t := by
  refine ⟨⟨regs_copy _ (by decide), ?_, regs_clear, regs_clear⟩, ?_, ?_, ?_, ?_, by decide, _, rfl⟩
  case refine_4 =>
    rintro a ⟨t, c, h, hc, rfl⟩
    cases h
    refine ⟨⟨apart_reg_mem .., apart_reg_mem ..⟩, ⟨apart_reg_mem .., apart_reg_mem ..⟩,
      fun i (hi : i < 2) j (hj : j < 1) k (hk : k < 1) he => ?_⟩
    obtain rfl : j = 0 := by omega
    obtain rfl : k = 0 := by omega
    have h1 := congrArg BitVec.toNat he
    change BitVec.toNat (Len.l16.trunc (Len.l16.trunc (512 + _) + 0)) =
      BitVec.toNat (Len.l16.trunc (Len.l16.trunc (768 + _) + 0)) at h1
    simp only [Len.toNat_trunc, BitVec.toNat_add, BitVec.toNat_ofNat, show Len.l16.bits = 16 from rfl,
      show BitVec.toNat (512 : Quad) = 512 from rfl, show BitVec.toNat (768 : Quad) = 768 from rfl,
      show BitVec.toNat (0 : Quad) = 0 from rfl] at h1
    omega
  case refine_5 => rintro a ⟨t, c, h, -⟩; cases h
  · unfold GMachine.fits; decide
  all_goals unfold GMachine.OtherChar GMachine.Disjoint; decide

/-- The machine of ST9 and ST11: 41 42 43 at 0x100, 41 42 44 at 0x200, 41 42 20 at 0x300. -/
def gcmp : GMachine :=
  fill .l8 0x100 [0x41, 0x42, 0x43] (fill .l8 0x200 [0x41, 0x42, 0x44] (fill .l8 0x300 [0x41, 0x42, 0x20] g8))

theorem regs_compare (g : GMachine) (h : 4 < g.dr.length ∧ 16 ≤ g.cfg.dr.width.bits ∧
    g.cfg.aw.bits ≤ g.cfg.dr.width.bits) : g.CompareApart .l16 (inRegs 1) (inRegs 3) :=
  ⟨regs_hold g 1 ⟨by omega, h.2⟩, regs_hold g 3 h, regs_apart g, regs_clear, regs_clear, regs_clear,
    regs_clear⟩

/-- The strings of CMPC and of MATCHC in `witness_CompareStrings` and `witness_MatchStrings`. -/
def strands (g : GMachine) : Strand × Strand := (g.strand .l16 (inRegs 1), g.strand .l16 (inRegs 3))

/-- ST11 for equal strings; ST9, which differs at position 2, the last one. -/
theorem witness_CompareStrings :
    g8.operandsOk [.imm 0x20] [.regdir 1, .regdir 2, .regdir 3, .regdir 4] = true ∧
    g8.operandsOk [.imm 0x20] [.regdir 1, .regdir 2, .regdir 3, .imm 4] = false ∧
    (let g := two 2 0x100 3 0x300 gcmp
     let p := strands g
     g.CompareApart .l16 (inRegs 1) (inRegs 3) ∧
       (∃ r, g.loop (GMachine.compareTurn .l16 (inRegs 1) (inRegs 3) 0x20) = some r) ∧
       ∀ k < max p.1.len.toNat p.2.len.toNat, g.charAt 0x20 p.1 k = g.charAt 0x20 p.2 k) ∧
    (let g := two 3 0x100 3 0x200 gcmp
     let p := strands g
     g.CompareApart .l16 (inRegs 1) (inRegs 3) ∧ 2 < max p.1.len.toNat p.2.len.toNat ∧
       (∀ j < 2, g.charAt 0x20 p.1 j = g.charAt 0x20 p.2 j) ∧
       g.charAt 0x20 p.1 2 ≠ g.charAt 0x20 p.2 2) :=
  ⟨by decide, by decide, ⟨regs_compare _ (by decide), ⟨_, rfl⟩, by decide⟩, regs_compare _ (by decide),
    by decide⟩

/-- ST16 finds nothing; ST15 finds 63 at position 2, and 64 stands at the last position, 3. The length
is held at 0xFFFF and 0. -/
theorem witness_ScanStrings :
    let g := (fill .l16 0xFFFF [4] (fill .l8 0x100 [0x61, 0x62, 0x63, 0x64] g8)).writeReg (.dr 2) 0x100
    let p := g.strand .l16 (inMem 0xFFFF 2)
    let stop := fun (c d : Quad) => decide (d = c)
    g8.operandsOk [.imm 0x63] [.regdir 1, .regdir 2] = true ∧
    g8.operandsOk [.imm 0x63] [.imm 1, .regdir 2] = false ∧
    g.ScanApart .l16 (inMem 0xFFFF 2) ∧
    (∃ r, g.loop (GMachine.scanTurn .l16 (inMem 0xFFFF 2) (stop 0x63)) = some r) ∧
    (∀ k < p.len.toNat, stop 0x7A (g.readChar (p.addr + BitVec.ofNat 64 k)) = false) ∧
    (∀ m ∈ [(2, 0x63), (3, 0x64)], m.1 < p.len.toNat ∧
      stop m.2 (g.readChar (p.addr + BitVec.ofNat 64 m.1)) = true ∧
      ∀ j < m.1, stop m.2 (g.readChar (p.addr + BitVec.ofNat 64 j)) = false) := by
  refine ⟨by decide, by decide, ⟨⟨?_, ⟨by unfold GMachine.present; decide, by decide⟩, apart_reg_mem ..⟩,
    fun k hk => ⟨apart_mems _ _ _ ?_, apart_reg_mem ..⟩⟩, ⟨_, rfl⟩, by decide, by decide⟩
  · unfold GMachine.Holds inMem GMachine.fits; decide
  · revert k; unfold GMachine.Disjoint; decide

/-- D1 = 5 and D2 = 7 are each a string's length and address, so that a character leaves them as they were:
none of the loops ends. -/
theorem witness_loops_that_never_end :
    let g := str 1 5 7 g8
    let w (n : Nat) : StringPlace := { len := .reg (.dr n), addr := .reg (.dr n) }
    let one : StringPlace := { len := .reg (.dr 3), addr := .reg (.dr 3) }
    let h := fill .l8 1 [9] (g.writeReg (.dr 3) 1)
    (g.ok = true ∧ h.ok = true) ∧
    g.loop (GMachine.copyTurn .l16 (w 1) (w 2) (translated none)) = none ∧
    g.copyLoops .l16 (w 1) (w 2) (translated none) 0x20 = none ∧
    g.loop (GMachine.compareTurn .l16 (w 1) (w 2) 0x20) = none ∧
    g.loop (GMachine.scanTurn .l16 (w 1) fun d => decide (d = 0x20)) = none ∧
    h.loop (GMachine.matchTurn .l16 (w 1) one) = none := by
  refine ⟨by decide, ?_, ?_, ?_, ?_, ?_⟩
  case refine_2 => rw [GMachine.copyLoops, GMachine.loop_of_fixed]; exacts [rfl, by decide]
  all_goals exact GMachine.loop_of_fixed _ (by decide)

theorem regs_match (g : GMachine) (h : 2 < g.dr.length ∧ 16 ≤ g.cfg.dr.width.bits ∧
    g.cfg.aw.bits ≤ g.cfg.dr.width.bits) : g.MatchApart .l16 (inRegs 1) (inRegs 3) :=
  ⟨⟨regs_hold g 1 h, regs_clear⟩, regs_apart g, regs_clear⟩

/-- ST20 matches at 2; ST23, with the empty substring, at 0; ST22 cannot match anywhere. -/
theorem witness_MatchStrings :
    let m := fill .l8 0x100 [0x68, 0x65, 0x6C, 0x6C, 0x6F] (fill .l8 0x200 [0x6C, 0x6C] g8)
    let g (n k : Quad) := two n 0x100 k 0x200 m
    let there (g : GMachine) (k : Nat) : Prop := g.MatchesAt (strands g).2 (strands g).1 k
    g8.operandsOk [.regdir 3, .regdir 4] [.regdir 1, .regdir 2] = true ∧
    g8.operandsOk [.regdir 3, .regdir 4] [.regdir 1, .imm 2] = false ∧
    ((g 2 3).MatchApart .l16 (inRegs 1) (inRegs 3) ∧ ∀ k, ¬ there (g 2 3) k) ∧
    ((g 5 2).MatchApart .l16 (inRegs 1) (inRegs 3) ∧ there (g 5 2) 2 ∧ ∀ j < 2, ¬ there (g 5 2) j) ∧
    ((g 2 0).MatchApart .l16 (inRegs 1) (inRegs 3) ∧ there (g 2 0) 0) ∧
    (∃ r, (g 5 2).loop (GMachine.matchTurn .l16 (inRegs 1) (inRegs 3)) = some r) := by
  refine ⟨by decide, by decide, ⟨regs_match _ (by decide), fun k h => ?_⟩,
    ⟨regs_match _ (by decide), by unfold GMachine.MatchesAt; decide⟩,
    ⟨regs_match _ (by decide), by unfold GMachine.MatchesAt; decide⟩, _, rfl⟩
  have h1 : k + 3 ≤ 2 := h.1
  omega

theorem witness_LoopBranches :
    g16.operandsOk [.imm 10, .imm 2] [.regdir 1] = true ∧ g16.operandsOk [.imm 3] [.memdir 0xFFFF] = true ∧
    g16.operandsOk [] [.postinc 15] = true ∧ g16.operandsOk [.imm 1, .imm 1] [.imm 1] = false ∧
    g16.operandsOk [.regindpom 0 1] [.sp] = false ∧ g16.operandsOk [] [.imm 1] = false := by decide

/-- base = limit and base = limit + 1; bit positions 7 and 8. -/
theorem witness_CaseAndBitBranches :
    g16.operandsOk [.imm 2, .imm 1, .imm 3] [] = true ∧
    signedAt .l16 (g16.readOperand .l16 (.imm 0xFFFF)).1 ≤ signedAt .l16 0xFFFF ∧
    signedAt .l16 0xFFFF < signedAt .l16 (g16.readOperand .l16 (.imm 0)).1 ∧
    g16.operandsOk [.imm 2, .regindpom 0 1, .imm 3] [] = false ∧
    g8.operandsOk [.regindpom 0 1, .imm 7] [] = false ∧
    g8.operandsOk [.imm 40, .imm 7] [] = true ∧ (g8.readOperand .l8 (.imm 7)).1.toNat ≤ 7 ∧
    7 < (g8.readOperand .l8 (.imm 8)).1.toNat := by decide

end Sys2Proof.Tests
end

section
/-!
PROOFS. The flag functions of 00_scope.md R10: the result as arithmetic modulo `2 ^ n`, and each
indicator as a fact about that result and the operands.
-/

namespace Sys2Proof.Machine

/-- Z, as the flag functions compute it. -/
theorem beq_zero_iff_toNat {n : Nat} (r : BitVec n) : (r == 0#n) = true ↔ r.toNat = 0 := by
  rw [beq_iff_eq, BitVec.toNat_eq, BitVec.toNat_ofNat, Nat.zero_mod]

/-- The borrow of `2 ^ n` that keeps the difference a word vanishes modulo `2 ^ n`. -/
theorem toNat_sub_emod {n : Nat} (a b : BitVec n) :
    ((a - b).toNat : Int) = ((a.toNat : Int) - b.toNat) % 2 ^ n := by
  have borrowed : ((2 ^ n - b.toNat + a.toNat : Nat) : Int) = a.toNat - b.toNat + 2 ^ n := by
    rw [Nat.cast_add, Nat.cast_sub b.isLt.le]; push_cast; ring
  calc ((a - b).toNat : Int)
      = ((2 ^ n - b.toNat + a.toNat : Nat) : Int) % 2 ^ n := by rw [BitVec.toNat_sub]; norm_cast
    _ = ((a.toNat : Int) - b.toNat) % 2 ^ n := by rw [borrowed, Int.add_emod_right]

theorem addF_toNat {n : Nat} (a b : BitVec n) :
    (addF a b).1.toNat = (a.toNat + b.toNat) % 2 ^ n := BitVec.toNat_add a b

theorem addF_n {n : Nat} (a b : BitVec n) : (addF a b).2.n = (addF a b).1.getLsbD (n - 1) :=
  BitVec.msb_eq_getLsbD_last (a + b)

theorem addF_z {n : Nat} (a b : BitVec n) : (addF a b).2.z = true ↔ (addF a b).1.toNat = 0 :=
  beq_zero_iff_toNat (a + b)

/-- C of a sum is its carry. -/
theorem addF_c {n : Nat} (a b : BitVec n) : (addF a b).2.c = true ↔ 2 ^ n ≤ a.toNat + b.toNat :=
  decide_eq_true_iff

/-- V of a sum: the operands agree in sign and the result does not. -/
theorem addF_v {n : Nat} (a b : BitVec n) :
    (addF a b).2.v = true ↔ a.getLsbD (n - 1) = b.getLsbD (n - 1) ∧
      (addF a b).1.getLsbD (n - 1) ≠ a.getLsbD (n - 1) := by
  simp only [addF, ← BitVec.msb_eq_getLsbD_last, Bool.and_eq_true, beq_iff_eq, bne_iff_ne]

theorem subF_toNat {n : Nat} (a b : BitVec n) :
    ((subF a b).1.toNat : Int) = ((a.toNat : Int) - b.toNat) % 2 ^ n := toNat_sub_emod a b

theorem subF_n {n : Nat} (a b : BitVec n) : (subF a b).2.n = (subF a b).1.getLsbD (n - 1) :=
  BitVec.msb_eq_getLsbD_last (a - b)

theorem subF_z {n : Nat} (a b : BitVec n) : (subF a b).2.z = true ↔ (subF a b).1.toNat = 0 :=
  beq_zero_iff_toNat (a - b)

/-- C of a difference is its borrow. -/
theorem subF_c {n : Nat} (a b : BitVec n) : (subF a b).2.c = true ↔ a.toNat < b.toNat :=
  decide_eq_true_iff

/-- V of a difference: the operands differ in sign and the result leaves that of the first. -/
theorem subF_v {n : Nat} (a b : BitVec n) :
    (subF a b).2.v = true ↔ a.getLsbD (n - 1) ≠ b.getLsbD (n - 1) ∧
      (subF a b).1.getLsbD (n - 1) ≠ a.getLsbD (n - 1) := by
  simp only [subF, ← BitVec.msb_eq_getLsbD_last, Bool.and_eq_true, bne_iff_ne]

theorem logF_n {n : Nat} (r : BitVec n) : (logF r).n = r.getLsbD (n - 1) :=
  BitVec.msb_eq_getLsbD_last r

theorem logF_z {n : Nat} (r : BitVec n) : (logF r).z = true ↔ r.toNat = 0 := beq_zero_iff_toNat r

@[simp] theorem logF_c {n : Nat} (r : BitVec n) : (logF r).c = false := rfl
@[simp] theorem logF_v {n : Nat} (r : BitVec n) : (logF r).v = false := rfl

/-- Settles O21: the facts about the three flag functions hold at every length, so the positive ones
are no special case. -/
theorem flagFunctions : Obligations.FlagFunctions := by
  intro n a b _
  exact ⟨⟨addF_toNat a b, addF_n a b, addF_z a b, addF_c a b, addF_v a b⟩,
    ⟨subF_toNat a b, subF_n a b, subF_z a b, subF_c a b, subF_v a b⟩,
    logF_n a, logF_z a, logF_c a, logF_v a⟩

end Sys2Proof.Machine
end

section
/-!
PROOFS. The service phase and the level L: when the phase takes an interrupt (60_exceptions.md R331), and
what an entry does to L, to PRINTR and to the pushed PSW (R352).
-/

namespace Sys2Proof.Machine

variable (s : State)

/-- The signal `prekid`, cause by cause (60_exceptions.md R331, R332). -/
theorem State.prekid_iff (rti : Bool) : s.prekid rti = true ↔
    s.prins = true ∨ s.prcod = true ∨ s.pradr = true ∨ s.prinm = true ∨ s.printrSignal = true ∨
      (s.psw.t = true ∧ rti = false) := by
  simp only [State.prekid, Bool.or_eq_true, Bool.and_eq_true, Bool.not_eq_true', or_assoc]

/-- Settles O32: the listed causes are those of `prekid`, the condition of the service phase. -/
theorem servicePhase : Obligations.ServicePhase := by
  intro s nn rti
  rw [← s.prekid_iff rti]
  exact ⟨s.service_of_prekid nn rti,
    fun h => s.service_of_not_prekid nn rti (Bool.eq_false_iff.mpr h)⟩

/-- The request that is served is the maskable one: nothing stands before it in the order of
60_exceptions.md R339. -/
def State.ServesMaskable : Prop :=
  s.prins = false ∧ s.prcod = false ∧ s.pradr = false ∧ s.prinm = false ∧ s.printrSignal = true

/-- Serving the maskable request writes L and clears its line's flip-flop. -/
theorem State.acceptRequest_state_of_servesMaskable (nn : Byte) (h : s.ServesMaskable) :
    (s.acceptRequest nn).2 =
      { s with printr := s.printr &&& ~~~(lineBit s.prl), psw := { s.psw with l := s.prl } } := by
  obtain ⟨hins, hcod, hadr, hinm, hsignal⟩ := h
  rw [State.acceptRequest_state, hins, hcod, hadr, hinm, hsignal]
  rfl

/-- Serving any other cause leaves the PSW and PRINTR. -/
theorem State.acceptRequest_psw_printr_of_not_servesMaskable (nn : Byte) (h : ¬ s.ServesMaskable) :
    (s.acceptRequest nn).2.psw = s.psw ∧ (s.acceptRequest nn).2.printr = s.printr := by
  rw [State.acceptRequest_state]
  split_ifs with hins hcod hadr hinm hsignal
  · exact ⟨rfl, rfl⟩
  · exact ⟨rfl, rfl⟩
  · exact ⟨rfl, rfl⟩
  · exact ⟨rfl, rfl⟩
  · have maskable : s.ServesMaskable := ⟨Bool.eq_false_iff.mpr hins, Bool.eq_false_iff.mpr hcod,
      Bool.eq_false_iff.mpr hadr, Bool.eq_false_iff.mpr hinm, hsignal⟩
    exact absurd maskable h
  · exact ⟨rfl, rfl⟩

/-- The requests are the same before and after the frame is pushed. -/
theorem State.servesMaskable_pushedFrame : s.pushedFrame.ServesMaskable ↔ s.ServesMaskable := Iff.rfl

/-- After the request is chosen an entry writes only I and T of the PSW, and no flip-flop. -/
theorem State.takeInterrupt_psw_printr (nn : Byte) :
    (s.takeInterrupt nn).psw = (s.pushedFrame.acceptRequest nn).2.psw.entered ∧
      (s.takeInterrupt nn).printr = (s.pushedFrame.acceptRequest nn).2.printr := by
  rw [State.takeInterrupt_eq]
  exact ⟨rfl, rfl⟩

/-- After the frame is pushed an entry stores nothing. -/
theorem State.takeInterrupt_sameMemory (nn : Byte) :
    SameMemory s.pushedFrame (s.takeInterrupt nn) := by
  intro a ha
  have hmem : (s.takeInterrupt nn).mem = s.pushedFrame.mem := (s.takeInterrupt_mem nn).1
  have hdevices : (s.takeInterrupt nn).devices = s.pushedFrame.devices := by
    obtain ⟨-, -, -, -, -, -, -, -, hd, -⟩ := s.pushedFrame.acceptRequest_frame nn
    rw [State.takeInterrupt_eq]
    exact hd
  have ha' : (s.takeInterrupt nn).isDevice a = false := (State.isDevice_congr hdevices a).trans ha
  simp only [State.readByte, ha, ha', hmem, Bool.false_eq_true, if_false]

/-- A maskable request has a line, since its number is above the current level
(60_exceptions.md R337). -/
theorem State.prl_pos_of_printrSignal (h : s.printrSignal = true) : 0 < s.prl.toNat := by
  simp only [State.printrSignal, Bool.and_eq_true, decide_eq_true_eq] at h
  obtain ⟨⟨-, habove⟩, -⟩ := h
  exact Nat.zero_lt_of_lt habove

/-- Line k has bit k - 1 of PRINTR. -/
theorem lineBit_getLsbD (k : BitVec 3) (hk : 0 < k.toNat) (j : Nat) :
    (lineBit k).getLsbD j = decide (j + 1 = k.toNat) := by
  have hk7 := k.isLt
  rw [Bool.eq_iff_iff]
  simp only [lineBit, BitVec.getLsbD_shiftLeft, BitVec.getLsbD_one, Bool.and_eq_true,
    Bool.not_eq_true', decide_eq_true_eq, decide_eq_false_iff_not]
  omega

/-- Clearing the flip-flop of line k leaves the others. -/
theorem getLsbD_and_not_lineBit (m : BitVec 7) (k : BitVec 3) (hk : 0 < k.toNat) (j : Nat) (hj : j < 7) :
    (m &&& ~~~(lineBit k)).getLsbD j = (m.getLsbD j && decide (j + 1 ≠ k.toNat)) := by
  rw [BitVec.getLsbD_and, BitVec.getLsbD_not, lineBit_getLsbD k hk]
  simp only [hj, decide_true, Bool.true_and, decide_not, ne_eq]

/-- L within the low byte of the PSW (10_state.md R30). -/
theorem Psw.low_level (p : Psw) : p.low.extractLsb' 4 3 = p.l :=
  congrArg Psw.l p.ofBytes_high_low

/-- The entry for a maskable request raises L to its line and clears that line's flip-flop alone. -/
theorem State.takeInterrupt_of_servesMaskable (nn : Byte) (h : s.ServesMaskable) :
    (s.takeInterrupt nn).psw.l = s.prl ∧ ∀ k, k < 7 → (s.takeInterrupt nn).printr.getLsbD k =
      (s.printr.getLsbD k && decide (k + 1 ≠ s.prl.toNat)) := by
  obtain ⟨-, -, -, -, hsignal⟩ := id h
  obtain ⟨hpsw, hprintr⟩ := s.takeInterrupt_psw_printr nn
  rw [hpsw, hprintr, s.pushedFrame.acceptRequest_state_of_servesMaskable nn
    (s.servesMaskable_pushedFrame.mpr h)]
  exact ⟨rfl, getLsbD_and_not_lineBit s.printr s.prl (s.prl_pos_of_printrSignal hsignal)⟩

/-- The entry for any other cause runs at the level of the interrupted program. -/
theorem State.takeInterrupt_of_not_servesMaskable (nn : Byte) (h : ¬ s.ServesMaskable) :
    (s.takeInterrupt nn).psw.l = s.psw.l ∧ (s.takeInterrupt nn).printr = s.printr := by
  obtain ⟨hpsw, hprintr⟩ := s.takeInterrupt_psw_printr nn
  obtain ⟨hpsw', hprintr'⟩ := s.pushedFrame.acceptRequest_psw_printr_of_not_servesMaskable nn
    (s.servesMaskable_pushedFrame.not.mpr h)
  rw [hpsw, hprintr, hpsw', hprintr']
  exact ⟨rfl, rfl⟩

/-- The low byte of the pushed PSW is the one before the entry. -/
theorem State.takeInterrupt_pushed_psw_low (nn : Byte) (h : s.isDevice (s.sp + 4) = false) :
    (s.takeInterrupt nn).readByte (s.sp + 4) = s.psw.low := by
  rw [s.takeInterrupt_sameMemory nn _ h, s.readByte_pushedFrame _ h, if_pos rfl]

/-- Settles O36: L and PRINTR change in the choice of the request only, after the old PSW is pushed. -/
theorem levelUpdate : Obligations.LevelUpdate := by
  intro s nn
  refine ⟨s.takeInterrupt_of_servesMaskable nn, s.takeInterrupt_of_not_servesMaskable nn, fun h => ?_⟩
  rw [s.takeInterrupt_pushed_psw_low nn h, Psw.low_level]

end Sys2Proof.Machine
end

section
/-!
PROOFS. The decoder and the encoder, through the opcode table: every entry of the table builds
well-formed instructions whose encoding begins with the entry's byte (`Layout.Sound`), every RC
instruction is built by one entry (`exists_layout`), and the decoder undoes the encoding layout by layout.
-/

namespace Sys2Proof

/-! ## The opcode table -/

/-- The instruction is one a layout builds from its operand bytes. -/
def Layout.Builds (i : Instr) : Layout → Prop
  | .n i' => i = i'
  | .b mk => ∃ v, i = mk v
  | .j mk => ∃ a, i = mk a
  | .a8 _ mk => ∃ o, i = mk o
  | .a16 _ mk => ∃ o, i = mk o

/-- A table entry agrees with the well-formedness of terms and with the encoder. -/
def Layout.Sound (op : Byte) : Layout → Prop
  | .n i => i.wf = true ∧ encode i = some [op]
  | .b mk => ∀ v, (mk v).wf = true ∧ encode (mk v) = some [op, v]
  | .j mk => ∀ a, (mk a).wf = true ∧ encode (mk a) = some (op :: bytesOf a)
  | .a8 r mk => ∀ o, (mk o).wf = o.allowed r ∧ encode (mk o) = some (op :: encodeOp8 o)
  | .a16 r mk => ∀ o, (mk o).wf = o.allowed r ∧ encode (mk o) = some (op :: encodeOp16 o)

theorem opcodesN_sound : ∀ e ∈ opcodesN, e.2.Sound e.1 := by
  simp only [opcodesN, List.forall_mem_cons, List.not_mem_nil, false_implies, implies_true, and_true]
  repeat' apply And.intro
  all_goals rfl

theorem opcodesB_sound : ∀ e ∈ opcodesB, e.2.Sound e.1 := by
  simp only [opcodesB, List.forall_mem_cons, List.not_mem_nil, false_implies, implies_true, and_true]
  repeat' apply And.intro
  all_goals exact fun _ => ⟨rfl, rfl⟩

theorem opcodesJ_sound : ∀ e ∈ opcodesJ, e.2.Sound e.1 := by
  simp only [opcodesJ, List.forall_mem_cons, List.not_mem_nil, false_implies, implies_true, and_true]
  repeat' apply And.intro
  all_goals exact fun _ => ⟨rfl, rfl⟩

theorem opcodesA_sound : ∀ e ∈ opcodesA, e.2.Sound e.1 := by
  simp only [opcodesA, List.forall_mem_cons, List.not_mem_nil, false_implies, implies_true, and_true]
  repeat' apply And.intro
  all_goals exact fun _ => ⟨rfl, rfl⟩

/-- A key that is found belongs to a pair of the list. -/
theorem mem_of_lookup {α β : Type} [BEq α] [LawfulBEq α] {k : α} {v : β} {l : List (α × β)}
    (h : l.lookup k = some v) : (k, v) ∈ l := by
  obtain ⟨l₁, l₂, rfl, -⟩ := List.lookup_eq_some_iff.1 h
  simp

/-- What the table answers for an opcode byte is sound (30_encoding.md R112). -/
theorem opcodeLayout_sound {op : Byte} {L : Layout} (h : opcodeLayout op = some L) : L.Sound op := by
  have hmem : (op, L) ∈ opcodesN ++ opcodesB ++ opcodesJ ++ opcodesA := mem_of_lookup h
  simp only [List.mem_append] at hmem
  obtain ((hn | hb) | hj) | ha := hmem
  · exact opcodesN_sound _ hn
  · exact opcodesB_sound _ hb
  · exact opcodesJ_sound _ hj
  · exact opcodesA_sound _ ha

/-- Every instruction with an encoding is built by the layout its first byte has in the table. -/
theorem exists_layout {i : Instr} {bs : List Byte} (h : encode i = some bs) :
    ∃ L, opcodeLayout (bs.headD 0) = some L ∧ L.Builds i := by
  cases i
  case nop | prpd | prpe | intd | inte | trpd | trpe | stimr | stivtp | rts | rti =>
    obtain rfl := Option.some.inj h
    exact ⟨.n _, rfl, rfl⟩
  case int | beql | bneq | bgrtu | bgreu | blssu | blequ | bgrt | bgre | blss | bleq | bneg | bnng
      | bovf | bnvf =>
    obtain rfl := Option.some.inj h
    exact ⟨.b _, rfl, _, rfl⟩
  case jmp | jsr | jeql | jneq | jgrtu | jgreu | jlssu | jlequ | jgrt | jgre | jlss | jleq | jneg
      | jnng | jovf | jnvf =>
    obtain rfl := Option.some.inj h
    exact ⟨.j _, rfl, _, rfl⟩
  case jmpind | ldw | stw =>
    obtain rfl := Option.some.inj h
    exact ⟨.a16 _ _, rfl, _, rfl⟩
  case ldb | stb | add | sub | inc | dec | cmp | and | or | xor | not | tst | asr | lsr | ror | rorc
      | asl | lsl | rol | rolc =>
    obtain rfl := Option.some.inj h
    exact ⟨.a8 _ _, rfl, _, rfl⟩
  all_goals cases h

/-! ## The decoder undoes the encoding -/

section Operand

variable {w : Nat} {imm : List Byte → Except DecodeError (BitVec w)} {immBytes : Nat}
  {enc : BitVec w → List Byte}

/-- An operand reads back from its address part. -/
theorem decodeOperand_encodeOperand (o : Operand w) (rest : List Byte)
    (himm : ∀ v, imm (enc v ++ rest) = .ok v) (hlen : ∀ v, (enc v).length = immBytes)
    {mode : Byte} {part : List Byte} (h : encodeOperand enc o = mode :: part) :
    decodeOperand imm immBytes mode (part ++ rest) = .ok (o, 1 + (mode :: part).length) := by
  cases o <;>
  · obtain ⟨rfl, rfl⟩ := List.cons.inj h
    simp [decodeOperand, bytesOf, field16, himm, hlen, Except.map]
    try omega

/-- The mode byte of an operand is refused where the rule does not admit the operand (30_encoding.md R110). -/
theorem badMode_eq_not_allowed (r : ModeRule) (o : Operand w) {mode : Byte} {part : List Byte}
    (h : encodeOperand enc o = mode :: part) : badMode r (hiNibble mode) = !o.allowed r := by
  cases r <;> cases o <;>
  · obtain ⟨rfl, rfl⟩ := List.cons.inj h
    rw [hiNibble_modeByte]
    rfl

/-- The mode byte of an operand the rule admits is not refused (30_encoding.md R110). -/
theorem badMode_encodeOperand {r : ModeRule} (o : Operand w) (ho : o.allowed r = true)
    {mode : Byte} {part : List Byte} (h : encodeOperand enc o = mode :: part) :
    badMode r (hiNibble mode) = false := by
  rw [badMode_eq_not_allowed r o h, ho, Bool.not_true]

/-- The address part of an operand begins with its mode byte. -/
theorem exists_encodeOperand_cons (enc : BitVec w → List Byte) (o : Operand w) :
    ∃ mode part, encodeOperand enc o = mode :: part := by
  cases o <;> exact ⟨_, _, rfl⟩

/-- A layout-A instruction with an operand its rule admits reads back. -/
theorem decodeA_encodeOperand {r : ModeRule} (mk : Operand w → Instr) (o : Operand w)
    (ho : o.allowed r = true) (rest : List Byte)
    (himm : ∀ v, imm (enc v ++ rest) = .ok v) (hlen : ∀ v, (enc v).length = immBytes) :
    decodeA imm immBytes r mk (encodeOperand enc o ++ rest) =
      .ok (mk o, 1 + (encodeOperand enc o).length) := by
  obtain ⟨mode, part, he⟩ := exists_encodeOperand_cons enc o
  rw [he, List.cons_append, decodeA, badMode_encodeOperand o ho he, if_neg Bool.false_ne_true,
    decodeOperand_encodeOperand o rest himm hlen he]
  rfl

/-- The address part takes at most three bytes beside a short immediate (30_encoding.md R101). -/
theorem length_encodeOperand_le (o : Operand w) (hlen : ∀ v, (enc v).length ≤ 2) :
    (encodeOperand enc o).length ≤ 3 := by
  cases o with
  | imm v => exact Nat.succ_le_succ (hlen v)
  | _ => simp [encodeOperand, bytesOf]

end Operand

theorem field16_bytesOf (v : Word) (rest : List Byte) : field16 (bytesOf v ++ rest) = .ok v :=
  congrArg Except.ok (joinBytes_hiByte_loByte v)

/-- Settles O2: the first byte finds the entry that built the instruction, and that entry's layout
reads its operand back. -/
theorem encodingReadsBack : Obligations.EncodingReadsBack := by
  intro i bs rest hwf he
  obtain ⟨L, hL, hb⟩ := exists_layout he
  have hs := opcodeLayout_sound hL
  generalize bs.headD 0 = op at hL hs
  cases L with
  | n _ =>
    obtain rfl := hb
    obtain rfl := Option.some.inj (he.symm.trans hs.2)
    simp [decode, hL]
  | b mk =>
    obtain ⟨v, rfl⟩ := hb
    obtain rfl := Option.some.inj (he.symm.trans (hs v).2)
    simp [decode, hL, field8, Except.map]
  | j mk =>
    obtain ⟨a, rfl⟩ := hb
    obtain rfl := Option.some.inj (he.symm.trans (hs a).2)
    simp only [List.cons_append, decode, hL, field16_bytesOf]
    simp [Except.map, bytesOf]
  | a8 r mk =>
    obtain ⟨o, rfl⟩ := hb
    obtain rfl := Option.some.inj (he.symm.trans (hs o).2)
    have hlen := length_encodeOperand_le (enc := fun v : Byte => [v]) o fun _ => by simp
    simp only [List.cons_append, decode, hL, encodeOp8]
    rw [decodeA_encodeOperand (imm := field8) (immBytes := 1) mk o ((hs o).1.symm.trans hwf) rest
      (fun _ => rfl) fun _ => rfl]
    exact ⟨by rw [List.length_cons, Nat.add_comm], by simp, Nat.succ_le_succ hlen⟩
  | a16 r mk =>
    obtain ⟨o, rfl⟩ := hb
    obtain rfl := Option.some.inj (he.symm.trans (hs o).2)
    have hlen := length_encodeOperand_le (enc := bytesOf) o fun _ => by simp [bytesOf]
    simp only [List.cons_append, decode, hL, encodeOp16]
    rw [decodeA_encodeOperand mk o ((hs o).1.symm.trans hwf) rest (fun v => field16_bytesOf v rest)
      fun _ => rfl]
    exact ⟨by rw [List.length_cons, Nat.add_comm], by simp, Nat.succ_le_succ hlen⟩

/-! ## What the decoder answers is legal -/

theorem field8_ok {bs : List Byte} {v : Byte} (h : field8 bs = .ok v) : 1 ≤ bs.length := by
  cases bs with
  | nil => cases h
  | cons _ _ => simp

theorem field16_ok {bs : List Byte} {v : Word} (h : field16 bs = .ok v) : 2 ≤ bs.length := by
  match bs, h with
  | _ :: _ :: _, _ => simp

section Operand

variable {w : Nat} {imm : List Byte → Except DecodeError (BitVec w)} {immBytes : Nat}

/-- What is computed from a field was read. -/
theorem map_eq_ok {α β : Type} {x : Except DecodeError α} {f : α → β} {y : β}
    (h : x.map f = .ok y) : ∃ a, x = .ok a ∧ f a = y := by
  cases x with
  | error e => cases h
  | ok a => exact ⟨a, rfl, Except.ok.inj h⟩

/-- The decoded operand is one its rule admits, and the length the decoder reports is that of its
address part, which the bytes given hold. -/
theorem decodeOperand_ok {enc : BitVec w → List Byte} {r : ModeRule} {mode : Byte} {rest : List Byte}
    {o : Operand w} {n : Nat} (himm : ∀ v, imm rest = .ok v → immBytes ≤ rest.length)
    (hlen : ∀ v, (enc v).length = immBytes) (hmode : badMode r (hiNibble mode) = false)
    (h : decodeOperand imm immBytes mode rest = .ok (o, n)) :
    o.allowed r = true ∧ n = 1 + (encodeOperand enc o).length ∧ n ≤ 2 + rest.length := by
  unfold decodeOperand at h
  dsimp only at h
  split at h
  case h_12 => cases h
  case h_11 hm =>
    obtain ⟨v, hv, hp⟩ := map_eq_ok h
    cases hp
    rw [hm] at hmode
    have hrule : (Operand.imm v).allowed r = !badMode r 0xB#4 := by cases r <;> rfl
    refine ⟨?_, ?_, ?_⟩
    · rw [hrule, hmode, Bool.not_false]
    · simp [encodeOperand, hlen]; omega
    · have := himm v hv; omega
  case h_3 | h_4 | h_5 | h_10 =>
    obtain ⟨f, hf, hp⟩ := map_eq_ok h
    cases hp
    exact ⟨by cases r <;> rfl, rfl, by have := field16_ok hf; omega⟩
  case h_1 hm =>
    cases h
    rw [hm] at hmode
    have hrule (x : RegNo) : (Operand.regdir x : Operand w).allowed r = !badMode r 0x0#4 := by
      cases r <;> rfl
    refine ⟨?_, rfl, by omega⟩
    rw [hrule, hmode, Bool.not_false]
  all_goals
    cases h
    exact ⟨by cases r <;> rfl, rfl, by omega⟩

theorem decodeA_ok {enc : BitVec w → List Byte} {r : ModeRule} {mk : Operand w → Instr}
    {bs : List Byte} {i : Instr} {n : Nat}
    (himm : ∀ bs v, imm bs = .ok v → immBytes ≤ bs.length) (hlen : ∀ v, (enc v).length = immBytes)
    (h : decodeA imm immBytes r mk bs = .ok (i, n)) :
    ∃ o, i = mk o ∧ o.allowed r = true ∧ n = 1 + (encodeOperand enc o).length ∧
      n ≤ 1 + bs.length := by
  cases bs with
  | nil => cases h
  | cons mode rest =>
    rw [decodeA] at h
    split at h
    · cases h
    · next hmode =>
      obtain ⟨⟨o, k⟩, ho, hp⟩ := map_eq_ok h
      obtain ⟨rfl, rfl⟩ := Prod.mk.inj hp
      obtain ⟨hr, hn, hle⟩ := decodeOperand_ok (enc := enc) (himm rest) hlen
        (Bool.eq_false_iff.2 hmode) ho
      exact ⟨o, rfl, hr, hn, by rw [List.length_cons]; omega⟩

end Operand

/-- What the decoder answers has an encoding of the reported length, is well-formed, and is no longer
than the bytes given. -/
theorem decode_ok {bs : List Byte} {i : Instr} {n : Nat} (h : decode bs = .ok (i, n)) :
    i.wf = true ∧ n ≤ bs.length ∧ ∃ es, encode i = some es ∧ es.length = n := by
  cases bs with
  | nil => cases h
  | cons op rest =>
    rw [decode] at h
    cases hL : opcodeLayout op with
    | none => rw [hL] at h; cases h
    | some L =>
      have hs := opcodeLayout_sound hL
      rw [hL] at h
      cases L with
      | n j =>
        cases h
        exact ⟨hs.1, by simp, _, hs.2, rfl⟩
      | b mk =>
        obtain ⟨v, hv, hp⟩ := map_eq_ok h
        obtain ⟨rfl, rfl⟩ := Prod.mk.inj hp
        exact ⟨(hs v).1, Nat.succ_le_succ (field8_ok hv), _, (hs v).2, rfl⟩
      | j mk =>
        obtain ⟨a, ha, hp⟩ := map_eq_ok h
        obtain ⟨rfl, rfl⟩ := Prod.mk.inj hp
        exact ⟨(hs a).1, Nat.succ_le_succ (field16_ok ha), _, (hs a).2, rfl⟩
      | a8 r mk =>
        obtain ⟨o, rfl, hr, rfl, hle⟩ := decodeA_ok (enc := fun v : Byte => [v])
          (fun _ _ => field8_ok) (fun _ => rfl) h
        exact ⟨(hs o).1.trans hr, by rw [List.length_cons]; omega, _, (hs o).2, Nat.add_comm _ 1⟩
      | a16 r mk =>
        obtain ⟨o, rfl, hr, rfl, hle⟩ := decodeA_ok (enc := bytesOf)
          (fun _ _ => field16_ok) (fun _ => rfl) h
        exact ⟨(hs o).1.trans hr, by rw [List.length_cons]; omega, _, (hs o).2, Nat.add_comm _ 1⟩

/-- No instruction is empty. -/
theorem length_encode_pos {i : Instr} {es : List Byte} (h : encode i = some es) : 1 ≤ es.length := by
  cases es with
  | nil =>
    obtain ⟨L, hL, hb⟩ := exists_layout h
    obtain rfl : Layout.n .nop = L := Option.some.inj hL
    obtain rfl := hb
    cases h
  | cons _ _ => simp

/-- Settles O3: every entry of the opcode table is sound. -/
theorem decoderAnswersLegal : Obligations.DecoderAnswersLegal := by
  intro bs i n h
  obtain ⟨hwf, hn, es, he, rfl⟩ := decode_ok h
  refine ⟨hwf, by rw [Machine.isGeneric, he]; rfl, length_encode_pos he,
    Machine.decode_length h, hn, fun es' he' => ?_⟩
  rw [Option.some.inj (he.symm.trans he')]

/-- Settles O1: the decoder evaluated on the ten byte strings. -/
theorem decodesSpecWords : Obligations.DecodesSpecWords := by
  unfold Obligations.DecodesSpecWords
  decide

/-! ## What the decoder refuses -/

/-- The mode rule of an opcode byte with an address part, none for the others (30_encoding.md R110). -/
def addressRule (op : Byte) : Option ModeRule :=
  match opcodeLayout op with
  | some (.a8 r _) | some (.a16 r _) => some r
  | some (.n _) | some (.b _) | some (.j _) | none => none

theorem map_eq_error {α β : Type} {x : Except DecodeError α} {f : α → β} {e : DecodeError}
    (h : x.map f = .error e) : x = .error e := by
  cases x with
  | error e' => cases h; rfl
  | ok a => cases h

/-- A field is only ever too short. -/
theorem field8_error {bs : List Byte} {e : DecodeError} (h : field8 bs = .error e) : e = .truncated := by
  cases bs <;> cases h
  rfl

theorem field16_error {bs : List Byte} {e : DecodeError} (h : field16 bs = .error e) :
    e = .truncated := by
  match bs, h with
  | [], h => cases h; rfl
  | [_], h => cases h; rfl

section Operand

variable {w : Nat} {imm : List Byte → Except DecodeError (BitVec w)} {immBytes : Nat}

/-- An operand is refused for a reserved mode alone; its other error is to be too short. -/
theorem decodeOperand_error {mode : Byte} {rest : List Byte} {e : DecodeError}
    (himm : ∀ bs e, imm bs = .error e → e = .truncated) (hmode : modeReserved (hiNibble mode) = false)
    (h : decodeOperand imm immBytes mode rest = .error e) : e = .truncated := by
  unfold decodeOperand at h
  dsimp only at h
  split at h
  case h_12 h0 h1 h2 h3 h4 h6 h7 h8 h9 hA hB =>
    have nibble : ∀ am : RegNo, modeReserved am = false → am = 0x0#4 ∨ am = 0x1#4 ∨ am = 0x2#4 ∨
        am = 0x3#4 ∨ am = 0x4#4 ∨ am = 0x6#4 ∨ am = 0x7#4 ∨ am = 0x8#4 ∨ am = 0x9#4 ∨ am = 0xA#4 ∨
        am = 0xB#4 := by decide
    rcases nibble _ hmode with h | h | h | h | h | h | h | h | h | h | h <;> contradiction
  case h_11 => exact himm _ _ (map_eq_error h)
  case h_3 | h_4 | h_5 | h_10 => exact field16_error (map_eq_error h)
  all_goals cases h

theorem decodeA_error {r : ModeRule} {mk : Operand w → Instr} {bs : List Byte} {e : DecodeError}
    (himm : ∀ bs e, imm bs = .error e → e = .truncated)
    (h : decodeA imm immBytes r mk bs = .error e) : e = .truncated ∨
      (e = .illegalAddressing ∧ ∃ mode tail, bs = mode :: tail ∧ badMode r (hiNibble mode) = true) := by
  cases bs with
  | nil => cases h; exact .inl rfl
  | cons mode tail =>
    rw [decodeA] at h
    split at h
    · next hbad => cases h; exact .inr ⟨rfl, mode, tail, rfl, hbad⟩
    · next hbad =>
      have hres : modeReserved (hiNibble mode) = false := by
        rw [Bool.not_eq_true, badMode, Bool.or_eq_false_iff, Bool.or_eq_false_iff] at hbad
        exact hbad.1.1
      exact .inl (decodeOperand_error himm hres (map_eq_error h))

end Operand

/-- The three reasons to answer no instruction. -/
theorem decode_error {op : Byte} {rest : List Byte} {e : DecodeError}
    (h : decode (op :: rest) = .error e) : e = .truncated ∨
      (e = .illegalOpcode ∧ opcodeLayout op = none) ∨
      (e = .illegalAddressing ∧ ∃ r mode tail, addressRule op = some r ∧ rest = mode :: tail ∧
        badMode r (hiNibble mode) = true) := by
  rw [decode] at h
  cases hL : opcodeLayout op with
  | none => rw [hL] at h; cases h; exact .inr (.inl ⟨rfl, rfl⟩)
  | some L =>
    rw [hL] at h
    cases L with
    | n i => cases h
    | b mk => exact .inl (field8_error (map_eq_error h))
    | j mk => exact .inl (field16_error (map_eq_error h))
    | a8 r mk =>
      refine (decodeA_error (fun _ _ => field8_error) h).imp_right fun ⟨he, mode, tail, hb, hbad⟩ => ?_
      exact .inr ⟨he, r, mode, tail, by rw [addressRule, hL], hb, hbad⟩
    | a16 r mk =>
      refine (decodeA_error (fun _ _ => field16_error) h).imp_right fun ⟨he, mode, tail, hb, hbad⟩ => ?_
      exact .inr ⟨he, r, mode, tail, by rw [addressRule, hL], hb, hbad⟩

/-- An opcode byte is refused exactly where the table has no entry for it. -/
theorem decode_eq_illegalOpcode_iff (op : Byte) (rest : List Byte) :
    decode (op :: rest) = .error .illegalOpcode ↔ opcodeLayout op = none := by
  constructor
  · intro h
    rcases decode_error h with he | ⟨-, hnone⟩ | ⟨he, -⟩
    · cases he
    · exact hnone
    · cases he
  · intro h
    rw [decode, h]

/-- A mode byte is refused exactly where the opcode has an address part whose rule does not admit it. -/
theorem decode_eq_illegalAddressing_iff (op mode : Byte) (rest : List Byte) :
    decode (op :: mode :: rest) = .error .illegalAddressing ↔
      ∃ r, addressRule op = some r ∧ badMode r (hiNibble mode) = true := by
  constructor
  · intro h
    rcases decode_error h with he | ⟨he, -⟩ | ⟨-, r, _, _, hr, hb, hbad⟩
    · cases he
    · cases he
    · obtain ⟨rfl, -⟩ := List.cons.inj hb
      exact ⟨r, hr, hbad⟩
  · rintro ⟨r, hr, hbad⟩
    rw [addressRule] at hr
    rw [decode]
    split at hr
    · next hL => cases hr; simp only [hL, decodeA, hbad, if_true]
    · next hL => cases hr; simp only [hL, decodeA, hbad, if_true]
    all_goals cases hr

/-- The bytes without an entry in the table (30_encoding.md R112). -/
theorem opcodeLayout_isNone_iff : ∀ b : Byte, (opcodeLayout b).isNone = true ↔
    ¬ (b.toNat ≤ 0x0A ∨ b.toNat = 0x10 ∨ (0x20 ≤ b.toNat ∧ b.toNat ≤ 0x2D) ∨ b.toNat = 0x30 ∨
      b.toNat = 0x31 ∨ (0x40 ≤ b.toNat ∧ b.toNat ≤ 0x4D) ∨ b.toNat = 0x50 ∨
      (0x60 ≤ b.toNat ∧ b.toNat ≤ 0x63) ∨ (0x70 ≤ b.toNat ∧ b.toNat ≤ 0x74) ∨
      (0x80 ≤ b.toNat ∧ b.toNat ≤ 0x84) ∨ (0x90 ≤ b.toNat ∧ b.toNat ≤ 0x97)) := by
  decide

/-- Settles O4: the refused bytes are those without an entry. -/
theorem illegalOpcodesRefused : Obligations.IllegalOpcodesRefused := by
  intro b rest
  rw [decode_eq_illegalOpcode_iff, ← opcodeLayout_isNone_iff, Option.isNone_iff_eq_none]

/-- The opcodes with an address part, by their rule (30_encoding.md R110, R112). -/
theorem addressRule_iff : ∀ op : Byte,
    (addressRule op = some .memOnly ↔ op.toNat = 0x50) ∧
    (addressRule op = some .noImm ↔ op.toNat = 0x62 ∨ op.toNat = 0x63 ∨ op.toNat = 0x72 ∨
      op.toNat = 0x73 ∨ op.toNat = 0x83 ∨ (0x90 ≤ op.toNat ∧ op.toNat ≤ 0x97)) ∧
    (addressRule op = some .any ↔ op.toNat = 0x60 ∨ op.toNat = 0x61 ∨ op.toNat = 0x70 ∨
      op.toNat = 0x71 ∨ op.toNat = 0x74 ∨ op.toNat = 0x80 ∨ op.toNat = 0x81 ∨ op.toNat = 0x82 ∨
      op.toNat = 0x84) := by
  decide

/-- The predicate `badmode` on the mode code (30_encoding.md R110). -/
theorem badMode_iff (r : ModeRule) (am : RegNo) : badMode r am = true ↔
    am.toNat = 0x5 ∨ 0xC ≤ am.toNat ∨ (am.toNat = 0xB ∧ r ≠ .any) ∨ (am.toNat = 0x0 ∧ r = .memOnly) := by
  revert am
  cases r <;> decide

theorem toNat_hiNibble (b : Byte) : (hiNibble b).toNat = b.toNat / 16 := by
  rw [hiNibble, BitVec.extractLsb'_toNat, Nat.shiftRight_eq_div_pow]
  exact Nat.mod_eq_of_lt (Nat.div_lt_of_lt_mul b.isLt)

/-- Settles O5: the refused mode bytes, rule by rule. -/
theorem illegalModesRefused : Obligations.IllegalModesRefused := by
  intro op mode rest
  obtain ⟨hmem, hno, hany⟩ := addressRule_iff op
  simp only [decode_eq_illegalAddressing_iff, badMode_iff, toNat_hiNibble]
  constructor
  · rintro ⟨r, hr, hbad⟩
    cases r with
    | any => have := hany.1 hr; simp at hbad; omega
    | noImm => have := hno.1 hr; simp at hbad; omega
    | memOnly => have := hmem.1 hr; simp at hbad; omega
  · rintro ⟨hop, hbad⟩
    by_cases h1 : op.toNat = 0x50
    · exact ⟨.memOnly, hmem.2 h1, by simp; omega⟩
    · by_cases h2 : addressRule op = some .noImm
      · exact ⟨.noImm, h2, by simp; omega⟩
      · rw [hno] at h2
        exact ⟨.any, hany.2 (by omega), by simp; omega⟩

/-- The register nibble does not enter the operand of these modes (30_encoding.md R103, R124). -/
theorem decodeOperand_modeByte_congr {w : Nat} {imm : List Byte → Except DecodeError (BitVec w)}
    {immBytes : Nat} {am : RegNo} (ham : am = 0x2#4 ∨ am = 0x3#4 ∨ am = 0xA#4 ∨ am = 0xB#4) (r q : RegNo)
    (rest : List Byte) : decodeOperand imm immBytes (modeByte am r) rest =
      decodeOperand imm immBytes (modeByte am q) rest := by
  simp only [decodeOperand, hiNibble_modeByte]
  obtain rfl | rfl | rfl | rfl := ham <;> rfl

/-- Settles O6: the bytes the statement admits have a layout with an address part, or none. -/
theorem registerNibbleIgnored : Obligations.RegisterNibbleIgnored := by
  intro op am r q rest hop ham
  have address : ∀ op : Byte, (op.toNat = 0x50 ∨ (0x60 ≤ op.toNat ∧ op.toNat ≤ 0x63) ∨ 0x70 ≤ op.toNat) →
      opcodeLayout op = none ∨ addressRule op ≠ none := by
    intro op hop
    rw [← Option.isNone_iff_eq_none, opcodeLayout_isNone_iff]
    obtain ⟨hmem, hno, hany⟩ := addressRule_iff op
    by_cases hlegal : addressRule op = none
    · rw [hlegal] at hmem hno hany
      simp only [reduceCtorEq, false_iff] at hmem hno hany
      exact .inl (by omega)
    · exact .inr hlegal
  rcases address op hop with hnone | hrule
  · rw [decode, decode, hnone]
  · rw [decode, decode]
    cases hL : opcodeLayout op with
    | none => rfl
    | some L =>
      rw [addressRule, hL] at hrule
      cases L with
      | n _ | b _ | j _ => exact absurd rfl hrule
      | a8 rule mk | a16 rule mk =>
        simp only [decodeA, hiNibble_modeByte, decodeOperand_modeByte_congr ham r q]

end Sys2Proof
end

section
/-!
PROOFS. What every instruction keeps. Each operation of a layer is shown once to be an evolution of that
layer: it keeps the invariant, and it leaves what the layer's instructions leave (the parameters in
layer G; the generic machine and the environment, but for the traffic with devices, in the RC). The
invariant of `exec` and of `step` and the separation of the layers follow.
-/

namespace Sys2Proof.Machine

/-! ## Layer G -/

/-- The parameters are the same, and the invariant is kept. -/
structure GMachine.Evolves (g h : GMachine) : Prop where
  cfg : h.cfg = g.cfg
  ok : g.ok = true → h.ok = true

namespace GMachine.Evolves

variable (g : GMachine)

theorem refl : g.Evolves g := ⟨rfl, id⟩

theorem trans {g h k : GMachine} (a : g.Evolves h) (b : h.Evolves k) : g.Evolves k :=
  ⟨b.cfg.trans a.cfg, b.ok ∘ a.ok⟩

theorem of_keeps {g h : GMachine} (k : g.Keeps h) : g.Evolves h := ⟨k.2.1, k.1⟩

theorem psw (p : Psw) : g.Evolves { g with psw := p } := ⟨rfl, fun h => GMachine.ok_psw h p⟩

theorem setFlags (f : Flags) : g.Evolves (g.setFlags f) := ⟨rfl, fun h => GMachine.ok_setFlags h f⟩

theorem setZC (z c : Bool) : g.Evolves (g.setZC z c) := psw g _

theorem setPc (a : Quad) : g.Evolves (g.setPc a) := ⟨rfl, fun h => GMachine.ok_setPc h a⟩

theorem writeReg (r : GReg) (v : Quad) : g.Evolves (g.writeReg r v) :=
  ⟨(g.writeReg_frame r v).1, fun h => GMachine.ok_writeReg h r v⟩

theorem writePlace (l : Len) (p : GPlace) (v : Quad) : g.Evolves (g.writePlace l p v) :=
  of_keeps (.writePlace g l p v)

theorem writeData (l : Len) (a v : Quad) : g.Evolves (g.writeData l a v) := writePlace g l (.mem a) v

theorem place (o : GOperand) : g.Evolves (g.place o).2 := by
  cases o with
  | preinc r | postinc r | predec r | postdec r => exact writeReg g _ _
  | _ => exact refl g

theorem readOperand (l : Len) (o : GOperand) : g.Evolves (g.readOperand l o).2 := place g o

theorem locate (l : Len) (o : GOperand) : g.Evolves (g.locate l o).2 := place g o

theorem writeOperand (l : Len) (o : GOperand) (v : Quad) : g.Evolves (g.writeOperand l o v) :=
  (place g o).trans (writePlace _ l _ v)

theorem push (l : Len) (v : Quad) : g.Evolves (g.push l v) :=
  ⟨by rw [g.push_frame], fun h => GMachine.ok_push h l v⟩

theorem pop (l : Len) : g.Evolves (g.pop l).2 := ⟨by rw [g.pop_frame], fun h => GMachine.ok_pop h l⟩

theorem spPop (m : Nat) : g.Evolves (g.spPop m) :=
  ⟨by unfold GMachine.spPop; split <;> rfl, fun h => GMachine.ok_spPop h m⟩

theorem foldl (f : GMachine → GReg → GMachine) (hf : ∀ g r, GMachine.Evolves g (f g r))
    (rs : List GReg) : g.Evolves (rs.foldl f g) := by
  induction rs generalizing g with
  | nil => exact refl g
  | cons r rs ih => exact (hf g r).trans (ih _)

theorem pushFrame : g.Evolves g.pushFrame := by
  have h1 := (push g g.cfg.aw g.pc).trans (push _ .l16 g.psw.quad)
  unfold GMachine.pushFrame
  dsimp only
  split
  · exact h1.trans (foldl _ _ (fun g r => push g _ _) _)
  · exact h1

theorem takeInterrupt (e : Quad) : g.Evolves (g.takeInterrupt e) :=
  ⟨(pushFrame g).cfg, fun h => GMachine.ok_takeInterrupt h e⟩

theorem takeInterruptAt (a : Quad) : g.Evolves (g.takeInterruptAt a) :=
  ⟨(pushFrame g).cfg, fun h => GMachine.ok_takeInterruptAt h a⟩

theorem popReg (r : GReg) : g.Evolves (g.popReg r) := (pop g _).trans (writeReg _ r _)

theorem returnFromInterrupt : g.Evolves g.returnFromInterrupt := by
  refine ⟨?_, GMachine.ok_returnFromInterrupt⟩
  unfold GMachine.returnFromInterrupt
  dsimp only
  rw [(pop _ _).cfg, (pop _ _).cfg]
  split
  · exact (foldl g _ (fun g r => popReg g r) _).cfg
  · rfl

/-- An instruction checked and turned away takes the addressing error. -/
theorem checked (srcs dsts : List GOperand) {k : GMachine → GMachine} (hk : g.Evolves (k g)) :
    g.Evolves (g.checked srcs dsts k) := by
  unfold GMachine.checked
  split
  · exact hk
  · exact takeInterrupt g _

theorem fetch (l : Len) (o : Roles) : g.Evolves (g.fetch l o).2 := by
  cases o with
  | separate x y d => exact (readOperand g l x).trans (readOperand _ l y)
  | inFirst x y => exact (locate g l x).trans (readOperand _ l y)
  | inSecond x y => exact (readOperand g l x).trans (locate _ l y)
  | accumulator y => exact readOperand g l y
  | stack => exact (pop g l).trans (pop _ l)

theorem deliver (l : Len) (d : GDest) (v : Quad) : g.Evolves (g.deliver l d v) := by
  cases d with
  | place p => exact writePlace g l p v
  | operand o => exact writeOperand g l o v
  | stack => exact push g l v

theorem binary (l : Len) (f : BinForm) (op : Quad → Quad → Quad × Flags) :
    g.Evolves (g.binary l f op) := by
  unfold GMachine.binary
  refine checked g _ _ ?_
  exact ((fetch g l _).trans (deliver _ l _ _)).trans (setFlags _ _)

theorem probe (l : Len) (f : BinForm) (op : Quad → Quad → Quad × Flags) : g.Evolves (g.probe l f op) := by
  unfold GMachine.probe
  refine checked g _ _ ?_
  exact (fetch g l _).trans (setFlags _ _)

theorem unary (l : Len) (f : UnForm) (op : Quad → Bool → Quad × Flags) : g.Evolves (g.unary l f op) := by
  refine checked g _ _ ?_
  cases f with
  | two a b => exact ((readOperand g l a).trans (writeOperand _ l b _)).trans (setFlags _ _)
  | one a => exact ((locate g l a).trans (writePlace _ l _ _)).trans (setFlags _ _)
  | zero => exact ((pop g l).trans (push _ l _)).trans (setFlags _ _)

theorem move (l : Len) (a b : GOperand) : g.Evolves (g.move l a b) :=
  checked g _ _ ((readOperand g l a).trans (writeOperand _ l b _))

theorem writeIo (r v : Quad) : g.Evolves (g.writeIo r v) := by
  refine ⟨rfl, fun h => ?_⟩
  rw [GMachine.ok_iff] at h ⊢
  obtain ⟨hmem, ⟨hwf, hbelow⟩, hrest⟩ := h
  have hr : 8 * r.toNat + 8 ≤ 8 * 2 ^ 64 := by have := r.isLt; omega
  exact ⟨hmem, ⟨Memory.wf_writeSpan _ _ _ _ hwf, Memory.below_writeSpan _ _ _ _ _ hr hbelow⟩, hrest⟩

/-- IN and OUT without a separate space are an illegal code. -/
theorem withSeparateIo {k : GMachine → GMachine} (hk : g.Evolves (k g)) :
    g.Evolves (g.withSeparateIo k) := by
  unfold GMachine.withSeparateIo
  split
  · exact hk
  · exact takeInterrupt g _

theorem popTo (l : Len) (b : GOperand) : g.Evolves (g.popTo l b) := by
  unfold GMachine.popTo
  dsimp only
  split
  · exact (writeOperand g l b _).trans (spPop _ _)
  · exact (spPop g _).trans (writeOperand _ l b _)

theorem loopTo (l : Len) (p : GPlace) (v : Quad) (taken : Bool) (d : Quad) :
    g.Evolves (g.loopTo l p v taken d) := by
  unfold GMachine.loopTo
  split
  · exact (writePlace g l p v).trans (setPc _ _)
  · exact refl g

theorem locateString (len addr : GOperand) : g.Evolves (g.locateString len addr).2 :=
  (place g len).trans (place _ addr)

/-- A loop ends with an evolution if its turns are. -/
theorem loop {α : Type} {turn : GMachine → Turn α} {out : α → GMachine}
    (hgo : ∀ x y, turn x = .goesOn y → x.Keeps y)
    (hend : ∀ x r, turn x = .ended r → x.Evolves (out r)) {r : α} (h : g.loop turn = some r) :
    g.Evolves (out r) := by
  obtain ⟨n, hn⟩ := GMachine.after_of_loop turn h
  clear h
  induction n generalizing g with
  | zero => cases hn
  | succ n ih =>
    rw [GMachine.after] at hn
    cases ht : turn g with
    | ended x => rw [ht] at hn; cases hn; exact hend g _ ht
    | goesOn x => rw [ht] at hn; exact (of_keeps (hgo g x ht)).trans (ih x hn)

theorem copyLoop {l : Len} {u v : StringPlace} {tr : GMachine → Quad → Quad} {h : GMachine}
    (hl : g.loop (GMachine.copyTurn l u v tr) = some h) : g.Evolves h := by
  refine loop g (out := id) (Keeps.copyTurn l u v tr) (fun x r hr => ?_) hl
  unfold GMachine.copyTurn at hr
  dsimp only at hr
  split at hr
  · cases hr; exact refl x
  · cases hr

theorem fillLoop {l : Len} {v : StringPlace} {fill : Quad} {h : GMachine}
    (hl : g.loop (GMachine.fillTurn l v fill) = some h) : g.Evolves h := by
  refine loop g (out := id) (Keeps.fillTurn l v fill) (fun x r hr => ?_) hl
  unfold GMachine.fillTurn at hr
  dsimp only at hr
  split at hr
  · cases hr; exact refl x
  · cases hr

theorem copyString {l : Len} {u v : StringPlace} {fill : Quad} {tr : GMachine → Quad → Quad}
    {h : GMachine} (hc : g.copyString l u v fill tr = some h) : g.Evolves h := by
  obtain ⟨k, hk, rfl⟩ := Option.map_eq_some_iff.1 hc
  obtain ⟨m, hm, hf⟩ := Option.bind_eq_some_iff.1 hk
  exact ((copyLoop g hm).trans (fillLoop m hf)).trans (setZC k _ _)

theorem compareLoop {l : Len} {u v : StringPlace} {fill : Quad} {r : GMachine × Bool × Bool}
    (hl : g.loop (GMachine.compareTurn l u v fill) = some r) : g.Evolves r.1 := by
  refine loop g (Keeps.compareTurn l u v fill) (fun x r hr => ?_) hl
  unfold GMachine.compareTurn at hr
  dsimp only at hr
  split at hr
  · cases hr; exact refl x
  · split at hr
    · cases hr
    · cases hr; exact of_keeps ((Keeps.stepIfAny x l u).trans (.stepIfAny _ l v))

theorem scanLoop {l : Len} {w : StringPlace} {stop : Quad → Bool} {r : GMachine × Bool}
    (hl : g.loop (GMachine.scanTurn l w stop) = some r) : g.Evolves r.1 := by
  refine loop g (Keeps.scanTurn l w stop) (fun x r hr => ?_) hl
  unfold GMachine.scanTurn at hr
  dsimp only at hr
  split at hr
  · cases hr; exact refl x
  · split at hr
    · cases hr; exact of_keeps (.stepString x l w)
    · cases hr

theorem matchLoop {l : Len} {u v : StringPlace} {r : GMachine × Bool}
    (hl : g.loop (GMachine.matchTurn l u v) = some r) : g.Evolves r.1 := by
  refine loop g (Keeps.matchTurn l u v) (fun x r hr => ?_) hl
  unfold GMachine.matchTurn at hr
  dsimp only at hr
  split at hr
  · cases hr; exact refl x
  · split at hr
    · cases hr; exact refl x
    · cases hr

end GMachine.Evolves

/-- An instruction of layer G that has completed: the RC is as before, the generic machine evolved. -/
def State.EvolvesGeneric (s t : State) : Prop := ∃ g, t = { s with g := g } ∧ s.g.Evolves g

section

variable {s t : State}

theorem State.evolvesGeneric_of_next {g : GMachine} (h : (.next { s with g := g } : Result) = .next t)
    (hg : s.g.Evolves g) : s.EvolvesGeneric t := ⟨g, (Host.Outcome.next.inj h).symm, hg⟩

theorem State.evolvesGeneric_of_onStrings {srcs dsts : List GOperand} {k : GMachine → Option GMachine}
    (hk : ∀ g, k s.g = some g → s.g.Evolves g) (h : s.onStrings srcs dsts k = .next t) :
    s.EvolvesGeneric t := by
  unfold State.onStrings at h
  split at h
  · split at h
    · next g hg => exact ⟨g, (Host.Outcome.next.inj h).symm, hk g hg⟩
    · cases h
  · exact ⟨_, (Host.Outcome.next.inj h).symm, .takeInterrupt _ _⟩

theorem State.evolvesGeneric_of_scan {l : Len} {len addr char : GOperand} {test : Quad → Quad → Bool}
    (h : s.scan l len addr char test = .next t) : s.EvolvesGeneric t := by
  refine State.evolvesGeneric_of_onStrings (fun g hg => ?_) h
  obtain ⟨r, hr, rfl⟩ := Option.map_eq_some_iff.1 hg
  exact (((GMachine.Evolves.locateString s.g len addr).trans (.readOperand _ .l8 char)).trans
    (.scanLoop _ hr)).trans (.setZC _ _ _)

theorem execGLocc_evolvesGeneric {l : Len} {len addr char : GOperand}
    (h : execGLocc l len addr char s = .next t) : s.EvolvesGeneric t := State.evolvesGeneric_of_scan h

theorem execGSkpc_evolvesGeneric {l : Len} {len addr char : GOperand}
    (h : execGSkpc l len addr char s = .next t) : s.EvolvesGeneric t := State.evolvesGeneric_of_scan h

theorem execGMovc_evolvesGeneric {l : Len} {sl sa fc dl da : GOperand}
    (h : execGMovc l sl sa fc dl da s = .next t) : s.EvolvesGeneric t := by
  refine State.evolvesGeneric_of_onStrings (fun g hg => ?_) h
  exact (((GMachine.Evolves.locateString s.g sl sa).trans (.readOperand _ .l8 fc)).trans
    (.locateString _ dl da)).trans (.copyString _ hg)

theorem execGMovtc_evolvesGeneric {l : Len} {sl sa fc tb dl da : GOperand}
    (h : execGMovtc l sl sa fc tb dl da s = .next t) : s.EvolvesGeneric t := by
  refine State.evolvesGeneric_of_onStrings (fun g hg => ?_) h
  exact ((((GMachine.Evolves.locateString s.g sl sa).trans (.readOperand _ .l8 fc)).trans
    (.readOperand _ _ tb)).trans (.locateString _ dl da)).trans (.copyString _ hg)

theorem execGCmpc_evolvesGeneric {l : Len} {l1 a1 fc l2 a2 : GOperand}
    (h : execGCmpc l l1 a1 fc l2 a2 s = .next t) : s.EvolvesGeneric t := by
  refine State.evolvesGeneric_of_onStrings (fun g hg => ?_) h
  obtain ⟨r, hr, rfl⟩ := Option.map_eq_some_iff.1 hg
  exact ((((GMachine.Evolves.locateString s.g l1 a1).trans (.readOperand _ .l8 fc)).trans
    (.locateString _ l2 a2)).trans (.compareLoop _ hr)).trans (.setZC _ _ _)

theorem execGMatchc_evolvesGeneric {l : Len} {l1 a1 l2 a2 : GOperand}
    (h : execGMatchc l l1 a1 l2 a2 s = .next t) : s.EvolvesGeneric t := by
  refine State.evolvesGeneric_of_onStrings (fun g hg => ?_) h
  obtain ⟨r, hr, rfl⟩ := Option.map_eq_some_iff.1 hg
  exact (((GMachine.Evolves.locateString s.g l1 a1).trans (.locateString _ l2 a2)).trans
    (.matchLoop _ hr)).trans (.setZC _ _ _)

theorem execGCase_evolvesGeneric {l : Len} {sel base limit : GOperand}
    (h : execGCase l sel base limit s = .next t) : s.EvolvesGeneric t := by
  unfold execGCase at h
  dsimp only at h
  split at h
  · split at h
    · exact ⟨_, (Host.Outcome.next.inj h).symm, (((GMachine.Evolves.readOperand s.g l sel).trans
        (.readOperand _ l base)).trans (.readOperand _ l limit)).trans (.setPc _ _)⟩
    · cases h
  · exact ⟨_, (Host.Outcome.next.inj h).symm, .takeInterrupt _ _⟩

theorem State.evolvesGeneric_of_branchOnBit {base pos : GOperand} {d : Quad} {want : Bool}
    (h : s.branchOnBit base pos d want = .next t) : s.EvolvesGeneric t := by
  unfold State.branchOnBit at h
  dsimp only at h
  split at h
  · have hread := (GMachine.Evolves.readOperand s.g s.g.cfg.aw base).trans (.readOperand _ .l8 pos)
    split at h
    · cases h
    · refine ⟨_, (Host.Outcome.next.inj h).symm, ?_⟩
      split
      · exact hread.trans (.setPc _ _)
      · exact hread
  · exact ⟨_, (Host.Outcome.next.inj h).symm, .takeInterrupt _ _⟩

theorem execGDiv_evolvesGeneric {k : IntType} {l : Len} {f : BinForm}
    (h : execGDiv k l f s = .next t) : s.EvolvesGeneric t := by
  refine State.evolvesGeneric_of_next h ?_
  refine GMachine.Evolves.checked _ _ _ ?_
  dsimp only
  split
  · exact (GMachine.Evolves.fetch _ l _).trans (.takeInterrupt _ _)
  · exact ((GMachine.Evolves.fetch _ l _).trans (.deliver _ _ _ _)).trans (.setFlags _ _)

theorem execGJmpind_evolvesGeneric {a : GOperand} (h : execGJmpind a s = .next t) :
    s.EvolvesGeneric t := by
  refine State.evolvesGeneric_of_next h ?_
  beta_reduce
  split
  · have hplace := GMachine.Evolves.place s.g a
    split
    · next hp => rw [hp] at hplace; exact hplace.trans (.setPc _ _)
    · exact .takeInterrupt _ _
    · exact .takeInterrupt _ _
  · exact .takeInterrupt _ _

/-- A conditional jump of layer G writes PC or nothing. -/
theorem GMachine.evolves_setPc_if (g : GMachine) (c : Bool) (a : Quad) :
    g.Evolves (if c then g.setPc a else g) := by
  split
  · exact .setPc g a
  · exact .refl g

theorem execGInt_evolvesGeneric {adr : Quad} (h : execGInt adr s = .next t) : s.EvolvesGeneric t := by
  refine State.evolvesGeneric_of_next h ?_
  beta_reduce
  split
  · exact .takeInterruptAt _ _
  · exact .takeInterrupt _ _

theorem execGMul_evolvesGeneric {k : IntType} {l : Len} {f : BinForm}
    (h : execGMul k l f s = .next t) : s.EvolvesGeneric t := by
  refine State.evolvesGeneric_of_next h ?_
  refine GMachine.Evolves.checked _ _ _ ?_
  exact ((GMachine.Evolves.fetch _ l _).trans (.deliver _ _ _ _)).trans (.setFlags _ _)

theorem execGIn_evolvesGeneric {p : Quad} {r : Nat} (h : execGIn p r s = .next t) :
    s.EvolvesGeneric t := by
  refine State.evolvesGeneric_of_next h ?_
  exact .withSeparateIo _ (.checked _ _ _ (.writeReg _ _ _))

theorem execGOut_evolvesGeneric {p : Quad} {r : Nat} (h : execGOut r p s = .next t) :
    s.EvolvesGeneric t := by
  refine State.evolvesGeneric_of_next h ?_
  exact .withSeparateIo _ (.checked _ _ _ (.writeIo _ _ _))

theorem execGIn1_evolvesGeneric {p : Quad} (h : execGIn1 p s = .next t) : s.EvolvesGeneric t := by
  refine State.evolvesGeneric_of_next h ?_
  exact .withSeparateIo _ (.writeReg _ _ _)

theorem execGOut1_evolvesGeneric {p : Quad} (h : execGOut1 p s = .next t) : s.EvolvesGeneric t := by
  refine State.evolvesGeneric_of_next h ?_
  exact .withSeparateIo _ (.writeIo _ _ _)

theorem execGLoad_evolvesGeneric {l : Len} {a : GOperand} (h : execGLoad l a s = .next t) :
    s.EvolvesGeneric t := by
  refine State.evolvesGeneric_of_next h ?_
  refine GMachine.Evolves.checked _ _ _ ?_
  exact (GMachine.Evolves.readOperand _ l a).trans (.writePlace _ l _ _)

theorem execGPush_evolvesGeneric {l : Len} {a : GOperand} (h : execGPush l a s = .next t) :
    s.EvolvesGeneric t := by
  refine State.evolvesGeneric_of_next h ?_
  refine GMachine.Evolves.checked _ _ _ ?_
  exact (GMachine.Evolves.readOperand _ l a).trans (.push _ l _)

theorem execGAcb_evolvesGeneric {l : Len} {lim st ix : GOperand} {d : Quad}
    (h : execGAcb l lim st ix d s = .next t) : s.EvolvesGeneric t := by
  refine State.evolvesGeneric_of_next h ?_
  refine GMachine.Evolves.checked _ _ _ ?_
  exact (((GMachine.Evolves.readOperand _ l lim).trans (.readOperand _ l st)).trans
    (.locate _ l ix)).trans (.loopTo _ l _ _ _ d)

theorem execGAob_evolvesGeneric {l : Len} {lim ix : GOperand} {d : Quad}
    (h : execGAob l lim ix d s = .next t) : s.EvolvesGeneric t := by
  refine State.evolvesGeneric_of_next h ?_
  refine GMachine.Evolves.checked _ _ _ ?_
  exact ((GMachine.Evolves.readOperand _ l lim).trans (.locate _ l ix)).trans (.loopTo _ l _ _ _ d)

theorem execGSob_evolvesGeneric {l : Len} {ix : GOperand} {d : Quad}
    (h : execGSob l ix d s = .next t) : s.EvolvesGeneric t := by
  refine State.evolvesGeneric_of_next h ?_
  refine GMachine.Evolves.checked _ _ _ ?_
  exact (GMachine.Evolves.locate _ l ix).trans (.loopTo _ l _ _ _ d)

/-- Every instruction of layer G acts on the generic machine alone, which evolves. -/
theorem exec_evolvesGeneric {i : Instr} (hi : isGeneric i = true) (h : exec i s = .next t) :
    s.EvolvesGeneric t := by
  cases i
  case gMov | gMov3 => exact State.evolvesGeneric_of_next h (.move _ _ _ _)
  case gIn => exact execGIn_evolvesGeneric h
  case gOut => exact execGOut_evolvesGeneric h
  case gIn1 => exact execGIn1_evolvesGeneric h
  case gOut1 => exact execGOut1_evolvesGeneric h
  case gLoad => exact execGLoad_evolvesGeneric h
  case gStore => exact State.evolvesGeneric_of_next h (.checked _ _ _ (.writeOperand _ _ _ _))
  case gPush => exact execGPush_evolvesGeneric h
  case gPop => exact State.evolvesGeneric_of_next h (.checked _ _ _ (.popTo _ _ _))
  case gPushpsw => exact State.evolvesGeneric_of_next h (.push _ _ _)
  case gPoppsw =>
    exact State.evolvesGeneric_of_next h ((GMachine.Evolves.pop s.g .l16).trans (.psw _ _))
  case gMul => exact execGMul_evolvesGeneric h
  case gDiv => exact execGDiv_evolvesGeneric h
  case gMovc => exact execGMovc_evolvesGeneric h
  case gMovtc => exact execGMovtc_evolvesGeneric h
  case gCmpc => exact execGCmpc_evolvesGeneric h
  case gLocc => exact execGLocc_evolvesGeneric h
  case gSkpc => exact execGSkpc_evolvesGeneric h
  case gMatchc => exact execGMatchc_evolvesGeneric h
  case gAcb => exact execGAcb_evolvesGeneric h
  case gAob => exact execGAob_evolvesGeneric h
  case gSob => exact execGSob_evolvesGeneric h
  case gCase => exact execGCase_evolvesGeneric h
  case gBbs | gBbc => exact State.evolvesGeneric_of_branchOnBit h
  case gAdd | gSub | gAnd | gOr | gXor => exact State.evolvesGeneric_of_next h (.binary _ _ _ _)
  case gCmp | gTst => exact State.evolvesGeneric_of_next h (.probe _ _ _ _)
  case gInc | gDec | gNot | gAsr | gLsr | gRor | gRorc | gAsl | gLsl | gRol | gRolc =>
    exact State.evolvesGeneric_of_next h (.unary _ _ _ _)
  case gJmp => exact State.evolvesGeneric_of_next h (.setPc _ _)
  case gJmpind => exact execGJmpind_evolvesGeneric h
  case gBcc | gJcc => exact State.evolvesGeneric_of_next h (GMachine.evolves_setPc_if _ _ _)
  case gJsr =>
    exact State.evolvesGeneric_of_next h ((GMachine.Evolves.push s.g _ _).trans (.setPc _ _))
  case gRts =>
    exact State.evolvesGeneric_of_next h ((GMachine.Evolves.pop s.g _).trans (.setPc _ _))
  case gInt => exact execGInt_evolvesGeneric h
  case gRti => exact State.evolvesGeneric_of_next h (.returnFromInterrupt _)
  case gInte | gIntd => exact State.evolvesGeneric_of_next h (.psw _ _)
  case gNop => exact State.evolvesGeneric_of_next h (.refl _)
  all_goals cases hi

end

/-! ## The RC -/

/-- What an instruction of the RC leaves: the generic machine and the environment, but that answers of
devices are used up in their order and accesses to devices are added to the list of them. -/
structure State.Leaves (s t : State) : Prop where
  g : t.g = s.g
  devices : t.devices = s.devices
  devIn : t.devIn <:+ s.devIn
  devLog : s.devLog <+: t.devLog
  start : t.start = s.start
  vec : t.vec = s.vec
  env : t.env = s.env

/-- An evolution of the RC: it keeps the invariant too. -/
structure State.Evolves (s t : State) : Prop extends State.Leaves s t where
  ok : s.ok = true → t.ok = true

theorem State.Leaves.trans {s t u : State} (a : s.Leaves t) (b : t.Leaves u) : s.Leaves u :=
  ⟨b.g.trans a.g, b.devices.trans a.devices, b.devIn.trans a.devIn, a.devLog.trans b.devLog,
    b.start.trans a.start, b.vec.trans a.vec, b.env.trans a.env⟩

/-- A state with the same environment is left. -/
theorem State.Leaves.of_eq {s t : State} (hg : t.g = s.g) (hd : t.devices = s.devices)
    (hi : t.devIn = s.devIn) (hl : t.devLog = s.devLog) (hs : t.start = s.start) (hv : t.vec = s.vec)
    (he : t.env = s.env) : s.Leaves t :=
  ⟨hg, hd, hi ▸ List.suffix_rfl, hl ▸ List.prefix_rfl, hs, hv, he⟩

theorem State.leaves_afterRead (s : State) (a : Word) : s.Leaves (s.afterRead a) := by
  refine ⟨rfl, rfl, ?_, ?_, rfl, rfl, rfl⟩
  · rw [State.afterRead]
    dsimp only
    split
    · exact List.tail_suffix _
    · exact List.suffix_rfl
  · rw [State.afterRead]
    dsimp only
    split
    · exact List.prefix_append _ _
    · exact List.prefix_rfl

theorem State.leaves_writeByte (s : State) (a : Word) (v : Byte) : s.Leaves (s.writeByte a v) := by
  refine ⟨rfl, rfl, List.suffix_rfl, ?_, rfl, rfl, rfl⟩
  rw [State.writeByte_devLog]
  split
  · exact List.prefix_append _ _
  · exact List.prefix_rfl

theorem State.leaves_push8 (s : State) (b : Byte) : s.Leaves (s.push8 b) := by
  have hsp : s.Leaves { s with sp := s.sp + 1 } := .of_eq rfl rfl rfl rfl rfl rfl rfl
  exact hsp.trans (State.leaves_writeByte { s with sp := s.sp + 1 } _ b)

theorem State.leaves_push16 (s : State) (v : Word) : s.Leaves (s.push16 v) :=
  (s.leaves_push8 _).trans (State.leaves_push8 _ _)

theorem State.leaves_load16 (s : State) (a : Word) : s.Leaves (s.load16 a).2 :=
  (s.leaves_afterRead a).trans (State.leaves_afterRead _ _)

theorem State.leaves_acceptRequest (s : State) (nn : Byte) : s.Leaves (s.acceptRequest nn).2 := by
  obtain ⟨-, -, -, -, -, -, -, -, hd, hi, hl, hs, hv, he, hg, -⟩ := s.acceptRequest_frame nn
  exact .of_eq hg hd hi hl hs hv he

theorem State.leaves_takeInterrupt (s : State) (nn : Byte) : s.Leaves (s.takeInterrupt nn) :=
  ((((s.leaves_push16 _).trans (State.leaves_push16 _ _)).trans
    (State.leaves_acceptRequest _ nn)).trans (State.leaves_load16 _ _)).trans
    (.of_eq rfl rfl rfl rfl rfl rfl rfl)

namespace State.Evolves

variable (s : State)

theorem trans {s t u : State} (a : s.Evolves t) (b : t.Evolves u) : s.Evolves u :=
  ⟨a.toLeaves.trans b.toLeaves, b.ok ∘ a.ok⟩

/-- A state that differs in PC, SP, the accumulators, the registers, the PSW, IMR and IVTP alone. -/
theorem of_fields (pc sp aw : Word) (ab : Byte) (gpr : RegFile) (psw : Psw) (imr ivtp : Word) :
    s.Evolves { s with pc := pc, sp := sp, aw := aw, ab := ab, gpr := gpr, psw := psw, imr := imr,
                       ivtp := ivtp } :=
  ⟨.of_eq rfl rfl rfl rfl rfl rfl rfl, id⟩

theorem refl : s.Evolves s := of_fields s _ _ _ _ _ _ _ _

theorem setReg (r : RegNo) (v : Word) : s.Evolves (s.setReg r v) := of_fields s _ _ _ _ _ _ _ _

theorem setAb (v : Byte) : s.Evolves (s.setAb v) := of_fields s _ _ _ _ _ _ _ _

theorem setPc (a : Word) : s.Evolves (s.setPc a) := of_fields s _ _ _ _ _ _ _ _

theorem setPsw (p : Psw) : s.Evolves (s.setPsw p) := of_fields s _ _ _ _ _ _ _ _

theorem setFlags (f : Flags) : s.Evolves (s.setFlags f) := setPsw s _

theorem afterRead (a : Word) : s.Evolves (s.afterRead a) := ⟨s.leaves_afterRead a, id⟩

theorem load16 (a : Word) : s.Evolves (s.load16 a).2 := (afterRead s a).trans (afterRead _ _)

theorem writeByte (a : Word) (v : Byte) : s.Evolves (s.writeByte a v) :=
  ⟨s.leaves_writeByte a v, fun h => State.ok_writeByte h a v⟩

theorem writeWord (a v : Word) : s.Evolves (s.writeWord a v) :=
  (writeByte s _ _).trans (writeByte _ _ _)

theorem place {w : Nat} (o : Operand w) : s.Evolves (s.place o).2 := by
  cases o with
  | preinc r | postinc r | predec r | postdec r => exact setReg s r _
  | memind f => exact load16 s f
  | _ => exact refl s

theorem readOp8 (o : Operand 8) : s.Evolves (s.readOp8 o).2 := by
  refine (place s o).trans ?_
  cases h : (s.place o).1 with
  | mem ea => rw [State.readOp8]; simp only [h]; exact afterRead _ ea
  | reg _ | lit _ => rw [State.readOp8]; simp only [h]; exact refl _

theorem readOp16 (o : Operand 16) : s.Evolves (s.readOp16 o).2 := by
  refine (place s o).trans ?_
  cases h : (s.place o).1 with
  | mem ea => rw [State.readOp16]; simp only [h]; exact load16 _ ea
  | reg _ | lit _ => rw [State.readOp16]; simp only [h]; exact refl _

theorem writePlace8 (p : Place 8) (v : Byte) : s.Evolves (s.writePlace8 p v) := by
  cases p with
  | reg r => exact setReg s r _
  | mem ea => exact writeByte s ea v
  | lit _ => exact refl s

theorem writePlace16 (p : Place 16) (v : Word) : s.Evolves (s.writePlace16 p v) := by
  cases p with
  | reg r => exact setReg s r _
  | mem ea => exact writeWord s ea v
  | lit _ => exact refl s

theorem modifyOp8 (o : Operand 8) (f : Byte → Bool → Byte × Flags) : s.Evolves (s.modifyOp8 o f) := by
  rw [State.modifyOp8_eq]
  exact ((readOp8 s o).trans (writePlace8 _ _ _)).trans (setFlags _ _)

/-- An entry from a boundary, with its own request raised, leaves none. -/
theorem addressingError : s.Evolves s.addressingError := by
  rw [State.addressingError_eq]
  have hreq : s.Leaves { s with pradr := true } := .of_eq rfl rfl rfl rfl rfl rfl rfl
  refine ⟨hreq.trans (State.leaves_takeInterrupt _ 0), fun h => ?_⟩
  obtain ⟨hm, hb, h1, h2, -, hg⟩ := (State.ok_iff s).1 h
  exact State.ok_takeInterrupt 0 hm hb hg (by simp [h1]) (by simp [h2])

theorem interruptInstruction (nn : Byte) : s.Evolves (s.interruptInstruction nn) := by
  rw [State.interruptInstruction_eq]
  have hreq : s.Leaves { s with prins := true } := .of_eq rfl rfl rfl rfl rfl rfl rfl
  refine ⟨hreq.trans (State.leaves_takeInterrupt _ nn), fun h => ?_⟩
  obtain ⟨hm, hb, -, h2, h3, hg⟩ := (State.ok_iff s).1 h
  exact State.ok_takeInterrupt nn hm hb hg (by simp [h2, h3]) (by simp [h2])

theorem modify (o : Operand 8) (f : Byte → Bool → Byte × Flags) : s.Evolves (s.modify o f) := by
  rw [State.modify]
  split
  · exact modifyOp8 s o f
  · exact addressingError s

theorem accumulate (o : Operand 8) (f : Byte → Byte → Byte × Flags) : s.Evolves (s.accumulate o f) :=
  ((readOp8 s o).trans (setAb _ _)).trans (setFlags _ _)

theorem compare (o : Operand 8) (f : Byte → Byte → Flags) : s.Evolves (s.compare o f) :=
  (readOp8 s o).trans (setFlags _ _)

theorem branch (cc : Cond) (pom : Byte) : s.Evolves (s.branch cc pom) := by
  rw [State.branch]
  split
  · exact setPc s _
  · exact refl s

theorem jumpIf (cc : Cond) (adr : Word) : s.Evolves (s.jumpIf cc adr) := by
  rw [State.jumpIf]
  split
  · exact setPc s _
  · exact refl s

theorem push16 (v : Word) : s.Evolves (s.push16 v) :=
  ⟨s.leaves_push16 v, fun h => State.ok_push16 h v⟩

theorem pop8 : s.Evolves s.pop8.2 := (afterRead s s.sp).trans (of_fields _ _ _ _ _ _ _ _ _)

theorem pop16 : s.Evolves s.pop16.2 := (pop8 s).trans (pop8 _)

theorem returnFromInterrupt : s.Evolves s.returnFromInterrupt :=
  ((((pop8 s).trans (pop8 _)).trans (pop16 _)).trans (setPsw _ _)).trans (setPc _ _)

end State.Evolves

section

variable {s t : State}

theorem execJmpind_evolves {o : Operand 16} (h : execJmpind o s = .next t) : s.Evolves t := by
  have hplace := State.Evolves.place s o
  obtain rfl := Host.Outcome.next.inj h
  split
  · next hp => rw [hp] at hplace; exact hplace.trans (.setPc _ _)
  · exact .addressingError s
  · exact .addressingError s

theorem execStb_evolves {o : Operand 8} (h : execStb o s = .next t) : s.Evolves t := by
  obtain rfl := Host.Outcome.next.inj h
  split
  · exact (State.Evolves.place s o).trans (.writePlace8 _ _ _)
  · exact .addressingError s

theorem execStw_evolves {o : Operand 16} (h : execStw o s = .next t) : s.Evolves t := by
  obtain rfl := Host.Outcome.next.inj h
  split
  · exact (State.Evolves.place s o).trans (.writePlace16 _ _ _)
  · exact .addressingError s

/-- The state after an instruction that answers one. -/
theorem State.evolves_of_next {u : State} (hu : s.Evolves u) (h : (.next u : Result) = .next t) :
    s.Evolves t := Host.Outcome.next.inj h ▸ hu

/-- Every instruction of the RC is an evolution of it. -/
theorem exec_evolves {i : Instr} (hi : isGeneric i = false) (h : exec i s = .next t) :
    s.Evolves t := by
  cases i
  case nop => exact State.evolves_of_next (.refl s) h
  case prpd | prpe | intd | inte | trpd | trpe => exact State.evolves_of_next (.setPsw s _) h
  case stimr | stivtp => exact State.evolves_of_next (.of_fields s _ _ _ _ _ _ _ _) h
  case rts => exact State.evolves_of_next ((State.Evolves.pop16 s).trans (.setPc _ _)) h
  case rti => exact State.evolves_of_next (.returnFromInterrupt s) h
  case int => exact State.evolves_of_next (.interruptInstruction s _) h
  case beql | bneq | bgrtu | bgreu | blssu | blequ | bgrt | bgre | blss | bleq | bneg | bnng | bovf
      | bnvf => exact State.evolves_of_next (.branch s _ _) h
  case jmp => exact State.evolves_of_next (.setPc s _) h
  case jsr => exact State.evolves_of_next ((State.Evolves.push16 s _).trans (.setPc _ _)) h
  case jeql | jneq | jgrtu | jgreu | jlssu | jlequ | jgrt | jgre | jlss | jleq | jneg | jnng | jovf
      | jnvf => exact State.evolves_of_next (.jumpIf s _ _) h
  case jmpind => exact execJmpind_evolves h
  case ldb => exact State.evolves_of_next ((State.Evolves.readOp8 s _).trans (.setAb _ _)) h
  case ldw =>
    exact State.evolves_of_next ((State.Evolves.readOp16 s _).trans (.of_fields _ _ _ _ _ _ _ _ _)) h
  case stb => exact execStb_evolves h
  case stw => exact execStw_evolves h
  case add | sub | and | or | xor => exact State.evolves_of_next (.accumulate s _ _) h
  case cmp | tst => exact State.evolves_of_next (.compare s _ _) h
  case inc | dec | not | asr | lsr | ror | rorc | asl | lsl | rol | rolc =>
    exact State.evolves_of_next (.modify s _ _) h
  all_goals cases hi

end

/-! ## The invariant and the separation of the layers -/

/-- The invariant of the machine when its generic machine alone has changed. -/
theorem State.ok_of_evolvesGeneric {s t : State} (he : s.EvolvesGeneric t) (h : s.ok = true) :
    t.ok = true := by
  obtain ⟨g, rfl, hg⟩ := he
  rw [State.ok_iff] at h ⊢
  obtain ⟨hm, hb, h1, h2, h3, hok⟩ := h
  exact ⟨hm, hb, h1, h2, h3, hg.ok hok⟩

/-- Settles O12: every instruction is an evolution of its layer. -/
theorem execKeepsInvariant : Obligations.ExecKeepsInvariant := by
  intro i s t hok h
  cases hi : isGeneric i with
  | false => exact (exec_evolves hi h).ok hok
  | true => exact State.ok_of_evolvesGeneric (exec_evolvesGeneric hi h) hok

/-- Settles O14: every instruction is an evolution of its layer. -/
theorem layersStayApart : Obligations.LayersStayApart := by
  intro i s t h
  refine ⟨fun hi => ?_, fun hi => ?_⟩
  · obtain ⟨hg, hd, hin, hlog, hs, hv, he⟩ := (exec_evolves hi h).toLeaves
    exact ⟨hg, hd, hin, hlog, hs, hv, he⟩
  · obtain ⟨g, rfl, hg⟩ := exec_evolvesGeneric hi h
    exact ⟨rfl, hg.cfg⟩

/-- Settles O11: the reset memories are empty and the reset registers 0. -/
theorem resetKeepsInvariant : Obligations.ResetKeepsInvariant := by
  unfold Obligations.ResetKeepsInvariant
  decide

/-- The fetch changes nothing but what devices saw and will answer. -/
theorem State.fetchFrom_frame (s : State) (bs : List Byte) (n : Nat) : (s.fetchFrom bs n).2 =
    { s with devIn := (s.fetchFrom bs n).2.devIn, devLog := (s.fetchFrom bs n).2.devLog } := by
  induction n generalizing s bs with
  | zero => rfl
  | succ n ih =>
    rw [State.fetchFrom]
    split
    · exact ih (s.afterRead _) _
    · rfl

theorem State.ok_nextInput {s : State} (h : s.ok = true) : s.nextInput.2.ok = true := by
  unfold State.nextInput
  split <;> exact h

/-- The service phase at a boundary leaves no internal request. -/
theorem State.ok_service {s : State} (h : s.ok = true) (nn : Byte) (rti : Bool) :
    (s.service nn rti).ok = true := by
  rw [State.service]
  split
  · obtain ⟨hm, hb, h1, h2, -, hg⟩ := (State.ok_iff s).1 h
    exact State.ok_takeInterrupt nn hm hb hg (by simp [h1]) (by simp [h2])
  · exact h

theorem State.ok_endOfInstruction {s : State} (h : s.ok = true) (i : Instr) :
    (s.endOfInstruction i).ok = true := by
  rw [State.endOfInstruction]
  split
  · exact h
  · exact State.ok_service h _ _

theorem State.ok_illegalOpcode {s : State} (h : s.ok = true) : s.illegalOpcode.ok = true := by
  rw [State.illegalOpcode_eq]
  obtain ⟨hm, hb, h1, -, h3, hg⟩ := (State.ok_iff s).1 h
  exact State.ok_takeInterrupt 0 hm hb hg (by simp [h1]) (by simp [h3])

theorem State.ok_cycle {s t : State} {inp : EnvInput} (h : s.ok = true)
    (hc : s.cycle inp = .next t) : t.ok = true := by
  have hfetch : s.fetch.2.ok = true := by rw [State.fetch, State.fetchFrom_frame]; exact h
  rw [State.cycle] at hc
  generalize s.fetch = x at hc hfetch
  split at hc
  · obtain rfl := Host.Outcome.next.inj hc
    exact State.ok_illegalOpcode hfetch
  · obtain rfl := Host.Outcome.next.inj hc
    exact (State.Evolves.addressingError _).ok hfetch
  · obtain rfl := Host.Outcome.next.inj hc
    exact State.ok_illegalOpcode hfetch
  · next i n u =>
    cases he : exec i (u.advance n) with
    | next v =>
      rw [he] at hc
      obtain rfl := Host.Outcome.next.inj hc
      exact State.ok_endOfInstruction (s := v.latch inp)
        (execKeepsInvariant i (u.advance n) v hfetch he) i
    | fault f => cases f
    | refused r => rw [he] at hc; cases hc

/-- Settles O13: the fetch, the latch and the service phase keep the invariant, and so does the
instruction between them. -/
theorem stepKeepsInvariant : Obligations.StepKeepsInvariant := by
  intro s t hok h
  have hnext := State.ok_nextInput hok
  rw [step] at h
  split at h
  · cases h
  · dsimp only at h
    split at h
    · exact State.ok_cycle hnext h
    · obtain rfl := Host.Outcome.next.inj h
      exact hnext

end Sys2Proof.Machine
end

section
/-!
PROOFS. Reads and writes of the RC's memory and devices: what a stored byte or word leaves where
(`stored_writeByte`, `stored_writeWord`), what is delivered to devices, and a call with its return, which
are a word written above SP and read back.
-/

namespace Sys2Proof.Machine

variable (s : State)

/-- A byte written, in the terms of the statements. -/
theorem State.stored_writeByte (a : Word) (v : Byte) : Stored s (s.writeByte a v) [(a, v)] := by
  refine ⟨fun c hc hd => ?_, fun b hd hb => ?_⟩
  · obtain rfl := List.mem_singleton.1 hc
    rw [s.readByte_writeByte _ _ _ hd, if_pos rfl]
  · rw [s.readByte_writeByte _ _ _ hd, if_neg (hb _ (List.mem_singleton.2 rfl)).symm]

theorem State.traffic_writeByte (a : Word) (v : Byte) :
    SameTraffic (s.delivered [(a, v)]) (s.writeByte a v) := by
  refine ⟨rfl, ?_⟩
  cases h : s.isDevice a <;> simp [State.delivered, h]

/-- A word written, in the terms of the statements. -/
theorem State.stored_writeWord (a v : Word) :
    Stored s (s.writeWord a v) [(a, hiByte v), (a + 1, loByte v)] := by
  have hne : a + 1 ≠ a := by simp
  refine ⟨fun c hc hd => ?_, fun b hd hb => ?_⟩
  · simp only [List.mem_cons, List.not_mem_nil, or_false] at hc
    obtain rfl | rfl := hc
    · rw [s.readByte_writeWord _ _ _ hd, if_neg hne, if_pos rfl]
    · rw [s.readByte_writeWord _ _ _ hd, if_pos rfl]
  · simp only [List.forall_mem_cons, List.not_mem_nil, false_implies, implies_true, and_true] at hb
    obtain ⟨h1, h2⟩ := hb
    rw [s.readByte_writeWord _ _ _ hd, if_neg h2.symm, if_neg h1.symm]

theorem State.traffic_writeWord (a v : Word) :
    SameTraffic (s.delivered [(a, hiByte v), (a + 1, loByte v)]) (s.writeWord a v) := by
  refine ⟨rfl, ?_⟩
  rw [State.writeWord]
  generalize a + 1 = b
  cases h : s.isDevice a <;> cases h' : s.isDevice b <;> simp [State.delivered, h, h']

/-- A read of a device register gives the environment's next answer (20_memory.md R69). -/
theorem State.load8_device (a : Word) {x : Byte} {rest : List Byte} (h : s.isDevice a = true)
    (hin : s.devIn = x :: rest) :
    s.load8 a = (x, { s with devIn := rest, devLog := s.devLog ++ [.read a x] }) := by
  have hx : s.deviceByte = x := by rw [State.deviceByte, hin]; rfl
  rw [State.load8, State.readByte, if_pos h, s.afterRead_device a h, hx, hin]
  rfl

/-- Settles O17: the laws of `Laws/Ops.lean`, with a read of a device taking the next answer. -/
theorem memoryReadsBack : Obligations.MemoryReadsBack := by
  intro s a b v x y w rest
  refine ⟨fun ha => ⟨?_, fun hb => ?_⟩, fun ha ha1 => ⟨s.load16_writeWord a w ha ha1, ?_, ?_⟩,
    fun hb hne hne1 => ?_, fun h1 h0 => s.load16_memory _ h1 h0, fun ha => ⟨?_, fun hin => ?_⟩,
    fun ha ha1 => ⟨?_, fun hin => ?_⟩⟩
  · rw [State.load8, s.afterRead_memory a ha]
  · rw [s.readByte_writeByte a b v hb]
    simp only [eq_comm]
  · exact (s.stored_writeWord a w).1 (a, hiByte w) (by simp) ha
  · exact (s.stored_writeWord a w).1 (a + 1, loByte w) (by simp) ha1
  · exact (s.stored_writeWord a w).2 b hb (by simpa using ⟨hne, hne1⟩)
  · exact s.writeByte_device a v ha
  · exact s.load8_device a ha hin
  · rw [State.writeWord, State.writeByte_device _ _ _ (by exact ha1), s.writeByte_device a _ ha,
      List.append_assoc]
    rfl
  · have second := State.load8_device { s with devIn := y :: rest, devLog := s.devLog ++ [.read a x] }
      (a + 1) ha1 rfl
    rw [List.append_assoc] at second
    rw [State.load16, s.load8_device a ha hin]
    dsimp only
    rw [second]
    rfl

/-- A word pushed is a word written above SP. -/
theorem State.push16_eq (v : Word) : s.push16 v = { s.writeWord (s.sp + 1) v with sp := s.sp + 2 } := by
  have h2 : s.sp + 1 + 1 = s.sp + 2 := BitVec.add_assoc _ _ _
  apply State.ext_fields
  case hsp => exact h2
  all_goals rfl

/-- The locations above SP that are no devices. -/
theorem State.isDevice_of_stackInMemory {s : State} {n k : Nat} (h : s.stackInMemory n = true)
    (hk : k < n) : s.isDevice (s.sp + BitVec.ofNat 16 (k + 1)) = false := by
  rw [State.stackInMemory, List.all_eq_true] at h
  simpa using h k (List.mem_range.2 hk)

/-- RTS reads the two bytes at the top of the stack, low byte first. -/
theorem exec_rts_eq : exec .rts s =
    .next { ((s.afterRead s.sp).afterRead (s.sp - 1)) with
      pc := joinBytes ((s.afterRead s.sp).readByte (s.sp - 1)) (s.readByte s.sp), sp := s.sp - 2 } := by
  have h2 : s.sp - 1 - 1 = s.sp - 2 := sub_sub s.sp 1 1
  rw [← h2]
  rfl

/-- A return where the word at the top of the stack is in memory. -/
theorem exec_rts_memory {s : State} (v : Word) (d : s.isDevice s.sp = false)
    (d1 : s.isDevice (s.sp - 1) = false) (hhi : s.readByte (s.sp - 1) = hiByte v)
    (hlo : s.readByte s.sp = loByte v) : exec .rts s = .next { s with pc := v, sp := s.sp - 2 } := by
  rw [exec_rts_eq, s.afterRead_memory _ d, s.afterRead_memory _ d1, hhi, hlo,
    joinBytes_hiByte_loByte]

/-- Settles O28: a call writes PC above SP, and a return reads it there. -/
theorem subroutineCalls : Obligations.SubroutineCalls := by
  refine ⟨fun adr s => ?_, fun s => exec_rts_eq s⟩
  have h2 : s.sp + 2 - 1 = s.sp + 1 := by bv_omega
  have h1 : s.sp + 1 + 1 = s.sp + 2 := BitVec.add_assoc _ _ _
  obtain ⟨hread, hframe⟩ := s.stored_writeWord (s.sp + 1) s.pc
  obtain ⟨hin, hlog⟩ := s.traffic_writeWord (s.sp + 1) s.pc
  rw [h1] at hread hframe hin hlog
  refine ⟨_, congrArg (fun u : State => Host.Outcome.next (u.setPc adr)) (s.push16_eq s.pc), rfl, rfl,
    ⟨hread, hframe⟩, ⟨hin, hlog⟩, ⟨rfl, rfl⟩, fun r => rfl, rfl,
    ⟨rfl, rfl, rfl, rfl, rfl, rfl, rfl, rfl, rfl, rfl, rfl, rfl⟩, fun hmem => ?_⟩
  have d1 : s.isDevice (s.sp + 1) = false := State.isDevice_of_stackInMemory hmem (k := 0) (by omega)
  have d2 : s.isDevice (s.sp + 2) = false := State.isDevice_of_stackInMemory hmem (k := 1) (by omega)
  have hsp : s.sp + 2 - 2 = s.sp := by bv_omega
  rw [exec_rts_memory s.pc (by exact d2) (by show s.isDevice (s.sp + 2 - 1) = false; rwa [h2])
    (by show State.readByte (s.writeWord (s.sp + 1) s.pc) (s.sp + 2 - 1) = _
        rw [h2]; exact hread (s.sp + 1, hiByte s.pc) (by simp) d1)
    (hread (s.sp + 2, loByte s.pc) (by simp) d2)]
  exact congrArg (fun w => Host.Outcome.next { (s.writeWord (s.sp + 1) s.pc).setPc adr with
    pc := s.pc, sp := w }) hsp

end Sys2Proof.Machine
end

section
/-!
PROOFS. Entries to interrupt routines and returns from them. An entry is described once
(`takeInterrupt_frame`, `takeInterrupt_entersAt`, `takeInterrupt_keeps`, `takeInterrupt_requests`); the
internal requests, INT and RTI are read off from it.
-/

namespace Sys2Proof.Machine

/-! ## The entry -/

section

variable (s : State) (nn : Byte)

/-- What an entry stores: the frame (60_exceptions.md R347). -/
theorem State.takeInterrupt_frame : InterruptFrame s (s.takeInterrupt nn) s.pc := by
  obtain ⟨-, hsp, -⟩ := s.pushedFrame.acceptRequest_frame nn
  have hread := s.takeInterrupt_sameMemory nn
  refine ⟨?_, fun c hc hd => ?_, fun a hd ha => ?_⟩
  · rw [State.takeInterrupt_eq]
    exact hsp.trans (congrArg State.sp s.pushedFrame_eq)
  · rw [hread _ hd, s.readByte_pushedFrame _ hd]
    simp only [State.frameBytes, List.mem_cons, List.not_mem_nil, or_false] at hc
    obtain rfl | rfl | rfl | rfl := hc <;> simp
  · rw [hread _ hd, s.readByte_pushedFrame _ hd]
    simp only [State.frameBytes, List.forall_mem_cons, List.not_mem_nil, false_implies, implies_true,
      and_true] at ha
    obtain ⟨h1, h2, h3, h4⟩ := ha
    rw [if_neg h4.symm, if_neg h3.symm, if_neg h2.symm, if_neg h1.symm]

/-- The vector table's entry has the address `IVTP + 2 * entry` (60_exceptions.md R341). -/
theorem State.vectorAddr_eq (e : Byte) : s.vectorAddr e = s.ivtp + BitVec.ofNat 16 (2 * e.toNat) := by
  have hshift : e.setWidth 16 <<< 1 = BitVec.ofNat 16 (2 * e.toNat) := by
    apply BitVec.eq_of_toNat_eq
    rw [BitVec.toNat_shiftLeft, BitVec.toNat_setWidth, BitVec.toNat_ofNat, Nat.shiftLeft_eq]
    have := e.isLt
    omega
  rw [State.vectorAddr, hshift]

/-- The request that is chosen does not depend on the frame. -/
theorem State.acceptRequest_pushedFrame : (s.pushedFrame.acceptRequest nn).1 = (s.acceptRequest nn).1 := by
  rw [State.acceptRequest_entry, State.acceptRequest_entry]
  rfl

/-- Where an entry goes: the routine of the chosen request (60_exceptions.md R341). -/
theorem State.takeInterrupt_entersAt : EntersAt s (s.takeInterrupt nn) s.pc (s.acceptRequest nn).1 := by
  obtain ⟨-, -, -, -, -, -, -, hmem, -⟩ := s.pushedFrame.acceptRequest_frame nn
  have htaken := s.takeInterrupt_eq nn
  dsimp only at htaken
  rw [s.acceptRequest_pushedFrame, s.vectorAddr_eq] at htaken
  obtain ⟨h1, h2, h3⟩ := State.load16_congr (s := s.pushedFrame)
    (t := { s.delivered (s.frameBytes s.pc) with mem := (s.takeInterrupt nn).mem })
    (s.takeInterrupt_mem nn).1 rfl rfl s.devLog_pushedFrame.symm
    (s.ivtp + BitVec.ofNat 16 (2 * (s.acceptRequest nn).1.toNat))
  refine ⟨?_, ?_, ?_⟩
  · rw [h1, htaken]
  · rw [h2, htaken]
  · rw [h3, htaken]

/-- What an entry keeps (60_exceptions.md R348). -/
theorem State.takeInterrupt_keeps : EntryKeeps s (s.takeInterrupt nn) := by
  obtain ⟨-, -, haw, hab, hgpr, himr, hivtp, -, hd, -, -, hs, hv, he, hg, -⟩ :=
    s.pushedFrame.acceptRequest_frame nn
  rw [State.takeInterrupt_eq]
  refine ⟨⟨haw, hab⟩, fun r => ?_, himr, hivtp, hd, hs, hv, he, hg⟩
  exact congrArg (fun rs : RegFile => rs[r.toNat]'r.isLt) hgpr

/-- What an entry does to the request flip-flops but PRINTR: it clears that of the request it serves
(60_exceptions.md R339, R345). -/
theorem State.takeInterrupt_requests :
    (s.takeInterrupt nn).prins = false ∧ (s.takeInterrupt nn).prcod = (s.prcod && s.prins) ∧
      (s.takeInterrupt nn).pradr = (s.pradr && (s.prins || s.prcod)) ∧
      (s.takeInterrupt nn).prinm = (s.prinm && (s.prins || s.prcod || s.pradr)) := by
  have hins : s.pushedFrame.prins = s.prins := rfl
  have hcod : s.pushedFrame.prcod = s.prcod := rfl
  have hadr : s.pushedFrame.pradr = s.pradr := rfl
  have hinm : s.pushedFrame.prinm = s.prinm := rfl
  rw [State.takeInterrupt_eq]
  simp only [State.acceptRequest_state, hins, hcod, hadr, hinm]
  cases h1 : s.prins
  · cases h2 : s.prcod
    · cases h3 : s.pradr
      · cases h4 : s.prinm
        · split_ifs <;> simp [*]
        · simp [*]
      · simp [*]
    · simp [*]
  · simp [*]

/-- The indicators, P and L but for a maskable request, stay; I and T are cleared (60_exceptions.md
R354). -/
theorem State.takeInterrupt_psw_bits :
    let t := s.takeInterrupt nn
    t.psw.i = false ∧ t.psw.t = false ∧ t.psw.p = s.psw.p ∧ t.psw.n = s.psw.n ∧
      t.psw.z = s.psw.z ∧ t.psw.c = s.psw.c ∧ t.psw.v = s.psw.v := by
  obtain ⟨-, -, -, -, -, -, -, -, -, -, -, -, -, -, -, -, -, hp, hv, hc, hz, hn⟩ :=
    s.pushedFrame.acceptRequest_frame nn
  dsimp only
  rw [(s.takeInterrupt_psw_printr nn).1]
  exact ⟨rfl, rfl, hp, hn, hz, hc, hv⟩

end

/-- Settles O33: the entry described part by part. -/
theorem serviceOrder : Obligations.ServiceOrder := by
  intro s nn
  obtain ⟨hi, ht, hp, hn, hz, hc, hv⟩ := s.takeInterrupt_psw_bits nn
  refine ⟨s.takeInterrupt_frame nn, s.takeInterrupt_keeps nn, hi, ht, hp, hn, hz, hc, hv, ?_,
    s.takeInterrupt_requests nn⟩
  have hentry := s.takeInterrupt_entersAt nn
  have hline : BitVec.ofNat 8 (8 + s.prl.toNat) = 8 + s.prl.setWidth 8 := by
    rw [BitVec.ofNat_add, BitVec.ofNat_toNat]
    rfl
  rwa [State.acceptRequest_entry, ← hline] at hentry

/-- An entry for a request that is not maskable, with what it does to the PSW and to the external
requests. -/
structure EntersRoutine (s t : State) (entry : Byte) : Prop where
  frame : InterruptFrame s t s.pc
  enters : EntersAt s t s.pc entry
  psw : t.psw = { s.psw with i := false, t := false }
  keeps : EntryKeeps s t
  printr : t.printr = s.printr

/-- The entry for a request that is not maskable. -/
theorem State.entersRoutine_takeInterrupt (s : State) (nn : Byte) (h : ¬ s.ServesMaskable) :
    EntersRoutine s (s.takeInterrupt nn) (s.acceptRequest nn).1 := by
  obtain ⟨hpsw, hprintr⟩ := s.takeInterrupt_psw_printr nn
  obtain ⟨hpsw', hprintr'⟩ := s.pushedFrame.acceptRequest_psw_printr_of_not_servesMaskable nn
    (s.servesMaskable_pushedFrame.not.mpr h)
  refine ⟨s.takeInterrupt_frame nn, s.takeInterrupt_entersAt nn, ?_, s.takeInterrupt_keeps nn,
    hprintr.trans hprintr'⟩
  rw [hpsw, hpsw']
  rfl

/-! ## The internal requests, raised at a boundary -/

section

variable {s : State}

theorem State.boundary_iff (s : State) :
    s.boundary = true ↔ s.prins = false ∧ s.prcod = false ∧ s.pradr = false := by
  simp [State.boundary, and_assoc]

/-- An illegal operation code at a boundary: entry 3. -/
theorem State.illegalOpcode_spec (h : s.boundary = true) : EntersRoutine s s.illegalOpcode 3 ∧
    s.illegalOpcode.boundary = true ∧ s.illegalOpcode.prinm = s.prinm := by
  obtain ⟨h1, h2, h3⟩ := s.boundary_iff.1 h
  have he := State.entersRoutine_takeInterrupt { s with prcod := true } 0 fun hm => by
    obtain ⟨-, hcod, -⟩ := hm
    cases hcod
  obtain ⟨r1, r2, r3, r4⟩ := State.takeInterrupt_requests { s with prcod := true } 0
  have hentry : ({ s with prcod := true }.acceptRequest 0).1 = 3 := by
    rw [State.acceptRequest_entry]
    simp [h1]
  rw [hentry] at he
  rw [State.illegalOpcode_eq]
  refine ⟨⟨he.frame, he.enters, he.psw, he.keeps, he.printr⟩, (State.boundary_iff _).2 ⟨r1, ?_, ?_⟩, ?_⟩
  · exact r2.trans (by simp [h1])
  · exact r3.trans (by simp [h3])
  · exact r4.trans (by simp)

/-- An addressing error at a boundary: entry 2. -/
theorem State.addressingError_spec (h : s.boundary = true) : EntersRoutine s s.addressingError 2 ∧
    s.addressingError.boundary = true ∧ s.addressingError.prinm = s.prinm := by
  obtain ⟨h1, h2, h3⟩ := s.boundary_iff.1 h
  have he := State.entersRoutine_takeInterrupt { s with pradr := true } 0 fun hm => by
    obtain ⟨-, -, hadr, -⟩ := hm
    cases hadr
  obtain ⟨r1, r2, r3, r4⟩ := State.takeInterrupt_requests { s with pradr := true } 0
  have hentry : ({ s with pradr := true }.acceptRequest 0).1 = 2 := by
    rw [State.acceptRequest_entry]
    simp [h1, h2]
  rw [hentry] at he
  rw [State.addressingError_eq]
  refine ⟨⟨he.frame, he.enters, he.psw, he.keeps, he.printr⟩, (State.boundary_iff _).2 ⟨r1, ?_, ?_⟩, ?_⟩
  · exact r2.trans (by simp [h2])
  · exact r3.trans (by simp [h1, h2])
  · exact r4.trans (by simp)

end

/-- Settles O29: the request of INT stands first in the order. -/
theorem interruptInstruction : Obligations.InterruptInstruction := by
  intro nn s
  have he := State.entersRoutine_takeInterrupt { s with prins := true } nn fun hm => by
    obtain ⟨hins, -⟩ := hm
    cases hins
  obtain ⟨r1, r2, r3, r4⟩ := State.takeInterrupt_requests { s with prins := true } nn
  have hentry : ({ s with prins := true }.acceptRequest nn).1 = nn := by
    rw [State.acceptRequest_entry]
    simp
  rw [hentry] at he
  refine ⟨_, congrArg Host.Outcome.next (s.interruptInstruction_eq nn), he.frame, he.enters, he.psw, r1, ?_, ?_, ?_,
    he.printr, he.keeps⟩
  · exact r2.trans (by simp)
  · exact r3.trans (by simp)
  · exact r4.trans (by simp)

/-- What an addressing error leaves, as the statements write it. -/
theorem State.addressingError_conclusion {s : State} (h : s.boundary = true) :
    InterruptFrame s s.addressingError s.pc ∧ EntersAt s s.addressingError s.pc 2 ∧
      s.addressingError.psw = { s.psw with i := false, t := false } ∧
      s.addressingError.boundary = true ∧ s.addressingError.prinm = s.prinm ∧
      s.addressingError.printr = s.printr ∧ EntryKeeps s s.addressingError := by
  obtain ⟨he, hb, hinm⟩ := State.addressingError_spec h
  exact ⟨he.frame, he.enters, he.psw, hb, hinm, he.printr, he.keeps⟩

/-- Settles O20: each of the terms is turned away before anything else is done. -/
theorem immediateDestinationTraps : Obligations.ImmediateDestinationTraps := by
  refine ⟨fun mk hmk v s h => ⟨s.addressingError, ?_, s.addressingError_conclusion h⟩,
    fun i hi s h => ⟨s.addressingError, ?_, s.addressingError_conclusion h⟩⟩
  · simp only [List.mem_cons, List.not_mem_nil, or_false] at hmk
    obtain rfl | rfl | rfl | rfl | rfl | rfl | rfl | rfl | rfl | rfl | rfl | rfl := hmk <;> rfl
  · obtain ⟨v, rfl⟩ | ⟨v, rfl⟩ | ⟨r, rfl⟩ := hi <;> rfl

/-! ## The return -/

/-- Settles O30: a return pops the frame an entry has pushed, byte by byte. -/
theorem returnFromInterrupt : Obligations.ReturnFromInterrupt := by
  refine ⟨fun s => congrArg Host.Outcome.next s.returnFromInterrupt_eq, fun nn s t hmem h => ?_⟩
  obtain ⟨t', ht', ⟨hsp, hstored, -⟩, -, -, -, -, -, -, -, -, -, -, -, hdev, -⟩ :=
    interruptInstruction nn s
  obtain rfl : t' = t := Host.Outcome.next.inj (ht'.symm.trans h)
  have d1 : s.isDevice (s.sp + 1) = false := State.isDevice_of_stackInMemory hmem (k := 0) (by omega)
  have d2 : s.isDevice (s.sp + 2) = false := State.isDevice_of_stackInMemory hmem (k := 1) (by omega)
  have d3 : s.isDevice (s.sp + 3) = false := State.isDevice_of_stackInMemory hmem (k := 2) (by omega)
  have d4 : s.isDevice (s.sp + 4) = false := State.isDevice_of_stackInMemory hmem (k := 3) (by omega)
  simp only [State.frameBytes, List.forall_mem_cons, List.not_mem_nil, false_implies, implies_true,
    and_true] at hstored
  obtain ⟨b1, b2, b3, b4⟩ := hstored
  have a1 : t'.sp - 1 = s.sp + 3 := by rw [hsp]; bv_omega
  have a2 : t'.sp - 2 = s.sp + 2 := by rw [hsp]; bv_omega
  have a3 : t'.sp - 3 = s.sp + 1 := by rw [hsp]; bv_omega
  have a4 : t'.sp - 4 = s.sp := by rw [hsp]; bv_omega
  have hret := t'.returnFromInterrupt_eq
  simp only [State.load8_fst, State.load8_snd] at hret
  rw [a1, a2, a3, a4, hsp, State.afterRead_memory t' _ ((State.isDevice_congr hdev _).trans d4),
    State.afterRead_memory t' _ ((State.isDevice_congr hdev _).trans d3),
    State.afterRead_memory t' _ ((State.isDevice_congr hdev _).trans d2),
    State.afterRead_memory t' _ ((State.isDevice_congr hdev _).trans d1),
    b1 d1, b2 d2, b3 d3, b4 d4, Psw.ofBytes_high_low, joinBytes_hiByte_loByte] at hret
  exact congrArg Host.Outcome.next hret

/-! ## The priority encoder -/

/-- The pending lines are the bits of irm (60_exceptions.md R334). -/
theorem pendingLine_iff (s : State) (k : Nat) :
    PendingLine s k ↔ 1 ≤ k ∧ k ≤ 7 ∧ s.irm.getLsbD (k - 1) = true := by
  unfold PendingLine State.irm
  constructor
  · rintro ⟨h1, h7, hp, hm⟩
    refine ⟨h1, h7, ?_⟩
    rw [BitVec.getLsbD_and, hp, BitVec.getLsbD_extractLsb', Nat.add_sub_cancel' h1, hm]
    simp; omega
  · rintro ⟨h1, h7, h⟩
    rw [BitVec.getLsbD_and, BitVec.getLsbD_extractLsb', Nat.add_sub_cancel' h1] at h
    simp only [Bool.and_eq_true, decide_eq_true_eq] at h
    exact ⟨h1, h7, h.1, h.2.2⟩

theorem exists_pendingLine_iff (s : State) : s.irm ≠ 0 ↔ ∃ k, PendingLine s k := by
  constructor
  · intro h
    obtain ⟨h1, hbit, -⟩ := (priorityLine_spec s.irm).2 h
    exact ⟨_, (pendingLine_iff s _).2 ⟨h1, by have := (priorityLine s.irm).isLt; omega, hbit⟩⟩
  · rintro ⟨k, hk⟩ h0
    obtain ⟨-, -, hbit⟩ := (pendingLine_iff s k).1 hk
    rw [h0] at hbit
    simp at hbit

/-- The encoder answers the highest pending line (60_exceptions.md R336). -/
theorem prl_of_pendingLine {s : State} (h : ∃ k, PendingLine s k) :
    PendingLine s s.prl.toNat ∧ ∀ k, PendingLine s k → k ≤ s.prl.toNat := by
  obtain ⟨h1, hbit, hmax⟩ := (priorityLine_spec s.irm).2 ((exists_pendingLine_iff s).2 h)
  refine ⟨(pendingLine_iff s _).2 ⟨h1, by have := s.prl.isLt; omega, hbit⟩, fun k hk => ?_⟩
  obtain ⟨k1, k7, kbit⟩ := (pendingLine_iff s k).1 hk
  have := hmax (k - 1) (by omega) kbit
  rw [State.prl]
  omega

/-- Settles O34: `priorityLine_spec`, on the lines that are pending and unmasked. -/
theorem highestLine : Obligations.HighestLine := by
  intro s
  refine ⟨exists_pendingLine_iff s, prl_of_pendingLine, fun h => ?_⟩
  exact (priorityLine_spec s.irm).1 (not_not.1 (mt (exists_pendingLine_iff s).1 h))

/-- Settles O35: some pending line is above L exactly when the highest one is. -/
theorem maskableAcceptance : Obligations.MaskableAcceptance := by
  intro s
  simp only [State.printrSignal, Bool.and_eq_true, bne_iff_ne, decide_eq_true_eq,
    exists_pendingLine_iff]
  constructor
  · rintro ⟨⟨hk, hl⟩, hi⟩
    exact ⟨hi, _, (prl_of_pendingLine hk).1, hl⟩
  · rintro ⟨hi, k, hk, hl⟩
    exact ⟨⟨⟨k, hk⟩, Nat.lt_of_lt_of_le hl ((prl_of_pendingLine ⟨k, hk⟩).2 k hk)⟩, hi⟩

end Sys2Proof.Machine
end

section
/-!
PROOFS. The step: the record of the environment taken, the fetch by what its bytes decode to, the
instruction, the latch and the service phase, as equations for `step` that the statements follow from.
-/

namespace Sys2Proof.Machine

/-! ## The environment's record -/

section

variable (s : State)

/-- Taking the record changes the sampled levels and the rest of the stream only. -/
theorem State.nextInput_frame : s.nextInput.2 = { s with
    start := s.nextInput.2.start, vec := s.nextInput.2.vec, env := s.nextInput.2.env } := by
  unfold State.nextInput
  split <;> rfl

@[simp] theorem State.nextInput_pc : s.nextInput.2.pc = s.pc := by rw [s.nextInput_frame]
@[simp] theorem State.nextInput_sp : s.nextInput.2.sp = s.sp := by rw [s.nextInput_frame]
@[simp] theorem State.nextInput_psw : s.nextInput.2.psw = s.psw := by rw [s.nextInput_frame]
@[simp] theorem State.nextInput_prins : s.nextInput.2.prins = s.prins := by rw [s.nextInput_frame]
@[simp] theorem State.nextInput_prcod : s.nextInput.2.prcod = s.prcod := by rw [s.nextInput_frame]
@[simp] theorem State.nextInput_pradr : s.nextInput.2.pradr = s.pradr := by rw [s.nextInput_frame]
@[simp] theorem State.nextInput_prinm : s.nextInput.2.prinm = s.prinm := by rw [s.nextInput_frame]
@[simp] theorem State.nextInput_printr : s.nextInput.2.printr = s.printr := by rw [s.nextInput_frame]

theorem State.boundary_nextInput : s.nextInput.2.boundary = s.boundary := by
  simp only [State.boundary, State.nextInput_prins, State.nextInput_prcod, State.nextInput_pradr]

/-- A step from a boundary runs a cycle, or latches only. -/
theorem step_of_boundary (h : s.boundary = true) : step s =
    if s.nextInput.1.start then s.nextInput.2.cycle s.nextInput.1
    else .next (s.nextInput.2.latch s.nextInput.1) := by
  obtain ⟨h1, h2, h3⟩ := s.boundary_iff.1 h
  simp only [step, h1, h2, h3, Bool.or_self, Bool.false_eq_true, if_false]

theorem step_of_start (h : s.boundary = true) (hs : s.nextInput.1.start = true) :
    step s = s.nextInput.2.cycle s.nextInput.1 := by
  rw [step_of_boundary s h, if_pos hs]

end

/-! ## The fetch -/

/-- The fetch answers what the bytes read decode to. -/
theorem State.exists_decode_of_fetchFrom (s : State) (bs : List Byte) (n : Nat) :
    ∃ bs', (s.fetchFrom bs n).1 = decode bs' := by
  induction n generalizing s bs with
  | zero => exact ⟨bs, rfl⟩
  | succ n ih =>
    rw [State.fetchFrom]
    split
    · exact ih _ _
    · exact ⟨bs, rfl⟩

/-- The fetch stops at the bytes that decide, which no fewer do. -/
theorem State.fetch_eq (s : State) (k : Nat) (hk : k ≤ 4)
    (hp : ∀ j < k, decode ((s.loadBytes s.pc k).1.take j) = .error .truncated)
    (hd : decode (s.loadBytes s.pc k).1 ≠ .error .truncated) :
    s.fetch = (decode (s.loadBytes s.pc k).1, (s.loadBytes s.pc k).2) :=
  s.fetchFrom_eq [] s.pc k 4 (by simp) hk hp hd

/-- One byte decides an illegal operation code. -/
theorem State.fetch_illegalOpcode (s : State) (h : opcodeLayout (s.load8 s.pc).1 = none) :
    s.fetch = (.error .illegalOpcode, (s.load8 s.pc).2) := by
  have hdecode : decode (s.loadBytes s.pc 1).1 = .error .illegalOpcode :=
    (decode_eq_illegalOpcode_iff _ _).2 h
  have hfetch := s.fetch_eq 1 (by omega)
    (fun j hj => by obtain rfl : j = 0 := by omega
                    rfl)
    (by rw [hdecode]; nofun)
  rw [hdecode] at hfetch
  exact hfetch

/-- The opcode byte of an instruction with an address part does not decide. -/
theorem decode_singleton_of_addressRule {op : Byte} {r : ModeRule} (h : addressRule op = some r) :
    decode [op] = .error .truncated := by
  rw [addressRule] at h
  rw [decode]
  split at h
  · next hL => rw [hL]; rfl
  · next hL => rw [hL]; rfl
  all_goals cases h

/-- Two bytes decide an illegal addressing mode. -/
theorem State.fetch_illegalAddressing (s : State)
    (h : decode (s.loadBytes s.pc 2).1 = .error .illegalAddressing) :
    s.fetch = (.error .illegalAddressing, (s.loadBytes s.pc 2).2) := by
  obtain ⟨r, hr, -⟩ := (decode_eq_illegalAddressing_iff _ _ _).1 h
  have hfetch := s.fetch_eq 2 (by omega)
    (fun j hj => by
      match j, hj with
      | 0, _ => rfl
      | 1, _ => exact decode_singleton_of_addressRule hr)
    (by rw [h]; nofun)
  rwa [h] at hfetch

/-! ## The step by what is fetched -/

/-- Settles O7: the bytes read are the instruction, and the cycle ends with the latch and the service. -/
theorem stepRunsDecoded : Obligations.StepRunsDecoded := by
  intro s i n u hb hs hdecode t hexec
  have hpc : u.2.pc = s.pc := by
    rw [show u = s.nextInput.2.loadBytes s.pc n from rfl, State.loadBytes_frame]
    exact s.nextInput_pc
  have hfetch : s.nextInput.2.fetch = (.ok (i, n), u.2) := by
    have hload : s.nextInput.2.loadBytes s.nextInput.2.pc n = u := by rw [s.nextInput_pc]
    rw [State.fetch_ok (by rw [hload]; exact hdecode), hload]
  rw [step_of_start s hb hs, State.cycle, hfetch]
  dsimp only
  rw [State.advance, hpc, hexec]
  rfl

/-- Every instruction of the RC answers a next state. -/
theorem exists_exec_next {i : Instr} (hi : isGeneric i = false) (s : State) : ∃ t, exec i s = .next t := by
  cases i <;> first | exact ⟨_, rfl⟩ | cases hi

/-- A cycle answers a next state (70_reset_and_hazards.md R389). -/
theorem State.exists_cycle_next (s : State) (inp : EnvInput) : ∃ t, s.cycle inp = .next t := by
  obtain ⟨bs, hbs⟩ := s.exists_decode_of_fetchFrom [] 4
  change s.fetch.1 = decode bs at hbs
  rw [State.cycle]
  generalize s.fetch = x at hbs
  split
  · exact ⟨_, rfl⟩
  · exact ⟨_, rfl⟩
  · exact ⟨_, rfl⟩
  · next i n u =>
    obtain ⟨-, hi, -⟩ := decoderAnswersLegal bs i n hbs.symm
    obtain ⟨t, ht⟩ := exists_exec_next hi (u.advance n)
    exact ⟨_, by rw [ht]; rfl⟩

/-- Settles O8: a cycle always answers, and an idle step is the latch. -/
theorem stepAnswersOrIdles : Obligations.StepAnswersOrIdles := by
  intro s
  refine ⟨fun h => ?_, fun h hs => ?_, fun h => ?_⟩
  · rw [step_of_boundary s h]
    split
    · exact State.exists_cycle_next _ _
    · exact ⟨_, rfl⟩
  · rw [step_of_boundary s h, if_neg (by rw [hs]; exact Bool.false_ne_true), State.latch,
      State.nextInput_prinm, State.nextInput_printr]
  · have hreq : (s.prins || s.prcod || s.pradr) = true := by
      simpa [State.boundary, Bool.or_assoc, Bool.and_assoc, or_iff_not_imp_left] using h
    rw [step, if_pos hreq]

/-- Settles O9: the byte read decides, and the entry is that of the request PRCOD. -/
theorem illegalOpcodeInterrupt : Obligations.IllegalOpcodeInterrupt := by
  intro s u hb hs hlayout
  have hu : u = s.nextInput.2.load8 s.nextInput.2.pc := by rw [s.nextInput_pc]
  have hfetch := s.nextInput.2.fetch_illegalOpcode (by rw [← hu]; exact hlayout)
  rw [← hu] at hfetch
  have hstep : step s = .next (u.2.illegalOpcodeCycle s.nextInput.1) := by
    rw [step_of_start s hb hs, State.cycle, hfetch]
  have hpc : u.2.pc = s.pc := s.nextInput_pc
  have hbu : ((u.2.advance 1).latch s.nextInput.1).boundary = true := s.boundary_nextInput.trans hb
  obtain ⟨he, hbt, hinm⟩ := State.illegalOpcode_spec hbu
  have hsaved : ((u.2.advance 1).latch s.nextInput.1).pc = s.pc + 1 := congrArg (· + 1) hpc
  have hframe := he.frame
  have henters := he.enters
  rw [hsaved] at hframe henters
  refine ⟨_, hstep, hframe, henters, he.psw.trans ?_, hbt, he.keeps, hinm.trans ?_,
    he.printr.trans ?_⟩
  · exact congrArg (fun p : Psw => { p with i := false, t := false }) s.nextInput_psw
  · exact congrArg (· || s.nextInput.1.inm) s.nextInput_prinm
  · exact congrArg (· ||| s.nextInput.1.intr) s.nextInput_printr

/-- Settles O10: the two bytes read decide, and the entry is that of the request PRADR. -/
theorem illegalAddressingInterrupt : Obligations.IllegalAddressingInterrupt := by
  intro s u hb hs hdecode
  have hu : u = s.nextInput.2.loadBytes s.nextInput.2.pc 2 := by rw [s.nextInput_pc]
  have hfetch := s.nextInput.2.fetch_illegalAddressing (by rw [← hu]; exact hdecode)
  rw [← hu] at hfetch
  have hstep : step s = .next (u.2.illegalAddressingCycle s.nextInput.1) := by
    rw [step_of_start s hb hs, State.cycle, hfetch]
  have hpc : u.2.pc = s.pc := s.nextInput_pc
  have hbu : ((u.2.advance 2).latch s.nextInput.1).boundary = true := s.boundary_nextInput.trans hb
  obtain ⟨he, hbt, hinm⟩ := State.addressingError_spec hbu
  have hsaved : ((u.2.advance 2).latch s.nextInput.1).pc = s.pc + 2 := congrArg (· + 2) hpc
  have hframe := he.frame
  have henters := he.enters
  rw [hsaved] at hframe henters
  refine ⟨_, hstep, hframe, henters, he.psw.trans ?_, hbt, he.keeps, hinm.trans ?_,
    he.printr.trans ?_⟩
  · exact congrArg (fun p : Psw => { p with i := false, t := false }) s.nextInput_psw
  · exact congrArg (· || s.nextInput.1.inm) s.nextInput_prinm
  · exact congrArg (· ||| s.nextInput.1.intr) s.nextInput_printr

/-! ## The trap -/

/-- With no request pending the service phase takes a trap or nothing (60_exceptions.md R332). -/
theorem State.prekid_of_quiet {s : State} (h : s.boundary = true) (hinm : s.prinm = false)
    (hintr : s.printr = 0) (rti : Bool) : s.prekid rti = (s.psw.t && !rti) := by
  obtain ⟨h1, h2, h3⟩ := s.boundary_iff.1 h
  simp [State.prekid, State.printrSignal, State.irm, h1, h2, h3, hinm, hintr]

/-- The trap has entry 0. -/
theorem State.acceptRequest_of_quiet {s : State} (h : s.boundary = true) (hinm : s.prinm = false)
    (hintr : s.printr = 0) (nn : Byte) : (s.acceptRequest nn).1 = 0 := by
  obtain ⟨h1, h2, h3⟩ := s.boundary_iff.1 h
  rw [State.acceptRequest_entry]
  simp [State.printrSignal, State.irm, h1, h2, h3, hinm, hintr]

/-- Without pulses the latch changes nothing. -/
theorem State.latch_of_no_pulses (s : State) {inp : EnvInput} (hinm : inp.inm = false)
    (hintr : inp.intr = 0) : s.latch inp = s := by
  simp [State.latch, hinm, hintr]

/-- Settles O37: the service phase sees the T that TRPE has written, and not after RTI. -/
theorem trapTiming : Obligations.TrapTiming := by
  intro s u hb hs hinm hintr hprinm hprintr
  have hbu : u.2.boundary = true := s.boundary_nextInput.trans hb
  have hload : ∀ op : Byte, u.1 = op → (s.nextInput.2.loadBytes s.pc 1).1 = [op] :=
    fun op h => congrArg (fun b => [b]) h
  have huinm : u.2.prinm = false := s.nextInput_prinm.trans hprinm
  have huintr : u.2.printr = 0 := s.nextInput_printr.trans hprintr
  refine ⟨fun hop => ?_, fun hop => ?_⟩
  · have hdecode : decode (s.nextInput.2.loadBytes s.pc 1).1 = .ok (.trpe, 1) := by
      rw [hload _ hop]; rfl
    let v : State := (u.2.setPc (s.pc + 1)).setPsw { s.psw with t := true }
    have hexec : exec .trpe (u.2.setPc (s.pc + 1)) = .next v :=
      congrArg (fun p : Psw => Host.Outcome.next ((u.2.setPc (s.pc + 1)).setPsw { p with t := true }))
        s.nextInput_psw
    have hstep := stepRunsDecoded s .trpe 1 hb hs hdecode v hexec
    have hbv : v.boundary = true := hbu
    rw [v.latch_of_no_pulses hinm hintr] at hstep
    have hservice : v.service 0 false = v.takeInterrupt 0 :=
      v.service_of_prekid 0 false (State.prekid_of_quiet hbv huinm huintr false)
    have he := v.entersRoutine_takeInterrupt 0 fun hm => by
      obtain ⟨-, -, -, -, hsignal⟩ := hm
      rw [State.printrSignal, State.irm, show v.printr = 0 from huintr] at hsignal
      simp at hsignal
    rw [State.acceptRequest_of_quiet hbv huinm huintr] at he
    exact ⟨_, hstep.trans (congrArg Host.Outcome.next hservice), he.frame, he.enters, he.psw, he.keeps⟩
  · have hdecode : decode (s.nextInput.2.loadBytes s.pc 1).1 = .ok (.rti, 1) := by
      rw [hload _ hop]; rfl
    have hret := returnFromInterrupt.1 (u.2.setPc (s.pc + 1))
    have hstep := stepRunsDecoded s .rti 1 hb hs hdecode _ hret
    have hsp : (u.2.setPc (s.pc + 1)).sp = s.sp := s.nextInput_sp
    rw [State.latch_of_no_pulses _ hinm hintr] at hstep
    rw [hsp] at hstep
    refine hstep.trans (congrArg Host.Outcome.next ?_)
    refine State.service_of_not_prekid _ 0 true ?_
    exact (State.prekid_of_quiet (by exact hbu) (by exact huinm) (by exact huintr) true).trans
      (Bool.and_false _)

end Sys2Proof.Machine
end

section
/-!
PROOFS. The flag functions and the shifts at every width, as arithmetic: V as the signed range, N and C as
bounds, a shift as a half or a double with the entering bit. The bytes of the RC and the lengths of layer G
are both read off from here.
-/

namespace Sys2Proof.Machine

variable {n : Nat}

/-- V of a sum: the signed sum leaves the range (00_scope.md R10). -/
theorem addF_v_iff (a b : BitVec n) : (addF a b).2.v = true ↔
    a.toInt + b.toInt < -2 ^ (n - 1) ∨ 2 ^ (n - 1) ≤ a.toInt + b.toInt := by
  have hv : (addF a b).2.v = a.saddOverflow b := by
    rw [BitVec.saddOverflow_eq]
    rfl
  rw [hv, BitVec.saddOverflow, Bool.or_eq_true, decide_eq_true_eq, decide_eq_true_eq, or_comm]

/-- V of a difference: the signed difference leaves the range (00_scope.md R10). -/
theorem subF_v_iff (a b : BitVec n) : (subF a b).2.v = true ↔
    a.toInt - b.toInt < -2 ^ (n - 1) ∨ 2 ^ (n - 1) ≤ a.toInt - b.toInt := by
  have hv : (subF a b).2.v = a.ssubOverflow b := by
    rw [BitVec.ssubOverflow_eq]
    simp only [subF]
    cases a.msb <;> cases b.msb <;> cases (a - b).msb <;> rfl
  rw [hv, BitVec.ssubOverflow, Bool.or_eq_true, decide_eq_true_eq, decide_eq_true_eq, or_comm]

/-- The top bit of a word, as a bound. -/
theorem msb_iff (a : BitVec n) : a.msb = true ↔ 2 ^ (n - 1) ≤ a.toNat := by
  rw [BitVec.msb_eq_decide, decide_eq_true_eq]

/-- The top bit of a word, as a quotient. -/
theorem msb_toNat (hn : 0 < n) (a : BitVec n) : a.msb.toNat = a.toNat / 2 ^ (n - 1) := by
  have hlt : a.toNat < 2 ^ (n - 1) * 2 := by
    rw [← Nat.pow_succ, Nat.succ_eq_add_one, Nat.sub_add_cancel hn]
    exact a.isLt
  have hq : a.toNat / 2 ^ (n - 1) < 2 := Nat.div_lt_of_lt_mul hlt
  have hpos : 0 < 2 ^ (n - 1) := Nat.two_pow_pos _
  cases h : a.msb
  · have hlow : a.toNat < 2 ^ (n - 1) := Nat.lt_of_not_le ((msb_iff a).not.1 (by simp [h]))
    exact (Nat.div_eq_of_lt hlow).symm
  · have := Nat.div_pos ((msb_iff a).1 h) hpos
    show 1 = _
    omega

/-- The lowest bit of a word. -/
theorem getLsbD_zero_iff (a : BitVec n) : a.getLsbD 0 = true ↔ a.toNat % 2 = 1 := by
  rw [BitVec.getLsbD, Nat.testBit_zero, decide_eq_true_eq]

theorem getLsbD_zero_toNat (a : BitVec n) : (a.getLsbD 0).toNat = a.toNat % 2 := by
  have := getLsbD_zero_iff a
  cases h : a.getLsbD 0
  · rw [h] at this
    simp at this
    simp [this]
  · simp [this.1 h]

/-- A right shift halves, and the entering bit becomes the top one (43_shift.md R200). -/
theorem shiftRightIn_toNat (hn : 0 < n) (top : Bool) (a : BitVec n) :
    (shiftRightIn top a).toNat = a.toNat / 2 + 2 ^ (n - 1) * top.toNat := by
  have hn2 : 2 ^ n = 2 ^ (n - 1) * 2 := by rw [← Nat.pow_succ, Nat.succ_eq_add_one, Nat.sub_add_cancel hn]
  have hhalf : a.toNat / 2 < 2 ^ (n - 1) := by have := a.isLt; omega
  have hbit : top.toNat < 2 := Bool.toNat_lt top
  have htop : 2 ^ (n - 1) * top.toNat < 2 ^ n := by
    rw [hn2]
    exact Nat.mul_lt_mul_of_pos_left hbit (Nat.two_pow_pos _)
  have hone : top.toNat < 2 ^ n := by
    have := Nat.two_pow_pos (n - 1)
    omega
  rw [shiftRightIn, BitVec.toNat_or, BitVec.toNat_ushiftRight, BitVec.toNat_shiftLeft,
    BitVec.toNat_setWidth, BitVec.toNat_ofBool, Nat.mod_eq_of_lt hone, Nat.shiftLeft_eq,
    Nat.shiftRight_eq_div_pow, Nat.mul_comm top.toNat, Nat.mod_eq_of_lt htop, Nat.or_comm,
    pow_one, ← Nat.two_pow_add_eq_or_of_lt hhalf, Nat.add_comm]

/-- A left shift doubles, and the entering bit becomes the lowest one (43_shift.md R200). -/
theorem shiftLeftIn_toNat (hn : 0 < n) (bottom : Bool) (a : BitVec n) :
    (shiftLeftIn bottom a).toNat = (2 * a.toNat + bottom.toNat) % 2 ^ n := by
  have hn2 : 2 ^ n = 2 * 2 ^ (n - 1) := by
    rw [Nat.mul_comm, ← Nat.pow_succ, Nat.succ_eq_add_one, Nat.sub_add_cancel hn]
  have hpos : 0 < 2 ^ (n - 1) := Nat.two_pow_pos _
  have hbit : bottom.toNat < 2 ^ 1 := Bool.toNat_lt bottom
  have hlow : a.toNat % 2 ^ (n - 1) < 2 ^ (n - 1) := Nat.mod_lt _ hpos
  have hdouble : 2 * a.toNat % 2 ^ n = 2 ^ 1 * (a.toNat % 2 ^ (n - 1)) := by
    rw [hn2, Nat.mul_mod_mul_left, pow_one]
  have hsum : (2 * a.toNat + bottom.toNat) % 2 ^ n = 2 ^ 1 * (a.toNat % 2 ^ (n - 1)) + bottom.toNat := by
    rw [Nat.add_mod, hdouble, Nat.mod_eq_of_lt (show bottom.toNat < 2 ^ n by omega)]
    exact Nat.mod_eq_of_lt (by omega)
  rw [shiftLeftIn, BitVec.toNat_or, BitVec.toNat_shiftLeft, BitVec.toNat_setWidth,
    BitVec.toNat_ofBool, Nat.mod_eq_of_lt (show bottom.toNat < 2 ^ n by omega), Nat.shiftLeft_eq,
    pow_one, Nat.mul_comm a.toNat, hdouble, hsum, Nat.two_pow_add_eq_or_of_lt hbit]

end Sys2Proof.Machine
end

section
/-!
PROOFS. The data instructions of the RC: what each computes (41_arithmetic.md R170 to R174, 42_logic.md R195
to R199, 43_shift.md R200 to R217) and what it leaves. Every instruction that reads an operand runs from the
state after that read (`AfterOperand`), and every one that writes its operand then writes one place.
-/

namespace Sys2Proof.Machine

/-! ## Transfers, jumps and mode bits, mode by mode -/

/-- Settles O15: each mode evaluated. -/
theorem loadsInEveryMode : Obligations.LoadsInEveryMode := by
  intro s r f b v
  exact ⟨rfl, rfl, rfl, rfl, rfl, rfl, rfl, rfl, rfl, rfl, rfl, rfl, rfl, rfl, rfl, rfl, rfl, rfl, rfl,
    rfl, rfl, rfl⟩

/-- Settles O16: each mode evaluated. -/
theorem storesInEveryMode : Obligations.StoresInEveryMode := by
  intro s r f
  exact ⟨rfl, rfl, rfl, rfl, rfl, rfl, rfl, rfl, rfl, rfl, rfl, rfl, rfl, rfl, rfl, rfl, rfl, rfl, rfl,
    rfl⟩

/-- Settles O27: each mode evaluated. -/
theorem jumpResults : Obligations.JumpResults := by
  intro s r f
  exact ⟨rfl, rfl, rfl, rfl, rfl, rfl, rfl, rfl, rfl, rfl⟩

/-- Settles O31: each instruction evaluated. -/
theorem modeAndSpecialWrites : Obligations.ModeAndSpecialWrites := by
  intro s
  exact ⟨rfl, rfl, rfl, rfl, rfl, rfl, rfl, rfl, rfl⟩

/-! ## Results on the byte accumulator -/

theorem byte_msb_iff (r : Byte) : r.msb = true ↔ 128 ≤ r.toNat := msb_iff r

theorem byte_beq_zero_iff (r : Byte) : (r == 0#8) = true ↔ r = 0 := beq_iff_eq

/-- Settles O22: the flag functions at 8 bits. -/
theorem addSubCmpResults : Obligations.AddSubCmpResults := by
  intro o s p x b
  refine ⟨⟨(addF s.ab b).2, rfl, byte_msb_iff _, byte_beq_zero_iff _, addF_c _ _, ?_⟩,
    ⟨(subF s.ab b).2, rfl, rfl, byte_msb_iff _, ?_, subF_c _ _, ?_⟩⟩
  · have h := addF_v_iff s.ab b
    norm_num at h
    rw [h]
    omega
  · rw [subF]
    dsimp only
    rw [byte_beq_zero_iff]
    exact sub_eq_zero
  · have h := subF_v_iff s.ab b
    norm_num at h
    rw [h]
    omega

/-- The indicators of a logic result, as bounds (42_logic.md R191). -/
theorem logF_eq (r : Byte) : logF r =
    { n := decide (128 ≤ r.toNat), z := decide (r.toNat = 0), c := false, v := false } := by
  have hn : r.msb = decide (128 ≤ r.toNat) := by rw [Bool.eq_iff_iff, byte_msb_iff, decide_eq_true_eq]
  have hz : (r == 0#8) = decide (r.toNat = 0) := by
    rw [Bool.eq_iff_iff, beq_zero_iff_toNat, decide_eq_true_eq]
  rw [logF, hn, hz]

/-- Settles O23: the logic operations with `logF_eq`. -/
theorem logicResults : Obligations.LogicResults := by
  intro o s p x b flags
  have hflags : flags = logF := funext fun r => (logF_eq r).symm
  rw [hflags]
  exact ⟨rfl, rfl, rfl, rfl⟩

/-- The signed value of a byte. -/
theorem byte_toInt (b : Byte) : b.toInt = if b.toNat < 128 then (b.toNat : Int) else b.toNat - 256 := by
  rw [BitVec.toInt_eq_toNat_cond]
  norm_num
  split <;> split <;> omega

/-! ## Read, modify, write -/

/-- An instruction that modifies its operand by a function, from what the function computes. -/
theorem modifiesTo_of {mk : Operand 8 → Instr} {f : Byte → Bool → Byte × Flags}
    {value : Byte → Bool → Nat} {carry : Byte → Bool → Prop} {overflow : Byte → Prop}
    (hexec : ∀ o s, exec (mk o) s = .next (s.modify o f))
    (hval : ∀ b c, (f b c).1 = BitVec.ofNat 8 (value b c))
    (hn : ∀ b c, (f b c).2.n = (f b c).1.msb) (hz : ∀ b c, (f b c).2.z = ((f b c).1 == 0#8))
    (hc : ∀ b c, (f b c).2.c = true ↔ carry b c) (hv : ∀ b c, (f b c).2.v = true ↔ overflow b) :
    ModifiesTo mk value carry overflow := by
  intro o s ho
  refine ⟨(f (s.readOp8 o).1 s.psw.c).2, ?_⟩
  intro old new
  have hnew : (f (s.readOp8 o).1 s.psw.c).1 = new := hval _ _
  refine ⟨?_, ?_, ?_, hc _ _, hv _ _⟩
  · rw [hexec, s.modify_of_allowed o f ho, s.modifyOp8_eq, hnew]
    rfl
  · rw [hn, hnew]
    exact byte_msb_iff new
  · rw [hz, hnew]
    exact beq_zero_iff_toNat new

/-- A shift, from what it delivers and shifts out (43_shift.md R202). -/
theorem modifiesTo_of_shift {mk : Operand 8 → Instr} {f : Byte → Bool → Byte × Bool}
    {value : Byte → Bool → Nat} {carry : Byte → Bool → Prop}
    (hexec : ∀ o s, exec (mk o) s = .next (s.shift o f))
    (hval : ∀ b c, (f b c).1 = BitVec.ofNat 8 (value b c)) (hc : ∀ b c, (f b c).2 = true ↔ carry b c) :
    ModifiesTo mk value carry fun _ => False :=
  modifiesTo_of hexec hval (fun _ _ => rfl) (fun _ _ => rfl) hc
    fun b c => iff_of_false (by simp [shiftFlags]) id

/-- Settles O24: the flag functions with 1, and the logic function. -/
theorem incDecNotResults : Obligations.IncDecNotResults := by
  refine ⟨modifiesTo_of (fun _ _ => rfl) (fun b _ => ?_) (fun _ _ => rfl) (fun _ _ => rfl)
      (fun b _ => ?_) (fun b _ => ?_),
    modifiesTo_of (fun _ _ => rfl) (fun b _ => ?_) (fun _ _ => rfl) (fun _ _ => rfl)
      (fun b _ => ?_) (fun b _ => ?_),
    modifiesTo_of (fun _ _ => rfl) (fun b _ => ?_) (fun _ _ => rfl) (fun _ _ => rfl)
      (fun b _ => ?_) (fun b _ => ?_)⟩
  · simp [addF, BitVec.ofNat_add]
  · rw [addF_c]
    have := b.isLt
    simp
    omega
  · rw [addF_v_iff, show (1 : Byte).toInt = 1 from rfl, byte_toInt]
    have := b.isLt
    norm_num
    split <;> omega
  · rw [BitVec.ofNat_add, BitVec.ofNat_toNat]
    simp [subF, sub_eq_add_neg]
  · rw [subF_c]
    simp
  · rw [subF_v_iff, show (1 : Byte).toInt = 1 from rfl, byte_toInt]
    have := b.isLt
    norm_num
    split <;> omega
  · apply BitVec.eq_of_toNat_eq
    rw [BitVec.toNat_not, BitVec.toNat_ofNat]
    have := b.isLt
    omega
  · simp
  · simp

/-- A byte shifted right, by the entering bit. -/
theorem shiftRightIn_byte (top : Bool) (b : Byte) :
    shiftRightIn top b = BitVec.ofNat 8 (b.toNat / 2 + 128 * top.toNat) := by
  have hb := b.isLt
  have htop := Bool.toNat_lt top
  apply BitVec.eq_of_toNat_eq
  rw [shiftRightIn_toNat (by omega), BitVec.toNat_ofNat,
    Nat.mod_eq_of_lt (show b.toNat / 2 + 128 * top.toNat < 2 ^ 8 by omega)]
  rfl

/-- A byte shifted left, by the entering bit. -/
theorem shiftLeftIn_byte (bottom : Bool) (b : Byte) :
    shiftLeftIn bottom b = BitVec.ofNat 8 (2 * b.toNat + bottom.toNat) := by
  apply BitVec.eq_of_toNat_eq
  rw [shiftLeftIn_toNat (by omega), BitVec.toNat_ofNat]

theorem byte_msb_toNat (b : Byte) : b.msb.toNat = b.toNat / 128 := msb_toNat (by omega) b

/-- Settles O25: the shifts at 8 bits, each with its entering bit. -/
theorem shiftResults : Obligations.ShiftResults := by
  have low : ∀ (b : Byte) (_ : Bool), b.getLsbD 0 = true ↔ b.toNat % 2 = 1 := fun b _ => getLsbD_zero_iff b
  have high : ∀ (b : Byte) (_ : Bool), b.msb = true ↔ 128 ≤ b.toNat := fun b _ => byte_msb_iff b
  refine ⟨modifiesTo_of_shift (fun _ _ => rfl) (fun b c => (shiftRightIn_byte _ b).trans ?_) low,
    modifiesTo_of_shift (fun _ _ => rfl) (fun b c => (shiftRightIn_byte _ b).trans ?_) low,
    modifiesTo_of_shift (fun _ _ => rfl) (fun b c => (shiftRightIn_byte _ b).trans ?_) low,
    modifiesTo_of_shift (fun _ _ => rfl) (fun b c => (shiftRightIn_byte _ b).trans ?_) low,
    modifiesTo_of_shift (fun _ _ => rfl) (fun b c => (shiftLeftIn_byte _ b).trans ?_) high,
    modifiesTo_of_shift (fun _ _ => rfl) (fun b c => (shiftLeftIn_byte _ b).trans ?_) high,
    modifiesTo_of_shift (fun _ _ => rfl) (fun b c => (shiftLeftIn_byte _ b).trans ?_) high,
    modifiesTo_of_shift (fun _ _ => rfl) (fun b c => (shiftLeftIn_byte _ b).trans ?_) high⟩
  · have h : 128 * b.msb.toNat = if 128 ≤ b.toNat then 128 else 0 := by
      cases hb : b.msb <;> have := byte_msb_iff b <;> simp_all
    rw [h]
  · rfl
  · rw [getLsbD_zero_toNat]
  · cases c <;> rfl
  · rfl
  · rfl
  · rw [byte_msb_toNat]
  · cases c <;> rfl

/-! ## Conditions -/

theorem cond_eq_true_iff (p : Psw) (cc : Cond) : p.cond cc = true ↔ Taken p cc := by
  cases cc
  case eql | greu | lssu | neg | ovf | neq | nng | nvf => simp [Psw.cond, Taken]
  case grtu | lequ => simp [Psw.cond, Taken]
  case grt | gre | lss | leq => cases p.n <;> cases p.v <;> simp [Psw.cond, Taken]

/-- The sign of a difference of bytes, corrected by V, is the signed comparison (44_jump.md R224). -/
theorem subF_n_ne_v_iff (a b : Byte) : (subF a b).2.n ≠ (subF a b).2.v ↔ a.toInt < b.toInt := by
  have hv : (subF a b).2.v = true ↔ a.toInt - b.toInt < -128 ∨ 128 ≤ a.toInt - b.toInt := subF_v_iff a b
  have hn : (subF a b).2.n = true ↔ (a - b).toInt < 0 := by
    rw [← decide_eq_true_iff (p := (a - b).toInt < 0), ← BitVec.msb_eq_toInt]
    rfl
  have hab : (a - b).toInt = (a.toInt - b.toInt).bmod 256 := BitVec.toInt_sub
  have range : ∀ c : Byte, -128 ≤ c.toInt ∧ c.toInt ≤ 127 := fun c => by
    have := c.isLt
    rw [byte_toInt]
    split <;> omega
  obtain ⟨ha, ha'⟩ := range a
  obtain ⟨hb, hb'⟩ := range b
  rw [Ne, Bool.eq_iff_iff, hn, hv, hab, Int.bmod]
  split <;> omega

/-- The indicators of CMP, read as relations (41_arithmetic.md R174, 44_jump.md R224). -/
theorem taken_after_compare (a b : Byte) {p : Psw} (h : p = p.withFlags (subF a b).2) :
    (Taken p .eql ↔ a = b) ∧ (Taken p .neq ↔ a ≠ b) ∧
    (Taken p .grtu ↔ b.toNat < a.toNat) ∧ (Taken p .greu ↔ b.toNat ≤ a.toNat) ∧
    (Taken p .lssu ↔ a.toNat < b.toNat) ∧ (Taken p .lequ ↔ a.toNat ≤ b.toNat) ∧
    (Taken p .grt ↔ b.toInt < a.toInt) ∧ (Taken p .gre ↔ b.toInt ≤ a.toInt) ∧
    (Taken p .lss ↔ a.toInt < b.toInt) ∧ (Taken p .leq ↔ a.toInt ≤ b.toInt) := by
  have hz : p.z = true ↔ a = b := by
    rw [h]
    exact (byte_beq_zero_iff _).trans sub_eq_zero
  have hc : p.c = true ↔ a.toNat < b.toNat := by
    rw [h]
    exact subF_c a b
  have hs : p.n ≠ p.v ↔ a.toInt < b.toInt := by
    rw [h]
    exact subF_n_ne_v_iff a b
  have hnat : a = b ↔ a.toNat = b.toNat := BitVec.toNat_eq
  have hint : a = b ↔ a.toInt = b.toInt := BitVec.toInt_inj.symm
  simp only [Taken, ← Bool.not_eq_true, hz, hc, hs, Ne]
  refine ⟨trivial, trivial, ?_, Nat.not_lt, trivial, ?_, ?_, ?_, trivial, ?_⟩
  · rw [hnat]; omega
  · rw [hnat]; omega
  · rw [← not_not (a := p.n = p.v), ← Ne, hs, hint]; omega
  · rw [← not_not (a := p.n = p.v), ← Ne, hs]; omega
  · rw [hint]; omega

/-- Settles O26: `cond` is `Taken`, and CMP leaves the indicators of the difference. -/
theorem conditionTable : Obligations.ConditionTable := by
  refine ⟨fun cc pom adr => ?_, fun cc pom adr s => ⟨fun h => ?_, fun h => ?_⟩, fun o s t h => ?_⟩
  · cases cc <;> exact ⟨rfl, rfl⟩
  · have hb : s.branch cc pom = { s with pc := s.pc + pom.signExtend 16 } :=
      if_pos ((cond_eq_true_iff _ _).2 h)
    have hj : s.jumpIf cc adr = { s with pc := adr } := if_pos ((cond_eq_true_iff _ _).2 h)
    rw [← hb, ← hj]
    cases cc <;> exact ⟨rfl, rfl⟩
  · have hb : s.branch cc pom = s := if_neg ((cond_eq_true_iff _ _).not.2 h)
    have hj : s.jumpIf cc adr = s := if_neg ((cond_eq_true_iff _ _).not.2 h)
    have hnext : (Host.Outcome.next (s.branch cc pom) : Result) = .next s := congrArg _ hb
    have hnext' : (Host.Outcome.next (s.jumpIf cc adr) : Result) = .next s := congrArg _ hj
    cases cc <;> exact ⟨hnext, hnext'⟩
  · obtain rfl := Host.Outcome.next.inj h
    exact taken_after_compare _ _ rfl

end Sys2Proof.Machine
end

section
/-!
PROOFS. The frames of the RC's data instructions. An operand is read, or its address formed, in a state
that differs from the first in the auto register and the traffic with devices alone (`AfterOperand`); a
destination is then one place written (`Writes8`).
-/

namespace Sys2Proof.Machine

/-- The state after an operand was located, and read where `reads` says so: the auto register has stepped,
and devices saw the reads. -/
structure AfterOperand {w : Nat} (s : State) (o : Operand w) (reads : List Word) (u : State) : Prop where
  frame : u = { s with gpr := (s.place o).2.gpr, devIn := u.devIn, devLog := u.devLog }
  traffic : SameTraffic (s.afterReads reads) u

theorem State.afterOperand_place {w : Nat} (s : State) (o : Operand w) :
    AfterOperand s o (pointerReads o) (s.place o).2 := ⟨s.place_frame o, s.traffic_place o⟩

theorem State.afterOperand_readOp8 (s : State) (o : Operand 8) :
    AfterOperand s o (s.operandReads o) (s.readOp8 o).2 := ⟨s.readOp8_frame o, s.traffic_readOp8 o⟩

theorem State.afterOperand_readOp16 (s : State) (o : Operand 16) :
    AfterOperand s o (s.operandReads o) (s.readOp16 o).2 := ⟨s.readOp16_frame o, s.traffic_readOp16 o⟩

namespace AfterOperand

variable {w : Nat} {s u : State} {o : Operand w} {reads : List Word}

theorem pc (h : AfterOperand s o reads u) : u.pc = s.pc := by rw [h.frame]
theorem sp (h : AfterOperand s o reads u) : u.sp = s.sp := by rw [h.frame]
theorem aw (h : AfterOperand s o reads u) : u.aw = s.aw := by rw [h.frame]
theorem ab (h : AfterOperand s o reads u) : u.ab = s.ab := by rw [h.frame]
theorem psw (h : AfterOperand s o reads u) : u.psw = s.psw := by rw [h.frame]
theorem devices (h : AfterOperand s o reads u) : u.devices = s.devices := by rw [h.frame]

theorem isDevice (h : AfterOperand s o reads u) (a : Word) : u.isDevice a = s.isDevice a :=
  State.isDevice_congr h.devices a

theorem specials (h : AfterOperand s o reads u) : SameSpecials s u := by
  rw [h.frame]
  exact ⟨rfl, rfl, rfl, rfl, rfl, rfl, rfl, rfl, rfl, rfl, rfl, rfl⟩

theorem memory (h : AfterOperand s o reads u) : SameMemory s u :=
  fun _ ha => State.readByte_memory (by rw [h.frame]) h.devices ha

theorem reg (h : AfterOperand s o reads u) {r : RegNo} (hr : autoRegister o ≠ some r) :
    u.reg r = s.reg r := by
  rw [h.frame]
  exact s.reg_place o r hr

/-- What is written from there is written, to a reader of memory, from the first state. -/
theorem stored (h : AfterOperand s o reads u) {t : State} {ws : List (Word × Byte)}
    (hw : Stored u t ws) : Stored s t ws :=
  ⟨fun c hc hd => hw.1 c hc ((h.isDevice _).trans hd),
    fun a hd ha => (hw.2 a ((h.isDevice _).trans hd) ha).trans (h.memory a hd)⟩

/-- What is delivered from there follows the reads. -/
theorem delivered (h : AfterOperand s o reads u) {t : State} {ws : List (Word × Byte)}
    (hw : SameTraffic (u.delivered ws) t) : SameTraffic ((s.afterReads reads).delivered ws) t := by
  have hd : (s.afterReads reads).isDevice = u.isDevice := by
    funext a
    exact State.isDevice_congr (by rw [h.devices, State.afterReads_frame]) a
  refine ⟨hw.1.trans h.traffic.1, hw.2.trans ?_⟩
  simp only [State.delivered, hd, h.traffic.2]

end AfterOperand

/-! ## Instructions that read an operand -/

/-- The instructions that read a byte change the byte accumulator and the indicators at most. -/
theorem exec_source_eq {mk : Operand 8 → Instr} (hmk : mk ∈ [Instr.ldb, Instr.add, Instr.sub, Instr.cmp,
      Instr.and, Instr.or, Instr.xor, Instr.tst]) {o : Operand 8} {s t : State}
    (h : exec (mk o) s = .next t) : ∃ ab p, t = { (s.readOp8 o).2 with ab := ab, psw := p } ∧
      SameModes (s.readOp8 o).2.psw p := by
  simp only [List.mem_cons, List.not_mem_nil, or_false] at hmk
  obtain rfl | rfl | rfl | rfl | rfl | rfl | rfl | rfl := hmk <;>
    exact ⟨_, _, (Host.Outcome.next.inj h).symm, rfl, rfl, rfl, rfl⟩

/-- Settles O18: what differs after the operand was read is an accumulator and the indicators. -/
theorem sourceFrame : Obligations.SourceFrame := by
  refine ⟨fun mk hmk o s t h => ?_, fun mk hmk o s t h => ?_, fun o s t h => ?_, fun o s t h => ?_⟩
  · have hu := s.afterOperand_readOp8 o
    obtain ⟨ab, p, rfl, hmodes⟩ := exec_source_eq hmk h
    rw [hu.psw] at hmodes
    exact ⟨hu.pc, hu.sp, hu.aw, hu.specials, hmodes, hu.memory, hu.traffic, fun r hr => hu.reg hr⟩
  · have hu := s.afterOperand_readOp8 o
    simp only [List.mem_cons, List.not_mem_nil, or_false] at hmk
    obtain rfl | rfl := hmk <;> (obtain rfl := Host.Outcome.next.inj h; exact hu.ab)
  · obtain rfl := Host.Outcome.next.inj h
    exact (s.afterOperand_readOp8 o).psw
  · have hu := s.afterOperand_readOp16 o
    obtain rfl := Host.Outcome.next.inj h
    exact ⟨hu.pc, hu.sp, hu.ab, hu.psw, hu.specials, hu.memory, hu.traffic, fun r hr => hu.reg hr⟩

/-! ## Instructions that write their operand -/

/-- A byte has been written at the operand's place, after the reads, and the indicators perhaps. -/
structure Writes8 (s : State) (o : Operand 8) (reads : List Word) (v : Byte) (t : State) : Prop where
  exists_eq : ∃ u p, AfterOperand s o reads u ∧ SameModes s.psw p ∧
    t = (u.writePlace8 (s.place o).1 v).setPsw p

/-- The instructions that modify a byte. -/
theorem exec_modify_writes {mk : Operand 8 → Instr} (hmk : mk ∈ [Instr.inc, Instr.dec, Instr.not, Instr.asr,
      Instr.lsr, Instr.ror, Instr.rorc, Instr.asl, Instr.lsl, Instr.rol, Instr.rolc]) {o : Operand 8}
    {s t : State} (ho : o.isImm = false) (h : exec (mk o) s = .next t) :
    ∃ v, Writes8 s o (s.operandReads o) v t := by
  have modifies : ∀ f, s.modify o f = t → ∃ v, Writes8 s o (s.operandReads o) v t := by
    intro f hf
    rw [s.modify_of_allowed o f ho, s.modifyOp8_eq] at hf
    have hu := s.afterOperand_readOp8 o
    refine ⟨_, ⟨_, _, hu, ?_, hf.symm⟩⟩
    rw [State.writePlace8_frame, ← hu.psw]
    exact ⟨rfl, rfl, rfl, rfl⟩
  simp only [List.mem_cons, List.not_mem_nil, or_false] at hmk
  obtain rfl | rfl | rfl | rfl | rfl | rfl | rfl | rfl | rfl | rfl | rfl := hmk <;>
    exact modifies _ (Host.Outcome.next.inj h)

/-- STB writes AB after the address was formed. -/
theorem exec_stb_writes {o : Operand 8} {s t : State} (ho : o.isImm = false)
    (h : exec (.stb o) s = .next t) : Writes8 s o (pointerReads o) s.ab t ∧ t.psw = s.psw := by
  have hu := s.afterOperand_place o
  have hallowed : o.allowed .noImm = true := by simp [Operand.allowed, ho]
  obtain rfl := Host.Outcome.next.inj h
  rw [if_pos hallowed]
  have hpsw : (s.writeOp8 o s.ab).psw = s.psw := by
    rw [State.writeOp8, State.writePlace8_frame]
    exact hu.psw
  exact ⟨⟨_, s.psw, hu, ⟨rfl, rfl, rfl, rfl⟩, by rw [← hpsw]; rfl⟩, hpsw⟩

namespace Writes8

variable {s t : State} {o : Operand 8} {reads : List Word} {v : Byte}

theorem frame (h : Writes8 s o reads v t) : t.pc = s.pc ∧ t.sp = s.sp ∧ SameAccumulators s t ∧
    SameSpecials s t ∧ SameModes s.psw t.psw := by
  obtain ⟨u, p, hu, hp, rfl⟩ := h
  rw [State.writePlace8_frame]
  exact ⟨hu.pc, hu.sp, ⟨hu.aw, hu.ab⟩, hu.specials, hp⟩

theorem reg_other (h : Writes8 s o reads v t) {r : RegNo} (hr : autoRegister o ≠ some r)
    (hp : (s.place o).1 ≠ .reg r) : t.reg r = s.reg r := by
  obtain ⟨u, p, hu, -, rfl⟩ := h
  rw [State.reg_setPsw, State.reg_writePlace8, if_neg hp, hu.reg hr]

theorem hiByte_reg (h : Writes8 s o reads v t) {r : RegNo} (hp : (s.place o).1 = .reg r) :
    hiByte (t.reg r) = hiByte (s.reg r) := by
  obtain ⟨u, p, hu, -, rfl⟩ := h
  obtain rfl := (s.place_reg o r).1 hp
  rw [State.reg_setPsw, State.reg_writePlace8, if_pos hp, hiByte_joinBytes, hu.reg (by nofun)]

theorem stored (h : Writes8 s o reads v t) {ea : Word} (hp : (s.place o).1 = .mem ea) :
    Stored s t [(ea, v)] ∧ SameTraffic ((s.afterReads reads).delivered [(ea, v)]) t := by
  obtain ⟨u, p, hu, -, rfl⟩ := h
  rw [hp]
  exact ⟨hu.stored (u.stored_writeByte ea v), hu.delivered (u.traffic_writeByte ea v)⟩

/-- A destination that is not in memory is a register: no byte of memory changes. -/
theorem register (h : Writes8 s o reads v t) (ho : o.isImm = false) (hreads : (∃ r, o = .regdir r) → reads = [])
    (hp : ∀ ea, (s.place o).1 ≠ .mem ea) : SameMemory s t ∧ SameTraffic s t := by
  obtain ⟨u, p, hu, -, rfl⟩ := h
  cases hplace : (s.place o).1 with
  | mem ea => exact absurd hplace (hp ea)
  | lit x =>
    obtain rfl := (s.place_lit o x).1 hplace
    cases ho
  | reg r =>
    obtain rfl := (s.place_reg o r).1 hplace
    have htraffic := hu.traffic
    rw [hreads ⟨r, rfl⟩] at htraffic
    exact ⟨hu.memory, htraffic⟩

end Writes8

/-- The frame of an instruction that writes a byte. -/
theorem Writes8.destination {s t : State} {o : Operand 8} {reads : List Word} {v : Byte}
    (h : Writes8 s o reads v t) (ho : o.isImm = false) (hreads : (∃ r, o = .regdir r) → reads = []) :
    t.pc = s.pc ∧ t.sp = s.sp ∧ SameAccumulators s t ∧ SameSpecials s t ∧ SameModes s.psw t.psw ∧
      (∀ r, autoRegister o ≠ some r → (s.place o).1 ≠ .reg r → t.reg r = s.reg r) ∧
      (∀ r, (s.place o).1 = .reg r → hiByte (t.reg r) = hiByte (s.reg r)) ∧
      (∀ ea, (s.place o).1 = .mem ea → ∃ v, Stored s t [(ea, v)]) ∧
      ((∀ ea, (s.place o).1 ≠ .mem ea) → SameMemory s t ∧ SameTraffic s t) := by
  obtain ⟨hpc, hsp, hacc, hspec, hmodes⟩ := h.frame
  exact ⟨hpc, hsp, hacc, hspec, hmodes, fun r hr hp => h.reg_other hr hp, fun r hp => h.hiByte_reg hp,
    fun ea hp => ⟨v, (h.stored hp).1⟩, h.register ho hreads⟩

/-- The frame of STW. -/
theorem exec_stw_frame {o : Operand 16} {s t : State} (ho : o.isImm = false)
    (h : exec (.stw o) s = .next t) :
    t.pc = s.pc ∧ t.sp = s.sp ∧ SameAccumulators s t ∧ SameSpecials s t ∧ t.psw = s.psw ∧
      (∀ r, autoRegister o ≠ some r → (s.place o).1 ≠ .reg r → t.reg r = s.reg r) ∧
      (∀ ea, (s.place o).1 = .mem ea →
        let ws := [(ea, hiByte s.aw), (ea + 1, loByte s.aw)]
        Stored s t ws ∧ SameTraffic ((s.afterReads (pointerReads o)).delivered ws) t) ∧
      ((∀ ea, (s.place o).1 ≠ .mem ea) → SameMemory s t ∧ SameTraffic s t) := by
  have hu := s.afterOperand_place o
  have hallowed : o.allowed .noImm = true := by simp [Operand.allowed, ho]
  obtain rfl := Host.Outcome.next.inj h
  rw [if_pos hallowed, State.writeOp16]
  dsimp only
  cases hp : (s.place o).1 with
  | lit x =>
    obtain rfl := (s.place_lit o x).1 hp
    cases ho
  | reg r =>
    obtain rfl := (s.place_reg o r).1 hp
    refine ⟨hu.pc, hu.sp, ⟨hu.aw, hu.ab⟩, hu.specials, hu.psw, fun q hq hne => ?_, nofun,
      fun _ => ⟨hu.memory, hu.traffic⟩⟩
    rw [State.writePlace16, State.reg_setReg, if_neg fun e => hne (congrArg Place.reg e), hu.reg hq]
  | mem ea =>
    refine ⟨hu.pc, hu.sp, ⟨hu.aw, hu.ab⟩, hu.specials, hu.psw, fun q hq _ => hu.reg hq, fun a ha => ?_,
      fun hne => absurd rfl (hne ea)⟩
    obtain rfl := Place.mem.inj ha
    exact ⟨hu.stored (State.stored_writeWord _ _ _), hu.delivered (State.traffic_writeWord _ _ _)⟩

/-- Settles O19: one place is written, after the reads. -/
theorem destinationFrame : Obligations.DestinationFrame := by
  refine ⟨fun mk hmk o s t ho h => ?_, fun mk hmk o s t ho h ea hp => ?_, fun o s t ho h => ?_,
    fun o s t ho h => exec_stw_frame ho h⟩
  · rcases List.mem_cons.1 hmk with rfl | hmk
    · refine (exec_stb_writes ho h).1.destination ho ?_
      rintro ⟨r, rfl⟩
      rfl
    · obtain ⟨v, hw⟩ := exec_modify_writes hmk ho h
      refine hw.destination ho ?_
      rintro ⟨r, rfl⟩
      rfl
  · obtain ⟨v, hw⟩ := exec_modify_writes hmk ho h
    exact ⟨v, hw.stored hp⟩
  · obtain ⟨hw, hpsw⟩ := exec_stb_writes ho h
    exact ⟨hpsw, fun ea hp => hw.stored hp⟩

end Sys2Proof.Machine
end


section
/-!
PROOFS. The operands of layer G: the addressing modes, the instruction forms, the transfers, the I/O space
and the jumps.
-/

namespace Sys2Proof.Machine

/-! ## The addressing check -/

/-- Legal operands: the instruction goes on. -/
theorem GMachine.checked_of_ok {g : GMachine} {srcs dsts : List GOperand} (k : GMachine → GMachine)
    (h : g.operandsOk srcs dsts = true) : g.checked srcs dsts k = k g := if_pos h

/-- Illegal operands: nothing but the addressing error. -/
theorem GMachine.checked_of_not_ok {g : GMachine} {srcs dsts : List GOperand} (k : GMachine → GMachine)
    (h : g.operandsOk srcs dsts = false) : g.checked srcs dsts k = g.addressingError :=
  if_neg (ne_true_of_eq_false h)

/-- No instruction writes an immediate operand. -/
theorem GMachine.operandsOk_of_isImm (g : GMachine) (srcs : List GOperand) {b : GOperand}
    (h : b.isImm = true) : g.operandsOk srcs [b] = false := by
  simp [GMachine.operandsOk, h]

/-- A register operand is there where the processor has its register. -/
theorem GMachine.operandsOk_regdir (g : GMachine) (r : Nat) :
    g.operandsOk [.regdir r] [] = g.cfg.hasReg (g.cfg.dataReg r) ∧
    g.operandsOk [] [.regdir r] = g.cfg.hasReg (g.cfg.dataReg r) := by
  simp [GMachine.operandsOk, GConfig.available, GOperand.isImm]

/-! ## Addressing modes -/

/-- Settles O38: the register kinds of the two organisations, then each mode by its definition. -/
theorem genericBasicModes : Obligations.GenericBasicModes := by
  intro g l r adr v direct indirect
  have hsplit : g.cfg.regorg = .split → direct (.regdir r) (.dr r) ∧ indirect (.ar r) := fun h => by
    have hd : g.cfg.dataReg r = .dr r := by simp only [GConfig.dataReg, h]
    have ha : g.cfg.addrReg r = .ar r := by simp only [GConfig.addrReg, h]
    rw [← hd, ← ha]
    exact ⟨⟨rfl, rfl⟩, rfl, rfl⟩
  have hgpr : g.cfg.regorg = .gpr → direct (.regdir r) (.gpr r) ∧ indirect (.gpr r) := fun h => by
    have hd : g.cfg.dataReg r = .gpr r := by simp only [GConfig.dataReg, h]
    have ha : g.cfg.addrReg r = .gpr r := by simp only [GConfig.addrReg, h]
    constructor
    · rw [← hd]; exact ⟨rfl, rfl⟩
    · rw [← ha]; exact ⟨rfl, rfl⟩
  exact ⟨hsplit, hgpr, ⟨rfl, rfl⟩, ⟨rfl, rfl⟩, ⟨rfl, rfl⟩, ⟨rfl, rfl⟩, ⟨rfl, rfl⟩, rfl, rfl, rfl, rfl⟩

/-- A step of an address register keeps the configuration, so that the register is still the same and the
address is cut to the same length. -/
theorem GMachine.addr_readReg_writeReg (g : GMachine) (r : Nat) (v : Quad) :
    let h := g.writeReg (g.cfg.addrReg r) v
    h.addr (h.readReg (h.cfg.addrReg r)) = g.addr (h.readReg (g.cfg.addrReg r)) := by
  intro h
  have hcfg : h.cfg = g.cfg := (g.writeReg_frame _ _).1
  simp only [GMachine.addr, hcfg]

/-- Settles O39: the modes that step their register first read it in the stepped machine. -/
theorem genericOtherModes : Obligations.GenericOtherModes := by
  intro g r x pom
  have hstepped (v : Quad) := congrArg (fun a => (GPlace.mem a, g.writeReg (g.cfg.addrReg r) v))
    (g.addr_readReg_writeReg r v)
  exact ⟨rfl, rfl, rfl, rfl, rfl, rfl, hstepped _, rfl, hstepped _, rfl⟩

/-! ## Instruction forms and transfers -/

/-- Stepping an address register leaves the accumulator. -/
theorem GMachine.writeReg_addrReg_acc (g : GMachine) (r : Nat) (v : Quad) :
    (g.writeReg (g.cfg.addrReg r) v).acc = g.acc := by
  cases h : g.cfg.regorg <;> simp only [GConfig.addrReg, h] <;> rfl

/-- Evaluating an operand leaves the accumulator. -/
theorem GMachine.place_acc (g : GMachine) (o : GOperand) : (g.place o).2.acc = g.acc := by
  cases o with
  | preinc r | postinc r | predec r | postdec r => exact g.writeReg_addrReg_acc r _
  | _ => rfl

/-- Settles O45: the accumulator is read after the other operand, whose evaluation leaves it. -/
theorem genericForms : Obligations.GenericForms := by
  intro g l a b c v
  have hroles : ∀ t : AddrFormat, (t ≠ .threeAddress .a1 → t.roles (.three a b c) = .separate a b c) ∧
      (t ≠ .twoAddress .second → t.roles (.two a b) = .inFirst a b) ∧
      t.roles (.twoSecond a b) = .inSecond a b ∧ t.roles (.one a) = .accumulator a ∧
      t.roles .zero = .stack := fun t =>
    ⟨fun h => if_neg h, fun h => if_neg h, rfl, rfl, rfl⟩
  have hacc : g.fetch l (.accumulator a) =
      ({ a := l.trunc g.acc, b := (g.readOperand l a).1, dest := .place (.reg .acc) },
        (g.readOperand l a).2) := by
    rw [← g.place_acc a]; rfl
  exact ⟨hroles, rfl, rfl, rfl, rfl, rfl, hacc, rfl, fun _ => rfl, rfl, rfl⟩

/-- An effect on the generic machine by what it comes to. -/
theorem State.onGeneric_of_eq {s : State} {f : GMachine → GMachine} {g : GMachine} (h : f s.g = g) :
    s.onGeneric f = .next { s with g := g } := by rw [State.onGeneric, h]

/-- An instruction on the generic machine whose operands are legal. -/
theorem State.onGeneric_checked_of_ok {s : State} {srcs dsts : List GOperand}
    {k : GMachine → GMachine} (h : s.g.operandsOk srcs dsts = true) :
    s.onGeneric (fun g => g.checked srcs dsts k) = .next { s with g := k s.g } :=
  State.onGeneric_of_eq (GMachine.checked_of_ok k h)

/-- An instruction on the generic machine whose operands are not legal. -/
theorem State.onGeneric_checked_of_not_ok {s : State} {srcs dsts : List GOperand}
    {k : GMachine → GMachine} (h : s.g.operandsOk srcs dsts = false) :
    s.onGeneric (fun g => g.checked srcs dsts k) = .next { s with g := s.g.addressingError } :=
  State.onGeneric_of_eq (GMachine.checked_of_not_ok k h)

/-- POP to an operand, by where SP points: it moves after the write or before it. -/
theorem GMachine.popTo_eq (g : GMachine) (l : Len) (b : GOperand) :
    (g.cfg.stackTop = .lastOccupied →
      g.popTo l b = (g.writeOperand l b (g.pop l).1).spPop (g.span l)) ∧
    (g.cfg.stackTop = .firstFree → g.popTo l b = (g.pop l).2.writeOperand l b (g.pop l).1) := by
  constructor <;> intro h <;> simp only [GMachine.popTo, h] <;> rfl

/-- Settles O41: the check admits the operands or not; POP goes by where SP points. -/
theorem genericTransfers : Obligations.GenericTransfers := by
  intro l a u b s
  refine ⟨fun h => ?_, fun h => ?_, fun h => ?_, fun h => ?_, fun h => ?_, fun h => ?_, fun h => ?_⟩
  · have hmov : execGMov l a b s = _ := State.onGeneric_checked_of_ok h
    exact ⟨hmov, hmov⟩
  · have hload : execGLoad l a s = _ := State.onGeneric_checked_of_ok h
    have hpush : execGPush l a s = _ := State.onGeneric_checked_of_ok h
    exact ⟨hload, hpush⟩
  · have hstore : execGStore l b s = _ := State.onGeneric_checked_of_ok h
    have hpop : execGPop l b s = _ := State.onGeneric_checked_of_ok h
    obtain ⟨hlast, hfree⟩ := s.g.popTo_eq l b
    exact ⟨hstore, fun ht => hpop.trans (hlast ht ▸ rfl), fun ht => hpop.trans (hfree ht ▸ rfl)⟩
  · have hmov : execGMov l a b s = _ := State.onGeneric_checked_of_not_ok h
    exact ⟨hmov, hmov⟩
  · have hload : execGLoad l a s = _ := State.onGeneric_checked_of_not_ok h
    have hpush : execGPush l a s = _ := State.onGeneric_checked_of_not_ok h
    exact ⟨hload, hpush⟩
  · have hstore : execGStore l b s = _ := State.onGeneric_checked_of_not_ok h
    have hpop : execGPop l b s = _ := State.onGeneric_checked_of_not_ok h
    exact ⟨hstore, hpop⟩
  · exact ⟨s.g.operandsOk_of_isImm _ h, s.g.operandsOk_of_isImm _ h⟩

/-! ## The I/O space -/

/-- An instruction of the separate I/O space, where there is one. -/
theorem State.onGeneric_io_of_separate {s : State} {k : GMachine → GMachine}
    (h : s.g.cfg.iospace = .separate) :
    s.onGeneric (fun g => g.withSeparateIo k) = .next { s with g := k s.g } := by
  simp only [State.onGeneric, GMachine.withSeparateIo, h]

/-- An instruction of the separate I/O space, where there is none. -/
theorem State.onGeneric_io_of_memoryMapped {s : State} {k : GMachine → GMachine}
    (h : s.g.cfg.iospace = .memoryMapped) :
    s.onGeneric (fun g => g.withSeparateIo k) = .next { s with g := s.g.illegalOpcode } := by
  simp only [State.onGeneric, GMachine.withSeparateIo, h]

/-- A controller register reads back what was written to it, and the others keep their content. -/
theorem GMachine.readIo_writeIo (g : GMachine) (p v q : Quad) :
    (g.writeIo p v).readIo q = if q = p then v else g.readIo q := by
  by_cases h : q = p
  · rw [if_pos h, h]
    refine (Memory.readSpan_writeSpan _ _ _ _).trans ?_
    exact BitVec.and_allOnes
  · rw [if_neg h]
    have hne : q.toNat ≠ p.toNat := fun e => h (BitVec.eq_of_toNat_eq e)
    exact Memory.readSpan_writeSpan_other _ _ _ _ _ _ (by omega)

/-- IN where the processor has the register. -/
theorem exec_gIn_of_hasReg {s : State} {p : Quad} {r : Nat} (hio : s.g.cfg.iospace = .separate)
    (hr : s.g.cfg.hasReg (s.g.cfg.dataReg r) = true) :
    exec (.gIn p r) s = .next { s with g := s.g.writeReg (s.g.cfg.dataReg r) (s.g.readIo p) } := by
  have hin : execGIn p r s = _ := State.onGeneric_io_of_separate hio
  rw [GMachine.checked_of_ok _ ((s.g.operandsOk_regdir r).2.trans hr)] at hin
  exact hin

/-- OUT where the processor has the register. -/
theorem exec_gOut_of_hasReg {s : State} {p : Quad} {r : Nat} (hio : s.g.cfg.iospace = .separate)
    (hr : s.g.cfg.hasReg (s.g.cfg.dataReg r) = true) :
    exec (.gOut r p) s = .next { s with g := s.g.writeIo p (s.g.readReg (s.g.cfg.dataReg r)) } := by
  have hout : execGOut r p s = _ := State.onGeneric_io_of_separate hio
  rw [GMachine.checked_of_ok _ ((s.g.operandsOk_regdir r).1.trans hr)] at hout
  exact hout

/-- Settles O44: by the I/O space and whether the processor has the register. -/
theorem genericIo : Obligations.GenericIo := by
  intro p r q s dr
  refine ⟨fun hio hr => ⟨exec_gIn_of_hasReg hio hr, exec_gOut_of_hasReg hio hr, fun hq t ht => ?_⟩,
    fun hio hr => ⟨?_, ?_⟩, fun hio => ⟨?_, ?_, s.g.readIo_writeIo p⟩, fun hio => ?_⟩
  · obtain rfl := Host.Outcome.next.inj ((exec_gOut_of_hasReg hio hr).symm.trans ht)
    have hread := s.g.readIo_writeIo p (s.g.readReg (dr r)) p
    rw [if_pos rfl] at hread
    refine (exec_gIn_of_hasReg (p := p)
      (s := { s with g := s.g.writeIo p (s.g.readReg (dr r)) }) hio hq).trans ?_
    dsimp only
    rw [hread]
    rfl
  · have hin : execGIn p r s = _ := State.onGeneric_io_of_separate hio
    rw [GMachine.checked_of_not_ok _ ((s.g.operandsOk_regdir r).2.trans hr)] at hin
    exact hin
  · have hout : execGOut r p s = _ := State.onGeneric_io_of_separate hio
    rw [GMachine.checked_of_not_ok _ ((s.g.operandsOk_regdir r).1.trans hr)] at hout
    exact hout
  · exact (State.onGeneric_io_of_separate hio : execGIn1 p s = _)
  · exact (State.onGeneric_io_of_separate hio : execGOut1 p s = _)
  · have hin : execGIn p r s = _ := State.onGeneric_io_of_memoryMapped hio
    have hout : execGOut r p s = _ := State.onGeneric_io_of_memoryMapped hio
    have hin1 : execGIn1 p s = _ := State.onGeneric_io_of_memoryMapped hio
    have hout1 : execGOut1 p s = _ := State.onGeneric_io_of_memoryMapped hio
    simp only [List.mem_cons, List.not_mem_nil, or_false, forall_eq_or_imp, forall_eq]
    exact ⟨hin, hout, hin1, hout1⟩

/-! ## Jumps -/

/-- The operands of JMPIND that name no memory have no address. -/
theorem GMachine.place_ne_mem (g : GMachine) {o : GOperand} (h : o.isMemory = false) (ea : Quad) :
    (g.place o).1 ≠ .mem ea := by
  cases o <;> simp_all [GOperand.isMemory, GMachine.place]

/-- JMPIND of an operand in memory. -/
theorem exec_gJmpind_of_mem {s : State} {a : GOperand} {ea : Quad} (hav : s.g.cfg.available a = true)
    (hea : (s.g.place a).1 = .mem ea) :
    exec (.gJmpind a) s = .next { s with g := (s.g.place a).2.setPc ea } := by
  show execGJmpind a s = _
  refine State.onGeneric_of_eq ?_
  rw [if_pos hav]
  split
  case h_1 e => rw [e] at hea ⊢; cases hea; rfl
  all_goals rename_i e; rw [e] at hea; cases hea

/-- JMPIND of another operand, or of one the processor does not have. -/
theorem exec_gJmpind_of_not_mem {s : State} {a : GOperand}
    (h : a.isMemory = false ∨ s.g.cfg.available a = false) :
    exec (.gJmpind a) s = .next { s with g := s.g.addressingError } := by
  show execGJmpind a s = _
  refine State.onGeneric_of_eq ?_
  split
  next hav =>
    split
    case h_1 ea g1 e =>
      have hmem := h.resolve_right (by simp [hav])
      exact absurd (congrArg Prod.fst e) (s.g.place_ne_mem hmem ea)
    all_goals rfl
  next => rfl

/-- Settles O51. -/
theorem genericJumps : Obligations.GenericJumps := by
  intro s adr cc a
  refine ⟨rfl, fun h => ?_, fun h => ?_, fun ea hav hea => ?_, exec_gJmpind_of_not_mem⟩
  · have hc := (cond_eq_true_iff _ _).2 h
    have hbranch : execGBcc cc adr s = _ := State.onGeneric_of_eq (if_pos hc)
    have hjump : execGJcc cc adr s = _ := State.onGeneric_of_eq (if_pos hc)
    exact ⟨hbranch, hjump⟩
  · have hc := (cond_eq_true_iff _ _).not.2 h
    have hbranch : execGBcc cc adr s = _ := State.onGeneric_of_eq (if_neg hc)
    have hjump : execGJcc cc adr s = _ := State.onGeneric_of_eq (if_neg hc)
    exact ⟨hbranch, hjump⟩
  · have haddr : (s.g.place a).2.addr ea = s.g.addr ea := by
      have hcfg : (s.g.place a).2.cfg = s.g.cfg := (GMachine.Evolves.place s.g a).cfg
      simp only [GMachine.addr, hcfg]
    rw [exec_gJmpind_of_mem hav hea, GMachine.setPc, haddr]

end Sys2Proof.Machine
end


section
/-!
PROOFS. The stack of layer G: the four variants, a pop after a push, and what rests on it: PUSHPSW and
POPPSW, JSR and RTS, INT and RTI; then the frames of layer G.
-/

namespace Sys2Proof.Machine

variable (g : GMachine)

/-! ## Addresses of the stack -/

/-- A difference of addresses, cut before or after the subtraction. -/
theorem GMachine.addr_sub (a b : Quad) : g.addr (g.addr a - b) = g.addr (a - b) := by
  rw [BitVec.sub_eq_add_neg, GMachine.addr_add, ← BitVec.sub_eq_add_neg]

/-- SP after a push is an address. -/
theorem GMachine.addr_sp_spPush (m : Nat) : g.addr (g.spPush m).sp = (g.spPush m).sp := by
  unfold GMachine.spPush
  split <;> exact g.addr_addr _

/-- A move of SP changes nothing else. -/
theorem GMachine.spPush_frame (m : Nat) : g.spPush m = { g with sp := (g.spPush m).sp } := by
  unfold GMachine.spPush
  split <;> rfl

/-- The datum on top of the stack is the one pushed last. -/
theorem GMachine.topAddr_spPush (m : Nat) : (g.spPush m).topAddr m = g.pushAddr m := by
  cases hd : g.cfg.stackDir <;> cases ht : g.cfg.stackTop <;>
    simp only [GMachine.spPush, GMachine.topAddr, GMachine.pushAddr, hd, ht]
  · show g.addr (g.addr (g.sp + BitVec.ofNat 64 m) - BitVec.ofNat 64 m + 1) = _
    rw [BitVec.sub_eq_add_neg, BitVec.add_assoc, GMachine.addr_add]
    congr 1
    rw [BitVec.add_assoc, ← BitVec.add_assoc _ _ 1, BitVec.add_right_neg, BitVec.zero_add]
  · show g.addr (g.addr (g.sp + BitVec.ofNat 64 m) - BitVec.ofNat 64 m) = _
    rw [GMachine.addr_sub, BitVec.add_sub_cancel]
  · exact g.addr_addr _
  · exact g.addr_add _ _

/-- A pop moves SP back over the datum pushed last. -/
theorem GMachine.spPop_spPush (m : Nat) (h : g.addr g.sp = g.sp) : (g.spPush m).spPop m = g := by
  cases hd : g.cfg.stackDir <;> simp only [GMachine.spPush, GMachine.spPop, hd]
  · have hsp : g.addr (g.addr (g.sp + BitVec.ofNat 64 m) - BitVec.ofNat 64 m) = g.sp := by
      rw [GMachine.addr_sub, BitVec.add_sub_cancel, h]
    exact congrArg (fun a => { g with sp := a }) hsp
  · have hsp : g.addr (g.addr (g.sp - BitVec.ofNat 64 m) + BitVec.ofNat 64 m) = g.sp := by
      rw [GMachine.addr_add, BitVec.sub_add_cancel, h]
    exact congrArg (fun a => { g with sp := a }) hsp

/-! ## A pop after a push -/

/-- Where the stack ends does not depend on memory. -/
theorem GMachine.topAddr_writeData (l : Len) (a v : Quad) (m : Nat) :
    (g.writeData l a v).topAddr m = g.topAddr m := by
  rw [g.writeData_frame]; rfl

/-- Where the stack ends does not depend on memory. -/
theorem GMachine.spPop_writeData (l : Len) (a v : Quad) (m : Nat) :
    (g.writeData l a v).spPop m = { g.writeData l a v with sp := (g.spPop m).sp } := by
  rw [g.writeData_frame]
  simp only [GMachine.spPop]
  split <;> rfl

theorem GMachine.span_spPush (m : Nat) (l : Len) : (g.spPush m).span l = g.span l := by
  rw [g.spPush_frame]; rfl

@[simp] theorem GMachine.push_cfg (l : Len) (v : Quad) : (g.push l v).cfg = g.cfg := by
  rw [g.push_frame]

/-- A pop after a push gives the value back, restores SP and leaves memory as pushed. -/
theorem GMachine.pop_push (l : Len) (v : Quad) (hsp : g.addr g.sp = g.sp) (hfit : g.fits l) :
    (g.push l v).pop l = (l.trunc v, { g.push l v with sp := g.sp }) := by
  have hspan : (g.push l v).span l = g.span l := by simp only [GMachine.span, GMachine.push_cfg]
  have hfit' : (g.spPush (g.span l)).fits l := by rw [g.spPush_frame]; exact hfit
  refine Prod.ext ?_ ?_
  · show (g.push l v).readData l ((g.push l v).topAddr ((g.push l v).span l)) = _
    rw [hspan, GMachine.push, GMachine.topAddr_writeData, GMachine.topAddr_spPush,
      GMachine.readData_writeData _ _ _ _ hfit']
  · show (g.push l v).spPop ((g.push l v).span l) = _
    rw [hspan, GMachine.push, GMachine.spPop_writeData, GMachine.spPop_spPush _ _ hsp]

/-- A push does not look at the memory it stores to. -/
theorem GMachine.writePieces_sp (sp a : Quad) (m : Nat) (v : Quad) (i : Nat) :
    { g with sp := sp }.writePieces a m v i = { g.writePieces a m v i with sp := sp } := by
  induction i with
  | zero => rfl
  | succ i ih =>
    simp only [GMachine.writePieces, ih]
    rw [g.writePieces_frame]
    rfl

/-- A store and a move of SP, in either order. -/
theorem GMachine.writeData_sp (sp : Quad) (l : Len) (a v : Quad) :
    { g with sp := sp }.writeData l a v = { g.writeData l a v with sp := sp } :=
  g.writePieces_sp _ _ _ _ _

/-- Settles O40: each variant by its definition at one location, then the law for a datum of any number. -/
theorem stackVariants : Obligations.StackVariants := by
  intro g l v
  have hone : g.sp - BitVec.ofNat 64 1 + 1 = g.sp := BitVec.sub_add_cancel _ _
  refine ⟨fun h1 hd ht => ?_, fun h1 hd ht => ?_, fun h1 hd ht => ?_, fun h1 hd ht => ?_,
    g.pop_push l v⟩
  · simp only [GMachine.push, GMachine.pop, GMachine.spPush, GMachine.spPop, GMachine.pushAddr,
      GMachine.topAddr, h1, hd, ht, hone]
    exact ⟨rfl, rfl⟩
  · simp only [GMachine.push, GMachine.pop, GMachine.spPush, GMachine.spPop, GMachine.pushAddr,
      GMachine.topAddr, h1, hd, ht, GMachine.writeData_sp]
    exact ⟨rfl, rfl⟩
  · simp only [GMachine.push, GMachine.pop, GMachine.spPush, GMachine.spPop, GMachine.pushAddr,
      GMachine.topAddr, h1, hd, ht]
    exact ⟨rfl, rfl⟩
  · simp only [GMachine.push, GMachine.pop, GMachine.spPush, GMachine.spPop, GMachine.pushAddr,
      GMachine.topAddr, h1, hd, ht, GMachine.writeData_sp, hone]
    exact ⟨rfl, rfl⟩

/-- A pop does not look at PC and the PSW. -/
theorem GMachine.pop_pc_psw (pc : Quad) (p : Psw) (l : Len) :
    { g with pc := pc, psw := p }.pop l = ((g.pop l).1, { (g.pop l).2 with pc := pc, psw := p }) := by
  refine Prod.ext ?_ ?_
  · exact GMachine.readData_congr (g := g) (h := { g with pc := pc, psw := p }) rfl l _ fun _ _ => rfl
  · simp only [GMachine.pop, GMachine.spPop]
    split <;> rfl

/-! ## The PSW on the stack -/

/-- A byte of a word is the same byte of the word pushed. -/
theorem extractLsb'_trunc_setWidth (w : Word) {k : Nat} (hk : k + 8 ≤ 16) :
    (Len.l16.trunc (w.setWidth 64)).extractLsb' k 8 = w.extractLsb' k 8 := by
  apply BitVec.eq_of_getLsbD_eq
  intro i hi
  have hbit : k + i < Len.l16.bits ∧ k + i < 64 := ⟨by show k + i < 16; omega, by omega⟩
  simp only [BitVec.getLsbD_extractLsb', Len.getLsbD_trunc, BitVec.getLsbD_setWidth, hbit, decide_true,
    Bool.true_and]

/-- A PSW pushed is read back from its two bytes. -/
theorem Psw.ofQuad_quad (p : Psw) : Psw.ofQuad (Len.l16.trunc p.quad) = p := by
  have hhigh : (Len.l16.trunc p.quad).extractLsb' 8 8 = hiByte p.word :=
    extractLsb'_trunc_setWidth _ (by decide)
  have hlow : (Len.l16.trunc p.quad).extractLsb' 0 8 = loByte p.word :=
    extractLsb'_trunc_setWidth _ (by decide)
  rw [Psw.ofQuad, hhigh, hlow, Psw.hiByte_word, Psw.loByte_word, Psw.ofBytes_high_low]

/-- Settles O43. -/
theorem genericPswTransfers : Obligations.GenericPswTransfers := by
  intro s
  refine ⟨rfl, rfl, fun hsp hfit p => ?_⟩
  have hpop := GMachine.pop_pc_psw (s.g.push .l16 s.g.psw.quad) s.g.pc p .l16
  rw [s.g.pop_push .l16 _ hsp hfit] at hpop
  have hpc : (s.g.push .l16 s.g.psw.quad).pc = s.g.pc := by rw [GMachine.push_frame]
  have hpsw : (s.g.push .l16 s.g.psw.quad).psw = s.g.psw := by rw [GMachine.push_frame]
  show execGPoppsw { s with g := { s.g.push .l16 s.g.psw.quad with psw := p } } = _
  refine State.onGeneric_of_eq ?_
  dsimp only
  rw [← hpc] at hpop
  rw [hpop, Psw.ofQuad_quad]
  exact congrArg (fun q => { s.g.push .l16 s.g.psw.quad with sp := s.g.sp, psw := q }) hpsw.symm

/-! ## Calls -/

/-- Settles O52: the RTS pops the PC that the JSR pushed. -/
theorem genericCallsAndModes : Obligations.GenericCallsAndModes := by
  intro s adr
  have hjsr : exec (.gJsr adr) s = .next { s with
      g := { s.g.push s.g.cfg.aw s.g.pc with pc := s.g.addr adr } } := by
    have haddr : (s.g.push s.g.cfg.aw s.g.pc).addr adr = s.g.addr adr := by
      simp only [GMachine.addr, GMachine.push_cfg]
    rw [← haddr]; rfl
  have hrts (s : State) : exec .gRts s = .next { s with
      g := { (s.g.pop s.g.cfg.aw).2 with pc := (s.g.pop s.g.cfg.aw).1 } } := by
    have haddr : (s.g.pop s.g.cfg.aw).2.addr (s.g.pop s.g.cfg.aw).1 = (s.g.pop s.g.cfg.aw).1 := by
      rw [s.g.pop_frame]
      exact Len.trunc_trunc _ _
    show execGRts s = _
    refine State.onGeneric_of_eq ?_
    exact congrArg (fun a => { (s.g.pop s.g.cfg.aw).2 with pc := a }) haddr
  refine ⟨hjsr, hrts s, fun hsp hpc t ht => ?_, rfl, rfl, rfl⟩
  obtain rfl := Host.Outcome.next.inj (hjsr.symm.trans ht)
  have hcfg : (s.g.push s.g.cfg.aw s.g.pc).cfg.aw = s.g.cfg.aw := by rw [GMachine.push_cfg]
  have hpop := GMachine.pop_pc_psw (s.g.push s.g.cfg.aw s.g.pc) (s.g.addr adr)
    (s.g.push s.g.cfg.aw s.g.pc).psw s.g.cfg.aw
  rw [s.g.pop_push s.g.cfg.aw _ hsp s.g.fits_aw] at hpop
  rw [hrts]
  dsimp only
  rw [hcfg, hpop]
  exact congrArg (fun a => Host.Outcome.next { s with
    g := { s.g.push s.g.cfg.aw s.g.pc with sp := s.g.sp, pc := a } }) hpc

end Sys2Proof.Machine
end


section
/-!
PROOFS. The interrupts of layer G: the frame an entry pushes, the registers SAVE_ALL names, and a return
that undoes an entry.
-/

namespace Sys2Proof.Machine

variable (g : GMachine)

/-! ## The registers of SAVE_ALL -/

/-- A list without its later duplicates has none. -/
theorem nodup_eraseDups {α : Type} [DecidableEq α] (xs : List α) : xs.eraseDups.Nodup := by
  induction h : xs.length using Nat.strong_induction_on generalizing xs with
  | _ n ih =>
    cases xs with
    | nil => exact List.nodup_nil
    | cons x xs =>
      rw [List.eraseDups_cons, List.nodup_cons]
      refine ⟨fun hx => ?_, ih _ ?_ _ rfl⟩
      · simp at hx
      · exact h ▸ Nat.lt_succ_of_le (List.length_filter_le _ _)

/-- The registers of a kind are those of its numbers. -/
theorem RegKind.mem_all (k : RegKind) (mk : Nat → GReg) (q : GReg) :
    q ∈ k.all mk ↔ ∃ r < k.count, mk r = q := by
  simp [RegKind.all]

/-- The registers of a kind are different ones. -/
theorem RegKind.nodup_all (k : RegKind) {mk : Nat → GReg} (h : Function.Injective mk) :
    (k.all mk).Nodup := List.nodup_range.map h

/-- The visible registers are those the processor has. -/
theorem GConfig.mem_visible (c : GConfig) (q : GReg) : q ∈ c.visible ↔ c.hasReg q = true := by
  cases h : c.regorg <;> cases q <;>
    simp [GConfig.visible, GConfig.hasReg, RegKind.mem_all, h]

/-- Each register is visible once. -/
theorem GConfig.nodup_visible (c : GConfig) : c.visible.Nodup := by
  have hdr := c.dr.nodup_all (mk := .dr) fun _ _ e => GReg.dr.inj e
  have har := c.ar.nodup_all (mk := .ar) fun _ _ e => GReg.ar.inj e
  have hbr := c.br.nodup_all (mk := .br) fun _ _ e => GReg.br.inj e
  have hxr := c.xr.nodup_all (mk := .xr) fun _ _ e => GReg.xr.inj e
  have hgpr := c.gpr.nodup_all (mk := .gpr) fun _ _ e => GReg.gpr.inj e
  cases h : c.regorg <;>
    simp [GConfig.visible, h, List.nodup_append, RegKind.mem_all, hdr, har, hbr, hxr, hgpr]
  all_goals grind

/-- SAVE_ALL pushes each visible register once, whatever order the configuration gives. -/
theorem GConfig.saved_spec (c : GConfig) :
    c.saved.Nodup ∧ ∀ q, q ∈ c.saved ↔ c.hasReg q = true := by
  constructor
  · refine List.Nodup.append (nodup_eraseDups _) (c.nodup_visible.filter _) fun q h1 h2 => ?_
    simp at h1 h2
    exact h2.2 h1.1
  · intro q
    rw [← c.mem_visible]
    simp only [GConfig.saved, List.mem_append, List.mem_eraseDups, List.mem_filter]
    by_cases hq : q ∈ c.saveOrder <;> simp [hq]

/-! ## The frame of an entry -/

/-- A push keeps the configuration, the PSW, PC, IVTP and the I/O space. -/
theorem SameGeneric.push (l : Len) (v : Quad) : SameGeneric g (g.push l v) := by
  rw [g.push_frame]; exact ⟨rfl, rfl, rfl, rfl, rfl⟩

theorem SameGeneric.trans {g h k : GMachine} (a : SameGeneric g h) (b : SameGeneric h k) :
    SameGeneric g k := by
  obtain ⟨a1, a2, a3, a4, a5⟩ := a
  obtain ⟨b1, b2, b3, b4, b5⟩ := b
  exact ⟨b1.trans a1, b2.trans a2, b3.trans a3, b4.trans a4, b5.trans a5⟩

/-- Pushing registers, as SAVE_ALL does. -/
theorem SameGeneric.pushRegs (rs : List GReg) : SameGeneric g (rs.foldl GMachine.pushReg g) := by
  induction rs generalizing g with
  | nil => exact ⟨rfl, rfl, rfl, rfl, rfl⟩
  | cons r rs ih => exact (SameGeneric.push g _ _).trans (ih _)

/-- PC and PSW pushed, as every entry does first. -/
def GMachine.pushPcPsw (g : GMachine) : GMachine :=
  (g.push g.cfg.aw g.pc).push .l16 g.psw.quad

/-- The frame of an entry: PC, PSW and, with SAVE_ALL, the registers. -/
theorem GMachine.pushFrame_eq : g.pushFrame =
    if g.cfg.saveAll then g.cfg.saved.foldl GMachine.pushReg g.pushPcPsw else g.pushPcPsw := rfl

theorem SameGeneric.pushPcPsw : SameGeneric g g.pushPcPsw :=
  (SameGeneric.push g _ _).trans (SameGeneric.push _ _ _)

theorem SameGeneric.pushFrame : SameGeneric g g.pushFrame := by
  rw [g.pushFrame_eq]
  split
  · exact (SameGeneric.pushPcPsw g).trans (SameGeneric.pushRegs _ _)
  · exact SameGeneric.pushPcPsw g

/-- An entry through the vector table, by the frame alone. -/
theorem GMachine.takeInterrupt_eq (e : Quad) : g.takeInterrupt e = { g.pushFrame with
    pc := g.pushFrame.readData g.cfg.aw (g.addr (g.ivtp + e * BitVec.ofNat 64 g.cfg.ivtScale)),
    psw := { g.psw with i := false, t := false } } := by
  obtain ⟨hcfg, hpsw, -, hivtp, -⟩ := SameGeneric.pushFrame g
  simp only [GMachine.takeInterrupt, GMachine.vector, GMachine.addr, hcfg, hpsw, hivtp, Psw.entered]

/-- An entry at an address. -/
theorem GMachine.takeInterruptAt_eq (adr : Quad) : g.takeInterruptAt adr = { g.pushFrame with
    pc := g.addr adr, psw := { g.psw with i := false, t := false } } := by
  obtain ⟨hcfg, hpsw, -, -, -⟩ := SameGeneric.pushFrame g
  simp only [GMachine.takeInterruptAt, GMachine.addr, hcfg, hpsw, Psw.entered]

/-- INT by INT_FIELD: the field is the routine's address or the number of its entry. -/
theorem exec_gInt_eq (adr : Quad) (s : State) :
    exec (.gInt adr) s = .next { s with g := { s.g.pushFrame with
      pc := match s.g.cfg.intField with
        | .address => s.g.addr adr
        | .entry => s.g.pushFrame.readData s.g.cfg.aw
          (s.g.addr (s.g.ivtp + adr * BitVec.ofNat 64 s.g.cfg.ivtScale))
      psw := { s.g.psw with i := false, t := false } } } := by
  show execGInt adr s = _
  refine State.onGeneric_of_eq ?_
  cases h : s.g.cfg.intField <;> simp only [GMachine.takeInterrupt_eq, GMachine.takeInterruptAt_eq]

/-! ## A return undoes an entry -/

/-- Two blocks of locations within the address space that do not meet. -/
theorem GMachine.disjoint_of_blocks (l k : Len) (c : Quad) (x y : Nat)
    (hx : x + g.span l ≤ 2 ^ g.cfg.aw.bits) (hy : y + g.span k ≤ 2 ^ g.cfg.aw.bits)
    (hxy : x + g.span l ≤ y ∨ y + g.span k ≤ x) :
    g.Disjoint l (g.addr (c + BitVec.ofNat 64 x)) k (g.addr (c + BitVec.ofNat 64 y)) := by
  intro i hi j hj he
  rw [GMachine.addr_add, GMachine.addr_add, BitVec.add_assoc, BitVec.add_assoc, ← BitVec.ofNat_add,
    ← BitVec.ofNat_add] at he
  have := g.addr_add_inj c (x + i) (y + j) (by omega) (by omega) he
  omega

/-- Two data pushed one after the other share no location, where both fit in the address space. -/
theorem GMachine.disjoint_pushAddr (l k : Len) (h : g.span l + g.span k ≤ 2 ^ g.cfg.aw.bits) :
    g.Disjoint l (g.pushAddr (g.span l)) k ((g.spPush (g.span l)).pushAddr (g.span k)) := by
  generalize hm : g.span l = m at h
  generalize hn : g.span k = n at h
  -- upwards the second datum follows the first, downwards it precedes it
  have hup (c : Quad) := g.disjoint_of_blocks l k c 0 m (by omega) (by omega) (.inl (by omega))
  have hdown (c : Quad) := g.disjoint_of_blocks l k c n 0 (by omega) (by omega) (.inr (by omega))
  cases hd : g.cfg.stackDir <;> cases ht : g.cfg.stackTop <;>
    simp only [GMachine.spPush, GMachine.pushAddr, hd, ht]
  · show g.Disjoint l (g.addr (g.sp + 1)) k (g.addr (g.addr (g.sp + BitVec.ofNat 64 m) + 1))
    have hd2 := hup (g.sp + 1)
    rw [add_right_comm g.sp 1 (BitVec.ofNat 64 m)] at hd2
    rw [GMachine.addr_add]
    simpa using hd2
  · show g.Disjoint l (g.addr g.sp) k (g.addr (g.addr (g.sp + BitVec.ofNat 64 m)))
    rw [GMachine.addr_addr]
    simpa using hup g.sp
  · show g.Disjoint l (g.addr (g.sp - BitVec.ofNat 64 m)) k
      (g.addr (g.addr (g.sp - BitVec.ofNat 64 m) - BitVec.ofNat 64 n))
    have hd2 := hdown (g.sp - BitVec.ofNat 64 m - BitVec.ofNat 64 n)
    rw [BitVec.sub_add_cancel] at hd2
    rw [GMachine.addr_sub]
    simpa using hd2
  · show g.Disjoint l (g.addr (g.sp - BitVec.ofNat 64 m + 1)) k
      (g.addr (g.addr (g.sp - BitVec.ofNat 64 m) - BitVec.ofNat 64 n + 1))
    have hd2 := hdown (g.sp - BitVec.ofNat 64 m - BitVec.ofNat 64 n + 1)
    rw [add_right_comm, BitVec.sub_add_cancel] at hd2
    rw [← g.addr_add (_ - BitVec.ofNat 64 n), GMachine.addr_sub, GMachine.addr_add]
    simpa using hd2

/-- A push with SP put back is a store. -/
theorem GMachine.push_sp (l : Len) (v : Quad) :
    { g.push l v with sp := g.sp } = g.writeData l (g.pushAddr (g.span l)) v := by
  rw [GMachine.push, ← GMachine.writeData_sp, g.spPush_frame]

/-- A store apart from the datum on top of the stack leaves what a pop gives. -/
theorem GMachine.pop_writeData (l k : Len) (b w : Quad)
    (h : g.Disjoint k b l (g.topAddr (g.span l))) :
    (g.writeData k b w).pop l = ((g.pop l).1, { g.writeData k b w with sp := (g.pop l).2.sp }) := by
  have hspan : (g.writeData k b w).span l = g.span l := by simp only [GMachine.span, GMachine.writeData_cfg]
  refine Prod.ext ?_ ?_
  · show (g.writeData k b w).readData l _ = _
    rw [hspan, GMachine.topAddr_writeData, g.readData_writeData_other k l b _ w h]
    rfl
  · show (g.writeData k b w).spPop _ = _
    rw [hspan, GMachine.spPop_writeData]
    rfl

/-- A second push leaves the datum pushed before it, where both fit in the address space. -/
theorem GMachine.pop_push_push (l k : Len) (v w : Quad) (hsp : g.addr g.sp = g.sp)
    (hfit : g.span l + g.span k ≤ 2 ^ g.cfg.aw.bits) :
    { (g.push l v).push k w with sp := (g.push l v).sp }.pop l =
      (l.trunc v, { (g.push l v).push k w with sp := g.sp }) := by
  have hspan (j : Len) : (g.push l v).span j = g.span j := by simp only [GMachine.span, GMachine.push_cfg]
  have htop : (g.push l v).topAddr (g.span l) = g.pushAddr (g.span l) := by
    rw [GMachine.push, GMachine.topAddr_writeData, GMachine.topAddr_spPush]
  have hnext : (g.push l v).pushAddr (g.span k) = (g.spPush (g.span l)).pushAddr (g.span k) := by
    rw [GMachine.push, GMachine.writeData_frame]; rfl
  have hdisj : (g.push l v).Disjoint k ((g.push l v).pushAddr (g.span k)) l
      ((g.push l v).topAddr ((g.push l v).span l)) := by
    rw [hspan, htop, hnext]
    have hd := (g.disjoint_pushAddr l k hfit).symm
    simpa only [GMachine.Disjoint, GMachine.span, GMachine.addr, GMachine.push_cfg] using hd
  rw [GMachine.push_sp, hspan, GMachine.pop_writeData _ _ _ _ _ hdisj,
    g.pop_push l v hsp (by unfold GMachine.fits; omega), ← hspan, ← GMachine.push_sp]

/-- A return without SAVE_ALL, by what its two pops give. -/
theorem GMachine.returnFromInterrupt_of_pops {g x y : GMachine} {v w : Quad} {k : Len}
    (hsave : g.cfg.saveAll = false) (hpsw : g.pop .l16 = (v, x)) (haw : x.cfg.aw = k)
    (hpc : x.pop k = (w, y)) :
    g.returnFromInterrupt = { y with pc := w, psw := Psw.ofQuad v } := by
  have hnot : ¬ (g.cfg.saveAll = true) := ne_true_of_eq_false hsave
  simp only [GMachine.returnFromInterrupt, if_neg hnot, hpsw, haw, hpc]

/-- Without SAVE_ALL a return from the frame of PC and PSW gives PC, SP and PSW back, whatever PC and PSW were
in between. -/
theorem GMachine.returnFromInterrupt_pushPcPsw (p : Psw) (hsave : g.cfg.saveAll = false)
    (hsp : g.addr g.sp = g.sp) (hpc : g.addr g.pc = g.pc)
    (hfit : g.span g.cfg.aw + g.span .l16 ≤ 2 ^ g.cfg.aw.bits) (pc : Quad) :
    { g.pushPcPsw with pc := pc, psw := p }.returnFromInterrupt =
      { g.pushPcPsw with sp := g.sp, pc := g.pc, psw := g.psw } := by
  have hcfg : (g.push g.cfg.aw g.pc).cfg = g.cfg := g.push_cfg _ _
  have hcfg2 : g.pushPcPsw.cfg = g.cfg := (SameGeneric.pushPcPsw g).1
  have hsp1 : (g.push g.cfg.aw g.pc).addr (g.push g.cfg.aw g.pc).sp = (g.push g.cfg.aw g.pc).sp := by
    rw [g.push_frame]
    exact g.addr_sp_spPush _
  have hfit1 : (g.push g.cfg.aw g.pc).fits .l16 := by
    simp only [GMachine.fits, GMachine.span, hcfg] at hfit ⊢
    omega
  have hpsw : { g.pushPcPsw with pc := pc, psw := p }.pop .l16 = (Len.l16.trunc g.psw.quad,
      { g.pushPcPsw with sp := (g.push g.cfg.aw g.pc).sp, pc := pc, psw := p }) := by
    rw [GMachine.pop_pc_psw, GMachine.pushPcPsw, GMachine.pop_push _ .l16 _ hsp1 hfit1]
  have hret : { g.pushPcPsw with sp := (g.push g.cfg.aw g.pc).sp, pc := pc, psw := p }.pop g.cfg.aw =
      (g.pc, { g.pushPcPsw with sp := g.sp, pc := pc, psw := p }) := by
    have hpop := g.pop_push_push g.cfg.aw .l16 g.pc g.psw.quad hsp hfit
    rw [show g.cfg.aw.trunc g.pc = g.pc from hpc] at hpop
    exact (GMachine.pop_pc_psw { g.pushPcPsw with sp := (g.push g.cfg.aw g.pc).sp } pc p g.cfg.aw).trans
      (congrArg (fun z => (z.1, { z.2 with pc := pc, psw := p })) hpop)
  have hsave2 : g.pushPcPsw.cfg.saveAll = false := by rw [hcfg2, hsave]
  refine (GMachine.returnFromInterrupt_of_pops (g := { g.pushPcPsw with pc := pc, psw := p }) hsave2
    hpsw (congrArg GConfig.aw hcfg2) hret).trans ?_
  rw [Psw.ofQuad_quad]

/-- Settles O53: an RTI pops the PSW, then the PC, which the push of the PSW left in place. -/
theorem genericInterrupts : Obligations.GenericInterrupts := by
  intro s adr frame g1
  have hframe : s.g.pushFrame = g1 := rfl
  refine ⟨⟨_, exec_gInt_eq adr s, ?_, fun h => ?_, fun h => ?_⟩, ⟨_, rfl, rfl⟩, s.g.cfg.saved_spec,
    fun hsave hsp hpc hfit t ht => ?_⟩
  · rw [hframe]
  · simp only [h]
  · simp only [h]; rfl
  · obtain rfl := Host.Outcome.next.inj ((exec_gInt_eq adr s).symm.trans ht)
    have hpush : s.g.pushFrame = s.g.pushPcPsw := by rw [GMachine.pushFrame_eq, hsave]; rfl
    rw [hpush]
    have hret := s.g.returnFromInterrupt_pushPcPsw { s.g.psw with i := false, t := false }
      hsave hsp hpc hfit
    exact congrArg (fun g => Host.Outcome.next { s with g := g }) (hret _)

end Sys2Proof.Machine
end


section
/-!
PROOFS. The frames of layer G: what evaluating an operand, writing a place, a push and a pop leave, and from
them the frame of MOV.
-/

namespace Sys2Proof.Machine

variable (g : GMachine)

/-- A register write changes registers only. -/
theorem SameGeneric.writeReg (r : GReg) (v : Quad) : SameGeneric g (g.writeReg r v) := by
  obtain ⟨hcfg, hpsw, hpc, hivtp, -, hio⟩ := g.writeReg_frame r v
  exact ⟨hcfg, hpsw, hpc, hivtp, hio⟩

/-- Evaluating an operand is a step of the auto register, if the mode has one. -/
theorem GMachine.place_step (o : GOperand) :
    (g.autoRegister o = none ∧ (g.place o).2 = g) ∨
    ∃ q v, g.autoRegister o = some q ∧ (g.place o).2 = g.writeReg q v := by
  cases o with
  | preinc r | postinc r | predec r | postdec r => exact .inr ⟨_, _, rfl, rfl⟩
  | _ => exact .inl ⟨rfl, rfl⟩

/-- The frame of evaluating an operand. -/
theorem GMachine.place_frame (o : GOperand) :
    SameGeneric g (g.place o).2 ∧ (g.place o).2.mem = g.mem ∧
      ∀ q, g.autoRegister o ≠ some q → (g.place o).2.readReg q = g.readReg q := by
  obtain ⟨-, h⟩ | ⟨r, v, hr, h⟩ := g.place_step o <;> rw [h]
  · exact ⟨⟨rfl, rfl, rfl, rfl, rfl⟩, rfl, fun _ _ => rfl⟩
  · obtain ⟨-, -, -, -, hmem, -⟩ := g.writeReg_frame r v
    exact ⟨SameGeneric.writeReg g r v, hmem,
      fun q hq => g.readReg_writeReg_other r q v fun e => hq (e ▸ hr)⟩

/-- A store changes the locations of the datum only. -/
theorem GMachine.sameCellsBut_writeData (l : Len) (a v : Quad) :
    SameCellsBut a (g.span l) g (g.writeData l a v) := fun c hc =>
  g.readCell_writePieces_other a _ _ c _ hc

/-- The locations of two machines of one memory and configuration. -/
theorem GMachine.readCell_congr {g h : GMachine} (hcfg : h.cfg = g.cfg) (hmem : h.mem = g.mem) (c : Quad) :
    h.readCell c = g.readCell c := by simp only [GMachine.readCell, hcfg, hmem]

/-- The frame of writing a place. -/
theorem GMachine.writePlace_frame (l : Len) (p : GPlace) (v : Quad) :
    SameGeneric g (g.writePlace l p v) ∧
    (∀ q, p ≠ .reg q → (g.writePlace l p v).readReg q = g.readReg q) ∧
    (∀ q, p = .reg q → g.present q →
      (g.writePlace l p v).readReg q = (g.cfg.regLen q).trunc (l.merge (g.readReg q) v)) ∧
    (∀ ea, p = .mem ea → SameCellsBut ea (g.span l) g (g.writePlace l p v) ∧
      (g.fits l → (g.writePlace l p v).readData l ea = l.trunc v)) ∧
    ((∀ ea, p ≠ .mem ea) → (g.writePlace l p v).mem = g.mem) := by
  refine ⟨(GMachine.Keeps.writePlace g l p v).2, ?_⟩
  cases p with
  | reg r =>
    refine ⟨fun q hq => g.readReg_writeReg_other r q _ fun e => hq (e ▸ rfl), fun q hq hp => ?_,
      fun _ h => (nomatch h), fun _ => ?_⟩
    · cases hq; exact g.readReg_writeReg_same r _ hp
    · obtain ⟨-, -, -, -, hmem, -⟩ := g.writeReg_frame r (l.merge (g.readReg r) v)
      exact hmem
  | mem a =>
    refine ⟨fun q _ => g.readReg_writeData l a v q, fun _ h => (nomatch h), fun ea hea => ?_,
      fun h => absurd rfl (h a)⟩
    cases hea
    exact ⟨g.sameCellsBut_writeData l a v, g.readData_writeData l a v⟩
  | lit _ =>
    exact ⟨fun _ _ => rfl, fun _ h => (nomatch h), fun _ h => (nomatch h), fun _ => rfl⟩

/-- The frame of a push. -/
theorem GMachine.push_sameCellsBut (l : Len) (v : Quad) :
    (∀ q, q ≠ .sp → (g.push l v).readReg q = g.readReg q) ∧
      SameCellsBut (g.pushAddr (g.span l)) (g.span l) g (g.push l v) := by
  constructor
  · intro q hq
    rw [g.push_frame]
    cases q with
    | sp => exact absurd rfl hq
    | _ => rfl
  · intro c hc
    have hspan := g.span_spPush (g.span l) l
    have haddr (a : Quad) : (g.spPush (g.span l)).addr a = g.addr a := by rw [g.spPush_frame]; rfl
    have hstore := (g.spPush (g.span l)).sameCellsBut_writeData l (g.pushAddr (g.span l)) v c
    simp only [hspan, haddr] at hstore
    refine (hstore hc).trans ?_
    rw [g.spPush_frame]
    rfl

/-- A value read from a place is cut already. -/
theorem GMachine.trunc_readPlace (l : Len) (p : GPlace) : l.trunc (g.readPlace l p) = g.readPlace l p := by
  cases p <;> exact Len.trunc_trunc _ _

/-- The auto register of an operand does not depend on the registers. -/
theorem GMachine.autoRegister_place (a b : GOperand) : (g.place a).2.autoRegister b = g.autoRegister b := by
  have hcfg : (g.place a).2.cfg = g.cfg := (g.place_frame a).1.1
  cases b <;> simp only [GMachine.autoRegister, hcfg]

/-- The frame of MOV: that of the two evaluations and of the write. -/
theorem GMachine.move_frame (l : Len) (a b : GOperand) :
    let x := g.readOperand l a
    let p := (x.2.place b).1
    let t := x.2.writeOperand l b x.1
    SameGeneric g t ∧
    (∀ ea, p = .mem ea → SameCellsBut ea (g.span l) g t ∧ (g.fits l → t.readData l ea = x.1)) ∧
    ((∀ ea, p ≠ .mem ea) → t.mem = g.mem) ∧
    (∀ q, g.autoRegister a ≠ some q → g.autoRegister b ≠ some q → p ≠ .reg q →
      t.readReg q = g.readReg q) := by
  intro x p t
  obtain ⟨hsame1, hmem1, hreg1⟩ := g.place_frame a
  obtain ⟨hsame2, hmem2, hreg2⟩ := (g.place a).2.place_frame b
  obtain ⟨hsame3, hreg3, -, hcells, hmem3⟩ := (x.2.place b).2.writePlace_frame l p x.1
  have hsame12 := hsame1.trans hsame2
  have hmem12 := hmem2.trans hmem1
  refine ⟨hsame12.trans hsame3, fun ea hea => ?_, fun h => (hmem3 h).trans hmem12, fun q ha hb hp => ?_⟩
  · obtain ⟨hbut, hback⟩ := hcells ea hea
    have hcfg : (x.2.place b).2.cfg = g.cfg := hsame12.1
    constructor
    · intro c hc
      simp only [SameCellsBut, GMachine.span, GMachine.addr, hcfg] at hbut hc
      exact (hbut c hc).trans (GMachine.readCell_congr hcfg hmem12 c)
    · intro hfit
      simp only [GMachine.fits, GMachine.span, hcfg] at hback hfit
      exact (hback hfit).trans ((g.place a).2.trunc_readPlace l _)
  · rw [← g.autoRegister_place a b] at hb
    exact (hreg3 q hp).trans ((hreg2 q hb).trans (hreg1 q ha))

/-- Settles O42. -/
theorem genericFrames : Obligations.GenericFrames := by
  refine ⟨fun g o => g.place_frame o, fun g l p v => g.writePlace_frame l p v, fun g l v => ?_,
    fun l a b s t hok ht => ?_⟩
  · obtain ⟨hreg, hcells⟩ := g.push_sameCellsBut l v
    exact ⟨SameGeneric.push g l v, hreg, hcells, g.pop_frame l⟩
  · have hmov : execGMov l a b s = _ := State.onGeneric_checked_of_ok hok
    obtain rfl := Host.Outcome.next.inj (hmov.symm.trans ht)
    exact s.g.move_frame l a b

end Sys2Proof.Machine
end


section
/-!
PROOFS. The arithmetic, the logic and the shifts of layer G. An operation at a length is one on words of
`l.bits` bits; its operands are fetched cut to that length, so the bounds of the flag functions are those of
the operands themselves.
-/

namespace Sys2Proof.Machine

/-! ## Values at a length -/

/-- The word of a value's low bits, and the value cut to them. -/
theorem setWidth_setWidth_bits (l : Len) (v : Quad) : (v.setWidth l.bits).setWidth 64 = l.trunc v := rfl

/-- Cutting to the length keeps the low bits. -/
theorem setWidth_trunc (l : Len) (v : Quad) : (l.trunc v).setWidth l.bits = v.setWidth l.bits := by
  apply BitVec.eq_of_getLsbD_eq
  intro i hi
  have := l.bits_le
  simp [Len.getLsbD_trunc, hi]

/-- A value of the length is its word. -/
theorem toNat_setWidth_bits {l : Len} {v : Quad} (h : l.trunc v = v) : (v.setWidth l.bits).toNat = v.toNat := by
  rw [BitVec.toNat_setWidth, ← Len.toNat_trunc, h]

/-- A result and its indicators: the value cut to the length, and the indicators those of the value. -/
def Delivers (l : Len) (x : Quad × Flags) (result : Quad) (carry overflow : Prop) : Prop :=
  x.1 = l.trunc result ∧ FlagsAre x.2 l result carry overflow

/-- The indicators of a value are those of its cut. -/
theorem flagsAre_trunc {f : Flags} {l : Len} {r : Quad} {c v : Prop} (h : FlagsAre f l r c v) :
    FlagsAre f l (l.trunc r) c v := by
  unfold FlagsAre signedAt at h ⊢
  rwa [setWidth_trunc, Len.trunc_trunc]

/-- The indicators of a word: N its top bit, Z whether it is zero. -/
theorem delivers_of {l : Len} {w : BitVec l.bits} {f : Flags} {result : Quad} {c v : Prop}
    (hw : result.setWidth l.bits = w) (hn : f.n = w.msb) (hz : f.z = (w == 0#l.bits))
    (hc : f.c = true ↔ c) (hv : f.v = true ↔ v) : Delivers l (w.setWidth 64, f) result c v := by
  subst hw
  refine ⟨rfl, ?_, ?_, hc, hv⟩
  · rw [hn, signedAt, BitVec.msb_eq_toInt, decide_eq_true_eq]
  · rw [hz, beq_zero_iff_toNat, ← setWidth_setWidth_bits, BitVec.toNat_eq,
      BitVec.toNat_setWidth_of_le l.bits_le]
    rfl

/-! ## The forms -/

/-- The sources of a form are fetched cut to the length. -/
theorem GMachine.trunc_fetch (g : GMachine) (l : Len) (o : Roles) :
    l.trunc (g.fetch l o).1.a = (g.fetch l o).1.a ∧ l.trunc (g.fetch l o).1.b = (g.fetch l o).1.b := by
  cases o with
  | accumulator y => exact ⟨Len.trunc_trunc _ _, GMachine.trunc_readPlace _ l _⟩
  | stack => exact ⟨Len.trunc_trunc _ _, Len.trunc_trunc _ _⟩
  | _ => exact ⟨GMachine.trunc_readPlace _ l _, GMachine.trunc_readPlace _ l _⟩

/-- A two-source instruction whose operands are legal, or not. -/
theorem GMachine.binary_eq (g : GMachine) (l : Len) (f : BinForm) (op : Quad → Quad → Quad × Flags) :
    let o := g.cfg.fmt.roles f
    let x := g.fetch l o
    let r := op x.1.a x.1.b
    (g.operandsOk o.sources o.dests = true →
      g.binary l f op = (x.2.deliver l x.1.dest r.1).setFlags r.2) ∧
    (g.operandsOk o.sources o.dests = false → g.binary l f op = g.addressingError) :=
  ⟨fun h => if_pos h, fun h => if_neg (ne_true_of_eq_false h)⟩

/-- A compare whose operands are legal, or not. -/
theorem GMachine.probe_eq (g : GMachine) (l : Len) (f : BinForm) (op : Quad → Quad → Quad × Flags) :
    let o := compareRoles f
    let x := g.fetch l o
    (g.operandsOk o.sources [] = true → g.probe l f op = x.2.setFlags (op x.1.a x.1.b).2) ∧
    (g.operandsOk o.sources [] = false → g.probe l f op = g.addressingError) :=
  ⟨fun h => if_pos h, fun h => if_neg (ne_true_of_eq_false h)⟩

/-- A one-source instruction in its three forms. -/
theorem GMachine.unary_eq (g : GMachine) (l : Len) (op : Quad → Bool → Quad × Flags) :
    (∀ a b, g.operandsOk [a] [b] = true → g.unary l (.two a b) op =
      let x := g.readOperand l a
      let r := op x.1 g.psw.c
      (x.2.writeOperand l b r.1).setFlags r.2) ∧
    (∀ a, g.operandsOk [] [a] = true → g.unary l (.one a) op =
      let x := g.locate l a
      let r := op x.1.value g.psw.c
      (x.2.writePlace l x.1.place r.1).setFlags r.2) ∧
    (g.unary l .zero op =
      let x := g.pop l
      let r := op x.1 g.psw.c
      (x.2.push l r.1).setFlags r.2) ∧
    (∀ f, g.operandsOk f.sources f.dests = false → g.unary l f op = g.addressingError) :=
  ⟨fun _ _ h => if_pos h, fun _ h => if_pos h, rfl, fun _ h => if_neg (ne_true_of_eq_false h)⟩

/-- A two-source instruction, from what its operation delivers for operands of the length. -/
theorem genericComputes_of {mk : BinForm → Instr} {l : Len} {op : Quad → Quad → Quad × Flags}
    {result : Quad → Quad → Quad} {carry overflow : Quad → Quad → Prop}
    (hexec : ∀ f s, exec (mk f) s = s.onGeneric (·.binary l f op))
    (hop : ∀ a b, l.trunc a = a → l.trunc b = b →
      Delivers l (op a b) (result a b) (carry a b) (overflow a b)) :
    GenericComputes mk l result carry overflow := by
  intro f s
  obtain ⟨hok, hnot⟩ := s.g.binary_eq l f op
  refine ⟨fun h => ?_, fun h => ?_⟩
  · obtain ⟨ha, hb⟩ := s.g.trunc_fetch l (s.g.cfg.fmt.roles f)
    obtain ⟨hval, hflags⟩ := hop _ _ ha hb
    refine ⟨_, ?_, hflags⟩
    rw [hexec, ← hval]
    exact State.onGeneric_of_eq (hok h)
  · rw [hexec]
    exact State.onGeneric_of_eq (hnot h)

/-- A compare, from the indicators of its operation. -/
theorem genericCompares_of {mk : BinForm → Instr} {l : Len} {op : Quad → Quad → Quad × Flags}
    {result : Quad → Quad → Quad} {carry overflow : Quad → Quad → Prop}
    (hexec : ∀ f s, exec (mk f) s = s.onGeneric (·.probe l f op))
    (hop : ∀ a b, l.trunc a = a → l.trunc b = b →
      Delivers l (op a b) (result a b) (carry a b) (overflow a b)) :
    GenericCompares mk l result carry overflow := by
  refine ⟨fun f s => ?_, fun a b c s => ?_⟩
  · obtain ⟨hok, hnot⟩ := s.g.probe_eq l f op
    refine ⟨fun h => ?_, fun h => ?_⟩
    · obtain ⟨ha, hb⟩ := s.g.trunc_fetch l (compareRoles f)
      refine ⟨_, ?_, (hop _ _ ha hb).2⟩
      rw [hexec]
      exact State.onGeneric_of_eq (hok h)
    · rw [hexec]
      exact State.onGeneric_of_eq (hnot h)
  · simp only [hexec]
    exact ⟨rfl, rfl⟩

/-- A one-source instruction, from what its operation delivers for an operand of the length. -/
theorem genericModifies_of {mk : UnForm → Instr} {l : Len} {op : Quad → Bool → Quad × Flags}
    {result : Quad → Bool → Quad} {carry : Quad → Bool → Prop} {overflow : Quad → Prop}
    (hexec : ∀ f s, exec (mk f) s = s.onGeneric (·.unary l f op))
    (hop : ∀ a c, l.trunc a = a → Delivers l (op a c) (result a c) (carry a c) (overflow a)) :
    GenericModifies mk l result carry overflow := by
  refine ⟨fun a b s h => ?_, fun a s h => ?_, fun s => ?_, fun f s h => ?_⟩ <;>
    obtain ⟨htwo, hone, hzero, hnot⟩ := s.g.unary_eq l op
  · obtain ⟨hval, hflags⟩ := hop (s.g.readOperand l a).1 s.g.psw.c (GMachine.trunc_readPlace _ l _)
    refine ⟨_, ?_, flagsAre_trunc hflags⟩
    rw [hexec, ← hval]
    exact State.onGeneric_of_eq (htwo a b h)
  · obtain ⟨hval, hflags⟩ := hop (s.g.locate l a).1.value s.g.psw.c (GMachine.trunc_readPlace _ l _)
    refine ⟨_, ?_, flagsAre_trunc hflags⟩
    rw [hexec, ← hval]
    exact State.onGeneric_of_eq (hone a h)
  · obtain ⟨hval, hflags⟩ := hop (s.g.pop l).1 s.g.psw.c (Len.trunc_trunc _ _)
    refine ⟨_, ?_, flagsAre_trunc hflags⟩
    rw [hexec, ← hval]
    exact State.onGeneric_of_eq hzero
  · rw [hexec]
    exact State.onGeneric_of_eq (hnot f h)

/-! ## Sums and differences -/

/-- A sum at a length. -/
theorem delivers_addF {l : Len} {a b : Quad} (ha : l.trunc a = a) (hb : l.trunc b = b) :
    Delivers l (atLen l (fun _ => addF) a b) (a + b) (2 ^ l.bits ≤ a.toNat + b.toNat)
      (OutOfRange l (signedAt l a + signedAt l b)) := by
  refine delivers_of (BitVec.setWidth_add _ _ l.bits_le) rfl rfl ?_ (addF_v_iff _ _)
  rw [addF_c, toNat_setWidth_bits ha, toNat_setWidth_bits hb]

/-- A difference, cut to a length. -/
theorem setWidth_sub (l : Len) (a b : Quad) :
    (a - b).setWidth l.bits = a.setWidth l.bits - b.setWidth l.bits := by
  rw [BitVec.sub_eq_add_neg, BitVec.sub_eq_add_neg, BitVec.setWidth_add _ _ l.bits_le,
    BitVec.setWidth_neg_of_le l.bits_le]

/-- A difference at a length. -/
theorem delivers_subF {l : Len} {a b : Quad} (ha : l.trunc a = a) (hb : l.trunc b = b) :
    Delivers l (atLen l (fun _ => subF) a b) (a - b) (a.toNat < b.toNat)
      (OutOfRange l (signedAt l a - signedAt l b)) := by
  refine delivers_of (setWidth_sub l a b) rfl rfl ?_ (subF_v_iff _ _)
  rw [subF_c, toNat_setWidth_bits ha, toNat_setWidth_bits hb]

/-- Settles O46: the operands are of the length, so carry and borrow are bounds on them. -/
theorem genericArithmetic : Obligations.GenericArithmetic := fun _ =>
  ⟨genericComputes_of (fun _ _ => rfl) fun _ _ => delivers_addF,
    genericComputes_of (fun _ _ => rfl) fun _ _ => delivers_subF,
    genericCompares_of (fun _ _ => rfl) fun _ _ => delivers_subF⟩

/-- The value 1 is of every length. -/
theorem trunc_one (l : Len) : l.trunc 1 = 1 := by
  apply BitVec.eq_of_toNat_eq
  rw [Len.toNat_trunc]
  exact Nat.mod_eq_of_lt (Nat.one_lt_two_pow (Nat.pos_iff_ne_zero.1 l.bits_pos))

/-- Settles O48: the sum and the difference with 1. -/
theorem genericIncDec : Obligations.GenericIncDec := by
  intro l
  have hlt (a : Quad) (ha : l.trunc a = a) : a.toNat < 2 ^ l.bits := ha ▸ Len.toNat_trunc_lt l a
  have hone : (1 : Quad).toNat = 1 := rfl
  refine ⟨genericModifies_of (fun _ _ => rfl) fun a _ ha => ?_,
    genericModifies_of (fun _ _ => rfl) fun a _ ha => ?_⟩
  · have hcarry : (2 ^ l.bits ≤ a.toNat + (1 : Quad).toNat) = (a.toNat = 2 ^ l.bits - 1) := by
      have := hlt a ha
      rw [hone, eq_iff_iff]
      omega
    exact hcarry ▸ delivers_addF ha (trunc_one l)
  · have hborrow : (a.toNat < (1 : Quad).toNat) = (a.toNat = 0) := by
      rw [hone, eq_iff_iff]
      omega
    exact hborrow ▸ delivers_subF ha (trunc_one l)

/-! ## Logic -/

/-- A logic operation at a length, from what it does to the cut values. -/
theorem delivers_logicAt {l : Len} {op : (n : Nat) → BitVec n → BitVec n → BitVec n} {a b result : Quad}
    (h : result.setWidth l.bits = op l.bits (a.setWidth l.bits) (b.setWidth l.bits)) :
    Delivers l (logicAt l op a b) result False False :=
  delivers_of h rfl rfl (iff_of_false (by simp) id) (iff_of_false (by simp) id)

/-- Settles O47: cutting to a length goes through the bitwise operations. -/
theorem genericLogic : Obligations.GenericLogic := fun l =>
  ⟨genericComputes_of (fun _ _ => rfl) fun _ _ _ _ => delivers_logicAt BitVec.setWidth_and,
    genericComputes_of (fun _ _ => rfl) fun _ _ _ _ => delivers_logicAt BitVec.setWidth_or,
    genericComputes_of (fun _ _ => rfl) fun _ _ _ _ => delivers_logicAt BitVec.setWidth_xor,
    genericCompares_of (fun _ _ => rfl) fun _ _ _ _ => delivers_logicAt BitVec.setWidth_and,
    genericModifies_of (fun _ _ => rfl) fun _ _ _ => delivers_logicAt (BitVec.setWidth_not l.bits_le)⟩

/-! ## Shifts -/

/-- A shift of layer G, from the word and the bit that its operation gives. -/
theorem genericShifts_of {mk : BinForm → Instr} {l : Len}
    {sh : (n : Nat) → BitVec n → Bool → BitVec n × Bool}
    {value : Quad → Bool → Nat} {carry : Quad → Bool → Prop}
    (hexec : ∀ f s, exec (mk f) s = s.onGeneric (·.shift l f sh))
    (hval : ∀ a c, l.trunc a = a →
      (sh l.bits (a.setWidth l.bits) c).1.toNat = value a c % 2 ^ l.bits)
    (hout : ∀ a c, l.trunc a = a → ((sh l.bits (a.setWidth l.bits) c).2 = true ↔ carry a c)) :
    GenericShifts mk l (fun a c => BitVec.ofNat 64 (value a c)) carry := by
  refine ⟨genericModifies_of (op := shiftAt l sh) (fun f s => ?_) fun a c ha => ?_, fun a b c s => ?_⟩
  · cases f <;> exact hexec _ s
  · refine delivers_of ?_ rfl rfl (hout a c ha) (iff_of_false (by simp [shiftFlags]) id)
    apply BitVec.eq_of_toNat_eq
    rw [BitVec.toNat_setWidth, BitVec.toNat_ofNat,
      Nat.mod_mod_of_dvd _ (Nat.pow_dvd_pow 2 l.bits_le), hval a c ha]
  · simp only [hexec]
    exact ⟨rfl, rfl⟩

/-- Settles O49: each shift by its entering bit; a right shift stays below `2 ^ l.bits`. -/
theorem genericShiftResults : Obligations.GenericShiftResults := by
  intro l low high right left
  have hpos := l.bits_pos
  have hlow (a : Quad) (c : Bool) (ha : l.trunc a = a) : (a.setWidth l.bits).getLsbD 0 = true ↔ low a c := by
    rw [getLsbD_zero_iff, toNat_setWidth_bits ha]
  have hhigh (a : Quad) (c : Bool) (ha : l.trunc a = a) : (a.setWidth l.bits).msb = true ↔ high a c := by
    rw [msb_iff, toNat_setWidth_bits ha]
  have hright (a : Quad) (top : Bool) (ha : l.trunc a = a) :
      (shiftRightIn top (a.setWidth l.bits)).toNat =
        (a.toNat / 2 + 2 ^ (l.bits - 1) * top.toNat) % 2 ^ l.bits := by
    have h := shiftRightIn_toNat hpos top (a.setWidth l.bits)
    rw [toNat_setWidth_bits ha] at h
    rw [← h, Nat.mod_eq_of_lt (BitVec.isLt _)]
  have hleft (a : Quad) (bottom : Bool) (ha : l.trunc a = a) :
      (shiftLeftIn bottom (a.setWidth l.bits)).toNat = (2 * a.toNat + bottom.toNat) % 2 ^ l.bits := by
    rw [shiftLeftIn_toNat hpos, toNat_setWidth_bits ha]
  have htop (a : Quad) (ha : l.trunc a = a) : (a.setWidth l.bits).msb.toNat = a.toNat / 2 ^ (l.bits - 1) := by
    rw [msb_toNat hpos, toNat_setWidth_bits ha]
  have hbottom (a : Quad) (ha : l.trunc a = a) : ((a.setWidth l.bits).getLsbD 0).toNat = a.toNat % 2 := by
    rw [getLsbD_zero_toNat, toNat_setWidth_bits ha]
  exact ⟨genericShifts_of (fun _ _ => rfl) (fun a _ ha => htop a ha ▸ hright a _ ha) hlow,
    genericShifts_of (fun _ _ => rfl) (fun a _ ha => hright a false ha) hlow,
    genericShifts_of (fun _ _ => rfl) (fun a _ ha => hbottom a ha ▸ hright a _ ha) hlow,
    genericShifts_of (fun _ _ => rfl) (fun a c ha => hright a c ha) hlow,
    genericShifts_of (fun _ _ => rfl) (fun a _ ha => hleft a false ha) hhigh,
    genericShifts_of (fun _ _ => rfl) (fun a _ ha => hleft a false ha) hhigh,
    genericShifts_of (fun _ _ => rfl) (fun a _ ha => htop a ha ▸ hleft a _ ha) hhigh,
    genericShifts_of (fun _ _ => rfl) (fun a c ha => hleft a c ha) hhigh⟩

/-! ## Multiplication and division -/

/-- The indicators of MUL and DIV, as relations on the result. -/
theorem mulDivFlags_eq (l : Len) (r : Quad) (c v : Bool) : mulDivFlags l r c v =
    { n := decide (signedAt l r < 0), z := decide (l.trunc r = 0), c := c, v := v } := by
  have hz : (l.trunc r == 0) = decide (l.trunc r = 0) := by
    rw [Bool.eq_iff_iff, beq_iff_eq, decide_eq_true_eq]
  rw [mulDivFlags, BitVec.msb_eq_toInt, hz]
  rfl

/-- Settles O50: the divide error is entered with the configuration, which the fetch leaves. -/
theorem genericMulDiv : Obligations.GenericMulDiv := by
  intro k l f s o
  refine ⟨fun h => ?_, fun h => ?_⟩
  · intro x a b m p pf d q qf
    have hmul : pf = mulDivFlags m p _ _ := (mulDivFlags_eq m p _ _).symm
    have hdiv : qf = mulDivFlags d q _ _ := (mulDivFlags_eq d q _ _).symm
    have hcfg : x.2.cfg = s.g.cfg := (GMachine.Evolves.fetch s.g l o).cfg
    rw [hmul, hdiv, ← hcfg]
    have h1 : execGMul k l f s = _ := State.onGeneric_checked_of_ok h
    have h2 : execGDiv k l f s = _ := State.onGeneric_checked_of_ok h
    exact ⟨h1, h2⟩
  · have h1 : execGMul k l f s = _ := State.onGeneric_checked_of_not_ok h
    have h2 : execGDiv k l f s = _ := State.onGeneric_checked_of_not_ok h
    exact ⟨h1, h2⟩

end Sys2Proof.Machine
end


section
/-!
PROOFS. The loop-control group: the signed comparison as an order on integers, the index and the jump of ACB,
AOB and SOB, the displacement of CASE, and the bit of BBS and BBC.
-/

namespace Sys2Proof.Machine

/-- The signed comparison is the order of the signed values. -/
theorem sleAt_iff (l : Len) (a b : Quad) : sleAt l a b = true ↔ signedAt l a ≤ signedAt l b :=
  decide_eq_true_iff

theorem signedAt_zero (l : Len) : signedAt l 0 = 0 := by
  simp [signedAt]

/-- Evaluating operands leaves PC and the configuration. -/
theorem GMachine.readOperand_pc_cfg (g : GMachine) (l : Len) (o : GOperand) :
    (g.readOperand l o).2.pc = g.pc ∧ (g.readOperand l o).2.cfg = g.cfg := by
  obtain ⟨⟨hcfg, -, hpc, -, -⟩, -, -⟩ := g.place_frame o
  exact ⟨hpc, hcfg⟩

theorem GMachine.locate_pc_cfg (g : GMachine) (l : Len) (o : GOperand) :
    (g.locate l o).2.pc = g.pc ∧ (g.locate l o).2.cfg = g.cfg := g.readOperand_pc_cfg l o

/-- The end of ACB and AOB, with the condition on the signed values. -/
theorem GMachine.loopTo_eq (g : GMachine) (l : Len) (p : GPlace) (v lim d : Quad) :
    g.loopTo l p v (sleAt l v lim) d =
      if signedAt l v ≤ signedAt l lim then (g.writePlace l p v).setPc (g.pc + d) else g := by
  simp only [GMachine.loopTo, sleAt_iff]

/-- The end of SOB. -/
theorem GMachine.loopTo_zero_eq (g : GMachine) (l : Len) (p : GPlace) (v d : Quad) :
    g.loopTo l p v (sleAt l 0 v) d =
      if 0 ≤ signedAt l v then (g.writePlace l p v).setPc (g.pc + d) else g := by
  simp only [GMachine.loopTo, sleAt_iff, signedAt_zero]

/-- Settles O59: the comparison is that of the signed values, and PC is still that of the instruction. -/
theorem loopBranches : Obligations.LoopBranches := by
  intro l lim st ix d s
  refine ⟨fun h => ?_, fun h => ?_, fun h => ?_, fun h => ?_, fun h => ?_, fun h => ?_⟩
  · intro x y z v
    have hpc : z.2.pc = s.g.pc := (y.2.locate_pc_cfg l ix).1.trans
      ((x.2.readOperand_pc_cfg l st).1.trans (s.g.readOperand_pc_cfg l lim).1)
    have hacb : execGAcb l lim st ix d s = _ := State.onGeneric_checked_of_ok h
    rw [← hpc, ← GMachine.loopTo_eq]
    exact hacb
  · intro x z v
    have hpc : z.2.pc = s.g.pc := (x.2.locate_pc_cfg l ix).1.trans (s.g.readOperand_pc_cfg l lim).1
    have haob : execGAob l lim ix d s = _ := State.onGeneric_checked_of_ok h
    rw [← hpc, ← GMachine.loopTo_eq]
    exact haob
  · intro z v
    have hpc : z.2.pc = s.g.pc := (s.g.locate_pc_cfg l ix).1
    have hsob : execGSob l ix d s = _ := State.onGeneric_checked_of_ok h
    rw [← hpc, ← GMachine.loopTo_zero_eq]
    exact hsob
  · exact (State.onGeneric_checked_of_not_ok h : execGAcb l lim st ix d s = _)
  · exact (State.onGeneric_checked_of_not_ok h : execGAob l lim ix d s = _)
  · exact (State.onGeneric_checked_of_not_ok h : execGSob l ix d s = _)

/-- A difference of sign-extended values is the difference of the signed values. -/
theorem sext_sub_sext (l : Len) (a b : Quad) :
    l.sext a - l.sext b = BitVec.ofInt 64 (signedAt l a - signedAt l b) := by
  show BitVec.ofInt 64 (signedAt l a) - BitVec.ofInt 64 (signedAt l b) = _
  rw [BitVec.sub_eq_add_neg, ← BitVec.ofInt_neg, ← BitVec.ofInt_add, ← Int.sub_eq_add_neg]

/-- The next PC of CASE, by the signed values. -/
theorem GMachine.caseTarget_eq (g : GMachine) (l : Len) (sel base limit : Quad) :
    let i := signedAt l sel
    let lo := signedAt l base
    let hi := signedAt l limit
    g.caseTarget l sel base limit = g.pc + (if lo ≤ i ∧ i ≤ hi then
      g.cfg.cell.sext (g.readCell (g.addr (g.pc + BitVec.ofInt 64 (i - lo))))
      else BitVec.ofInt 64 (hi - lo + 1)) := by
  intro i lo hi
  have hcond : (sleAt l base sel && sleAt l sel limit) = true ↔ lo ≤ i ∧ i ≤ hi := by
    rw [Bool.and_eq_true, sleAt_iff, sleAt_iff]
  have hstep : l.sext limit - l.sext base + 1 = BitVec.ofInt 64 (hi - lo + 1) := by
    rw [sext_sub_sext, BitVec.ofInt_add]
    rfl
  rw [GMachine.caseTarget, hstep, sext_sub_sext]
  by_cases h : lo ≤ i ∧ i ≤ hi
  · rw [if_pos (hcond.2 h), if_pos h]
  · rw [if_neg (hcond.not.2 h), if_neg h]

/-- CASE of legal operands, by whether base is above limit. -/
theorem exec_gCase_of_ok {l : Len} {sel ba li : GOperand} {s : State}
    (h : s.g.operandsOk [sel, ba, li] [] = true) :
    let x := s.g.readOperand l sel
    let y := x.2.readOperand l ba
    let z := y.2.readOperand l li
    exec (.gCase l sel ba li) s = if signedAt l y.1 ≤ signedAt l z.1 then
      .next { s with g := z.2.setPc (z.2.caseTarget l x.1 y.1 z.1) } else .refused .caseBaseAboveLimit := by
  intro x y z
  refine (if_pos h : execGCase l sel ba li s = _).trans ?_
  simp only [sleAt_iff]
  rfl

/-- The bit of a byte at an address, by division. -/
theorem GMachine.polje_eq (g : GMachine) (pos base : Quad) (hpos : pos.toNat ≤ 7)
    (hbase : g.addr base = base) :
    g.polje pos base = some (decide ((g.readData .l8 base).toNat / 2 ^ pos.toNat % 2 = 1)) := by
  rw [GMachine.polje, if_pos hpos, hbase, BitVec.getLsbD, Nat.testBit_eq_decide_div_mod_eq]

/-- A branch on a bit of memory, for legal operands. -/
theorem State.branchOnBit_of_ok {s : State} {ba po : GOperand} (d : Quad) (want : Bool)
    (h : s.g.operandsOk [ba, po] [] = true) :
    let x := s.g.readOperand s.g.cfg.aw ba
    let y := x.2.readOperand .l8 po
    (y.1.toNat ≤ 7 → s.branchOnBit ba po d want = .next { s with g :=
      if (y.2.readData .l8 x.1).toNat / 2 ^ y.1.toNat % 2 = want.toNat then y.2.setPc (s.g.pc + d)
      else y.2 }) ∧
    (7 < y.1.toNat → s.branchOnBit ba po d want = .refused .bitPositionOutsideByte) := by
  intro x y
  obtain ⟨hpc, hcfg⟩ : y.2.pc = s.g.pc ∧ y.2.cfg = s.g.cfg := by
    obtain ⟨hpc1, hcfg1⟩ := s.g.readOperand_pc_cfg s.g.cfg.aw ba
    obtain ⟨hpc2, hcfg2⟩ := x.2.readOperand_pc_cfg .l8 po
    exact ⟨hpc2.trans hpc1, hcfg2.trans hcfg1⟩
  have hbase : y.2.addr x.1 = x.1 := by
    rw [GMachine.addr, hcfg]
    exact GMachine.trunc_readPlace _ _ _
  have hbranch : s.branchOnBit ba po d want = match y.2.polje y.1 x.1 with
      | none => .refused .bitPositionOutsideByte
      | some bit => .next { s with g := if bit == want then y.2.setPc (y.2.pc + d) else y.2 } := if_pos h
  constructor <;> intro hpos
  · have hbit : (decide ((y.2.readData .l8 x.1).toNat / 2 ^ y.1.toNat % 2 = 1) == want) = true ↔
        (y.2.readData .l8 x.1).toNat / 2 ^ y.1.toNat % 2 = want.toNat := by
      have := Nat.mod_lt ((y.2.readData .l8 x.1).toNat / 2 ^ y.1.toNat) (show 0 < 2 by decide)
      cases want <;> simp
    rw [hbranch, y.2.polje_eq _ _ hpos hbase, hpc]
    simp only [hbit]
  · rw [hbranch, GMachine.polje, if_neg (Nat.not_le.2 hpos)]

/-- Settles O60. -/
theorem caseAndBitBranches : Obligations.CaseAndBitBranches := by
  refine ⟨fun l sel ba li s h => ?_, fun l sel ba li s h => ?_, fun ba po d s h => ⟨?_, ?_⟩,
    fun ba po d s h => ?_⟩
  · intro x y z i lo hi c
    have hcase := exec_gCase_of_ok (l := l) h
    obtain ⟨hpc, hcfg⟩ : z.2.pc = s.g.pc ∧ z.2.cfg = s.g.cfg := by
      obtain ⟨hpc1, hcfg1⟩ := s.g.readOperand_pc_cfg l sel
      obtain ⟨hpc2, hcfg2⟩ := x.2.readOperand_pc_cfg l ba
      obtain ⟨hpc3, hcfg3⟩ := y.2.readOperand_pc_cfg l li
      exact ⟨hpc3.trans (hpc2.trans hpc1), hcfg3.trans (hcfg2.trans hcfg1)⟩
    constructor <;> intro hle
    · have htarget := z.2.caseTarget_eq l x.1 y.1 z.1
      have haddr (a : Quad) : z.2.addr a = s.g.addr a := by simp only [GMachine.addr, hcfg]
      simp only [hpc, hcfg, haddr] at htarget
      refine hcase.trans ((if_pos hle).trans ?_)
      rw [GMachine.setPc, haddr, htarget]
    · exact hcase.trans (if_neg (Int.not_le.2 hle))
  · exact (if_neg (ne_true_of_eq_false h) : execGCase l sel ba li s = _)
  · exact (if_neg (ne_true_of_eq_false h) : execGBbs ba po d s = _)
  · exact (if_neg (ne_true_of_eq_false h) : execGBbc ba po d s = _)
  · obtain ⟨hset, hsetOut⟩ := State.branchOnBit_of_ok d true h
    obtain ⟨hclear, hclearOut⟩ := State.branchOnBit_of_ok d false h
    exact ⟨fun hpos => ⟨hset hpos, hclear hpos⟩, fun hpos => ⟨hsetOut hpos, hclearOut hpos⟩⟩

end Sys2Proof.Machine
end


section
/-!
PROOFS. What the loops of the string group have in common, and the scan of LOCC and SKPC: after the turns that
its string has characters it has ended, with what the statement says.
-/

namespace Sys2Proof.Machine

variable (g : GMachine) (l : Len) (w : StringPlace)

/-! ## Loops of the string group -/

/-- A turn that ends the loop. -/
theorem GMachine.after_succ_of_ended {α : Type} {turn : GMachine → Turn α} {g : GMachine} {r : α}
    (h : turn g = .ended r) (n : Nat) : GMachine.after turn (n + 1) g = .ended r := by
  simp only [GMachine.after, h]

/-- A turn after which the loop goes on. -/
theorem GMachine.after_succ_of_goesOn {α : Type} {turn : GMachine → Turn α} {g h : GMachine}
    (ht : turn g = .goesOn h) (n : Nat) : GMachine.after turn (n + 1) g = GMachine.after turn n h := by
  simp only [GMachine.after, ht]

/-- A loop over the characters of a string has few enough turns to be answered. -/
theorem GMachine.loop_of_after_len {α : Type} {turn : GMachine → Turn α} {n : Nat} {r : α}
    (hn : n < 2 ^ 64) (h : GMachine.after turn (n + 1) g = .ended r) : g.loop turn = some r :=
  GMachine.loop_of_after turn (by omega) h

theorem GMachine.strand_len_lt_64 : (g.strand l w).len.toNat < 2 ^ 64 := BitVec.isLt _

/-- What a string instruction with legal operands comes to, by its loop. -/
theorem State.onStrings_of_ok {α : Type} {s : State} {srcs dsts : List GOperand}
    {k : GMachine → Option GMachine} {loop : Option α} {out : α → GMachine}
    (h : s.g.operandsOk srcs dsts = true) (hk : k s.g = loop.map out) :
    (∀ r, loop = some r → s.onStrings srcs dsts k = .next { s with g := out r }) ∧
    (loop = none → s.onStrings srcs dsts k = .refused .stringNeverEnds) := by
  simp only [State.onStrings, if_pos h, hk]
  exact ⟨fun r hr => by rw [hr]; rfl, fun hn => by rw [hn]; rfl⟩

/-- A string instruction with illegal operands. -/
theorem State.onStrings_of_not_ok {s : State} {srcs dsts : List GOperand}
    {k : GMachine → Option GMachine} (h : s.g.operandsOk srcs dsts = false) :
    s.onStrings srcs dsts k = .next { s with g := s.g.addressingError } :=
  if_neg (ne_true_of_eq_false h)

/-! ## Strings -/

/-- The address of a character of a string, by its position. -/
def Strand.pos (p : Strand) (k : Nat) : Quad := p.addr + BitVec.ofNat 64 k

theorem Strand.pos_zero (p : Strand) : p.pos 0 = p.addr := BitVec.add_zero _

/-- The locations of a string describe it. -/
theorem GMachine.describes_strand {n : Nat} (hn : (g.strand l w).len.toNat = n) :
    g.Describes l w n ((g.strand l w).pos 0) := by
  rw [Strand.pos_zero]
  exact ⟨hn, (g.trunc_readPlace g.cfg.aw w.addr).symm⟩

/-- A string has no characters, or some. -/
theorem GMachine.strand_len_eq_zero_iff : (g.strand l w).len = 0 ↔ (g.strand l w).len.toNat = 0 :=
  BitVec.toNat_eq

theorem GMachine.strand_len_ne_zero {n : Nat} (hn : (g.strand l w).len.toNat = n + 1) :
    (g.strand l w).len ≠ 0 := fun h => by
  have := (g.strand_len_eq_zero_iff l w).1 h
  omega

/-- The locations of a string have been moved past its first character. -/
structure GMachine.Advances (g : GMachine) (l : Len) (w : StringPlace) (h : GMachine) : Prop where
  shape : g.SameShape h
  len : (h.strand l w).len.toNat = (g.strand l w).len.toNat - 1
  addr : (h.strand l w).addr = g.addr ((g.strand l w).addr + 1)

namespace GMachine.Advances

variable {g l w} {h t : GMachine}

/-- A character of what is left is the next one of the string. -/
theorem addr_pos (a : g.Advances l w h) (k : Nat) :
    g.addr ((h.strand l w).pos k) = g.addr ((g.strand l w).pos (k + 1)) := by
  rw [Strand.pos, a.addr]
  exact g.addr_succ _ k

theorem readChar_pos (a : g.Advances l w h) (s : g.SameShape t) (k : Nat) :
    t.readChar ((h.strand l w).pos k) = t.readChar ((g.strand l w).pos (k + 1)) :=
  s.readChar_congr (a.addr_pos k)

/-- What is described from what is left on. -/
theorem describes (a : g.Advances l w h) (s : g.SameShape t) {v : StringPlace} {m k : Nat}
    (hd : t.Describes l v m ((h.strand l w).pos k)) : t.Describes l v m ((g.strand l w).pos (k + 1)) := by
  rw [Strand.pos, a.addr] at hd
  exact s.describes_succ hd

/-- What is left of a string is apart from the locations the string is apart from. -/
theorem clearOf (a : g.Advances l w h) {v : StringPlace} {n : Nat}
    (hc : g.ClearOf l v (g.strand l w).addr (n + 1)) : h.ClearOf l v (h.strand l w).addr n := by
  rw [a.addr]
  exact a.shape.clearOf_succ hc

end GMachine.Advances

/-- Moving the locations of a string advances it. -/
theorem GMachine.advances_stepString (h : g.HoldsString l w) (hz : (g.strand l w).len ≠ 0) :
    g.Advances l w (g.stepString l w) := by
  refine ⟨g.sameShape_stepString l w, ?_, ?_⟩ <;> rw [g.strand_stepString l w h]
  exact g.toNat_len_pred l w hz

/-! ## The scan -/

/-- What a scan ends with: without a stopping character the whole string is passed over, else the characters up
to and with the first one. -/
def GMachine.Scanned (g : GMachine) (l : Len) (w : StringPlace) (stop : Quad → Bool) (t : GMachine)
    (z : Bool) : Prop :=
  let p := g.strand l w
  let n := p.len.toNat
  ((∀ k < n, stop (g.readChar (p.pos k)) = false) → z = true ∧ t.Describes l w 0 (p.pos n)) ∧
  (∀ k < n, stop (g.readChar (p.pos k)) = true → (∀ j < k, stop (g.readChar (p.pos j)) = false) →
    z = false ∧ t.Describes l w (n - (k + 1)) (p.pos (k + 1)))

/-- The turns of a scan. -/
theorem GMachine.scanTurn_eq (stop : Quad → Bool) : GMachine.scanTurn l w stop g =
    if (g.strand l w).len = 0 then .ended (g, true)
    else if stop (g.readChar ((g.strand l w).pos 0)) then .ended (g.stepString l w, false)
    else .goesOn (g.stepString l w) := by
  rw [Strand.pos_zero]
  rfl

/-- A scan has ended after a turn for each character and one more. -/
theorem GMachine.scan_ends (stop : Quad → Bool) (n : Nat) :
    ∀ g : GMachine, (g.strand l w).len.toNat = n → g.ScanApart l w →
      ∃ t z, GMachine.after (GMachine.scanTurn l w stop) (n + 1) g = .ended (t, z) ∧ g.SameShape t ∧
        g.Scanned l w stop t z := by
  induction n with
  | zero =>
    intro g hn _
    have hz := (g.strand_len_eq_zero_iff l w).2 hn
    have hturn := g.scanTurn_eq l w stop
    rw [if_pos hz] at hturn
    refine ⟨g, true, GMachine.after_succ_of_ended hturn 0, .refl, fun _ => ⟨rfl, ?_⟩,
      fun k hk => absurd hk (by omega)⟩
    rw [hn]
    exact g.describes_strand l w hn
  | succ n ih =>
    intro g hn hap
    have hz := g.strand_len_ne_zero l w hn
    have hturn := g.scanTurn_eq l w stop
    rw [if_neg hz] at hturn
    have hadv := g.advances_stepString l w hap.1 hz
    have hclear := hap.2
    rw [hn] at hclear
    have hlen : ((g.stepString l w).strand l w).len.toNat = n := by rw [hadv.len, hn]; rfl
    cases hstop : stop (g.readChar ((g.strand l w).pos 0)) with
    | true =>
      rw [if_pos hstop] at hturn
      refine ⟨_, _, GMachine.after_succ_of_ended hturn _, hadv.shape, fun hall => ?_,
        fun k _ _ hbefore => ⟨rfl, ?_⟩⟩
      · have := hstop.symm.trans (hall 0 (by omega))
        cases this
      · obtain rfl : k = 0 := Nat.eq_zero_of_not_pos fun hk => by
          have := hstop.symm.trans (hbefore 0 hk)
          cases this
        rw [hn]
        exact hadv.describes hadv.shape (GMachine.describes_strand _ l w hlen)
    | false =>
      rw [if_neg (ne_true_of_eq_false hstop)] at hturn
      have hap' : (g.stepString l w).ScanApart l w := by
        refine ⟨(hadv.shape.holdsString l w).2 hap.1, ?_⟩
        rw [hlen]
        exact hadv.clearOf hclear
      obtain ⟨t, z, hafter, hshape, hall, hfirst⟩ := ih _ hlen hap'
      have hread (k : Nat) (hk : k < n) : (g.stepString l w).readChar (((g.stepString l w).strand l w).pos k) =
          g.readChar ((g.strand l w).pos (k + 1)) :=
        (hadv.readChar_pos hadv.shape k).trans (g.readChar_stepString l w _ (hclear (k + 1) (by omega)))
      have ht := hadv.shape.trans hshape
      rw [hlen] at hall hfirst
      refine ⟨t, z, (GMachine.after_succ_of_goesOn hturn _).trans hafter, ht, fun hnone => ?_,
        fun k hk hk1 hbefore => ?_⟩
      · rw [hn] at hnone ⊢
        obtain ⟨hz1, hd⟩ := hall fun k hk => by rw [hread k hk]; exact hnone _ (by omega)
        exact ⟨hz1, hadv.describes ht hd⟩
      · obtain ⟨k, rfl⟩ : ∃ j, k = j + 1 := Nat.exists_eq_succ_of_ne_zero fun hk0 => by
          rw [hk0, hstop] at hk1
          cases hk1
        rw [hn] at hk ⊢
        obtain ⟨hz1, hd⟩ := hfirst k (by omega) (by rw [hread k (by omega)]; exact hk1) fun j hj => by
          rw [hread j (by omega)]
          exact hbefore _ (by omega)
        refine ⟨hz1, ?_⟩
        rw [Nat.add_sub_add_right]
        exact hadv.describes ht hd

/-- The scan instructions with illegal operands. -/
theorem State.scan_of_not_ok {s : State} {len ad ch : GOperand} (test : Quad → Quad → Bool)
    (h : s.g.operandsOk [ch] [len, ad] = false) :
    s.scan l len ad ch test = .next { s with g := s.g.addressingError } := State.onStrings_of_not_ok h

/-- The scan instructions, by their loop. -/
theorem State.scan_spec {s : State} {len ad ch : GOperand} {test : Quad → Quad → Bool} {stop : Quad → Bool}
    (h : s.g.operandsOk [ch] [len, ad] = true) :
    let x := s.g.locateString len ad
    let c := x.2.readOperand .l8 ch
    test c.1 = stop →
    let loop := c.2.loop (GMachine.scanTurn l x.1 stop)
    (∀ r, loop = some r → s.scan l len ad ch test = .next { s with g := r.1.setZC r.2 false }) ∧
    (loop = none → s.scan l len ad ch test = .refused .stringNeverEnds ∧
      (c.2.ok = true → c.2.NeverEnds (GMachine.scanTurn l x.1 stop))) ∧
    (c.2.ScanApart l x.1 → ∃ r, loop = some r ∧
      s.scan l len ad ch test = .next { s with g := r.1.setZC r.2 false }) := by
  intro x c htest loop
  obtain ⟨hsome, hnone⟩ := State.onStrings_of_ok (loop := loop) (out := fun r => r.1.setZC r.2 false)
    (k := fun g =>
      let x := g.locateString len ad
      let c := x.2.readOperand .l8 ch
      (c.2.loop (GMachine.scanTurn l x.1 (test c.1))).map fun r => r.1.setZC r.2 false) h (by subst htest; rfl)
  refine ⟨hsome, fun hn => ⟨hnone hn, fun hok => ?_⟩, fun hap => ?_⟩
  · exact GMachine.neverEnds_of_loop _ hok (GMachine.Keeps.scanTurn l x.1 stop) hn
  · obtain ⟨t, z, hafter, -, -⟩ := GMachine.scan_ends l x.1 stop _ c.2 rfl hap
    have hloop := c.2.loop_of_after_len (c.2.strand_len_lt_64 l x.1) hafter
    exact ⟨_, hloop, hsome _ hloop⟩

/-- Settles O57: the loop ends as `GMachine.scan_ends` says, and a loop has one result. -/
theorem scanStrings : Obligations.ScanStrings := by
  refine ⟨fun l ln ad ch s h => ?_, fun l ln ad ch s h => ?_, fun g t z l w stop => ?_⟩
  · exact ⟨State.scan_of_not_ok l (fun c d => d == c) h, State.scan_of_not_ok l (fun c d => d != c) h⟩
  · intro x c scans
    exact ⟨State.scan_spec l h (test := fun c d => d == c) (funext fun d => beq_eq_decide d c.1),
      State.scan_spec l h (test := fun c d => d != c) (funext fun d => by simp [bne, beq_eq_decide, c, x])⟩
  · intro p n c hap hloop
    obtain ⟨t', z', hafter, -, hscanned⟩ := GMachine.scan_ends l w stop _ g rfl hap
    have hloop' := g.loop_of_after_len (g.strand_len_lt_64 l w) hafter
    obtain ⟨rfl, rfl⟩ := Prod.mk.inj (Option.some.inj (hloop'.symm.trans hloop))
    exact hscanned

end Sys2Proof.Machine
end


section
/-!
PROOFS. The search of MATCHC: after the turns that the source string has characters it has ended, at the first
occurrence of the substring or where what is left is shorter than it.
-/

namespace Sys2Proof.Machine

variable (l : Len) (u v : StringPlace)

/-- The comparison of a substring, character by character. -/
theorem GMachine.sameChars_iff (g : GMachine) (a b : Quad) (n : Nat) : g.sameChars a b n = true ↔
    ∀ i < n, g.readChar (a + BitVec.ofNat 64 i) = g.readChar (b + BitVec.ofNat 64 i) := by
  induction n with
  | zero => exact iff_of_true rfl fun i hi => absurd hi (Nat.not_lt_zero i)
  | succ n ih => rw [GMachine.sameChars, Bool.and_eq_true, ih, beq_iff_eq, Nat.forall_lt_succ_right]

/-- The turns of MATCHC, with the occurrence at the first position. -/
theorem GMachine.matchTurn_eq (g : GMachine) :
    let p := g.strand l u
    let sub := g.strand l v
    (p.len.toNat < sub.len.toNat → GMachine.matchTurn l u v g = .ended (g, true)) ∧
    (g.MatchesAt sub p 0 → GMachine.matchTurn l u v g = .ended (g, false)) ∧
    (sub.len.toNat ≤ p.len.toNat → ¬ g.MatchesAt sub p 0 →
      GMachine.matchTurn l u v g = .goesOn (g.stepString l u)) := by
  intro p sub
  have hsame : g.MatchesAt sub p 0 ↔
      sub.len.toNat ≤ p.len.toNat ∧ g.sameChars p.addr sub.addr sub.len.toNat = true := by
    simp only [GMachine.MatchesAt, GMachine.sameChars_iff, Nat.zero_add]
  refine ⟨fun h => if_pos h, fun h => ?_, fun hle h => ?_⟩
  · obtain ⟨hle, hchars⟩ := hsame.1 h
    exact (if_neg (Nat.not_lt.2 hle)).trans (if_pos hchars)
  · exact (if_neg (Nat.not_lt.2 hle)).trans (if_neg fun hchars => h (hsame.2 ⟨hle, hchars⟩))

/-- What a search ends with: at the first occurrence, or where what is left is shorter than the substring. -/
def GMachine.Matched (g : GMachine) (l : Len) (u v : StringPlace) (t : GMachine) (z : Bool) : Prop :=
  let p := g.strand l u
  let sub := g.strand l v
  let n := p.len.toNat
  let m := sub.len.toNat
  ((∀ k, ¬ g.MatchesAt sub p k) →
    z = true ∧ t.Describes l u (min n (m - 1)) (p.pos (n - min n (m - 1)))) ∧
  (∀ k, g.MatchesAt sub p k → (∀ j < k, ¬ g.MatchesAt sub p j) →
    z = false ∧ t.Describes l u (n - k) (p.pos k))

/-- A position of what is left of the source string is the next one of the string. -/
theorem GMachine.matchesAt_succ {g : GMachine} (hap : g.MatchApart l u v)
    (hz : (g.strand l u).len ≠ 0) (k : Nat) :
    let h := g.stepString l u
    h.MatchesAt (h.strand l v) (h.strand l u) k ↔ g.MatchesAt (g.strand l v) (g.strand l u) (k + 1) := by
  intro h
  obtain ⟨⟨hold, hclear⟩, hstrings, hsub⟩ := hap
  have hadv := g.advances_stepString l u hold hz
  have hother : h.strand l v = g.strand l v := g.strand_stepString_other l u v hstrings
  have hne := (g.strand_len_eq_zero_iff l u).not.1 hz
  have hlen : (h.strand l u).len.toNat = (g.strand l u).len.toNat - 1 := hadv.len
  have hread (i : Nat) (hi : k + 1 + i < (g.strand l u).len.toNat) :
      h.readChar ((h.strand l u).pos (k + i)) = g.readChar ((g.strand l u).pos (k + 1 + i)) := by
    rw [hadv.readChar_pos hadv.shape, Nat.add_right_comm]
    exact g.readChar_stepString l u _ (hclear _ hi)
  have hreadSub (i : Nat) (hi : i < (g.strand l v).len.toNat) :
      h.readChar ((g.strand l v).pos i) = g.readChar ((g.strand l v).pos i) :=
    g.readChar_stepString l u _ (hsub i hi)
  rw [hother]
  constructor
  · rintro ⟨hle, hchars⟩
    refine ⟨by omega, fun i hi => ?_⟩
    exact (hread i (by omega)).symm.trans ((hchars i hi).trans (hreadSub i hi))
  · rintro ⟨hle, hchars⟩
    refine ⟨by omega, fun i hi => ?_⟩
    exact (hread i (by omega)).trans ((hchars i hi).trans (hreadSub i hi).symm)

/-- A source string shorter than the substring has no occurrence and is left as it is. -/
theorem GMachine.matched_of_short {g : GMachine}
    (h : (g.strand l u).len.toNat < (g.strand l v).len.toNat) : g.Matched l u v g true := by
  refine ⟨fun _ => ⟨rfl, ?_⟩, fun k hk => absurd hk.1 (by omega)⟩
  rw [Nat.min_eq_left (by omega), Nat.sub_self]
  exact g.describes_strand l u rfl

/-- An occurrence at the first position is the first one. -/
theorem GMachine.matched_of_first {g : GMachine} (h : g.MatchesAt (g.strand l v) (g.strand l u) 0) :
    g.Matched l u v g false := by
  refine ⟨fun hnone => absurd h (hnone 0), fun k _ hbefore => ⟨rfl, ?_⟩⟩
  obtain rfl : k = 0 := Nat.eq_zero_of_not_pos fun hk => hbefore 0 hk h
  exact g.describes_strand l u rfl

/-- What a search ends with after an unsuccessful position. -/
theorem GMachine.matched_of_step {g t : GMachine} {z : Bool} (hap : g.MatchApart l u v)
    (hle : (g.strand l v).len.toNat ≤ (g.strand l u).len.toNat)
    (h0 : ¬ g.MatchesAt (g.strand l v) (g.strand l u) 0) (hz : (g.strand l u).len ≠ 0)
    (ht : g.SameShape t) (h : (g.stepString l u).Matched l u v t z) : g.Matched l u v t z := by
  have hadv := g.advances_stepString l u hap.1.1 hz
  have hother : (g.stepString l u).strand l v = g.strand l v :=
    g.strand_stepString_other l u v hap.2.1
  have hne := (g.strand_len_eq_zero_iff l u).not.1 hz
  have hsub : (g.strand l v).len.toNat ≠ 0 := fun hm =>
    h0 ⟨by omega, fun i hi => absurd hi (by omega)⟩
  have hmatch := GMachine.matchesAt_succ l u v hap hz
  obtain ⟨hnone, hfirst⟩ := h
  rw [hadv.len, hother] at hnone hfirst
  simp only [hother] at hmatch
  constructor
  · intro hno
    obtain ⟨hzt, hd⟩ := hnone fun k hk => hno (k + 1) ((hmatch k).1 hk)
    refine ⟨hzt, ?_⟩
    have hd' := hadv.describes ht hd
    rwa [show min ((g.strand l u).len.toNat - 1) ((g.strand l v).len.toNat - 1) =
        min (g.strand l u).len.toNat ((g.strand l v).len.toNat - 1) by omega,
      show (g.strand l u).len.toNat - 1 - min (g.strand l u).len.toNat ((g.strand l v).len.toNat - 1) + 1 =
        (g.strand l u).len.toNat - min (g.strand l u).len.toNat ((g.strand l v).len.toNat - 1) by omega] at hd'
  · intro k hk hbefore
    obtain ⟨k, rfl⟩ : ∃ j, k = j + 1 := Nat.exists_eq_succ_of_ne_zero fun hk0 => h0 (hk0 ▸ hk)
    obtain ⟨hzt, hd⟩ := hfirst k ((hmatch k).2 hk) fun j hj hj' =>
      hbefore (j + 1) (by omega) ((hmatch j).1 hj')
    refine ⟨hzt, ?_⟩
    have hd' := hadv.describes ht hd
    rwa [Nat.sub_sub, Nat.add_comm 1 k] at hd'

/-- The locations of the source string moved past a character, the strings are still apart from them. -/
theorem GMachine.matchApart_stepString {g : GMachine} (hap : g.MatchApart l u v)
    (hz : (g.strand l u).len ≠ 0) : (g.stepString l u).MatchApart l u v := by
  obtain ⟨⟨hold, hclear⟩, hstrings, hsub⟩ := hap
  have hadv := g.advances_stepString l u hold hz
  have hne := (g.strand_len_eq_zero_iff l u).not.1 hz
  have hother : (g.stepString l u).strand l v = g.strand l v := g.strand_stepString_other l u v hstrings
  refine ⟨⟨(hadv.shape.holdsString l u).2 hold, ?_⟩, (hadv.shape.apartStrings l u v).2 hstrings, ?_⟩
  · rw [hadv.len]
    exact hadv.clearOf (by rwa [Nat.sub_add_cancel (by omega)])
  · rw [hother]
    exact hadv.shape.clearOf hsub

/-- A search has ended after a turn for each character of the source string and one more. -/
theorem GMachine.match_ends (n : Nat) :
    ∀ g : GMachine, (g.strand l u).len.toNat = n → g.MatchApart l u v →
      ∃ t z, GMachine.after (GMachine.matchTurn l u v) (n + 1) g = .ended (t, z) ∧ g.SameShape t ∧
        g.Matched l u v t z := by
  induction n with
  | zero =>
    intro g hn _
    obtain ⟨hshort, hhere, -⟩ := g.matchTurn_eq l u v
    by_cases hlt : (g.strand l u).len.toNat < (g.strand l v).len.toNat
    · exact ⟨g, true, GMachine.after_succ_of_ended (hshort hlt) 0, .refl,
        GMachine.matched_of_short l u v hlt⟩
    · have hm : g.MatchesAt (g.strand l v) (g.strand l u) 0 :=
        ⟨by omega, fun i hi => absurd hi (by omega)⟩
      exact ⟨g, false, GMachine.after_succ_of_ended (hhere hm) 0, .refl,
        GMachine.matched_of_first l u v hm⟩
  | succ n ih =>
    intro g hn hap
    obtain ⟨hshort, hhere, hgo⟩ := g.matchTurn_eq l u v
    by_cases hlt : (g.strand l u).len.toNat < (g.strand l v).len.toNat
    · exact ⟨g, true, GMachine.after_succ_of_ended (hshort hlt) _, .refl,
        GMachine.matched_of_short l u v hlt⟩
    by_cases hm : g.MatchesAt (g.strand l v) (g.strand l u) 0
    · exact ⟨g, false, GMachine.after_succ_of_ended (hhere hm) _, .refl,
        GMachine.matched_of_first l u v hm⟩
    · have hz := g.strand_len_ne_zero l u hn
      have hadv := g.advances_stepString l u hap.1.1 hz
      obtain ⟨t, z, hafter, hshape, hmatched⟩ := ih _ (by rw [hadv.len, hn]; rfl)
        (GMachine.matchApart_stepString l u v hap hz)
      have ht := hadv.shape.trans hshape
      exact ⟨t, z, (GMachine.after_succ_of_goesOn (hgo (Nat.not_lt.1 hlt) hm) _).trans hafter, ht,
        GMachine.matched_of_step l u v hap (Nat.not_lt.1 hlt) hm hz ht hmatched⟩

/-- Settles O58. -/
theorem matchStrings : Obligations.MatchStrings := by
  refine ⟨fun l l1 a1 l2 a2 s h => ?_, fun l l1 a1 l2 a2 s h => ?_, fun g t z l u v => ?_⟩
  · exact (State.onStrings_of_not_ok h : execGMatchc l l1 a1 l2 a2 s = _)
  · intro x y loop
    obtain ⟨hsome, hnone⟩ := State.onStrings_of_ok (loop := loop) (out := fun r => r.1.setZC r.2 false)
      (k := fun g =>
        let x := g.locateString l1 a1
        let y := x.2.locateString l2 a2
        (y.2.loop (GMachine.matchTurn l x.1 y.1)).map fun r => r.1.setZC r.2 false) h rfl
    refine ⟨hsome, fun hn => ⟨hnone hn, fun hok => ?_⟩, fun hap => ?_⟩
    · exact GMachine.neverEnds_of_loop _ hok (GMachine.Keeps.matchTurn l x.1 y.1) hn
    · obtain ⟨t, z, hafter, -, -⟩ := GMachine.match_ends l x.1 y.1 _ y.2 rfl hap
      have hloop := y.2.loop_of_after_len (y.2.strand_len_lt_64 l x.1) hafter
      exact ⟨_, hloop, hsome _ hloop⟩
  · intro p sub n m c hap hloop
    obtain ⟨t', z', hafter, -, hmatched⟩ := GMachine.match_ends l u v _ g rfl hap
    have hloop' := g.loop_of_after_len (g.strand_len_lt_64 l u) hafter
    obtain ⟨rfl, rfl⟩ := Prod.mk.inj (Option.some.inj (hloop'.symm.trans hloop))
    exact hmatched

end Sys2Proof.Machine
end


section
/-!
PROOFS. The comparison of CMPC: after the turns that the longer string has characters it has ended, at the
first difference of the strings padded with FILL or past both.
-/

namespace Sys2Proof.Machine

variable (l : Len) (u v : StringPlace)

/-- The locations of a string have been moved past its first character, if it has one. -/
structure GMachine.Passes (g : GMachine) (l : Len) (w : StringPlace) (h : GMachine) : Prop where
  shape : g.SameShape h
  len : (h.strand l w).len.toNat = (g.strand l w).len.toNat - 1
  addr : (h.strand l w).addr =
    if (g.strand l w).len.toNat = 0 then (g.strand l w).addr else g.addr ((g.strand l w).addr + 1)

namespace GMachine.Passes

variable {g h t : GMachine} {l : Len} {w : StringPlace}

theorem advances (a : g.Passes l w h) (hne : (g.strand l w).len.toNat ≠ 0) : g.Advances l w h :=
  ⟨a.shape, a.len, by rw [a.addr, if_neg hne]⟩

/-- The character at a position of what is left is the next one of the string, FILL past its end. -/
theorem charAt (a : g.Passes l w h) (fill : Quad)
    (hread : ∀ k < (g.strand l w).len.toNat,
      h.readChar ((g.strand l w).pos k) = g.readChar ((g.strand l w).pos k)) (k : Nat) :
    h.charAt fill (h.strand l w) k = g.charAt fill (g.strand l w) (k + 1) := by
  have hlen := a.len
  by_cases hk : k + 1 < (g.strand l w).len.toNat
  · rw [GMachine.charAt, GMachine.charAt, if_pos hk, if_pos (by omega)]
    exact ((a.advances (by omega)).readChar_pos a.shape k).trans (hread _ hk)
  · rw [GMachine.charAt, GMachine.charAt, if_neg hk, if_neg (by omega)]

/-- What is left after more characters of what is left. -/
theorem describes (a : g.Passes l w h) (s : g.SameShape t) {k : Nat}
    (hd : t.Describes l w ((h.strand l w).len.toNat - k)
      ((h.strand l w).pos (min k (h.strand l w).len.toNat))) :
    t.Describes l w ((g.strand l w).len.toNat - (k + 1))
      ((g.strand l w).pos (min (k + 1) (g.strand l w).len.toNat)) := by
  rw [a.len] at hd
  by_cases hz : (g.strand l w).len.toNat = 0
  · rw [hz] at hd ⊢
    rw [Strand.pos, a.addr, if_pos hz, Nat.zero_sub, Nat.zero_sub, Nat.min_zero] at hd
    rwa [Nat.zero_sub, Nat.min_zero]
  · have hd' := (a.advances hz).describes s hd
    rwa [Nat.sub_sub, Nat.add_comm 1 k, show min k ((g.strand l w).len.toNat - 1) + 1 =
      min (k + 1) (g.strand l w).len.toNat by omega] at hd'

/-- What is left of a string is apart from the locations the string is apart from. -/
theorem clearOf (a : g.Passes l w h) {v : StringPlace}
    (hc : g.ClearOf l v (g.strand l w).addr (g.strand l w).len.toNat) :
    h.ClearOf l v (h.strand l w).addr (h.strand l w).len.toNat := by
  rw [a.len]
  by_cases hz : (g.strand l w).len.toNat = 0
  · exact fun k hk => absurd hk (by omega)
  · exact (a.advances hz).clearOf (by rwa [Nat.sub_add_cancel (by omega)])

/-- Any further update that leaves the string and the shape. -/
theorem of_strand_eq (a : g.Passes l w h) (s : h.SameShape t) (e : t.strand l w = h.strand l w) :
    g.Passes l w t := ⟨a.shape.trans s, e ▸ a.len, e ▸ a.addr⟩

end GMachine.Passes

/-- Moving the locations of a string that is not exhausted. -/
theorem GMachine.passes_stepIfAny {g : GMachine} {w : StringPlace} (h : g.HoldsString l w) :
    g.Passes l w (g.stepIfAny l w) := by
  unfold GMachine.stepIfAny
  by_cases hz : (g.strand l w).len = 0
  · have hz' := (g.strand_len_eq_zero_iff l w).1 hz
    rw [if_pos hz]
    exact ⟨.refl, by omega, by rw [if_pos hz']⟩
  · have hadv := g.advances_stepString l w h hz
    rw [if_neg hz]
    exact ⟨hadv.shape, hadv.len, by rw [if_neg ((g.strand_len_eq_zero_iff l w).not.1 hz), hadv.addr]⟩

/-- Moving the locations of a string leaves a string whose locations are apart from them. -/
theorem GMachine.strand_stepIfAny_other {g : GMachine} {w v : StringPlace} (h : g.ApartStrings l w v) :
    (g.stepIfAny l w).strand l v = g.strand l v := by
  unfold GMachine.stepIfAny
  split
  · rfl
  · exact g.strand_stepString_other l w v h

/-- The pair of first characters passed over, in both strings. -/
def GMachine.passPair (g : GMachine) (l : Len) (u v : StringPlace) : GMachine :=
  (g.stepIfAny l u).stepIfAny l v

/-- What the move past a pair of characters does to the two strings and to their characters. -/
theorem GMachine.passes_passPair {g : GMachine} (hap : g.CompareApart l u v) :
    g.Passes l u (g.passPair l u v) ∧ g.Passes l v (g.passPair l u v) ∧
    (∀ k < (g.strand l u).len.toNat,
      (g.passPair l u v).readChar ((g.strand l u).pos k) = g.readChar ((g.strand l u).pos k)) ∧
    (∀ k < (g.strand l v).len.toNat,
      (g.passPair l u v).readChar ((g.strand l v).pos k) = g.readChar ((g.strand l v).pos k)) := by
  obtain ⟨hu, hv, hstrings, huu, huv, hvu, hvv⟩ := hap
  have hs1 := g.sameShape_stepIfAny l u
  have hs2 := (g.stepIfAny l u).sameShape_stepIfAny l v
  have hother := g.strand_stepIfAny_other l hstrings
  have hread {a : Quad} (h1 : g.ApartChar l u a) (h2 : g.ApartChar l v a) :
      (g.passPair l u v).readChar a = g.readChar a :=
    (GMachine.readChar_stepIfAny _ l v a ((hs1.apartChar l v a).2 h2)).trans
      (g.readChar_stepIfAny l u a h1)
  refine ⟨(GMachine.passes_stepIfAny l hu).of_strand_eq hs2
      (GMachine.strand_stepIfAny_other l ((hs1.apartStrings l v u).2 hstrings.symm)), ?_,
    fun k hk => hread (huu k hk) (hvu k hk), fun k hk => hread (huv k hk) (hvv k hk)⟩
  have hp := GMachine.passes_stepIfAny l ((hs1.holdsString l v).2 hv)
  obtain ⟨hshape, hlen, haddr⟩ := hp
  rw [hother] at hlen haddr
  rw [hs1.addr] at haddr
  exact ⟨hs1.trans hs2, hlen, haddr⟩

/-- Past a pair of characters the strings are still apart from the locations. -/
theorem GMachine.compareApart_passPair {g : GMachine} (hap : g.CompareApart l u v) :
    (g.passPair l u v).CompareApart l u v := by
  obtain ⟨hpu, hpv, -, -⟩ := GMachine.passes_passPair l u v hap
  obtain ⟨hu, hv, hstrings, huu, huv, hvu, hvv⟩ := hap
  exact ⟨(hpu.shape.holdsString l u).2 hu, (hpu.shape.holdsString l v).2 hv,
    (hpu.shape.apartStrings l u v).2 hstrings, hpu.clearOf huu, hpv.clearOf huv, hpu.clearOf hvu,
    hpv.clearOf hvv⟩

/-- The turns of CMPC. -/
theorem GMachine.compareTurn_eq (g : GMachine) (fill : Quad) :
    let p := g.strand l u
    let q := g.strand l v
    (max p.len.toNat q.len.toNat = 0 → GMachine.compareTurn l u v fill g = .ended (g, true, false)) ∧
    (max p.len.toNat q.len.toNat ≠ 0 → GMachine.compareTurn l u v fill g =
      if g.charAt fill p 0 = g.charAt fill q 0 then .goesOn (g.passPair l u v)
      else .ended (g.passPair l u v, false,
        decide ((g.charAt fill p 0).toNat < (g.charAt fill q 0).toNat))) := by
  intro p q
  have hempty : (p.len = 0 && q.len = 0) = true ↔ max p.len.toNat q.len.toNat = 0 := by
    simp only [Bool.and_eq_true, decide_eq_true_eq, p, q, GMachine.strand_len_eq_zero_iff]
    omega
  have hchar (w : StringPlace) : g.charAt fill (g.strand l w) 0 = g.charOr fill (g.strand l w) := by
    have hfirst : (g.strand l w).addr + BitVec.ofNat 64 0 = (g.strand l w).addr := BitVec.add_zero _
    rw [GMachine.charAt, GMachine.charOr, hfirst]
    by_cases hz : (g.strand l w).len = 0
    · rw [if_pos hz, if_neg (by rw [(g.strand_len_eq_zero_iff l w).1 hz]; decide)]
    · rw [if_neg hz, if_pos (Nat.pos_of_ne_zero ((g.strand_len_eq_zero_iff l w).not.1 hz))]
  refine ⟨fun h => if_pos (hempty.2 h), fun h => ?_⟩
  rw [hchar u, hchar v]
  exact if_neg (hempty.not.2 h)

/-- What a comparison ends with: past both strings if they agree, else past the first difference. -/
def GMachine.Compared (g : GMachine) (l : Len) (u v : StringPlace) (fill : Quad) (t : GMachine)
    (z c : Bool) : Prop :=
  let p := g.strand l u
  let q := g.strand l v
  let n := max p.len.toNat q.len.toNat
  let rest (k : Nat) : Prop :=
    t.Describes l u (p.len.toNat - k) (p.pos (min k p.len.toNat)) ∧
    t.Describes l v (q.len.toNat - k) (q.pos (min k q.len.toNat))
  ((∀ k < n, g.charAt fill p k = g.charAt fill q k) → z = true ∧ c = false ∧ rest n) ∧
  (∀ k < n, (∀ j < k, g.charAt fill p j = g.charAt fill q j) →
    g.charAt fill p k ≠ g.charAt fill q k →
    z = false ∧ (c = true ↔ (g.charAt fill p k).toNat < (g.charAt fill q k).toNat) ∧ rest (k + 1))

/-- What a comparison ends with after a pair that agrees. -/
theorem GMachine.compared_of_step {g t : GMachine} {fill : Quad} {z c : Bool} (hap : g.CompareApart l u v)
    (h0 : g.charAt fill (g.strand l u) 0 = g.charAt fill (g.strand l v) 0)
    (hn : max (g.strand l u).len.toNat (g.strand l v).len.toNat ≠ 0)
    (ht : g.SameShape t) (h : (g.passPair l u v).Compared l u v fill t z c) : g.Compared l u v fill t z c := by
  obtain ⟨hpu, hpv, hreadu, hreadv⟩ := GMachine.passes_passPair l u v hap
  have hchar (k : Nat) : ((g.passPair l u v).charAt fill ((g.passPair l u v).strand l u) k =
        g.charAt fill (g.strand l u) (k + 1)) ∧
      ((g.passPair l u v).charAt fill ((g.passPair l u v).strand l v) k =
        g.charAt fill (g.strand l v) (k + 1)) :=
    ⟨hpu.charAt fill hreadu k, hpv.charAt fill hreadv k⟩
  have hmax : max ((g.passPair l u v).strand l u).len.toNat ((g.passPair l u v).strand l v).len.toNat + 1 =
      max (g.strand l u).len.toNat (g.strand l v).len.toNat := by
    rw [hpu.len, hpv.len]
    omega
  obtain ⟨hall, hfirst⟩ := h
  constructor
  · intro hagree
    obtain ⟨hz, hc, hru, hrv⟩ := hall fun k hk => by
      rw [(hchar k).1, (hchar k).2]
      exact hagree (k + 1) (by omega)
    rw [← hmax]
    exact ⟨hz, hc, hpu.describes ht hru, hpv.describes ht hrv⟩
  · intro k hk hbefore hdiff
    obtain ⟨k, rfl⟩ : ∃ j, k = j + 1 := Nat.exists_eq_succ_of_ne_zero fun hk0 => hdiff (hk0 ▸ h0)
    rw [← (hchar k).1, ← (hchar k).2] at hdiff ⊢
    obtain ⟨hz, hc, hru, hrv⟩ := hfirst k (by omega) (fun j hj => by
      rw [(hchar j).1, (hchar j).2]
      exact hbefore (j + 1) (by omega)) hdiff
    exact ⟨hz, hc, hpu.describes ht hru, hpv.describes ht hrv⟩

/-- A comparison of two empty strings. -/
theorem GMachine.compared_of_empty {g : GMachine} (fill : Quad)
    (h : max (g.strand l u).len.toNat (g.strand l v).len.toNat = 0) :
    g.Compared l u v fill g true false := by
  have hu : (g.strand l u).len.toNat = 0 := by omega
  have hv : (g.strand l v).len.toNat = 0 := by omega
  refine ⟨fun _ => ⟨rfl, rfl, ?_, ?_⟩, fun k hk => absurd hk (by omega)⟩
  · rw [hu, Nat.zero_sub, Nat.min_zero]
    exact g.describes_strand l u hu
  · rw [hv, Nat.zero_sub, Nat.min_zero]
    exact g.describes_strand l v hv

/-- A difference at the first position. -/
theorem GMachine.compared_of_first {g : GMachine} {fill : Quad} (hap : g.CompareApart l u v)
    (hn : max (g.strand l u).len.toNat (g.strand l v).len.toNat ≠ 0)
    (h0 : g.charAt fill (g.strand l u) 0 ≠ g.charAt fill (g.strand l v) 0) :
    g.Compared l u v fill (g.passPair l u v) false
      (decide ((g.charAt fill (g.strand l u) 0).toNat < (g.charAt fill (g.strand l v) 0).toNat)) := by
  obtain ⟨hpu, hpv, -, -⟩ := GMachine.passes_passPair l u v hap
  have hrest {w : StringPlace} (hp : g.Passes l w (g.passPair l u v)) :
      (g.passPair l u v).Describes l w ((g.strand l w).len.toNat - (0 + 1))
        ((g.strand l w).pos (min (0 + 1) (g.strand l w).len.toNat)) := by
    refine hp.describes hp.shape ?_
    rw [Nat.sub_zero, Nat.zero_min]
    exact GMachine.describes_strand _ l w rfl
  refine ⟨fun hagree => absurd (hagree 0 (by omega)) h0, fun k _ hbefore _ => ?_⟩
  obtain rfl : k = 0 := Nat.eq_zero_of_not_pos fun hk => h0 (hbefore 0 hk)
  exact ⟨rfl, decide_eq_true_iff, hrest hpu, hrest hpv⟩

/-- A comparison has ended after a turn for each character of the longer string and one more. -/
theorem GMachine.compare_ends (fill : Quad) (n : Nat) :
    ∀ g : GMachine, max (g.strand l u).len.toNat (g.strand l v).len.toNat = n → g.CompareApart l u v →
      ∃ t z c, GMachine.after (GMachine.compareTurn l u v fill) (n + 1) g = .ended (t, z, c) ∧
        g.SameShape t ∧ g.Compared l u v fill t z c := by
  induction n with
  | zero =>
    intro g hn _
    obtain ⟨hend, -⟩ := g.compareTurn_eq l u v fill
    exact ⟨g, true, false, GMachine.after_succ_of_ended (hend hn) 0, .refl,
      GMachine.compared_of_empty l u v fill hn⟩
  | succ n ih =>
    intro g hn hap
    have hne : max (g.strand l u).len.toNat (g.strand l v).len.toNat ≠ 0 := by omega
    obtain ⟨hpu, hpv, -, -⟩ := GMachine.passes_passPair l u v hap
    obtain ⟨-, hturn⟩ := g.compareTurn_eq l u v fill
    have hturn := hturn hne
    by_cases h0 : g.charAt fill (g.strand l u) 0 = g.charAt fill (g.strand l v) 0
    · obtain ⟨t, z, c, hafter, hshape, hcompared⟩ := ih _ (by rw [hpu.len, hpv.len]; omega)
        (GMachine.compareApart_passPair l u v hap)
      have ht := hpu.shape.trans hshape
      exact ⟨t, z, c, (GMachine.after_succ_of_goesOn (hturn.trans (if_pos h0)) _).trans hafter, ht,
        GMachine.compared_of_step l u v hap h0 hne ht hcompared⟩
    · exact ⟨_, _, _, GMachine.after_succ_of_ended (hturn.trans (if_neg h0)) _, hpu.shape,
        GMachine.compared_of_first l u v hap hne h0⟩

/-- The comparison is answered, with what it ends with. -/
theorem GMachine.compare_loop {g : GMachine} (fill : Quad) (hap : g.CompareApart l u v) :
    ∃ t z c, g.loop (GMachine.compareTurn l u v fill) = some (t, z, c) ∧ g.Compared l u v fill t z c := by
  obtain ⟨t, z, c, hafter, -, hcompared⟩ := GMachine.compare_ends l u v fill _ g rfl hap
  have hu := g.strand_len_lt_64 l u
  have hv := g.strand_len_lt_64 l v
  exact ⟨t, z, c, g.loop_of_after_len (by omega) hafter, hcompared⟩

/-- Settles O56: the loop ends as `GMachine.compare_ends` says, and a loop has one result. -/
theorem compareStrings : Obligations.CompareStrings := by
  refine ⟨fun l l1 a1 fc l2 a2 s h => ?_, fun l l1 a1 fc l2 a2 s h => ?_, fun g t z c l u v fill => ?_⟩
  · exact (State.onStrings_of_not_ok h : execGCmpc l l1 a1 fc l2 a2 s = _)
  · intro x f y loop
    obtain ⟨hsome, hnone⟩ := State.onStrings_of_ok (loop := loop) (out := fun r => r.1.setZC r.2.1 r.2.2)
      (k := fun g =>
        let x := g.locateString l1 a1
        let f := x.2.readOperand .l8 fc
        let y := f.2.locateString l2 a2
        (y.2.loop (GMachine.compareTurn l x.1 y.1 f.1)).map fun r => r.1.setZC r.2.1 r.2.2) h rfl
    refine ⟨hsome, fun hn => ⟨hnone hn, fun hok => ?_⟩, fun hap => ?_⟩
    · exact GMachine.neverEnds_of_loop _ hok (GMachine.Keeps.compareTurn l x.1 y.1 f.1) hn
    · obtain ⟨t, z, c, hloop, -⟩ := GMachine.compare_loop l x.1 y.1 f.1 hap
      exact ⟨_, hloop, hsome _ hloop⟩
  · intro p q n rest hap hloop
    obtain ⟨t', z', c', hloop', hcompared⟩ := GMachine.compare_loop l u v fill hap
    obtain ⟨rfl, hzc⟩ := Prod.mk.inj (Option.some.inj (hloop'.symm.trans hloop))
    obtain ⟨rfl, rfl⟩ := Prod.mk.inj hzc
    exact hcompared

end Sys2Proof.Machine
end


section
/-!
PROOFS. One turn of the loops of MOVC and MOVTC: what the store of a character and the moves of the locations
leave, and what they change.
-/

namespace Sys2Proof.Machine

variable (g : GMachine) (l : Len) (u v : StringPlace)

/-! ## Characters and single updates -/

/-- A character stored reads back. -/
theorem GMachine.readChar_writeChar_same (a c : Quad) (h : g.fits .l8) :
    (g.writeChar a c).readChar a = Len.l8.trunc c := by
  rw [GMachine.readChar, (g.sameShape_writeChar a c).addr]
  exact g.readData_writeData .l8 _ c h

/-- A character that shares no location with the stored one stays. -/
theorem GMachine.readChar_writeChar_other {a b : Quad} (c : Quad) (h : g.OtherChar a b) :
    (g.writeChar a c).readChar b = g.readChar b := by
  rw [GMachine.readChar, (g.sameShape_writeChar a c).addr]
  exact g.readData_writeData_other .l8 .l8 _ _ c h

/-- An address written leaves the characters apart from it. -/
theorem GMachine.readChar_bumpAddr {a : Quad} (h : g.ApartChar l u a) :
    (g.bumpAddr u).readChar a = g.readChar a := by
  rw [GMachine.readChar, (g.sameShape_bumpAddr u).addr]
  exact g.readPlace_writePlace_other _ _ _ _ _ h.2

/-- A length written leaves the characters apart from it. -/
theorem GMachine.readChar_dropLen {a : Quad} (h : g.ApartChar l u a) :
    (g.dropLen l u).readChar a = g.readChar a := by
  rw [GMachine.readChar, (g.sameShape_dropLen l u).addr]
  exact g.readPlace_writePlace_other _ _ _ _ _ h.1

/-- An address written leaves a string whose locations are apart from it. -/
theorem GMachine.strand_bumpAddr_other (h : g.ApartStrings l u v) :
    (g.bumpAddr u).strand l v = g.strand l v :=
  g.strand_writePlace l v _ _ _ h.2.2.1 h.2.2.2

/-- A length written leaves a string whose locations are apart from it. -/
theorem GMachine.strand_dropLen_other (h : g.ApartStrings l u v) :
    (g.dropLen l u).strand l v = g.strand l v :=
  g.strand_writePlace l v _ _ _ h.1 h.2.1

/-- The characters at two addresses are those at the addresses they are cut to. -/
theorem GMachine.otherChar_congr {a b c d : Quad} (h1 : g.addr a = g.addr c) (h2 : g.addr b = g.addr d) :
    g.OtherChar a b ↔ g.OtherChar c d := by
  simp only [GMachine.OtherChar, h1, h2]

/-! ## One turn -/

/-- A character stored at the destination, and the locations of both strings moved past it. -/
def GMachine.copyStep (c : Quad) : GMachine :=
  ((((g.writeChar (g.strand l v).addr c).bumpAddr u).bumpAddr v).dropLen l u).dropLen l v

/-- A character stored at the destination, and its locations moved past it. -/
def GMachine.fillStep (c : Quad) : GMachine := (g.writeChar (g.strand l v).addr c).stepString l v

/-- A turn of the first loop. -/
theorem GMachine.copyTurn_eq (tr : GMachine → Quad → Quad) : GMachine.copyTurn l u v tr g =
    if min (g.strand l v).len.toNat (g.strand l u).len.toNat = 0 then .ended g
    else .goesOn (g.copyStep l u v (tr g (g.readChar (g.strand l u).addr))) := by
  have hcond : ((g.strand l v).len = 0 || (g.strand l u).len = 0) = true ↔
      min (g.strand l v).len.toNat (g.strand l u).len.toNat = 0 := by
    simp only [Bool.or_eq_true, decide_eq_true_eq, GMachine.strand_len_eq_zero_iff]
    omega
  simp only [← hcond]
  rfl

/-- A turn of the second loop. -/
theorem GMachine.fillTurn_eq (fill : Quad) : GMachine.fillTurn l v fill g =
    if (g.strand l v).len.toNat = 0 then .ended g else .goesOn (g.fillStep l v fill) := by
  simp only [← GMachine.strand_len_eq_zero_iff]
  rfl

/-- What a turn does: the destination advances by a character that is stored, and every character apart from
it and from the locations of the strings stays. -/
structure GMachine.Stores (g : GMachine) (l : Len) (u v : StringPlace) (c : Quad) (h : GMachine) : Prop where
  dest : g.Advances l v h
  stored : g.fits .l8 → h.readChar ((g.strand l v).pos 0) = Len.l8.trunc c
  frame : ∀ a, g.ApartChar l u a → g.ApartChar l v a → g.OtherChar ((g.strand l v).pos 0) a →
    h.readChar a = g.readChar a

variable {g l u v}

/-- The destination has a character whose locations are apart from those of the strings. -/
theorem GMachine.CopyApart.first (hap : g.CopyApart l u v) (hq : (g.strand l v).len.toNat ≠ 0) :
    g.ApartChar l u (g.strand l v).addr ∧ g.ApartChar l v (g.strand l v).addr := by
  obtain ⟨-, -, -, hu, hv⟩ := hap
  have h1 := hu 0 (Nat.pos_of_ne_zero hq)
  have h2 := hv 0 (Nat.pos_of_ne_zero hq)
  rw [BitVec.add_zero] at h1 h2
  exact ⟨h1, h2⟩

/-- The addresses of two strings moved past their first characters. -/
theorem GMachine.strands_bumpAddrs {x : GMachine} (hu : x.HoldsString l u) (hv : x.HoldsString l v)
    (hs : x.ApartStrings l u v) :
    let y := (x.bumpAddr u).bumpAddr v
    x.SameShape y ∧
    y.strand l u = { len := (x.strand l u).len, addr := x.addr ((x.strand l u).addr + 1) } ∧
    y.strand l v = { len := (x.strand l v).len, addr := x.addr ((x.strand l v).addr + 1) } := by
  have s1 := x.sameShape_bumpAddr u
  refine ⟨s1.trans (GMachine.sameShape_bumpAddr _ v), ?_, ?_⟩
  · rw [GMachine.strand_bumpAddr_other _ l v u ((s1.apartStrings l v u).2 hs.symm),
      x.strand_bumpAddr l u hu]
  · rw [GMachine.strand_bumpAddr _ l v ((s1.holdsString l v).2 hv), x.strand_bumpAddr_other l u v hs,
      s1.addr]

/-- The lengths of two strings less their first characters. -/
theorem GMachine.strands_dropLens {x : GMachine} (hu : x.HoldsString l u) (hv : x.HoldsString l v)
    (hs : x.ApartStrings l u v) :
    let y := (x.dropLen l u).dropLen l v
    x.SameShape y ∧
    y.strand l u = { len := l.trunc ((x.strand l u).len - 1), addr := (x.strand l u).addr } ∧
    y.strand l v = { len := l.trunc ((x.strand l v).len - 1), addr := (x.strand l v).addr } := by
  have s1 := x.sameShape_dropLen l u
  refine ⟨s1.trans (GMachine.sameShape_dropLen _ l v), ?_, ?_⟩
  · rw [GMachine.strand_dropLen_other _ l v u ((s1.apartStrings l v u).2 hs.symm),
      x.strand_dropLen l u hu]
  · rw [GMachine.strand_dropLen _ l v ((s1.holdsString l v).2 hv), x.strand_dropLen_other l u v hs]

/-- The moves of the locations leave the characters apart from them. -/
theorem GMachine.readChar_moves {x : GMachine} {a : Quad} (hu : x.ApartChar l u a) (hv : x.ApartChar l v a) :
    ((((x.bumpAddr u).bumpAddr v).dropLen l u).dropLen l v).readChar a = x.readChar a := by
  have s1 := x.sameShape_bumpAddr u
  have s2 := s1.trans (GMachine.sameShape_bumpAddr (x.bumpAddr u) v)
  have s3 := s2.trans (GMachine.sameShape_dropLen ((x.bumpAddr u).bumpAddr v) l u)
  rw [GMachine.readChar_dropLen _ l v ((s3.apartChar l v a).2 hv),
    GMachine.readChar_dropLen _ l u ((s2.apartChar l u a).2 hu),
    GMachine.readChar_bumpAddr _ l v ((s1.apartChar l v a).2 hv), x.readChar_bumpAddr l u hu]

/-- A turn of the first loop. -/
theorem GMachine.stores_copyStep (hap : g.CopyApart l u v) (hp : (g.strand l u).len ≠ 0)
    (hq : (g.strand l v).len ≠ 0) (c : Quad) :
    g.Advances l u (g.copyStep l u v c) ∧ g.Stores l u v c (g.copyStep l u v c) := by
  obtain ⟨hcu, hcv⟩ := hap.first ((g.strand_len_eq_zero_iff l v).not.1 hq)
  obtain ⟨hu, hv, hstrings, -, -⟩ := hap
  have s1 := g.sameShape_writeChar (g.strand l v).addr c
  have e1u := g.strand_writeChar l u (g.strand l v).addr c hcu
  have e1v := g.strand_writeChar l v (g.strand l v).addr c hcv
  obtain ⟨s2, e2u, e2v⟩ := GMachine.strands_bumpAddrs ((s1.holdsString l u).2 hu)
    ((s1.holdsString l v).2 hv) ((s1.apartStrings l u v).2 hstrings)
  have s12 := s1.trans s2
  obtain ⟨s3, e3u, e3v⟩ := GMachine.strands_dropLens ((s12.holdsString l u).2 hu)
    ((s12.holdsString l v).2 hv) ((s12.apartStrings l u v).2 hstrings)
  have hshape : g.SameShape (g.copyStep l u v c) := s12.trans s3
  have hmoves (a : Quad) (h1 : g.ApartChar l u a) (h2 : g.ApartChar l v a) :
      (g.copyStep l u v c).readChar a = (g.writeChar (g.strand l v).addr c).readChar a :=
    GMachine.readChar_moves ((s1.apartChar l u a).2 h1) ((s1.apartChar l v a).2 h2)
  rw [e2u, e1u, s1.addr] at e3u
  rw [e2v, e1v, s1.addr] at e3v
  refine ⟨⟨hshape, ?_, congrArg Strand.addr e3u⟩, ⟨hshape, ?_, congrArg Strand.addr e3v⟩, fun hfit => ?_,
    fun a h1 h2 hother => ?_⟩
  · exact (congrArg (fun p => p.len.toNat) e3u).trans (g.toNat_len_pred l u hp)
  · exact (congrArg (fun p => p.len.toNat) e3v).trans (g.toNat_len_pred l v hq)
  · rw [Strand.pos_zero]
    exact (hmoves _ hcu hcv).trans (g.readChar_writeChar_same _ c hfit)
  · rw [Strand.pos_zero] at hother
    exact (hmoves a h1 h2).trans (g.readChar_writeChar_other c hother)

/-- A turn of the second loop; the source is not moved. -/
theorem GMachine.stores_fillStep (hap : g.CopyApart l u v) (hq : (g.strand l v).len ≠ 0) (c : Quad) :
    (g.fillStep l v c).strand l u = g.strand l u ∧ g.Stores l u v c (g.fillStep l v c) := by
  obtain ⟨hcu, hcv⟩ := hap.first ((g.strand_len_eq_zero_iff l v).not.1 hq)
  obtain ⟨-, hv, hstrings, -, -⟩ := hap
  have s1 := g.sameShape_writeChar (g.strand l v).addr c
  have e1u := g.strand_writeChar l u (g.strand l v).addr c hcu
  have e1v := g.strand_writeChar l v (g.strand l v).addr c hcv
  have e2u := GMachine.strand_stepString_other _ l v u ((s1.apartStrings l v u).2 hstrings.symm)
  have hadv := GMachine.advances_stepString _ l v ((s1.holdsString l v).2 hv) (by rwa [e1v])
  obtain ⟨s2, hlen, haddr⟩ := hadv
  rw [e1v] at hlen haddr
  rw [s1.addr] at haddr
  have hmoves (a : Quad) (h2 : g.ApartChar l v a) :
      (g.fillStep l v c).readChar a = (g.writeChar (g.strand l v).addr c).readChar a :=
    GMachine.readChar_stepString _ l v a ((s1.apartChar l v a).2 h2)
  refine ⟨e2u.trans e1u, ⟨s1.trans s2, hlen, haddr⟩, fun hfit => ?_, fun a _ h2 hother => ?_⟩
  · rw [Strand.pos_zero]
    exact (hmoves _ hcv).trans (g.readChar_writeChar_same _ c hfit)
  · rw [Strand.pos_zero] at hother
    exact (hmoves a h2).trans (g.readChar_writeChar_other c hother)

end Sys2Proof.Machine
end


section
/-!
PROOFS. The two loops of MOVC and MOVTC: they end, with what the locations and the destination hold, by
induction on the characters that are left to copy and to fill.
-/

namespace Sys2Proof.Machine

variable {g h t : GMachine} {l : Len} {u v : StringPlace} {c : Quad}

/-- After a turn the locations are still apart. -/
theorem GMachine.Stores.copyApart (hs : g.Stores l u v c h) (hap : g.CopyApart l u v)
    (hq : (g.strand l v).len.toNat ≠ 0) : h.CopyApart l u v := by
  obtain ⟨hu, hv, hstrings, hcu, hcv⟩ := hap
  have hshape := hs.dest.shape
  have hn : (h.strand l v).len.toNat + 1 = (g.strand l v).len.toNat := by
    rw [hs.dest.len]
    omega
  rw [← hn] at hcu hcv
  exact ⟨(hshape.holdsString l u).2 hu, (hshape.holdsString l v).2 hv,
    (hshape.apartStrings l u v).2 hstrings, hs.dest.clearOf hcu, hs.dest.clearOf hcv⟩

/-- Every character apart from the locations and from the destination is the same. -/
def GMachine.KeepsOthers (g : GMachine) (l : Len) (u v : StringPlace) (t : GMachine) : Prop :=
  ∀ a, g.ApartChar l u a → g.ApartChar l v a →
    (∀ i < (g.strand l v).len.toNat, g.OtherChar ((g.strand l v).pos i) a) → t.readChar a = g.readChar a

/-- A position of what is left of a string, against any other address. -/
theorem GMachine.Advances.otherChar {w : StringPlace} (a : g.Advances l w h) (i : Nat) (b : Quad) :
    h.OtherChar ((h.strand l w).pos i) b ↔ g.OtherChar ((g.strand l w).pos (i + 1)) b :=
  (a.shape.otherChar _ _).trans (g.otherChar_congr (a.addr_pos i) rfl)

/-- The characters a turn and what follows it leave. -/
theorem GMachine.Stores.keepsOthers (hs : g.Stores l u v c h) (hq : (g.strand l v).len.toNat ≠ 0)
    (ht : h.KeepsOthers l u v t) : g.KeepsOthers l u v t := by
  intro a h1 h2 hother
  have hshape := hs.dest.shape
  have hlen := hs.dest.len
  refine (ht a ((hshape.apartChar l u a).2 h1) ((hshape.apartChar l v a).2 h2) fun i hi => ?_).trans
    (hs.frame a h1 h2 (hother 0 (by omega)))
  exact (hs.dest.otherChar i a).2 (hother (i + 1) (by omega))

/-- The character a turn stores is there at the end. -/
theorem GMachine.Stores.readChar_first (hs : g.Stores l u v c h) (hap : g.CopyApart l u v)
    (hq : (g.strand l v).len.toNat ≠ 0) (ht : h.KeepsOthers l u v t) (hfit : g.fits .l8)
    (hother : ∀ i, i + 1 < (g.strand l v).len.toNat →
      g.OtherChar ((g.strand l v).pos (i + 1)) ((g.strand l v).pos 0)) :
    t.readChar ((g.strand l v).pos 0) = h.readChar ((g.strand l v).pos 0) ∧
    t.readChar ((g.strand l v).pos 0) = Len.l8.trunc c := by
  obtain ⟨hcu, hcv⟩ := hap.first hq
  have hshape := hs.dest.shape
  have hlen := hs.dest.len
  have hkeep : t.readChar ((g.strand l v).pos 0) = h.readChar ((g.strand l v).pos 0) := by
    rw [Strand.pos_zero]
    refine ht _ ((hshape.apartChar l u _).2 hcu) ((hshape.apartChar l v _).2 hcv) fun i hi => ?_
    have ho := (hs.dest.otherChar i _).2 (hother i (by omega))
    rwa [Strand.pos_zero] at ho
  exact ⟨hkeep, hkeep.trans (hs.stored hfit)⟩

/-- What the characters of a copy need: they share locations with each other, with the locations of the strings
and with the table only as the statement admits. -/
structure GMachine.CopySeparate (g : GMachine) (l : Len) (u v : StringPlace) (table : Option Quad) : Prop where
  fits : g.fits .l8
  source_u : g.ClearOf l u (g.strand l u).addr (min (g.strand l v).len.toNat (g.strand l u).len.toNat)
  source_v : g.ClearOf l v (g.strand l u).addr (min (g.strand l v).len.toNat (g.strand l u).len.toNat)
  dest : ∀ i j, i < (g.strand l v).len.toNat → j < (g.strand l v).len.toNat → i ≠ j →
    g.OtherChar ((g.strand l v).pos i) ((g.strand l v).pos j)
  overlap : ∀ i j, i < (g.strand l v).len.toNat →
    j < min (g.strand l v).len.toNat (g.strand l u).len.toNat →
    g.addr ((g.strand l v).pos i) = g.addr ((g.strand l u).pos j) ∨
      g.OtherChar ((g.strand l v).pos i) ((g.strand l u).pos j)
  table : ∀ a, InTable table a → g.ApartChar l u a ∧ g.ApartChar l v a ∧
    ∀ i < (g.strand l v).len.toNat, g.OtherChar ((g.strand l v).pos i) a

/-- The machine a source character is read from: the one at the end where an earlier character was stored over
it (46_string.md R288). -/
def GMachine.copySource (g : GMachine) (l : Len) (u v : StringPlace) (t : GMachine) (i : Nat) : GMachine :=
  if ∃ j < i, g.addr ((g.strand l v).pos j) = g.addr ((g.strand l u).pos i) then t else g

/-- What the two loops end with. -/
structure GMachine.Copied (g : GMachine) (l : Len) (u v : StringPlace) (table : Option Quad) (fill : Quad)
    (t : GMachine) : Prop where
  shape : g.SameShape t
  source : t.Describes l u ((g.strand l u).len.toNat - (g.strand l v).len.toNat)
    ((g.strand l u).pos (min (g.strand l v).len.toNat (g.strand l u).len.toNat))
  dest : t.Describes l v 0 ((g.strand l v).pos (g.strand l v).len.toNat)
  others : g.KeepsOthers l u v t
  chars : g.CopySeparate l u v table → ∀ i < (g.strand l v).len.toNat,
    t.readChar ((g.strand l v).pos i) =
      if i < min (g.strand l v).len.toNat (g.strand l u).len.toNat then
        Len.l8.trunc (translated table g ((g.copySource l u v t i).readChar ((g.strand l u).pos i)))
      else Len.l8.trunc fill

variable {table : Option Quad} {fill : Quad}

/-- Nothing to copy and nothing to fill. -/
theorem GMachine.copied_of_empty (hq : (g.strand l v).len.toNat = 0) : g.Copied l u v table fill g := by
  refine ⟨.refl, ?_, ?_, fun _ _ _ _ => rfl, fun _ i hi => absurd hi (by omega)⟩
  · rw [hq, Nat.zero_min]
    exact g.describes_strand l u rfl
  · rw [hq]
    exact g.describes_strand l v hq

/-- After a turn what is left is still separate, if the source is. -/
theorem GMachine.Stores.copySeparate (hs : g.Stores l u v c h)
    (hsep : g.CopySeparate l u v table)
    (hu : h.ClearOf l u (h.strand l u).addr (min (h.strand l v).len.toNat (h.strand l u).len.toNat))
    (hv : h.ClearOf l v (h.strand l u).addr (min (h.strand l v).len.toNat (h.strand l u).len.toNat))
    (hover : ∀ i j, i < (h.strand l v).len.toNat →
      j < min (h.strand l v).len.toNat (h.strand l u).len.toNat →
      h.addr ((h.strand l v).pos i) = h.addr ((h.strand l u).pos j) ∨
        h.OtherChar ((h.strand l v).pos i) ((h.strand l u).pos j)) : h.CopySeparate l u v table := by
  have hshape := hs.dest.shape
  have hlen := hs.dest.len
  refine ⟨(hshape.fits .l8).2 hsep.fits, hu, hv, fun i j hi hj hij => ?_, hover, fun a ha => ?_⟩
  · rw [hs.dest.otherChar, GMachine.otherChar_congr g rfl (hs.dest.addr_pos j)]
    exact hsep.dest _ _ (by omega) (by omega) (by omega)
  · obtain ⟨h1, h2, h3⟩ := hsep.table a ha
    exact ⟨(hshape.apartChar l u a).2 h1, (hshape.apartChar l v a).2 h2, fun i hi =>
      (hs.dest.otherChar i a).2 (h3 _ (by omega))⟩

/-- The second loop: a turn before what is left to fill. -/
theorem GMachine.copied_of_fillStep (hap : g.CopyApart l u v) (hp : (g.strand l u).len.toNat = 0)
    (hq : (g.strand l v).len.toNat ≠ 0) (ht : (g.fillStep l v fill).Copied l u v table fill t) :
    g.Copied l u v table fill t := by
  obtain ⟨hsame, hs⟩ := GMachine.stores_fillStep hap ((g.strand_len_eq_zero_iff l v).not.2 hq) fill
  obtain ⟨hshape, hsource, hdest, hothers, hchars⟩ := ht
  have hlen := hs.dest.len
  have hgt := hs.dest.shape.trans hshape
  have hnone (n : Nat) : min n ((g.fillStep l v fill).strand l u).len.toNat = 0 := by
    rw [hsame, hp, Nat.min_zero]
  refine ⟨hgt, ?_, ?_, hs.keepsOthers hq hothers, fun hsep i hi => ?_⟩
  · rw [hnone, hsame, hp, Nat.zero_sub] at hsource
    rwa [hp, Nat.zero_sub, Nat.min_zero]
  · have hd := hs.dest.describes hgt hdest
    rwa [hlen, Nat.sub_add_cancel (Nat.one_le_iff_ne_zero.2 hq)] at hd
  · rw [hp, Nat.min_zero, if_neg (Nat.not_lt_zero i)]
    cases i with
    | zero =>
      exact (hs.readChar_first hap hq hothers hsep.fits fun i hi =>
        hsep.dest _ _ hi (by omega) (by omega)).2
    | succ i =>
      have hnext := hchars (hs.copySeparate hsep (fun k hk => absurd hk (by rw [hnone]; omega))
        (fun k hk => absurd hk (by rw [hnone]; omega)) fun k j _ hj => absurd hj (by rw [hnone]; omega))
        i (by omega)
      rwa [hnone, if_neg (Nat.not_lt_zero i), hs.dest.readChar_pos hgt i] at hnext

/-- A character is one of the 256. -/
theorem GMachine.readChar_lt (g : GMachine) (a : Quad) : (g.readChar a).toNat < 256 :=
  Len.toNat_trunc_lt .l8 _

/-- A turn leaves the table, and so what a character is translated to. -/
theorem GMachine.Stores.translated_eq (hs : g.Stores l u v c h) (hq : (g.strand l v).len.toNat ≠ 0)
    (hsep : g.CopySeparate l u v table) {d : Quad} (hd : d.toNat < 256) :
    translated table h d = translated table g d := by
  cases table with
  | none => rfl
  | some a =>
    obtain ⟨h1, h2, h3⟩ := hsep.table (a + d) ⟨a, d, rfl, hd, rfl⟩
    exact hs.frame _ h1 h2 (h3 0 (by omega))

/-- A source character of what is left is the next one of the source: stored over by a later turn, by this
one, or by none. -/
theorem GMachine.Stores.readChar_copySource (hs : g.Stores l u v c h) (hadv : g.Advances l u h)
    (hgt : g.SameShape t) {i : Nat}
    (hkept : t.readChar ((g.strand l v).pos 0) = h.readChar ((g.strand l v).pos 0))
    (hu : g.ApartChar l u ((g.strand l u).pos (i + 1))) (hv : g.ApartChar l v ((g.strand l u).pos (i + 1)))
    (hover : g.addr ((g.strand l v).pos 0) = g.addr ((g.strand l u).pos (i + 1)) ∨
      g.OtherChar ((g.strand l v).pos 0) ((g.strand l u).pos (i + 1))) :
    (h.copySource l u v t i).readChar ((h.strand l u).pos i) =
      (g.copySource l u v t (i + 1)).readChar ((g.strand l u).pos (i + 1)) := by
  have hlater : (∃ j < i, h.addr ((h.strand l v).pos j) = h.addr ((h.strand l u).pos i)) ↔
      ∃ j < i, g.addr ((g.strand l v).pos (j + 1)) = g.addr ((g.strand l u).pos (i + 1)) := by
    simp only [hs.dest.shape.addr, hs.dest.addr_pos, hadv.addr_pos]
  by_cases hj : ∃ j < i, g.addr ((g.strand l v).pos (j + 1)) = g.addr ((g.strand l u).pos (i + 1))
  · have hsource : g.copySource l u v t (i + 1) = t := by
      obtain ⟨j, hj, he⟩ := hj
      exact if_pos ⟨j + 1, by omega, he⟩
    rw [hsource, GMachine.copySource, if_pos (hlater.2 hj)]
    exact hadv.readChar_pos hgt i
  · rw [GMachine.copySource, if_neg (hlater.not.2 hj), hadv.readChar_pos hs.dest.shape]
    by_cases h0 : g.addr ((g.strand l v).pos 0) = g.addr ((g.strand l u).pos (i + 1))
    · have hsource : g.copySource l u v t (i + 1) = t := if_pos ⟨0, by omega, h0⟩
      rw [hsource, ← hs.dest.shape.readChar_congr h0, ← hkept]
      exact hgt.readChar_congr h0
    · have hsource : g.copySource l u v t (i + 1) = g := if_neg fun ⟨j, hji, he⟩ => by
        cases j with
        | zero => exact h0 he
        | succ j => exact hj ⟨j, by omega, he⟩
      rw [hsource]
      exact hs.frame _ hu hv (hover.resolve_left h0)

/-- The first loop: a turn before what is left to copy. -/
theorem GMachine.copied_of_copyStep (hap : g.CopyApart l u v) (hp : (g.strand l u).len.toNat ≠ 0)
    (hq : (g.strand l v).len.toNat ≠ 0)
    (ht : (g.copyStep l u v (translated table g (g.readChar (g.strand l u).addr))).Copied l u v table fill t) :
    g.Copied l u v table fill t := by
  generalize hc : translated table g (g.readChar (g.strand l u).addr) = c at ht
  obtain ⟨hadv, hs⟩ := GMachine.stores_copyStep hap ((g.strand_len_eq_zero_iff l u).not.2 hp)
    ((g.strand_len_eq_zero_iff l v).not.2 hq) c
  generalize g.copyStep l u v c = h at ht hadv hs
  obtain ⟨hshape, hsource, hdest, hothers, hchars⟩ := ht
  have hlenv := hs.dest.len
  have hlenu := hadv.len
  have hgt := hs.dest.shape.trans hshape
  have hmin : min (h.strand l v).len.toNat (h.strand l u).len.toNat + 1 =
      min (g.strand l v).len.toNat (g.strand l u).len.toNat := by omega
  refine ⟨hgt, ?_, ?_, hs.keepsOthers hq hothers, fun hsep i hi => ?_⟩
  · have hd := hadv.describes hgt hsource
    rwa [hmin, hlenv, hlenu, show (g.strand l u).len.toNat - 1 - ((g.strand l v).len.toNat - 1) =
      (g.strand l u).len.toNat - (g.strand l v).len.toNat by omega] at hd
  · have hd := hs.dest.describes hgt hdest
    rwa [hlenv, Nat.sub_add_cancel (Nat.one_le_iff_ne_zero.2 hq)] at hd
  · obtain ⟨hkept, hstored⟩ := hs.readChar_first hap hq hothers hsep.fits fun i hi =>
      hsep.dest _ _ hi (by omega) (by omega)
    cases i with
    | zero =>
      have hfirst : g.copySource l u v t 0 = g := if_neg fun ⟨j, hj, _⟩ => absurd hj (Nat.not_lt_zero j)
      rw [if_pos (by omega), hfirst, hstored, Strand.pos_zero, hc]
    | succ i =>
      have hsep' : h.CopySeparate l u v table := by
        have hcu := hsep.source_u
        have hcv := hsep.source_v
        rw [← hmin] at hcu hcv
        refine hs.copySeparate hsep (hadv.clearOf hcu) (hadv.clearOf hcv) fun k j hk hj => ?_
        rw [hs.dest.shape.addr, hs.dest.shape.addr, hs.dest.addr_pos, hadv.addr_pos, hs.dest.otherChar,
          GMachine.otherChar_congr g rfl (hadv.addr_pos j)]
        exact hsep.overlap _ _ (by omega) (by omega)
      have hnext := hchars hsep' i (by omega)
      rw [hs.dest.readChar_pos hgt i] at hnext
      rw [hnext]
      by_cases him : i < min (h.strand l v).len.toNat (h.strand l u).len.toNat
      · rw [if_pos him, if_pos (by omega)]
        rw [hs.translated_eq hq hsep (GMachine.readChar_lt _ _),
          hs.readChar_copySource hadv hgt hkept (hsep.source_u (i + 1) (by omega))
            (hsep.source_v (i + 1) (by omega)) (hsep.overlap 0 (i + 1) (by omega) (by omega))]
      · rw [if_neg him, if_neg (by omega)]

/-! ## The loops end -/

/-- The second loop has ended after a turn for each character that is left of the destination and one more. -/
theorem GMachine.fill_ends (table : Option Quad) (fill : Quad) (n : Nat) :
    ∀ g : GMachine, (g.strand l v).len.toNat = n →
      min (g.strand l v).len.toNat (g.strand l u).len.toNat = 0 → g.CopyApart l u v →
      ∃ t, GMachine.after (GMachine.fillTurn l v fill) (n + 1) g = .ended t ∧
        g.Copied l u v table fill t := by
  induction n with
  | zero =>
    intro g hn _ _
    have hturn := g.fillTurn_eq l v fill
    rw [if_pos hn] at hturn
    exact ⟨g, GMachine.after_succ_of_ended hturn 0, GMachine.copied_of_empty hn⟩
  | succ n ih =>
    intro g hn hmin hap
    have hq : (g.strand l v).len.toNat ≠ 0 := by omega
    have hp : (g.strand l u).len.toNat = 0 := by omega
    have hturn := g.fillTurn_eq l v fill
    rw [if_neg hq] at hturn
    obtain ⟨hsame, hs⟩ := GMachine.stores_fillStep hap ((g.strand_len_eq_zero_iff l v).not.2 hq) fill
    obtain ⟨t, hafter, hcopied⟩ := ih _ (by rw [hs.dest.len, hn]; rfl)
      (by rw [hsame, hp, Nat.min_zero]) (hs.copyApart hap hq)
    exact ⟨t, (GMachine.after_succ_of_goesOn hturn _).trans hafter,
      GMachine.copied_of_fillStep hap hp hq hcopied⟩

/-- The first loop has ended after a turn for each character to copy and one more, and then the second one
ends. -/
theorem GMachine.copy_ends (table : Option Quad) (fill : Quad) (k : Nat) :
    ∀ g : GMachine, min (g.strand l v).len.toNat (g.strand l u).len.toNat = k → g.CopyApart l u v →
      ∃ h t n, n < 2 ^ 64 ∧
        GMachine.after (GMachine.copyTurn l u v (translated table)) (k + 1) g = .ended h ∧
        GMachine.after (GMachine.fillTurn l v fill) (n + 1) h = .ended t ∧
        g.Copied l u v table fill t := by
  induction k with
  | zero =>
    intro g hk hap
    have hturn := g.copyTurn_eq l u v (translated table)
    rw [if_pos hk] at hturn
    obtain ⟨t, hafter, hcopied⟩ := GMachine.fill_ends table fill _ g rfl hk hap
    exact ⟨g, t, _, g.strand_len_lt_64 l v, GMachine.after_succ_of_ended hturn 0, hafter, hcopied⟩
  | succ k ih =>
    intro g hk hap
    have hp : (g.strand l u).len.toNat ≠ 0 := by omega
    have hq : (g.strand l v).len.toNat ≠ 0 := by omega
    have hturn := g.copyTurn_eq l u v (translated table)
    rw [if_neg (by omega)] at hturn
    obtain ⟨hadv, hs⟩ := GMachine.stores_copyStep hap ((g.strand_len_eq_zero_iff l u).not.2 hp)
      ((g.strand_len_eq_zero_iff l v).not.2 hq) (translated table g (g.readChar (g.strand l u).addr))
    obtain ⟨h, t, n, hn, hcopy, hfill, hcopied⟩ := ih _ (by rw [hs.dest.len, hadv.len]; omega)
      (hs.copyApart hap hq)
    exact ⟨h, t, n, hn, (GMachine.after_succ_of_goesOn hturn _).trans hcopy, hfill,
      GMachine.copied_of_copyStep hap hp hq hcopied⟩

/-- The two loops are answered where the locations are apart. -/
theorem GMachine.copyLoops_of_apart (hap : g.CopyApart l u v) (table : Option Quad) (fill : Quad) :
    ∃ t, g.copyLoops l u v (translated table) fill = some t ∧ g.Copied l u v table fill t := by
  obtain ⟨h, t, n, hn, hcopy, hfill, hcopied⟩ := GMachine.copy_ends table fill _ g rfl hap
  have hk : min (g.strand l v).len.toNat (g.strand l u).len.toNat < 2 ^ 64 :=
    Nat.lt_of_le_of_lt (Nat.min_le_left _ _) (g.strand_len_lt_64 l v)
  refine ⟨t, ?_, hcopied⟩
  rw [GMachine.copyLoops, g.loop_of_after_len hk hcopy]
  exact h.loop_of_after_len hn hfill

/-- Settles O55: the loops end as `GMachine.copy_ends` says, and they have one result. -/
theorem copyMovesCharacters : Obligations.CopyMovesCharacters := by
  intro g t l u v table fill p q n m d c hap hloops
  obtain ⟨t', hloops', -, hsource, hdest, -, hchars⟩ := GMachine.copyLoops_of_apart hap table fill
  obtain rfl := Option.some.inj (hloops'.symm.trans hloops)
  exact ⟨⟨hsource, hdest⟩, fun h1 h2 h3 h4 h5 h6 => hchars ⟨h1, h2, h3, h4, h5, h6⟩⟩

/-! ## MOVC and MOVTC -/

/-- A copy that is not answered: one of its loops never ends. -/
theorem GMachine.neverEnds_of_copyLoops {tr : GMachine → Quad → Quad} (hok : g.ok = true)
    (hn : g.copyLoops l u v tr fill = none) :
    g.NeverEnds (GMachine.copyTurn l u v tr) ∨
      ∃ h, g.loop (GMachine.copyTurn l u v tr) = some h ∧ h.NeverEnds (GMachine.fillTurn l v fill) := by
  cases hloop : g.loop (GMachine.copyTurn l u v tr) with
  | none => exact .inl (GMachine.neverEnds_of_loop _ hok (GMachine.Keeps.copyTurn l u v tr) hloop)
  | some h =>
    rw [GMachine.copyLoops, hloop] at hn
    have hokh : h.ok = true := (GMachine.Evolves.copyLoop g hloop).ok hok
    exact .inr ⟨h, rfl, GMachine.neverEnds_of_loop _ hokh (GMachine.Keeps.fillTurn l v fill) hn⟩

/-- MOVC and MOVTC with legal operands, by their loops. -/
theorem State.copies_of_ok {s : State} {srcs dsts : List GOperand} {k : GMachine → Option GMachine}
    (h : s.g.operandsOk srcs dsts = true) (hk : k s.g = g.copyString l u v fill (translated table)) :
    let p := g.strand l u
    let q := g.strand l v
    let loop := g.copyLoops l u v (translated table) fill
    (∀ t, loop = some t → s.onStrings srcs dsts k = .next { s with
      g := t.setZC (decide (p.len = q.len)) (decide (p.len.toNat < q.len.toNat)) }) ∧
    (loop = none → s.onStrings srcs dsts k = .refused .stringNeverEnds ∧ (g.ok = true →
      g.NeverEnds (GMachine.copyTurn l u v (translated table)) ∨
      ∃ h, g.loop (GMachine.copyTurn l u v (translated table)) = some h ∧
        h.NeverEnds (GMachine.fillTurn l v fill))) ∧
    (g.CopyApart l u v → ∃ t, loop = some t ∧ s.onStrings srcs dsts k = .next { s with
      g := t.setZC (decide (p.len = q.len)) (decide (p.len.toNat < q.len.toNat)) }) := by
  intro p q loop
  obtain ⟨hsome, hnone⟩ := State.onStrings_of_ok (k := k) (loop := loop) (out := fun t =>
    t.setZC (decide (p.len = q.len)) (decide (p.len.toNat < q.len.toNat))) h (by
      rw [hk, ← beq_eq_decide]
      rfl)
  refine ⟨hsome, fun hn => ⟨hnone hn, fun hok => GMachine.neverEnds_of_copyLoops hok hn⟩, fun hap => ?_⟩
  obtain ⟨t, ht, -⟩ := GMachine.copyLoops_of_apart hap table fill
  exact ⟨t, ht, hsome t ht⟩

/-- Settles O54. -/
theorem moveStringsComplete : Obligations.MoveStringsComplete := by
  intro l sl sa fc tb dl da s copies
  refine ⟨fun h => ?_, fun h => ?_, fun h => ?_, fun h => ?_⟩
  · intro x f y
    exact State.copies_of_ok (k := fun g =>
      let x := g.locateString sl sa
      let f := x.2.readOperand .l8 fc
      let y := f.2.locateString dl da
      y.2.copyString l x.1 y.1 f.1 fun _ c => c)
      (l := l) (g := y.2) (u := x.1) (v := y.1) (table := none) (fill := f.1) h rfl
  · intro x f t y
    exact State.copies_of_ok (k := fun g =>
      let x := g.locateString sl sa
      let f := x.2.readOperand .l8 fc
      let t := f.2.readOperand g.cfg.aw tb
      let y := t.2.locateString dl da
      y.2.copyString l x.1 y.1 f.1 fun g c => g.readChar (t.1 + c))
      (l := l) (g := y.2) (u := x.1) (v := y.1) (table := some t.1) (fill := f.1) h rfl
  · exact (State.onStrings_of_not_ok h : execGMovc l sl sa fc dl da s = _)
  · exact (State.onStrings_of_not_ok h : execGMovtc l sl sa fc tb dl da s = _)

end Sys2Proof.Machine
end
